-- ==== Sys2Proof/Word.lean ====
section
/-!
DEFINITION. The widths of NP033-CORE: bytes, 32-bit words (`SIZE_W` = `ACC_W` = 32, 00_scope.md section 4)
and the 96-bit command word (30_encoding.md R60).
-/
namespace Sys2Proof

/-- One byte of the input or of the output (20_memory.md R49). -/
abbrev Byte := BitVec 8

/-- A 32-bit operand, size, offset, cursor or result (`SIZE_W`, decision D10). -/
abbrev Word := BitVec 32

/-- A command word, presented whole; bit 95 is the most significant (30_encoding.md R60). -/
abbrev Command := BitVec 96

end Sys2Proof
end

