-- ==== Sys2Proof/Syntax.lean ====
section
/-!
DEFINITION. The 35 commands of NP033-CORE, one constructor for each row of spec/opcode_table.json
(30_encoding.md section 3), with the operands at the widths their fields have in the command word.
-/
namespace Sys2Proof

/-- `ORDER` of a reader or a table (10_state.md R21, R25): 0 = MSB-first, 1 = LSB-first. -/
inductive BitOrder where
  | msbFirst
  | lsbFirst
deriving DecidableEq, Repr, Inhabited

/-- `DIR` of a reader or of the output (10_state.md R21, R28): 0 = forward, 1 = backward. -/
inductive Direction where
  | forward
  | backward
deriving DecidableEq, Repr, Inhabited

/-- `WEND`, the byte order of a 16- or 32-bit refill word (10_state.md R21): 0 = big-endian, 1 = little-endian. -/
inductive ByteOrder where
  | bigEndian
  | littleEndian
deriving DecidableEq, Repr, Inhabited

/-- A decoded command. Operands are unsigned and unscaled (30_encoding.md R62). -/
inductive Instr where
  | reset
  | status
  | bufSize
  | bufRd8 (off : Word)
  | bufRdbe16 (off : Word)
  | bufRdbe32 (off : Word)
  | bufRdle16 (off : Word)
  | bufRdle32 (off : Word)
  | bufGetdata (off len : Word)
  | bufSlrd8 (i : Word)
  | ovfSum (chain : Bool) (a b : Word)
  | brInit (order : BitOrder) (dir : Direction) (rw : BitVec 2) (wend : ByteOrder) (rot : Bool) (lo hi : Word)
  | brReset (live : BitVec 6) (value : Word)
  | brAnchor (word : Word)
  | brRead (count : BitVec 6)
  | rotb (count : BitVec 6) (value : Word)
  | hufSetlen (index : BitVec 16) (len : BitVec 6)
  | hufSettri (index : BitVec 16) (length : BitVec 6) (code : Word) (value : BitVec 16)
  | hufMake (t : Byte) (incompleteOk : Bool) (tableWidth : BitVec 5) (numSymbols : Word)
  | hufFixed (t : Byte) (incompleteOk : Bool) (tableWidth : BitVec 5) (numTriples : Word)
  | hufAdapt (t : Byte)
  | hufDecode (t : Byte)
  | vlcSet (index : Byte) (bits : BitVec 6) (base : Word)
  | vlcSetn (n : Byte)
  | vlcDecode (index : Word)
  | outInit (dir : Direction) (rawSize window : Word)
  | outWritebyte (b : Byte)
  | outCopy (distance count : Word)
  | outEof
  | outRd8 (index : Word)
  | decCreate (fmt : Byte) (declared : Word)
  | decGetrawsize
  | decDecompress
  | decNextchunk
  | dispDetect
deriving DecidableEq, Repr, Inhabited

end Sys2Proof
end

