-- ==== Sys2Proof/Config.lean ====
section
/-!
DEFINITION. The implementation parameters of 00_scope.md section 4: the capacities the spec decides, and the
open ones as constants with no body. The open parameters that are plain data (the limits, `OUT_FILL`,
`CHECK_RAW_AGAINST_BUFFER`, which descriptors are held) are fields of `Machine.Setup`; the format descriptors,
which speak of the instance, are in Machine/Formats.lean and the files it imports.
-/
namespace Sys2Proof

/-- Huffman tables per instance (`NUM_TABLES`, decision D15). -/
abbrev Config.numTables : Nat := 8

/-- Entries of the length RAM `LEN` (`MAX_SYMS`, decision D15). -/
abbrev Config.maxSyms : Nat := 1024

/-- Entries of the triple RAM `TRI` (`MAX_TRI`, decision D15). -/
abbrev Config.maxTri : Nat := 1024

/-- Entries of one table's entry array (`TBL_CAP`, decision D15). -/
abbrev Config.tblCap : Nat := 65536

/-- Longest code length accepted (`HUF_MAXLEN`, decision D39). -/
abbrev Config.hufMaxlen : Nat := 32

/-- Largest primary table width accepted (`HUF_MAXW`, decision D39). -/
abbrev Config.hufMaxw : Nat := 16

/-- Entries of the VLC base and bit-count arrays (`VLC_MAX`, decision D22). -/
abbrev Config.vlcMax : Nat := 64

/-- Entries of `CTRL` (10_state.md R32, decision D28). -/
abbrev Config.ctrlWords : Nat := 64

/-- The largest value of a size: `2^SIZE_W - 1` (decision D10). -/
abbrev Config.sizeMax : Nat := 4294967295

/-- The shape of an adaptive table (42_huffman.md R147). The spec does not say what a shape is: a list of numbers
can spell any finite one. DESIGN CHOICE, log entry 15, safe. -/
abbrev AdaptShape := List Nat

/-- `ADAPT.init`: the default shape (42_huffman.md R147, decision D21: OPEN). Log entry 15. -/
opaque Config.adaptInit : AdaptShape

/-- `ADAPT.decode`: what the shape says of the bits read so far, first bit first: a symbol, or `none` when the next
bit is wanted (42_huffman.md R147, decision D21: OPEN). R147 gives a symbol no width: 32 bits, the width of `RES`, which
the symbol is returned in, are the model's choice (DESIGN CHOICE). Log entry 15. -/
opaque Config.adaptDecode : AdaptShape → List Bool → Option Word

/-- `ADAPT.update`: the reshaping after one decoded symbol, of the width `ADAPT.decode` gives it (42_huffman.md R147,
decision D21: OPEN). Log entry 15. -/
opaque Config.adaptUpdate : AdaptShape → Word → AdaptShape

/-- The total frequency of a shape, which R147 compares with a cap (OPEN). Log entry 15. -/
opaque Config.adaptTotal : AdaptShape → Nat

/-- The cap of R147, "while total frequency stays below a cap" (OPEN). Log entry 15. -/
opaque Config.adaptCap : Nat

/-- The `ORDER` of a table that `HUF.ADAPT` makes valid when no order was ever stored in it: R147 writes `MODE`,
`VALID` and the shape only, and 10_state.md R25 gives the field no value. A free value, log entry 16. -/
opaque Config.freeTableOrder : Nat → BitOrder

end Sys2Proof
end

