-- ==== Sys2Proof/Machine/State.lean ====
section
/-!
DEFINITION. The state of one instance of NP033-CORE as plain data (10_state.md), the host-supplied
configuration beside it, the command interface (30_encoding.md R60, R63), and the machine right after reset.
-/
namespace Sys2Proof.Machine

/-- `FSM` (10_state.md R30): the codes are 0 to 4 in this order; 5 to 7 never occur. -/
inductive Fsm where
  | unvalidated
  | headerParsed
  | decoding
  | done
  | failed
deriving DecidableEq, Repr, Inhabited

/-- `ERR` (10_state.md R31): the failure category latched when `FSM` becomes Failed; codes 0 to 3 in this order. -/
inductive Category where
  | clear
  | invalidFormat
  | decompression
  | verification
deriving DecidableEq, Repr, Inhabited

/-- `ERR_INFO` (10_state.md R31): the causes of 60_exceptions.md R262, numbered 0 to 22 in this order. -/
inductive Cause where
  | noCause
  | tooShort
  | badMagic
  | zeroSize
  | sizeExceedsBuffer
  | sizeExceedsMax
  | badHeaderField
  | range
  | endOfInput
  | anchorZero
  | outputOverrun
  | copyDistance
  | huffOver
  | huffUnder
  | huffUnmapped
  | tableCapacity
  | vlcIndex
  | valueOverflow
  | countUnderflow
  | checksumMismatch
  | markerMismatch
  | first16Mismatch
  | formatSpecific
deriving DecidableEq, Repr, Inhabited

/-- `STATUS` of a response (30_encoding.md R63): codes 0, 1, 2, 3 and 7; others never occur. -/
inductive Status where
  | ok
  | invalidFormat
  | decompression
  | verification
  | illegalCommand
deriving DecidableEq, Repr, Inhabited

/-- The response that ends a command (30_encoding.md R63). -/
structure Response where
  status : Status
  ovf : Bool
  res : Word
deriving DecidableEq, Repr, Inhabited

/-- `BR_CFG` (10_state.md R21). -/
structure ReaderConfig where
  order : BitOrder
  dir : Direction
  rw : BitVec 2
  wend : ByteOrder
  rot : Bool
  valid : Bool
deriving DecidableEq, Repr, Inhabited

/-- An entry of `TRI`: a (length, code, value) triple, the code written most significant bit first
(10_state.md R16, 42_huffman.md R132). -/
structure Triple where
  length : BitVec 6
  code : Word
  value : BitVec 16
deriving DecidableEq, Repr, Inhabited

/-- An entry of a decode table (10_state.md R25). -/
inductive Entry where
  | unmapped
  | leaf (len : BitVec 6) (value : BitVec 16)
  | link (base : BitVec 17) (sw : BitVec 5)
deriving DecidableEq, Repr, Inhabited

/-- `MODE` of a decode table (10_state.md R25): codes 0, 1, 2 in this order. -/
inductive TableMode where
  | canonical
  | fixed
  | adaptive
deriving DecidableEq, Repr, Inhabited

/-- A decode table with `VALID = 1` (10_state.md R25). `NEXT` is the length of `entries`, the entries in use. -/
structure Table where
  mode : TableMode
  order : BitOrder
  w : BitVec 5
  entries : List Entry
  shape : AdaptShape
deriving DecidableEq, Repr, Inhabited

/-- XPK's "internal sub-decompressor table for chunk types" (46_formats.md R227). -/
inductive SubFormat where
  | blzw
  | bzp2
  | lhlb
  | mash
  | rake
  | shri
  | smpl
  | sqsh
deriving DecidableEq, Repr, Inhabited

/-- What the host supplies with the instance and no command writes (10_state.md R13, R14, R34, R36): the
underlying bytes, the window, the limits, and the open parameters that are plain data.
`und` lists the bytes that are not zero, addresses rising (log entry 19). -/
structure Setup where
  und : List Host.Cell
  undSize : Word
  bufBase : Word
  bufSize : Word
  maxRawSize : Word
  maxPackedSize : Word
  outFill : Byte
  checkRawAgainstBuffer : Bool
  heldFormats : List Byte
  heldSubFormats : List SubFormat
  adaptHeld : Bool
deriving DecidableEq, Repr, Inhabited

/-- What the host presents at the command interface: one command word and, only where 70_reset_and_hazards.md
R292 or R305 lets it change what it supplies, the new configuration. -/
structure Request where
  word : Command
  setup : Option Setup
deriving DecidableEq, Repr, Inhabited

/-- All that `RESET` gives a value to (10_state.md section 10). The sparse memories list their written entries,
indices rising; an index not listed is unwritten (10_state.md R15, R16, R32) or, in `ht`, has `VALID = 0`. -/
structure Inst where
  res : Word
  sumr : Word
  slOff : Word
  slLen : Word
  slValid : Bool
  ovf : Bool
  brAcc : Word
  brLive : BitVec 6
  brCfg : ReaderConfig
  isLo : Word
  isHi : Word
  isPos : Word
  len : List (Nat × BitVec 6)
  tri : List (Nat × Triple)
  ht : List (Nat × Table)
  vlcBase : List (Nat × Word)
  vlcBits : List (Nat × BitVec 6)
  vlcN : BitVec 7
  outValid : Bool
  outDir : Direction
  outCur : Word
  outWin : Word
  rawSize : Word
  out : List Host.Cell
  fsm : Fsm
  err : Category
  errInfo : Cause
  fmt : Byte
  packedSize : Word
  gen : Byte
  ctrl : List (Nat × Word)
  chk : Word
  chunkIdx : Word
  chunkLo : Word
deriving DecidableEq, Repr, Inhabited

/-- The machine: one instance, what the host supplies, and the command interface.
`pending` holds the commands the host has presented and the core has not begun, first to run first; `rsp` is the
response of the last command, none before the first (log entries 1 and 2). `freeCount` numbers the free values
drawn since the last `RESET` or `DEC.CREATE` (log entry 16). -/
structure State extends Inst where
  setup : Setup
  pending : List Request
  rsp : Option Response
  freeCount : Nat
deriving DecidableEq, Repr

/-- Why the machine stops without a next state. -/
inductive Fault where
  /-- A loop of `DEC.DECOMPRESS`, or a sub-decompressor's loop in it or in `DEC.NEXTCHUNK`, ran as many steps as
  70_reset_and_hazards.md R306 bounds a decode by, and the output, or the chunk, is not complete: the descriptor does not
  meet obligation (d) of 45_decompressor.md R203. R306 asks for "a model-level outcome distinct from the three failure
  categories". Safe: the machine stops where a decode might go on. -/
  | noProgress
deriving DecidableEq, Repr

/-- Why a step is refused by the model. -/
inductive Refusal where
  /-- The instruction has no meaning yet; raised by no arm of this model. Safe. -/
  | notModelled (mnemonic : String)
  /-- The host presented a configuration where 70_reset_and_hazards.md R292 and R305 give it no such move, or one
  that breaks 10_state.md R14 or R34; raised by `step`, by no instruction. Safe: "a model omits the move". -/
  | hostMove
deriving DecidableEq, Repr

/-- `BR_CFG` after reset: all fields 0 (10_state.md R21). -/
def ReaderConfig.reset : ReaderConfig where
  order := .msbFirst
  dir := .forward
  rw := 0
  wend := .bigEndian
  rot := false
  valid := false

/-- The value of `VLC_N` that means "none" (10_state.md R27). -/
abbrev vlcNone : BitVec 7 := 127#7

/-- The reset values of 10_state.md section 10. -/
def Inst.reset : Inst where
  res := 0
  sumr := 0
  slOff := 0
  slLen := 0
  slValid := false
  ovf := false
  brAcc := 0
  brLive := 0
  brCfg := .reset
  isLo := 0
  isHi := 0
  isPos := 0
  len := []
  tri := []
  ht := []
  vlcBase := []
  vlcBits := []
  vlcN := vlcNone
  outValid := false
  outDir := .forward
  outCur := 0
  outWin := 0
  rawSize := 0
  out := []
  fsm := .unvalidated
  err := .clear
  errInfo := .noCause
  fmt := 0
  packedSize := 0
  gen := 0
  ctrl := []
  chk := 0
  chunkIdx := 0
  chunkLo := 0

/-- What the host supplies, at reset. The spec gives no value (10_state.md section 10, "host-supplied"): an empty
input (log entry 5), the limits of the spec's own test vectors (95_test_vectors.md section 0; log entry 6), `OUT_FILL` 0
(log entry 7), no descriptor and no XPK sub-decompressor held (log entry 8), and `ADAPT` not given: whether a model is
given `ADAPT` is open too (42_huffman.md R147; log entry 15). Each of these is a DESIGN CHOICE, unsafe.
`CHECK_RAW_AGAINST_BUFFER` is at the spec's value (decision D29). -/
def Setup.reset : Setup where
  und := []
  undSize := 0
  bufBase := 0
  bufSize := 0
  maxRawSize := 0x00100000
  maxPackedSize := 0x00100000
  outFill := 0
  checkRawAgainstBuffer := false
  heldFormats := []
  heldSubFormats := []
  adaptHeld := false

/-- The machine right after reset (70_reset_and_hazards.md R290), no command presented. -/
def State.reset : State where
  toInst := .reset
  setup := .reset
  pending := []
  rsp := none
  freeCount := 0

end Sys2Proof.Machine
end

