-- ==== Sys2Proof/Machine/Memory.lean ====
section
/-!
DEFINITION. The sparse memories of the machine (20_memory.md R40): lists of (index, value) pairs with the indices
strictly rising, so that equal contents are equal lists. What an unlisted index reads as is said once for each:
nothing for `OUT` and the table memories (unwritten, 10_state.md R15, R16), and the byte 0 for `UND` (log entry 19).
-/
namespace Sys2Proof.Machine

/-- The canonical form: indices strictly rising. -/
abbrev Memory.wf {α : Type} (m : List (Nat × α)) : Prop := m.Pairwise (fun x y => x.1 < y.1)

/-- The entry at an index; `none` where nothing has been written. -/
def Memory.get {α : Type} : List (Nat × α) → Nat → Option α
  | [], _ => none
  | (k, v) :: m, i => if k = i then some v else Memory.get m i

/-- Writing an entry, in its place. -/
def Memory.set {α : Type} : List (Nat × α) → Nat → α → List (Nat × α)
  | [], i, v => [(i, v)]
  | (k, u) :: m, i, v =>
    if i < k then (i, v) :: (k, u) :: m
    else if i = k then (i, v) :: m
    else (k, u) :: Memory.set m i v

/-- Making an entry unwritten again. -/
def Memory.erase {α : Type} (m : List (Nat × α)) (i : Nat) : List (Nat × α) := m.filter (fun c => c.1 ≠ i)

/-- What an unlisted address of `UND` reads as (log entry 19). -/
abbrev Memory.unlistedByte : Byte := 0

/-- A byte of `UND`: the listed one, else what an unlisted address reads as. -/
def Memory.byteAt (m : List Host.Cell) (i : Nat) : Byte := (Memory.get m i).getD Memory.unlistedByte

/-- Placing a byte of `UND`: the byte an unlisted address reads as leaves no entry. -/
def Memory.putByte (m : List Host.Cell) (i : Nat) (b : Byte) : List Host.Cell :=
  if b = Memory.unlistedByte then Memory.erase m i else Memory.set m i b

/-- The canonical form of `UND`: rising addresses below its size, no entry equal to an unlisted address's byte. -/
abbrev Memory.inputWf (m : List Host.Cell) (size : Nat) : Prop :=
  Memory.wf m ∧ ∀ c ∈ m, c.1 < size ∧ c.2 ≠ Memory.unlistedByte

/-- The canonical form of a run of bytes placed from an address up: how a host lays out an input. -/
def Memory.ofBytes : List Byte → Nat → List Host.Cell
  | [], _ => []
  | b :: bs, i =>
    if b = Memory.unlistedByte then Memory.ofBytes bs (i + 1) else (i, b) :: Memory.ofBytes bs (i + 1)

/-- The values at the first `n` indices, if every one of them has been written (42_huffman.md R133, R140). -/
def Memory.prefixOf {α : Type} (m : List (Nat × α)) (n : Nat) : Option (List α) :=
  (List.range n).mapM (Memory.get m)

end Sys2Proof.Machine
end

