-- ==== Sys2Proof/Machine/Operands.lean ====
section
/-!
DEFINITION. Operand forms and the functions the rules compute with: the overflow-checked sum (40_buffer.md R88),
byte combination (20_memory.md R45), bit reversal and the anchor index (00_scope.md section 6), the bit fields the
registers are written through. Arithmetic is on natural numbers, as 00_scope.md section 6 says.
-/
namespace Sys2Proof.Machine

/-- `Sum(a, b)`: the saturated value and whether the true sum does not fit (40_buffer.md R88). -/
def sum (a b : Nat) : Nat × Bool := (min (a + b) Config.sizeMax, decide (Config.sizeMax < a + b))

/-- `a ⊕ b ≤ c`: the sum fits and does not pass `c` (00_scope.md section 6). -/
def sumLe (a b c : Nat) : Bool := !(sum a b).2 && decide ((sum a b).1 ≤ c)

/-- The bytes combined with the first as the most significant (20_memory.md R45). -/
def bigEndian (bs : List Byte) : Nat := bs.foldl (fun acc b => acc * 256 + b.toNat) 0

/-- The bytes combined with the first as the least significant (20_memory.md R45). -/
def littleEndian (bs : List Byte) : Nat := bs.foldr (fun b acc => b.toNat + 256 * acc) 0

/-- The bytes combined in a byte order. -/
def combine : ByteOrder → List Byte → Nat
  | .bigEndian => bigEndian
  | .littleEndian => littleEndian

/-- `rev_n(v)`: bit `i` is bit `n - 1 - i` of `v` (00_scope.md section 6; the source's `RotateBits`, decision D4). -/
def rev : Nat → Nat → Nat
  | 0, _ => 0
  | n + 1, v => (v % 2) * 2 ^ n + rev n (v / 2)

/-- `msb_index(w)` for `w ≠ 0` (00_scope.md section 6). -/
def msbIndex (w : Nat) : Nat := w.log2

/-- Bytes of a refill word: 1, 2, 4 for `RW` = 0, 1, 2 (41_bitreader.md R103). `RW = 3` is never stored. -/
def refillBytes (rw : BitVec 2) : Nat :=
  match rw.toNat with
  | 0 => 1
  | 1 => 2
  | _ => 4

/-- `Word(b)`, the refill word of the bytes in ascending address order (41_bitreader.md R104). -/
def refillWord (cfg : ReaderConfig) (bs : List Byte) : Nat :=
  let w := combine cfg.wend bs
  if cfg.rot then rev (8 * bs.length) w else w

/-- A 32-bit register's value from a number. -/
def word (n : Nat) : Word := BitVec.ofNat 32 n

/-- The code of `FSM` (10_state.md R30). -/
def Fsm.code : Fsm → BitVec 3
  | .unvalidated => 0
  | .headerParsed => 1
  | .decoding => 2
  | .done => 3
  | .failed => 4

/-- The code of `ERR` (10_state.md R31, 60_exceptions.md R261). -/
def Category.code : Category → BitVec 3
  | .clear => 0
  | .invalidFormat => 1
  | .decompression => 2
  | .verification => 3

/-- The number of a cause (60_exceptions.md R262). -/
def Cause.code : Cause → BitVec 5
  | .noCause => 0
  | .tooShort => 1
  | .badMagic => 2
  | .zeroSize => 3
  | .sizeExceedsBuffer => 4
  | .sizeExceedsMax => 5
  | .badHeaderField => 6
  | .range => 7
  | .endOfInput => 8
  | .anchorZero => 9
  | .outputOverrun => 10
  | .copyDistance => 11
  | .huffOver => 12
  | .huffUnder => 13
  | .huffUnmapped => 14
  | .tableCapacity => 15
  | .vlcIndex => 16
  | .valueOverflow => 17
  | .countUnderflow => 18
  | .checksumMismatch => 19
  | .markerMismatch => 20
  | .first16Mismatch => 21
  | .formatSpecific => 22

/-- The code of `STATUS` in a response (30_encoding.md R63). -/
def Status.code : Status → BitVec 8
  | .ok => 0
  | .invalidFormat => 1
  | .decompression => 2
  | .verification => 3
  | .illegalCommand => 7

/-- The 41 bits of a response: `STATUS`, `OVF`, `RES` (30_encoding.md R63). -/
def Response.bits (r : Response) : BitVec 41 := r.status.code ++ BitVec.ofBool r.ovf ++ r.res

/-- The category of a cause (60_exceptions.md R262); `Range` is decided by the state (R270). -/
def Cause.category (c : Cause) (fsm : Fsm) : Category :=
  match c with
  | .noCause => .clear
  | .tooShort | .badMagic | .zeroSize | .sizeExceedsBuffer | .sizeExceedsMax | .badHeaderField => .invalidFormat
  | .range => if fsm = .unvalidated then .invalidFormat else .decompression
  | .endOfInput | .anchorZero | .outputOverrun | .copyDistance | .huffOver | .huffUnder | .huffUnmapped
  | .tableCapacity | .vlcIndex | .valueOverflow | .countUnderflow | .formatSpecific => .decompression
  | .checksumMismatch | .markerMismatch | .first16Mismatch => .verification

/-- The `STATUS` that reports a category (60_exceptions.md R261: the same number). -/
def Category.status : Category → Status
  | .clear => .ok
  | .invalidFormat => .invalidFormat
  | .decompression => .decompression
  | .verification => .verification

/-- The result of the `STATUS` command (45_decompressor.md R193). -/
def statusWord (fsm : Fsm) (err : Category) (info : Cause) : Word :=
  (info.code ++ 0#1 ++ err.code ++ 0#1 ++ fsm.code).setWidth 32

end Sys2Proof.Machine
end

