-- ==== Sys2Proof/Machine/Flags.lean ====
section
/-!
DEFINITION. The two flags of the block: `OVF`, which only `OVF.SUM` writes (10_state.md R18), and the derived
predicate `EOF` with the quantities it is made of (10_state.md R19, R29).
-/
namespace Sys2Proof.Machine

/-- `OVF` after `OVF.SUM`: sticky in a chain (40_buffer.md R88). -/
def ovfAfter (chain old overflow : Bool) : Bool := if chain then old || overflow else overflow

/-- `produced`, the number of bytes written so far (10_state.md R29). -/
def Inst.produced (s : Inst) : Nat :=
  match s.outDir with
  | .forward => s.outCur.toNat
  | .backward => s.rawSize.toNat - s.outCur.toNat

/-- `Eof`: everything declared has been produced (10_state.md R19, 44_output.md R177). -/
def Inst.eof (s : Inst) : Bool := s.produced == s.rawSize.toNat

/-- `wp`, the index the next byte is written to; meaningful when `produced < RAW_SIZE` (10_state.md R29). -/
def Inst.wp (s : Inst) : Nat :=
  match s.outDir with
  | .forward => s.outCur.toNat
  | .backward => s.outCur.toNat - 1

end Sys2Proof.Machine
end

