-- ==== Sys2Proof/Machine/Ops.lean ====
section
/-!
DEFINITION. The shared operations: how a command runs and ends (60_exceptions.md R263 to R267), which command is
accepted from whom in which state (45_decompressor.md R192), reads of the window, the bit reader's refill and
`ReadBits` (41_bitreader.md R103 to R106), writes and copies of the output (44_output.md R172 to R176).
-/
namespace Sys2Proof.Machine

/-! ## How a command runs -/

/-- What running a command, or a part of one, comes to. -/
inductive Run (α : Type) where
  /-- It goes on, with a value, in this state. -/
  | ok (a : α) (s : State)
  /-- `raise`: a failure ends it, in the state its pseudocode had reached (60_exceptions.md R263). -/
  | raised (c : Cause) (s : State)
  /-- `refuse IllegalCommand` (60_exceptions.md R267). -/
  | illegal
  /-- A loop's bound is used up (70_reset_and_hazards.md R306). -/
  | stuck
deriving DecidableEq, Repr

/-- The next part of a command, run where the first part went on. -/
def Run.andThen {α β : Type} (r : Run α) (k : α → State → Run β) : Run β :=
  match r with
  | .ok a s => k a s
  | .raised c s => .raised c s
  | .illegal => .illegal
  | .stuck => .stuck

/-- The end of a command that returns no value. -/
def complete (s : State) : Run (Option Word) := .ok none s

/-- `RES <- v`, the end of a command that returns a value (10_state.md R17). -/
def result (v : Word) (s : State) : Run (Option Word) := .ok (some v) { s with res := v }

/-! ## Responses, failures, refusals -/

/-- The response of a command that completed (30_encoding.md R63). A command that returns no value answers 0
(DEDUCED, log entry 3). -/
def State.answered (s : State) (v : Option Word) : State :=
  { s with rsp := some { status := .ok, ovf := s.ovf, res := v.getD 0 } }

/-- `refuse IllegalCommand`: no state changes, `STATUS = 7`, `RES = 0` (60_exceptions.md R267). -/
def State.refusedIllegal (s : State) : State :=
  { s with rsp := some { status := .illegalCommand, ovf := s.ovf, res := 0 } }

/-- `raise`, the one operation by which a command fails (60_exceptions.md R263): in Done only the response tells of
it; elsewhere `FSM` becomes Failed and the category and the cause are latched. -/
def State.failed (s : State) (c : Cause) : State :=
  let rsp := some { status := (c.category s.fsm).status, ovf := s.ovf, res := 0 }
  if s.fsm = .done then { s with rsp := rsp }
  else { s with fsm := .failed, err := c.category s.fsm, errInfo := c, rsp := rsp }

/-- `RESET`, the one way out of Failed (60_exceptions.md R272): every element of 10_state.md section 10 takes its
reset value; what the host supplies stays (70_reset_and_hazards.md R290). The model's own count of free values starts
over, so that what follows is a function of the inputs alone (45_decompressor.md R207, R208; log entry 16). -/
def State.restarted (s : State) : State := { s with toInst := .reset, freeCount := 0 }

/-- The outcome of a command that was accepted in state `s` and ran so. -/
def State.outcome (s : State) : Run (Option Word) → Host.Outcome State Fault Refusal
  | .ok v s' => .next (s'.answered v)
  | .raised c s' => .next (s'.failed c)
  | .illegal => .next s.refusedIllegal
  | .stuck => .fault .noProgress

/-! ## Which command is accepted -/

/-- Who issues a command: the host, or the format sequencer inside `DEC.*` (00_scope.md R5). -/
inductive Issuer where
  | host
  | sequencer
deriving DecidableEq, Repr

/-- The rows of the legality table (45_decompressor.md R192). -/
inductive Kind where
  | system
  | buffer
  | tool
  | outInit
  | outWrite
  | outEof
  | outRead
  | create
  | rawSize
  | decompress
  | nextChunk
deriving DecidableEq, Repr

/-- The legality table of 45_decompressor.md R192. -/
def accepts (by_ : Issuer) (k : Kind) (fsm : Fsm) : Bool :=
  match by_, k, fsm with
  | .host, .system, _ => true
  | .host, .buffer, .failed => false
  | .host, .buffer, _ => true
  | .host, .tool, .unvalidated => true
  | .host, .outInit, .unvalidated => true
  | .host, .outWrite, .unvalidated => true
  | .host, .outEof, .failed => false
  | .host, .outEof, _ => true
  | .host, .outRead, .unvalidated => true
  | .host, .outRead, .decoding => true
  | .host, .outRead, .done => true
  | .host, .create, .unvalidated => true
  | .host, .rawSize, .headerParsed => true
  | .host, .rawSize, .decoding => true
  | .host, .rawSize, .done => true
  | .host, .decompress, .headerParsed => true
  | .host, .nextChunk, .headerParsed => true
  | .host, .nextChunk, .decoding => true
  | .sequencer, .buffer, .unvalidated => true
  | .sequencer, .buffer, .decoding => true
  | .sequencer, .tool, .decoding => true
  | .sequencer, .outWrite, .decoding => true
  | .sequencer, .outEof, .decoding => true
  | _, _, _ => false

/-- The row of the legality table a command stands in (45_decompressor.md R192). -/
def kindOf : Instr → Kind
  | .reset | .status => .system
  | .bufSize | .bufRd8 _ | .bufRdbe16 _ | .bufRdbe32 _ | .bufRdle16 _ | .bufRdle32 _ | .bufGetdata _ _
  | .bufSlrd8 _ | .ovfSum _ _ _ => .buffer
  | .brInit _ _ _ _ _ _ _ | .brReset _ _ | .brAnchor _ | .brRead _ | .rotb _ _ => .tool
  | .hufSetlen _ _ | .hufSettri _ _ _ _ | .hufMake _ _ _ _ | .hufFixed _ _ _ _ | .hufAdapt _ | .hufDecode _ => .tool
  | .vlcSet _ _ _ | .vlcSetn _ | .vlcDecode _ => .tool
  | .outInit _ _ _ => .outInit
  | .outWritebyte _ | .outCopy _ _ => .outWrite
  | .outEof => .outEof
  | .outRd8 _ => .outRead
  | .decCreate _ _ | .dispDetect => .create
  | .decGetrawsize => .rawSize
  | .decDecompress => .decompress
  | .decNextchunk => .nextChunk

/-- A command issued by the host: refused where the legality table says so, run elsewhere (60_exceptions.md R269:
legality comes before the command's own checks). -/
def hostCommand (k : Kind) (op : State → Run (Option Word)) (s : State) : Host.Outcome State Fault Refusal :=
  if accepts .host k s.fsm then s.outcome (op s) else .next s.refusedIllegal

/-! ## The input window -/

/-- `IN[i]`, that is `UND[BUF_BASE + i]` (10_state.md R14). -/
def State.inByte (s : State) (i : Nat) : Byte := Memory.byteAt s.setup.und (s.setup.bufBase.toNat + i)

/-- `MemRead(a, n)` after its range check: the bytes in ascending address order (00_scope.md section 6). -/
def State.memRead (s : State) (a n : Nat) : List Byte := (List.range n).map (fun i => s.inByte (a + i))

/-- The range check of an input access (20_memory.md R43): `a ⊕ n ≤ BUF_SIZE`. -/
def State.inWindow (s : State) (a n : Nat) : Bool := sumLe a n s.setup.bufSize.toNat

/-! ## The bit reader -/

/-- `Refill()` (41_bitreader.md R103). -/
def refill (s : State) : Run Unit :=
  let n := refillBytes s.brCfg.rw
  let load (at_ pos : Nat) : Run Unit :=
    .ok () { s with
      isPos := word pos
      brAcc := word (refillWord s.brCfg (s.memRead at_ n))
      brLive := BitVec.ofNat 6 (8 * n) }
  match s.brCfg.dir with
  | .forward =>
    if sumLe s.isPos.toNat n s.isHi.toNat then load s.isPos.toNat (s.isPos.toNat + n) else .raised .endOfInput s
  | .backward =>
    if s.isPos.toNat < s.isLo.toNat + n then .raised .endOfInput s
    else load (s.isPos.toNat - n) (s.isPos.toNat - n)

/-- A refill where no bit is live, nothing where one is (41_bitreader.md R105, R106). -/
def refillIfEmpty (s : State) : Run Unit := if s.brLive = 0 then refill s else .ok () s

/-- The loop of 41_bitreader.md R105, MSB-first: `rem` bits are owed and `ret` holds those read. Every turn reads at
least one bit, so `rem` turns are enough and the first argument, which bounds them, starts there. -/
def readMsb : Nat → Nat → Nat → State → Run Nat
  | 0, _, ret, s => .ok ret s
  | turns + 1, rem, ret, s =>
    if rem = 0 then .ok ret s
    else (refillIfEmpty s).andThen fun _ s =>
      let k := min rem s.brLive.toNat
      let live := s.brLive.toNat - k
      let chunk := s.brAcc.toNat / 2 ^ live % 2 ^ k
      readMsb turns (rem - k) (ret * 2 ^ k + chunk)
        { s with brAcc := word (s.brAcc.toNat % 2 ^ live), brLive := BitVec.ofNat 6 live }

/-- The loop of 41_bitreader.md R106, LSB-first: `pos` bits have been read into `ret`. -/
def readLsb : Nat → Nat → Nat → Nat → State → Run Nat
  | 0, _, _, ret, s => .ok ret s
  | turns + 1, rem, pos, ret, s =>
    if rem = 0 then .ok ret s
    else (refillIfEmpty s).andThen fun _ s =>
      let k := min rem s.brLive.toNat
      let chunk := s.brAcc.toNat % 2 ^ k
      readLsb turns (rem - k) (pos + k) (ret + chunk * 2 ^ pos)
        { s with brAcc := word (s.brAcc.toNat / 2 ^ k), brLive := BitVec.ofNat 6 (s.brLive.toNat - k) }

/-- `ReadBits(count)` in the reader's bit order (41_bitreader.md R105, R106). -/
def readBits (count : Nat) (s : State) : Run Nat :=
  match s.brCfg.order with
  | .msbFirst => readMsb count count 0 s
  | .lsbFirst => readLsb count count 0 0 s

/-! ## The output -/

/-- The byte goes to `wp` and the cursor moves by one (44_output.md R172, R179); the caller has checked the room. -/
def State.put (s : State) (b : Byte) : State :=
  match s.outDir with
  | .forward => { s with out := Memory.set s.out s.outCur.toNat b, outCur := word (s.outCur.toNat + 1) }
  | .backward => { s with out := Memory.set s.out (s.outCur.toNat - 1) b, outCur := word (s.outCur.toNat - 1) }

/-- The byte a copy reads, `distance` behind the write position; before the first byte produced it is `OUT_FILL`
(44_output.md R174 to R176). No read meets an unwritten entry (R178; log entry 22). -/
def State.copySource (s : State) (distance : Nat) : Byte :=
  match s.outDir with
  | .forward =>
    if distance ≤ s.outCur.toNat then (Memory.get s.out (s.outCur.toNat - distance)).getD s.setup.outFill
    else s.setup.outFill
  | .backward =>
    if s.outCur.toNat - 1 + distance < s.rawSize.toNat then
      (Memory.get s.out (s.outCur.toNat - 1 + distance)).getD s.setup.outFill
    else s.setup.outFill

/-- The loop of `OUT.COPY`, one byte at a time (44_output.md R174, R175; 20_memory.md R52). -/
def State.copy (distance : Nat) : Nat → State → State
  | 0, s => s
  | count + 1, s => State.copy distance count (s.put (s.copySource distance))

/-- The bytes written since `before` bytes had been produced, in the order written (45_decompressor.md R201). -/
def Inst.writtenSince (s : Inst) (before : Nat) : List Byte :=
  (List.range (s.produced - before)).map fun i =>
    (Memory.get s.out (match s.outDir with
      | .forward => before + i
      | .backward => s.rawSize.toNat - 1 - (before + i))).getD 0

end Sys2Proof.Machine
end

