-- ==== Sys2Proof/WellFormed.lean ====
section
/-!
DEFINITION. Which commands have an encoding. Every operand of a command fills its field exactly, so the one
check left is 30_encoding.md R67: `BR.INIT` with `RW = 3` is a reserved value and an illegal command.
-/
namespace Sys2Proof

/-- A refill width code is one of 0, 1, 2 (10_state.md R21); 3 is reserved (30_encoding.md R67). -/
abbrev refillWidthLegal (rw : BitVec 2) : Bool := rw != 3#2

/-- The command has an encoding the block accepts as a command (30_encoding.md R66 to R68). -/
def Instr.wellFormed : Instr → Bool
  | .brInit _ _ rw _ _ _ _ => refillWidthLegal rw
  | _ => true

end Sys2Proof
end

