-- ==== Sys2Proof/Machine/BitReader.lean ====
section
/-!
DEFINITION. The bit reader family (41_bitreader.md R101, R105 to R109).
-/
namespace Sys2Proof.Machine

/-- `BR.INIT` (41_bitreader.md R101; `RW = 3` by 30_encoding.md R67). -/
def brInit (order : BitOrder) (dir : Direction) (rw : BitVec 2) (wend : ByteOrder) (rot : Bool) (lo hi : Word)
    (s : State) : Run (Option Word) :=
  if !refillWidthLegal rw then .illegal
  else if lo.toNat ≤ hi.toNat && decide (hi.toNat ≤ s.setup.bufSize.toNat) then
    complete { s with
      brCfg := { order := order, dir := dir, rw := rw, wend := wend, rot := rot, valid := true }
      isLo := lo
      isHi := hi
      isPos := (match dir with
        | .forward => lo
        | .backward => hi)
      brAcc := 0
      brLive := 0 }
  else .raised .range s

/-- `BR.RESET live, value` (41_bitreader.md R107). -/
def brReset (live : BitVec 6) (value : Word) (s : State) : Run (Option Word) :=
  if s.brCfg.valid = false || decide (32 < live.toNat) then .illegal
  else complete { s with brAcc := word (value.toNat % 2 ^ live.toNat), brLive := live }

/-- `BR.ANCHOR word` (41_bitreader.md R108). -/
def brAnchor (w : Word) (s : State) : Run (Option Word) :=
  if s.brCfg.valid = false then .illegal
  else if w = 0 then .raised .anchorZero s
  else
    let live := msbIndex w.toNat
    result (word live) { s with brAcc := word (w.toNat % 2 ^ live), brLive := BitVec.ofNat 6 live }

/-- `BR.READ count` (41_bitreader.md R105, R106). -/
def brRead (count : BitVec 6) (s : State) : Run (Option Word) :=
  if s.brCfg.valid = false || decide (32 < count.toNat) then .illegal
  else (readBits count.toNat s).andThen fun v s => result (word v) s

/-- `ROTB count, value` (41_bitreader.md R109). -/
def rotb (count : BitVec 6) (value : Word) (s : State) : Run (Option Word) :=
  if 32 < count.toNat then .illegal else result (word (rev count.toNat value.toNat)) s

/-- `BR.INIT` (41_bitreader.md R101). -/
def execBrInit (order : BitOrder) (dir : Direction) (rw : BitVec 2) (wend : ByteOrder) (rot : Bool) (lo hi : Word)
    (s : State) : Host.Outcome State Fault Refusal :=
  hostCommand .tool (brInit order dir rw wend rot lo hi) s

/-- `BR.RESET` (41_bitreader.md R107). -/
def execBrReset (live : BitVec 6) (value : Word) (s : State) : Host.Outcome State Fault Refusal :=
  hostCommand .tool (brReset live value) s

/-- `BR.ANCHOR` (41_bitreader.md R108). -/
def execBrAnchor (w : Word) (s : State) : Host.Outcome State Fault Refusal := hostCommand .tool (brAnchor w) s

/-- `BR.READ` (41_bitreader.md R105, R106). -/
def execBrRead (count : BitVec 6) (s : State) : Host.Outcome State Fault Refusal := hostCommand .tool (brRead count) s

/-- `ROTB` (41_bitreader.md R109). -/
def execRotb (count : BitVec 6) (value : Word) (s : State) : Host.Outcome State Fault Refusal :=
  hostCommand .tool (rotb count value) s

end Sys2Proof.Machine
end

