-- ==== Sys2Proof/Machine/Buffer.lean ====
section
/-!
DEFINITION. The Buffer family and the overflow-checked sum (40_buffer.md R80 to R88).
-/
namespace Sys2Proof.Machine

/-- The shared shape of the range-checked reads (40_buffer.md R81 to R85): `n` bytes at `off`, combined. -/
def bufRead (n : Nat) (order : ByteOrder) (off : Word) (s : State) : Run (Option Word) :=
  if s.inWindow off.toNat n then result (word (combine order (s.memRead off.toNat n))) s
  else .raised .range s

/-- `BUF.SIZE` (40_buffer.md R80). -/
def bufSize (s : State) : Run (Option Word) := result s.setup.bufSize s

/-- `BUF.GETDATA off, len` (40_buffer.md R86). -/
def bufGetdata (off len : Word) (s : State) : Run (Option Word) :=
  if s.inWindow off.toNat len.toNat then result len { s with slOff := off, slLen := len, slValid := true }
  else .raised .range s

/-- `BUF.SLRD8 i` (40_buffer.md R87). -/
def bufSlrd8 (i : Word) (s : State) : Run (Option Word) :=
  if s.slValid = false then .illegal
  else if s.slLen.toNat ≤ i.toNat then .raised .range s
  else result ((s.inByte (s.slOff.toNat + i.toNat)).setWidth 32) s

/-- `OVF.SUM a, b` (40_buffer.md R88). -/
def ovfSum (chain : Bool) (a b : Word) (s : State) : Run (Option Word) :=
  if chain && b != 0 then .illegal
  else
    let v := if chain then sum s.sumr.toNat a.toNat else sum a.toNat b.toNat
    result (word v.1) { s with sumr := word v.1, ovf := ovfAfter chain s.ovf v.2 }

/-- `BUF.SIZE` (40_buffer.md R80). -/
def execBufSize (s : State) : Host.Outcome State Fault Refusal := hostCommand .buffer bufSize s

/-- `BUF.RD8` (40_buffer.md R81). -/
def execBufRd8 (off : Word) (s : State) : Host.Outcome State Fault Refusal :=
  hostCommand .buffer (bufRead 1 .bigEndian off) s

/-- `BUF.RDBE16` (40_buffer.md R82). -/
def execBufRdbe16 (off : Word) (s : State) : Host.Outcome State Fault Refusal :=
  hostCommand .buffer (bufRead 2 .bigEndian off) s

/-- `BUF.RDBE32` (40_buffer.md R83). -/
def execBufRdbe32 (off : Word) (s : State) : Host.Outcome State Fault Refusal :=
  hostCommand .buffer (bufRead 4 .bigEndian off) s

/-- `BUF.RDLE16` (40_buffer.md R84). -/
def execBufRdle16 (off : Word) (s : State) : Host.Outcome State Fault Refusal :=
  hostCommand .buffer (bufRead 2 .littleEndian off) s

/-- `BUF.RDLE32` (40_buffer.md R85). -/
def execBufRdle32 (off : Word) (s : State) : Host.Outcome State Fault Refusal :=
  hostCommand .buffer (bufRead 4 .littleEndian off) s

/-- `BUF.GETDATA` (40_buffer.md R86). -/
def execBufGetdata (off len : Word) (s : State) : Host.Outcome State Fault Refusal :=
  hostCommand .buffer (bufGetdata off len) s

/-- `BUF.SLRD8` (40_buffer.md R87). -/
def execBufSlrd8 (i : Word) (s : State) : Host.Outcome State Fault Refusal := hostCommand .buffer (bufSlrd8 i) s

/-- `OVF.SUM` (40_buffer.md R88). -/
def execOvfSum (chain : Bool) (a b : Word) (s : State) : Host.Outcome State Fault Refusal :=
  hostCommand .buffer (ovfSum chain a b) s

end Sys2Proof.Machine
end

