-- ==== Sys2Proof/Machine/Huffman.lean ====
section
/-!
DEFINITION. The Huffman decoder family (42_huffman.md R131 to R142, R147): loading lengths and triples, building a
decode table, decoding a symbol.
-/
namespace Sys2Proof.Machine

/-- A code being placed: its length in bits, the code most significant bit first, the value it stands for. -/
structure Code where
  length : Nat
  code : Nat
  value : Nat
deriving DecidableEq, Repr

/-! ## Canonical codes (42_huffman.md R134) -/

/-- The inner loop of R134 at one length: the symbols from number `s` on, in order, the next code being `code`.
`none` is `HuffOver`. -/
def codesAtLength (length : Nat) : List Nat → Nat → Nat → Option (List Code × Nat)
  | [], _, code => some ([], code)
  | l :: lens, s, code =>
    if l = length then
      if 2 ^ length ≤ code then none
      else
        match codesAtLength length lens (s + 1) (code + 1) with
        | some (cs, next) => some ({ length := length, code := code, value := s } :: cs, next)
        | none => none
    else codesAtLength length lens (s + 1) code

/-- The outer loop of R134 over the lengths from `length` on, the first code of the length being `code`. -/
def codesFrom (lens : List Nat) : Nat → Nat → Nat → Option (List Code)
  | 0, _, _ => some []
  | turns + 1, length, code =>
    match codesAtLength length lens 0 code with
    | some (cs, next) =>
      match codesFrom lens turns (length + 1) (2 * next) with
      | some rest => some (cs ++ rest)
      | none => none
    | none => none

/-- `CanonicalCodes(LEN, numSymbols)` (42_huffman.md R134); `none` is `HuffOver`. -/
def canonicalCodes (lens : List Nat) : Option (List Code) := codesFrom lens (lens.foldr max 0) 1 0

/-! ## Building a table (42_huffman.md R135 to R138) -/

/-- `Slots(code, L, w, ORD)` (42_huffman.md R135). -/
def slots (code length width : Nat) (order : BitOrder) : List Nat :=
  (List.range (2 ^ (width - length))).map fun j =>
    match order with
    | .lsbFirst => rev length code + j * 2 ^ length
    | .msbFirst => code * 2 ^ (width - length) + j

/-- A `LEAF` in each slot, none of which may be taken (42_huffman.md R136, R137); `none` is `HuffOver`. -/
def placeLeaf (e : Entry) : List Nat → List Entry → Option (List Entry)
  | [], es => some es
  | i :: is, es => if es[i]? = some Entry.unmapped then placeLeaf e is (es.set i e) else none

/-- A `LEAF` entry. -/
def leafEntry (length value : Nat) : Entry := .leaf (BitVec.ofNat 6 length) (BitVec.ofNat 16 value)

/-- The width of the sub-table for a prefix: the longest remaining length among the codes that share it
(42_huffman.md R136). -/
def subWidth (cs : List Code) (width pre : Nat) : Nat :=
  (cs.filter fun c => decide (width < c.length) && c.code / 2 ^ (c.length - width) == pre).foldr
    (fun c m => max (c.length - width) m) 0

/-- The rest of a long code, in the sub-table at `base` of width `sw`. -/
def placeInSub (c : Code) (width : Nat) (order : BitOrder) (base sw : Nat) (es : List Entry) : Except Cause (List Entry) :=
  let sl := c.length - width
  match placeLeaf (leafEntry sl c.value) ((slots (c.code % 2 ^ sl) sl sw order).map (base + ·)) es with
  | some es => .ok es
  | none => .error .huffOver

/-- One turn of the loop of 42_huffman.md R136: a short code in the primary table, a long one in its sub-table, which
is allocated on demand. `NEXT` is the number of entries. -/
def placeCode (all : List Code) (width : Nat) (order : BitOrder) (c : Code) (es : List Entry) : Except Cause (List Entry) :=
  if c.length ≤ width then
    match placeLeaf (leafEntry c.length c.value) (slots c.code c.length width order) es with
    | some es => .ok es
    | none => .error .huffOver
  else
    let pre := c.code / 2 ^ (c.length - width)
    let pidx := (slots pre width width order).headD 0
    match es[pidx]? with
    | some (.link base sw) => placeInSub c width order base.toNat sw.toNat es
    | some .unmapped =>
      let sw := subWidth all width pre
      if Config.tblCap < es.length + 2 ^ sw then .error .tableCapacity
      else
        placeInSub c width order es.length sw
          (es.set pidx (.link (BitVec.ofNat 17 es.length) (BitVec.ofNat 5 sw)) ++ List.replicate (2 ^ sw) .unmapped)
    | _ => .error .huffOver

/-- The loop of 42_huffman.md R136, in list order. -/
def placeCodes (all : List Code) (width : Nat) (order : BitOrder) : List Code → List Entry → Except Cause (List Entry)
  | [], es => .ok es
  | c :: cs, es =>
    match placeCode all width order c es with
    | .ok es => placeCodes all width order cs es
    | .error e => .error e

/-- `K` of 42_huffman.md R138: the share of all 32-bit sequences that begin with a code. -/
def kraft (cs : List Code) : Nat := cs.foldr (fun c k => 2 ^ (32 - c.length) + k) 0

/-- `Build(T, C, W, ORD, IOK)`: the entries in use (42_huffman.md R136), after the completeness test (R138). -/
def build (cs : List Code) (width : Nat) (order : BitOrder) (incompleteOk : Bool) : Except Cause (List Entry) :=
  match placeCodes cs width order cs (List.replicate (2 ^ width) .unmapped) with
  | .error e => .error e
  | .ok es =>
    if 2 ^ 32 < kraft cs then .error .huffOver
    else if kraft cs < 2 ^ 32 && !incompleteOk then .error .huffUnder
    else .ok es

/-! ## The commands -/

/-- `HUF.SETLEN index, len` (42_huffman.md R131). -/
def hufSetlen (index : BitVec 16) (len : BitVec 6) (s : State) : Run (Option Word) :=
  if Config.maxSyms ≤ index.toNat || decide (Config.hufMaxlen < len.toNat) then .illegal
  else complete { s with len := Memory.set s.len index.toNat len }

/-- `HUF.SETTRI index, length, code, value` (42_huffman.md R132). -/
def hufSettri (index : BitVec 16) (length : BitVec 6) (code : Word) (value : BitVec 16) (s : State) :
    Run (Option Word) :=
  if Config.maxTri ≤ index.toNat || length == 0 || decide (Config.hufMaxlen < length.toNat) then .illegal
  else if 2 ^ length.toNat ≤ code.toNat then .illegal
  else complete { s with tri := Memory.set s.tri index.toNat { length := length, code := code, value := value } }

/-- The operand checks `HUF.MAKE` and `HUF.FIXED` share (42_huffman.md R133, R140); `cap` is the RAM's capacity. -/
def makeRefused (t : Byte) (tableWidth : BitVec 5) (num : Word) (cap : Nat) (s : State) : Bool :=
  decide (Config.numTables ≤ t.toNat) || tableWidth == 0 || decide (Config.hufMaxw < tableWidth.toNat)
    || decide (cap < num.toNat) || s.brCfg.valid == false

/-- The second half of `HUF.MAKE` and `HUF.FIXED`: the table is gone while it is built, and valid once it stands
(42_huffman.md R133, R140, 60_exceptions.md R273). -/
def makeTable (t : Byte) (mode : TableMode) (incompleteOk : Bool) (tableWidth : BitVec 5) (cs : List Code)
    (s : State) : Run (Option Word) :=
  let cleared : State := { s with ht := Memory.erase s.ht t.toNat }
  match build cs tableWidth.toNat s.brCfg.order incompleteOk with
  | .error c => .raised c cleared
  | .ok es =>
    let table : Table := { mode := mode, order := s.brCfg.order, w := tableWidth, entries := es, shape := [] }
    result (word es.length) { s with ht := Memory.set s.ht t.toNat table }

/-- `HUF.MAKE T, incomplete_ok, tableWidth, numSymbols` (42_huffman.md R133). -/
def hufMake (t : Byte) (incompleteOk : Bool) (tableWidth : BitVec 5) (numSymbols : Word) (s : State) :
    Run (Option Word) :=
  if makeRefused t tableWidth numSymbols Config.maxSyms s then .illegal
  else
    match Memory.prefixOf s.len numSymbols.toNat with
    | none => .illegal
    | some lens =>
      match canonicalCodes (lens.map (·.toNat)) with
      | none => .raised .huffOver { s with ht := Memory.erase s.ht t.toNat }
      | some cs => makeTable t .canonical incompleteOk tableWidth cs s

/-- `HUF.FIXED T, incomplete_ok, tableWidth, numTriples` (42_huffman.md R140). -/
def hufFixed (t : Byte) (incompleteOk : Bool) (tableWidth : BitVec 5) (numTriples : Word) (s : State) :
    Run (Option Word) :=
  if makeRefused t tableWidth numTriples Config.maxTri s then .illegal
  else
    match Memory.prefixOf s.tri numTriples.toNat with
    | none => .illegal
    | some ts =>
      makeTable t .fixed incompleteOk tableWidth
        (ts.map fun x => { length := x.length.toNat, code := x.code.toNat, value := x.value.toNat }) s

/-- `HUF.ADAPT T` (42_huffman.md R147): `MODE`, `VALID` and the shape are written. Where no order was ever stored in
the table its `ORDER` is a free value (log entry 16); a table number past the last is refused (60_exceptions.md R267). -/
def hufAdapt (t : Byte) (s : State) : Run (Option Word) :=
  if !s.setup.adaptHeld || decide (Config.numTables ≤ t.toNat) then .illegal
  else
    match Memory.get s.ht t.toNat with
    | some old =>
      let table : Table := { old with mode := .adaptive, shape := Config.adaptInit }
      complete { s with ht := Memory.set s.ht t.toNat table }
    | none =>
      let table : Table :=
        { mode := .adaptive, order := Config.freeTableOrder s.freeCount, w := 0, entries := [],
          shape := Config.adaptInit }
      complete { s with ht := Memory.set s.ht t.toNat table, freeCount := s.freeCount + 1 }

/-! ## Decoding a symbol -/

/-- Where the lookup at one level ends (42_huffman.md R142). -/
inductive Lookup where
  | symbol (value : BitVec 16)
  | entry (e : Entry)
deriving DecidableEq, Repr

/-- The value of a `LEAF` whose length is covered by the `k` bits read (42_huffman.md R142). -/
def Entry.covered (e : Entry) (k : Nat) : Option (BitVec 16) :=
  match e with
  | .leaf len value => if len.toNat ≤ k then some value else none
  | _ => none

/-- The index with bit number `k` of the level in its place (42_huffman.md R135, R142). -/
def nextIndex (order : BitOrder) (width k idx b : Nat) : Nat :=
  match order with
  | .lsbFirst => idx + b * 2 ^ k
  | .msbFirst => idx + b * 2 ^ (width - 1 - k)

/-- The inner loop of 42_huffman.md R142 at the level whose entries start at `base` and have the given width: `left`
more bits may be read, `k` have been, and they spell `idx`. -/
def lookup (t : Table) (base width : Nat) : Nat → Nat → Nat → State → Run Lookup
  | 0, k, idx, s =>
    let e := (t.entries[base + idx]?).getD .unmapped
    match e.covered k with
    | some v => .ok (.symbol v) s
    | none => .ok (.entry e) s
  | left + 1, k, idx, s =>
    match ((t.entries[base + idx]?).getD .unmapped).covered k with
    | some v => .ok (.symbol v) s
    | none =>
      (readBits 1 s).andThen fun b s => lookup t base width left (k + 1) (nextIndex t.order width k idx b) s

/-- Decoding with a built table (42_huffman.md R142): the primary table, then at most one sub-table. -/
def decodeSymbol (t : Table) (s : State) : Run (Option Word) :=
  (lookup t 0 t.w.toNat t.w.toNat 0 0 s).andThen fun l s =>
    match l with
    | .symbol v => result (v.setWidth 32) s
    | .entry (.link base sw) =>
      (lookup t base.toNat sw.toNat sw.toNat 0 0 s).andThen fun l s =>
        match l with
        | .symbol v => result (v.setWidth 32) s
        | .entry _ => .raised .huffUnmapped s
    | .entry _ => .raised .huffUnmapped s

/-- The bits the reader can still give: those live and those of the whole refill words that remain (41_bitreader.md
R103). -/
def bitsLeft (s : State) : Nat :=
  s.brLive.toNat + 8 * (match s.brCfg.dir with
    | .forward => s.isHi.toNat - s.isPos.toNat
    | .backward => s.isPos.toNat - s.isLo.toNat)

/-- `decode(shape, ReadBits(1))` (42_huffman.md R147): bits are read until the shape names a symbol, which ends or
fails with the input; the first argument bounds the turns by the bits there are. -/
def adaptiveSymbol (shape : AdaptShape) : Nat → List Bool → State → Run Word
  | 0, _, s => .raised .endOfInput s
  | turns + 1, bits, s =>
    match Config.adaptDecode shape bits with
    | some v => .ok v s
    | none => (readBits 1 s).andThen fun b s => adaptiveSymbol shape turns (bits ++ [b == 1]) s

/-- The reshaping after a decoded symbol, "while total frequency stays below a cap" (42_huffman.md R147). -/
def reshape (shape : AdaptShape) (v : Word) : AdaptShape :=
  if Config.adaptTotal shape < Config.adaptCap then Config.adaptUpdate shape v else shape

/-- `HUF.DECODE` of a table of `MODE = 2` (42_huffman.md R147). -/
def decodeAdaptive (t : Byte) (table : Table) (s : State) : Run (Option Word) :=
  if !s.setup.adaptHeld then .illegal
  else (adaptiveSymbol table.shape (bitsLeft s + 2) [] s).andThen fun v s =>
    let reshaped : Table := { table with shape := reshape table.shape v }
    result v { s with ht := Memory.set s.ht t.toNat reshaped }

/-- `HUF.DECODE T` (42_huffman.md R142). -/
def hufDecode (t : Byte) (s : State) : Run (Option Word) :=
  if Config.numTables ≤ t.toNat then .illegal
  else
    match Memory.get s.ht t.toNat with
    | none => .illegal
    | some table =>
      if s.brCfg.valid = false || table.order != s.brCfg.order then .illegal
      else if table.mode = .adaptive then decodeAdaptive t table s
      else decodeSymbol table s

/-- `HUF.SETLEN` (42_huffman.md R131). -/
def execHufSetlen (index : BitVec 16) (len : BitVec 6) (s : State) : Host.Outcome State Fault Refusal :=
  hostCommand .tool (hufSetlen index len) s

/-- `HUF.SETTRI` (42_huffman.md R132). -/
def execHufSettri (index : BitVec 16) (length : BitVec 6) (code : Word) (value : BitVec 16) (s : State) :
    Host.Outcome State Fault Refusal :=
  hostCommand .tool (hufSettri index length code value) s

/-- `HUF.MAKE` (42_huffman.md R133 to R139). -/
def execHufMake (t : Byte) (incompleteOk : Bool) (tableWidth : BitVec 5) (numSymbols : Word) (s : State) :
    Host.Outcome State Fault Refusal :=
  hostCommand .tool (hufMake t incompleteOk tableWidth numSymbols) s

/-- `HUF.FIXED` (42_huffman.md R140). -/
def execHufFixed (t : Byte) (incompleteOk : Bool) (tableWidth : BitVec 5) (numTriples : Word) (s : State) :
    Host.Outcome State Fault Refusal :=
  hostCommand .tool (hufFixed t incompleteOk tableWidth numTriples) s

/-- `HUF.ADAPT` (42_huffman.md R147). -/
def execHufAdapt (t : Byte) (s : State) : Host.Outcome State Fault Refusal := hostCommand .tool (hufAdapt t) s

/-- `HUF.DECODE` (42_huffman.md R142, R147). -/
def execHufDecode (t : Byte) (s : State) : Host.Outcome State Fault Refusal := hostCommand .tool (hufDecode t) s

end Sys2Proof.Machine
end

