-- ==== Sys2Proof/Machine/Descriptor.lean ====
section
/-!
DEFINITION. What a format descriptor is (45_decompressor.md R196): a record the model takes as a parameter, whose
activities are scripts of toolkit commands. The descriptors themselves are in the files Machine/Formats.lean imports.
-/
namespace Sys2Proof.Machine

/-! ## What a format sequencer does -/

/-- One activity of the format sequencer: it looks at the instance, issues toolkit commands, each time going on from
whether the command was accepted (or refused with IllegalCommand) and from the instance after it, and writes `CHK`;
it ends with a value. It can act on the instance in no other way (45_decompressor.md R196). Of `RES` it sees the result
of its own last command alone (`Inst.showing`). Log entry 9. -/
inductive Script (α : Type) where
  | ret (a : α)
  | look (next : Inst → Script α)
  | setChk (v : Word) (next : Script α)
  | issue (i : Instr) (next : Bool → Inst → Script α)
deriving Inhabited

/-- One activity after another. -/
def Script.bind {α β : Type} : Script α → (α → Script β) → Script β
  | .ret a, k => k a
  | .look next, k => .look (fun inst => (next inst).bind k)
  | .setChk v next, k => .setChk v (next.bind k)
  | .issue i next, k => .issue i (fun accepted inst => (next accepted inst).bind k)

/-- The instance as a script sees it: for `RES` the result of the command the script issued just before, 0 where there
is none, so that what an activity does is no function of what earlier commands of the host left there
(45_decompressor.md R208). Log entry 9. -/
def Inst.showing (s : Inst) (v : Word) : Inst := { s with res := v }

/-- The window as a descriptor sees it: its size, and range-checked reads of it (45_decompressor.md R196). -/
structure Window where
  size : Nat
  byte : Nat → Option Byte
deriving Inhabited

/-- The window of an instance (10_state.md R14). -/
def State.window (s : State) : Window where
  size := s.setup.bufSize.toNat
  byte := fun i => if i < s.setup.bufSize.toNat then some (s.inByte i) else none

/-- `n` bytes of the window from an offset, if all of them are in it. -/
def Window.bytes (w : Window) (off n : Nat) : Option (List Byte) := (List.range n).mapM (fun i => w.byte (off + i))

/-- `HeaderInfo` (45_decompressor.md R196), with the direction and window of the output "as `FD[fmt]` says" (R197). -/
structure HeaderInfo where
  rawSize : Word
  packedSize : Word
  packedOffset : Word
  gen : Byte
  ctrl : List (Nat × Word)
  outDir : Direction
  outWindow : Word
deriving DecidableEq, Repr, Inhabited

/-- One reading of a header: its fields, and check 6 of 45_decompressor.md R198, whether the block tables, mode
tables and version fields are in their legal ranges. -/
structure Interpretation where
  header : Word → Window → Script HeaderInfo
  fieldsLegal : HeaderInfo → Window → Script Bool
deriving Inhabited

/-- The failures a descriptor's `init` raises of itself: causes of category Decompression alone, because a Verification
is raised by `verify`, `step` or `next_chunk` only (60_exceptions.md R262, R265). -/
inductive InitFailure where
  | valueOverflow
  | countUnderflow
  | formatSpecific
deriving DecidableEq, Repr, Inhabited

/-- The failures a descriptor's `step` or `next_chunk` raises of itself (60_exceptions.md R262, R265). -/
inductive StepFailure where
  | valueOverflow
  | countUnderflow
  | checksumMismatch
  | formatSpecific
deriving DecidableEq, Repr, Inhabited

/-- The failures a descriptor's `verify` raises (45_decompressor.md R204). -/
inductive VerifyFailure where
  | checksumMismatch
  | markerMismatch
  | first16Mismatch
deriving DecidableEq, Repr, Inhabited

/-- The cause a step failure is reported as (60_exceptions.md R262). -/
def StepFailure.cause : StepFailure → Cause
  | .valueOverflow => .valueOverflow
  | .countUnderflow => .countUnderflow
  | .checksumMismatch => .checksumMismatch
  | .formatSpecific => .formatSpecific

/-- A failure of `init`, met inside a `next_chunk` that starts a sub-decompressor. -/
def InitFailure.asStep : InitFailure → StepFailure
  | .valueOverflow => .valueOverflow
  | .countUnderflow => .countUnderflow
  | .formatSpecific => .formatSpecific

/-- The cause a failure of `init` is reported as (60_exceptions.md R262). -/
def InitFailure.cause (e : InitFailure) : Cause := e.asStep.cause

/-- The cause a verification failure is reported as (60_exceptions.md R262). -/
def VerifyFailure.cause : VerifyFailure → Cause
  | .checksumMismatch => .checksumMismatch
  | .markerMismatch => .markerMismatch
  | .first16Mismatch => .first16Mismatch

/-- How `next_chunk` ends (45_decompressor.md R206). A loop inside it that uses up its bound is no failure of it:
70_reset_and_hazards.md R306 wants an outcome of the model's own for that. -/
inductive ChunkEnd where
  | chunk
  | finished
  | failed (c : StepFailure)
  | noProgress
deriving DecidableEq, Repr, Inhabited

/-- A format descriptor (45_decompressor.md R196). `first` and `second` are the readings `parse` tries in order
(46_formats.md R231: only where one falls back on another is there a second). `covers` says whether the descriptor
has a protocol for this input (46_formats.md R227). `extraSteps` is a descriptor's own count of the steps that
re-prime the reader (70_reset_and_hazards.md R306). Log entry 8. -/
structure Descriptor where
  minHeader : Nat
  matchWindow : Window → Bool
  needsDeclared : Bool
  covers : List SubFormat → Window → Bool
  first : Window → Interpretation
  second : Window → Option Interpretation
  chunked : Bool
  init : Window → Script (Option InitFailure)
  step : Window → Script (Option StepFailure)
  chkUpdate : Word → List Byte → Word
  verify : Window → Script (Option VerifyFailure)
  nextChunk : Window → Script ChunkEnd
  extraSteps : Inst → Nat
deriving Inhabited

/-- How the loop of a sub-decompressor ends: the chunk is complete, a failure, or the bound of 70_reset_and_hazards.md
R306 used up. -/
inductive StreamEnd where
  | complete
  | failed (e : StepFailure)
  | noProgress
deriving DecidableEq, Repr, Inhabited

/-- A decoder of the shape of 46_formats.md R222 over a part `[lo, hi)` of the window: how it starts on the part, and
one turn of its loop. -/
structure StreamDecoder where
  start : Word → Word → Window → Script (Option InitFailure)
  step : Window → Script (Option StepFailure)
  extraSteps : Inst → Nat
deriving Inhabited

end Sys2Proof.Machine
end

