-- ==== Sys2Proof/Machine/Magics.lean ====
section
/-!
DEFINITION. The magics of the formats and the bare magic test (46_formats.md R220, R221).
-/
namespace Sys2Proof.Machine

/-- The primary magics of a tag, as `ReadBe32` at offset 0 reads them (46_formats.md R220). -/
def magics (tag : Nat) : List Nat :=
  match tag with
  | 1 => [0x58504B46]
  | 2 => [0x50503230, 0x43484643, 0x44454E21, 0x44585339, 0x482E442E, 0x52565621]
  | 3 => [0x53333030, 0x53333130, 0x53343030, 0x53343031, 0x53343033, 0x53343034, 0x31414D00, 0x32414D00,
          0x5A264721, 0x5A554C55, 0x41595321]
  | 4 => [0x43724D21, 0x43724D32, 0x43726D21, 0x43726D32]
  | 5 => [0x7A695243]
  | _ => []

/-- MMCMP's secondary tag `ONia`, at offset 4 (46_formats.md R220, R221). -/
def secondaryTag : Nat := 0x4F4E6961

/-- `ReadBe32` of the window, if it holds the four bytes. -/
def Window.be32 (w : Window) (off : Nat) : Option Nat := (w.bytes off 4).map bigEndian

/-- The bare magic test (46_formats.md R221). -/
def bareMagic (tag : Nat) (w : Window) : Bool :=
  (match w.be32 0 with
    | some m => (magics tag).contains m
    | none => false) &&
  (tag != 5 || w.be32 4 == some secondaryTag)

end Sys2Proof.Machine
end

