-- ==== Sys2Proof/Machine/CrunchMania.lean ====
section
/-!
DEFINITION. CrunchMania, `FD[4]` (46_formats.md R233): the non-LZH mode decodes its length and distance codes through
fixed tables, the LZH mode builds canonical tables from lengths in the stream.
-/
namespace Sys2Proof.Machine

/-- A fixed code and the table it is built in (42_huffman.md R140). -/
structure FixedCode where
  table : Byte
  incompleteOk : Bool
  width : BitVec 5
  triples : List Triple
deriving DecidableEq, Repr, Inhabited

/-- A canonical code given by its lengths, and the table it is built in (42_huffman.md R133). -/
structure LengthCode where
  table : Byte
  incompleteOk : Bool
  width : BitVec 5
  lengths : List (BitVec 6)
deriving DecidableEq, Repr, Inhabited

/-- Loading triples from an index on (42_huffman.md R132). -/
def loadTriples : List Triple → Nat → Script Unit
  | [], _ => .ret ()
  | t :: ts, i =>
    .issue (.hufSettri (BitVec.ofNat 16 i) t.length t.code t.value) fun _ _ => loadTriples ts (i + 1)

/-- Loading lengths from a symbol on (42_huffman.md R131). -/
def loadLengths : List (BitVec 6) → Nat → Script Unit
  | [], _ => .ret ()
  | l :: ls, i => .issue (.hufSetlen (BitVec.ofNat 16 i) l) fun _ _ => loadLengths ls (i + 1)

/-- A fixed table built from its triples (42_huffman.md R140). That a refused command is passed over is a DESIGN CHOICE, log
entry 27: the table is then as it was, and a decode from one that is not valid is refused in its turn. -/
def buildFixed (c : FixedCode) : Script Unit :=
  (loadTriples c.triples 0).bind fun _ =>
    .issue (.hufFixed c.table c.incompleteOk c.width (word c.triples.length)) fun _ _ => .ret ()

/-- Canonical tables built from their lengths, one after another (42_huffman.md R133); a refused command as above. -/
def buildCanonical : List LengthCode → Script Unit
  | [] => .ret ()
  | c :: cs => (loadLengths c.lengths 0).bind fun _ =>
      .issue (.hufMake c.table c.incompleteOk c.width (word c.lengths.length)) fun _ _ => buildCanonical cs

/-- What a turn of the non-LZH mode comes to before any code is decoded: a literal is out, or a copy follows, with its
length code first or its distance code first. -/
inductive CrunchTurn where
  | emitted
  | copy (distanceFirst : Bool)
  | failed (e : StepFailure)
deriving DecidableEq, Repr, Inhabited

/-- What the spec leaves open of CrunchMania (46_formats.md R233): header layout, which magic means which mode, the fixed
codes, what the two symbols of a copy stand for, the LZH mode's lengths and turns. `copyOf` gives a distance and a
count. Log entry 27. -/
structure CrunchParts where
  minHeader : Nat
  matchMore : Window → Bool
  reading : Interpretation
  lzh : Nat → Bool
  prepare : Window → Script (Option InitFailure)
  lengths : FixedCode
  distances : FixedCode
  turn : Window → Script CrunchTurn
  copyOf : Word → Word → Window → Script (Except StepFailure (Word × Word))
  lzhTables : Window → Script (Except StepFailure (List LengthCode))
  lzhTurn : Window → Script (Option StepFailure)
  chkUpdate : Word → List Byte → Word
  verify : Window → Script (Option VerifyFailure)
  extraSteps : Inst → Nat
deriving Inhabited

/-- The mode, by the magic (46_formats.md R233). -/
def CrunchParts.isLzh (x : CrunchParts) (w : Window) : Bool := x.lzh ((w.be32 0).getD 0)

/-- `init`: the reader, then in the non-LZH mode the fixed tables, built once (46_formats.md R233, 42_huffman.md
R140). That the length code's table is built first, so that its cause is reported where neither can be built, is a DESIGN
CHOICE, log entry 27: R233 gives no order. -/
def crunchInit (x : CrunchParts) (w : Window) : Script (Option InitFailure) :=
  (x.prepare w).bind fun r =>
    match r with
    | some e => .ret (some e)
    | none =>
      if x.isLzh w then .ret none
      else (buildFixed x.lengths).bind fun _ => (buildFixed x.distances).bind fun _ => .ret none

/-- A symbol of a table; no symbol where the command is refused. -/
def symbolOf (table : Byte) : Script (Option Word) :=
  .issue (.hufDecode table) fun accepted inst => .ret (if accepted then some inst.res else none)

/-- A copy of the non-LZH mode: the two codes through the fixed tables, then `OUT.COPY` (46_formats.md R233,
45_decompressor.md R203). -/
def crunchCopy (x : CrunchParts) (distanceFirst : Bool) (w : Window) : Script (Option StepFailure) :=
  (symbolOf (if distanceFirst then x.distances.table else x.lengths.table)).bind fun a =>
    (symbolOf (if distanceFirst then x.lengths.table else x.distances.table)).bind fun b =>
      match a, b with
      | some a, some b =>
        (x.copyOf (if distanceFirst then b else a) (if distanceFirst then a else b) w).bind fun r =>
          match r with
          | .error e => .ret (some e)
          | .ok (distance, count) => .issue (.outCopy distance count) fun _ _ => .ret none
      | _, _ => .ret (some .formatSpecific)

/-- One step (46_formats.md R233): in the LZH mode the tables whose lengths come in the stream are built before the turn
is taken. -/
def crunchStep (x : CrunchParts) (w : Window) : Script (Option StepFailure) :=
  if x.isLzh w then
    (x.lzhTables w).bind fun r =>
      match r with
      | .error e => .ret (some e)
      | .ok codes => (buildCanonical codes).bind fun _ => x.lzhTurn w
  else
    (x.turn w).bind fun r =>
      match r with
      | .emitted => .ret none
      | .copy distanceFirst => crunchCopy x distanceFirst w
      | .failed e => .ret (some e)

/-- `FD[4]`, CrunchMania. -/
def crunchDescriptor (x : CrunchParts) : Descriptor where
  minHeader := x.minHeader
  matchWindow := fun w => bareMagic 4 w && x.matchMore w
  needsDeclared := false
  covers := fun _ _ => true
  first := fun _ => x.reading
  second := fun _ => none
  chunked := false
  init := crunchInit x
  step := crunchStep x
  chkUpdate := x.chkUpdate
  verify := x.verify
  nextChunk := fun _ => .ret .finished
  extraSteps := x.extraSteps

/-- What is open of CrunchMania (decision D28: OPEN). Log entry 27. -/
opaque Config.crunch : CrunchParts

end Sys2Proof.Machine
end

