-- ==== Sys2Proof/Machine/LhLibrary.lean ====
section
/-!
DEFINITION. lh.library, `FD[6]` and XPK's sub-decompressor `Lhlb` (46_formats.md R227, R235): one decoder, over the
whole window or over a chunk's bytes, whose symbols come from an adaptive table (42_huffman.md R147).
-/
namespace Sys2Proof.Machine

/-- What the spec leaves open of lh.library (46_formats.md R235): the control words and output of its header, which
table holds its adaptive code, how the reader is set up and whether a table that stands is begun afresh, what one
decoded symbol does, the checksums. Log entry 31. -/
structure LhParts where
  minHeader : Nat
  reading : Interpretation
  table : Byte
  prepare : Word → Word → Window → Script (Except InitFailure Bool)
  onSymbol : Word → Window → Script (Option StepFailure)
  chkUpdate : Word → List Byte → Word
  verify : Window → Script (Option VerifyFailure)
  extraSteps : Inst → Nat
deriving Inhabited

/-- The table is valid and adaptive. -/
def Inst.adaptiveAt (s : Inst) (t : Byte) : Bool :=
  match Memory.get s.ht t.toNat with
  | some table => table.mode == .adaptive
  | none => false

/-- The start of the decoder: the reader over its part of the window, then the adaptive table (46_formats.md R235),
begun afresh where none stands; between the chunks of one container it is state carried on (R227). -/
def lhStart (x : LhParts) (lo hi : Word) (w : Window) : Script (Option InitFailure) :=
  (x.prepare lo hi w).bind fun r =>
    match r with
    | .error e => .ret (some e)
    | .ok afresh => .look fun inst =>
      if afresh || !inst.adaptiveAt x.table then
        .issue (.hufAdapt x.table) fun accepted _ => .ret (if accepted then none else some .formatSpecific)
      else .ret none

/-- One turn: a symbol of the adaptive table (46_formats.md R235, 45_decompressor.md R203), then what it stands for. -/
def lhStep (x : LhParts) (w : Window) : Script (Option StepFailure) :=
  .issue (.hufDecode x.table) fun accepted inst =>
    if accepted then x.onSymbol inst.res w else .ret (some .formatSpecific)

/-- The decoder of lh.library. -/
def lhDecoder (x : LhParts) : StreamDecoder where
  start := lhStart x
  step := lhStep x
  extraSteps := x.extraSteps

/-- `FD[6]`: no magic, a declared raw size, the whole window as the packed stream (46_formats.md R235). -/
def lhDescriptor (x : LhParts) : Descriptor where
  minHeader := x.minHeader
  matchWindow := fun _ => true
  needsDeclared := true
  covers := fun _ _ => true
  first := fun _ => x.reading
  second := fun _ => none
  chunked := false
  init := fun w => (lhDecoder x).start 0 (word w.size) w
  step := (lhDecoder x).step
  chkUpdate := x.chkUpdate
  verify := x.verify
  nextChunk := fun _ => .ret .finished
  extraSteps := x.extraSteps

/-- What is open of lh.library (decision D28: OPEN). Log entry 31. -/
opaque Config.lhLibrary : LhParts

end Sys2Proof.Machine
end

