-- ==== Sys2Proof/Machine/Xpk.lean ====
section
/-!
DEFINITION. XPK, `FD[1]` (46_formats.md R223 to R227).
-/
namespace Sys2Proof.Machine

/-- What a chunk's header says of it: type, offset of its data in the window, byte count there and byte count once
decoded (46_formats.md R224; for a raw chunk the two counts are one). -/
structure XpkChunk where
  type : Nat
  off : Word
  size : Word
  rawSize : Word
deriving DecidableEq, Repr, Inhabited

/-- What the spec leaves open of XPK (46_formats.md R223 to R227): header and chunk header layouts, the type numbers
of compressed chunks, the checksums, the sub-decompressors. `subFormat` gives one of the eight names of R227 or none: that a
container which names anything else is taken as one that names none is a DESIGN CHOICE, for the rule speaks of no ninth
name. That the chunk's header, the checksums and the stored bytes are read without a failure of the descriptor's own, and
fail only in a command they issue, is a DESIGN CHOICE too. Log entry 12. -/
structure XpkParts where
  minHeader : Nat
  matchMore : Window → Bool
  header : Interpretation
  chkUpdate : Word → List Byte → Word
  subFormat : Window → Option SubFormat
  headerChecksumHolds : Window → Script Bool
  chunkHeader : Window → Script XpkChunk
  isCompressed : Nat → Bool
  sub : SubFormat → StreamDecoder
  chunkChecksumHolds : XpkChunk → Window → Script Bool
  storedFirst16 : Window → Script (List Byte)
  extraSteps : Inst → Nat
deriving Inhabited

/-- The sub-decompressor of a name: `Lhlb` is lh.library (46_formats.md R227, R235), the others are open. -/
def xpkSub (x : XpkParts) : SubFormat → StreamDecoder
  | .lhlb => lhDecoder Config.lhLibrary
  | name => x.sub name

/-- A raw chunk copied to the output verbatim, byte by byte (46_formats.md R225); `p + i` is a `Sum`, so an offset
that would overflow is out of range and not wrapped (40_buffer.md R89). -/
def copyRawChunk : Nat → Nat → Script Unit
  | 0, _ => .ret ()
  | n + 1, p => .issue (.bufRd8 (word (sum p 0).1)) fun _ inst =>
      .issue (.outWritebyte (inst.res.setWidth 8)) fun _ _ => copyRawChunk n (p + 1)

/-- The loop of a sub-decompressor: steps until so many bytes have been produced in all, in at most so many turns. A
sub-decompressor not known to meet obligation (d) of 45_decompressor.md R203 may use them up, which is no failure
(70_reset_and_hazards.md R306). That a last step which produces more than was left completes the chunk, the surplus
delivered with it, is a DESIGN CHOICE, log entry 12. -/
def streamLoop (d : StreamDecoder) (w : Window) (goal : Nat) : Nat → Script StreamEnd
  | 0 => .look fun inst => .ret (if goal ≤ inst.produced then .complete else .noProgress)
  | turns + 1 => .look fun inst =>
      if goal ≤ inst.produced then .ret .complete
      else (d.step w).bind fun r =>
        match r with
        | some e => .ret (.failed e)
        | none => streamLoop d w goal turns

/-- A compressed chunk: its bytes are handed to the sub-decompressor (46_formats.md R224, R227), which starts on them and
takes steps until the chunk's decoded size has been produced, under the bound that 70_reset_and_hazards.md R306 puts on a
decode, with the chunk's size for the raw size (log entry 18). The end of the bytes is a `Sum` (40_buffer.md R89). -/
def decompressChunk (d : StreamDecoder) (c : XpkChunk) (w : Window) : Script StreamEnd :=
  let finish := sum c.off.toNat c.size.toNat
  if finish.2 then .ret (.failed .valueOverflow)
  else .look fun before => (d.start c.off (word finish.1) w).bind fun r =>
    match r with
    | some e => .ret (.failed e.asStep)
    | none => .look fun inst =>
      streamLoop d w (before.produced + c.rawSize.toNat) (c.rawSize.toNat + 8 * w.size + 32 + d.extraSteps inst)

/-- The bytes of a chunk by its type (46_formats.md R224): 0 raw, compressed by the container's sub-decompressor
(R227), any other type a failure. -/
def xpkChunkBody (x : XpkParts) (c : XpkChunk) (w : Window) : Script StreamEnd :=
  if c.type = 0 then (copyRawChunk c.size.toNat c.off.toNat).bind fun _ => .ret .complete
  else if x.isCompressed c.type then
    match x.subFormat w with
    | some name => decompressChunk (xpkSub x name) c w
    | none => .ret (.failed .formatSpecific)
  else .ret (.failed .formatSpecific)

/-- A chunk that is not the terminator: decoded, run through `chk_update`, its checksum verified before it is
delivered (46_formats.md R225, R226). -/
def xpkDeliver (x : XpkParts) (c : XpkChunk) (w : Window) : Script ChunkEnd :=
  .look fun before => (xpkChunkBody x c w).bind fun r =>
    match r with
    | .failed e => .ret (.failed e)
    | .noProgress => .ret .noProgress
    | .complete => .look fun after =>
      .setChk (x.chkUpdate after.chk (after.writtenSince before.produced))
        ((x.chunkChecksumHolds c w).bind fun holds => .ret (if holds then .chunk else .failed .checksumMismatch))

/-- `next_chunk` of XPK (46_formats.md R224): the header checksum at the first chunk (R226), then the chunk; type 15
is the terminator. -/
def xpkNextChunk (x : XpkParts) (w : Window) : Script ChunkEnd :=
  .look fun inst =>
    (if inst.chunkIdx = 0 then x.headerChecksumHolds w else .ret true).bind fun headerHolds =>
      if headerHolds then
        (x.chunkHeader w).bind fun c => if c.type = 15 then .ret .finished else xpkDeliver x c w
      else .ret (.failed .checksumMismatch)

/-- The first `min(16, RAW_SIZE)` bytes of the output (46_formats.md R223). -/
def Inst.first16 (s : Inst) : List Byte :=
  (List.range (min 16 s.rawSize.toNat)).map fun i => (Memory.get s.out i).getD 0

/-- `verify` of XPK: the first 16 bytes against the copy in the header (46_formats.md R223). -/
def xpkVerify (x : XpkParts) (w : Window) : Script (Option VerifyFailure) :=
  (x.storedFirst16 w).bind fun stored => .look fun inst =>
    .ret (if stored.take (min 16 inst.rawSize.toNat) = inst.first16 then none else some .first16Mismatch)

/-- The window passes checks 1 and 2 of 45_decompressor.md R198 and so is an XPK container, which 46_formats.md R227
speaks of; what is no container is left to `parse`. -/
def xpkContainer (x : XpkParts) (w : Window) : Bool :=
  decide (x.minHeader ≤ w.size) && (bareMagic 1 w && x.matchMore w)

/-- `FD[1]`, XPK: the only chunked format, its output a forward stream (46_formats.md R223, 45_decompressor.md R206);
a container whose sub-decompressor is not held is not covered (46_formats.md R227). That one which names none of the eight
is covered, and decoded up to its first compressed chunk, is a DESIGN CHOICE, log entry 12. -/
def xpkDescriptor (x : XpkParts) : Descriptor where
  minHeader := x.minHeader
  matchWindow := fun w => bareMagic 1 w && x.matchMore w
  needsDeclared := false
  covers := fun held w =>
    match x.subFormat w with
    | some name => !xpkContainer x w || held.contains name
    | none => true
  first := fun _ =>
    { header := fun d w => (x.header.header d w).bind fun h => .ret { h with outDir := .forward }
      fieldsLegal := x.header.fieldsLegal }
  second := fun _ => none
  chunked := true
  init := fun _ => .ret none
  step := fun _ => .ret none
  chkUpdate := x.chkUpdate
  verify := xpkVerify x
  nextChunk := xpkNextChunk x
  extraSteps := x.extraSteps

/-- What is open of XPK (decision D28: OPEN). Log entry 12. -/
opaque Config.xpk : XpkParts

end Sys2Proof.Machine
end

