-- ==== Sys2Proof/Machine/Fixtures.lean ====
section
/-!
DEFINITION. Descriptors that no hardware has, held where a configuration says so: the spec's own test-only one
(95_test_vectors.md section 10) and a choice of XPK's open parts, with which a whole chunked decode can be run.
-/
namespace Sys2Proof.Machine

/-! ## The test-only descriptor of the spec (95_test_vectors.md section 10) -/

/-- `parse` of `TOY`: `rawSize = ReadBe32(4)`, `packedSize = ReadBe32(8)`, `packedOffset = 12`; check 6 wants the
checksum byte after the packed data. -/
def toyInterpretation : Interpretation where
  header := fun _ _ =>
    .issue (.bufRdbe32 4) fun _ a => .issue (.bufRdbe32 8) fun _ b =>
      .ret { rawSize := a.res, packedSize := b.res, packedOffset := 12, gen := 0, ctrl := [],
             outDir := .forward, outWindow := 0 }
  fieldsLegal := fun h w => .ret (decide (12 + h.packedSize.toNat + 1 ≤ w.size))

/-- `init` of `TOY`. -/
def toyInit : Script (Option InitFailure) :=
  .look fun inst =>
    .issue (.brInit .msbFirst .forward 0 .bigEndian false 12 (word (sum 12 inst.packedSize.toNat).1)) fun _ _ => .ret none

/-- `step` of `TOY`: a literal byte after a 0 bit, a copy after a 1 bit. -/
def toyStep : Script (Option StepFailure) :=
  .issue (.brRead 1) fun _ f =>
    if f.res = 0 then
      .issue (.brRead 8) fun _ b => .issue (.outWritebyte (b.res.setWidth 8)) fun _ _ => .ret none
    else
      .issue (.brRead 4) fun _ d => .issue (.brRead 4) fun _ c =>
        .issue (.outCopy (d.res + 1) (c.res + 1)) fun _ _ => .ret none

/-- `chk_update` of `TOY`: the bytes XORed into the low byte. -/
def xorBytes (chk : Word) (bs : List Byte) : Word := bs.foldl (fun c b => c ^^^ b.setWidth 32) chk

/-- `verify` of `TOY`: the low byte of `CHK` against the byte after the packed data. -/
def toyVerify : Script (Option VerifyFailure) :=
  .look fun inst => .issue (.bufRd8 (word (sum 12 inst.packedSize.toNat).1)) fun _ b =>
    .ret (if inst.chk.setWidth 8 = (b.res.setWidth 8 : Byte) then none else some .checksumMismatch)

/-- `TOY`, "a test fixture ..., not a format of the hardware" (95_test_vectors.md section 10), with the magic it wants
as an argument because program P7 holds it under two. Log entry 14. -/
def toyDescriptor (magic : Nat) : Descriptor where
  minHeader := 12
  matchWindow := fun w => w.be32 0 == some magic
  needsDeclared := false
  covers := fun _ _ => true
  first := fun _ => toyInterpretation
  second := fun _ => none
  chunked := false
  init := fun _ => toyInit
  step := fun _ => toyStep
  chkUpdate := xorBytes
  verify := fun _ => toyVerify
  nextChunk := fun _ => .ret .finished
  extraSteps := fun _ => 0

/-! ## A fixture for XPK -/

/-- The header of the fixture: `XPKF`, raw size, packed size, the first 16 decompressed bytes, a checksum byte. -/
def fixtureHeader : Interpretation where
  header := fun _ _ =>
    .issue (.bufRdbe32 4) fun _ a => .issue (.bufRdbe32 8) fun _ b =>
      .ret { rawSize := a.res, packedSize := b.res, packedOffset := 29, gen := 0, ctrl := [],
             outDir := .forward, outWindow := 0 }
  fieldsLegal := fun _ _ => .ret true

/-- A chunk header of the fixture, at the low end of the reader's stream or, before the first, at 29: type, byte count,
checksum byte, then the bytes. -/
def fixtureChunk : Script XpkChunk :=
  .look fun inst =>
    let p := if inst.brCfg.valid then inst.isLo.toNat else 29
    .issue (.bufRd8 (word (sum p 0).1)) fun _ t => .issue (.bufRd8 (word (sum p 1).1)) fun _ n =>
      .ret { type := t.res.toNat, off := word (sum p 3).1, size := n.res, rawSize := n.res }

/-- The checksum of a chunk of the fixture, the low byte of `CHK`; then the stream begins after the chunk. -/
def fixtureChunkChecksum (c : XpkChunk) : Script Bool :=
  .look fun inst =>
    .issue (.bufRd8 (c.off - 1)) fun _ b =>
      .issue (.brInit .msbFirst .forward 0 .bigEndian false (word (sum c.off.toNat c.size.toNat).1)
          (word (sum 29 inst.packedSize.toNat).1)) fun _ _ =>
        .ret (inst.chk.setWidth 8 == (b.res.setWidth 8 : Byte))

/-- XPK's open parts as the fixture chooses them; it has no compressed chunks. DESIGN CHOICE: no hardware has it, and it
stands under a tag of its own. Log entry 33. -/
def fixtureParts : XpkParts where
  minHeader := 29
  matchMore := fun _ => true
  header := fixtureHeader
  chkUpdate := xorBytes
  subFormat := fun _ => none
  headerChecksumHolds := fun w => .look fun inst =>
    .ret (w.byte 28 == some ((inst.rawSize + inst.packedSize).setWidth 8))
  chunkHeader := fun _ => fixtureChunk
  isCompressed := fun _ => false
  sub := fun _ => default
  chunkChecksumHolds := fun c _ => fixtureChunkChecksum c
  storedFirst16 := fun w => .ret ((w.bytes 12 16).getD [])
  extraSteps := fun _ => 0

end Sys2Proof.Machine
end

