-- ==== Sys2Proof/Machine/Mmcmp.lean ====
section
/-!
DEFINITION. MMCMP, `FD[5]` (46_formats.md R234): blocks with addresses and sizes in the header, each with a checksum
that is verified as the block completes, and where the decode ends within a block at its end (45_decompressor.md R204).
-/
namespace Sys2Proof.Machine

/-- A block: where its packed bytes lie in the window, which bytes of the output it makes (46_formats.md R234). -/
structure MmcmpBlock where
  addr : Word
  size : Word
  rawStart : Nat
  rawSize : Nat
deriving DecidableEq, Repr, Inhabited

/-- The configuration a block's reader gets. -/
structure BlockReader where
  order : BitOrder
  dir : Direction
  rw : BitVec 2
  wend : ByteOrder
  rot : Bool
deriving DecidableEq, Repr, Inhabited

/-- What the spec leaves open of MMCMP (46_formats.md R234): the header and the list of blocks it gives, what else it
checks, how a block is begun and decoded, the block checksum. That the checksum is read without a failure of the
descriptor's own, and fails only in a command it issues, is a DESIGN CHOICE. Log entry 32. -/
structure MmcmpParts where
  minHeader : Nat
  matchMore : Window → Bool
  reading : Interpretation
  blocks : Window → List MmcmpBlock
  prepare : Window → Script (Option InitFailure)
  begins : Inst → MmcmpBlock → Bool
  reader : MmcmpBlock → BlockReader
  turn : MmcmpBlock → Window → Script (Option StepFailure)
  blockChecksumHolds : MmcmpBlock → List Byte → Window → Script Bool
  chkUpdate : Word → List Byte → Word
  verify : Window → Script (Option VerifyFailure)
  extraSteps : Inst → Nat
deriving Inhabited

/-- Every block's address and size, added by `OVF.SUM` before the sum is compared with the window (46_formats.md R234,
40_buffer.md R89). -/
def blocksLegal (w : Window) : List MmcmpBlock → Script Bool
  | [] => .ret true
  | b :: bs => .issue (.ovfSum false b.addr b.size) fun _ inst =>
      if inst.ovf || decide (w.size < inst.res.toNat) then .ret false else blocksLegal w bs

/-- The block that makes the next byte of the output. -/
def blockAt (bs : List MmcmpBlock) (produced : Nat) : Option MmcmpBlock :=
  bs.find? fun b => decide (b.rawStart ≤ produced ∧ produced < b.rawStart + b.rawSize)

/-- A block is begun: its end is a `Sum`, and the reader is put over its bytes (46_formats.md R234). -/
def beginBlock (x : MmcmpParts) (b : MmcmpBlock) : Script (Option StepFailure) :=
  .issue (.ovfSum false b.addr b.size) fun _ inst =>
    if inst.ovf then .ret (some .valueOverflow)
    else
      let r := x.reader b
      .issue (.brInit r.order r.dir r.rw r.wend r.rot b.addr inst.res) fun accepted _ =>
        .ret (if accepted then none else some .formatSpecific)

/-- The blocks that a step completes which takes the bytes produced from `before` to `after`: the last byte of the block is
among them. That a block of no bytes at the start of the output, which has no last byte, completes with the first byte of
the output is a DESIGN CHOICE, log entry 32: 45_decompressor.md R204 does not say when. -/
def completedBlocks (before after : Nat) (bs : List MmcmpBlock) : List MmcmpBlock :=
  bs.filter fun b => decide (before < after ∧ (before < b.rawStart + b.rawSize ∨ before = 0)
    ∧ b.rawStart + b.rawSize ≤ after)

/-- The blocks that are not complete when so many bytes have been produced. -/
def openBlocks (produced : Nat) (bs : List MmcmpBlock) : List MmcmpBlock :=
  bs.filter fun b => decide (produced < b.rawStart + b.rawSize)

/-- Whether the checksums of these blocks hold, each over the bytes of the output that the block has made
(46_formats.md R234). -/
def blocksHold (x : MmcmpParts) (w : Window) : List MmcmpBlock → Script Bool
  | [] => .ret true
  | b :: bs => .look fun inst =>
      (x.blockChecksumHolds b ((inst.writtenSince b.rawStart).take b.rawSize) w).bind fun holds =>
        if holds then blocksHold x w bs else .ret false

/-- `init`: it writes no output, since 45_decompressor.md R196 has it set up the reader and the tables, so every block
completes in a step; a `prepare` that did write would fail (log entry 32). -/
def mmcmpInit (x : MmcmpParts) (w : Window) : Script (Option InitFailure) :=
  (x.prepare w).bind fun r =>
    match r with
    | some e => .ret (some e)
    | none => .look fun inst => .ret (if inst.produced = 0 then none else some .formatSpecific)

/-- One step: the block that is due is begun where it is new, one turn of it is taken, and the blocks that this completes
are verified (46_formats.md R234, 45_decompressor.md R204). Where no block makes the next byte the stream is
inconsistent. That a turn which writes past the end of its block is accepted, its further bytes counted as those of the
blocks whose ranges they fall in, is a DESIGN CHOICE, log entry 32. -/
def mmcmpStep (x : MmcmpParts) (w : Window) : Script (Option StepFailure) :=
  .look fun before =>
    match blockAt (x.blocks w) before.produced with
    | none => .ret (some .formatSpecific)
    | some b =>
      (if x.begins before b then beginBlock x b else .ret none).bind fun r =>
        match r with
        | some e => .ret (some e)
        | none => (x.turn b w).bind fun r =>
          match r with
          | some e => .ret (some e)
          | none => .look fun after =>
            (blocksHold x w (completedBlocks before.produced after.produced (x.blocks w))).bind fun holds =>
              .ret (if holds then none else some .checksumMismatch)

/-- `verify`: the blocks that the end of the output leaves incomplete, which no step has verified, then what else the format
checks. That such a block is verified over the bytes it has made, and before what else the format checks, so that its
ChecksumMismatch is reported where both fail, are DESIGN CHOICES, log entry 32. -/
def mmcmpVerify (x : MmcmpParts) (w : Window) : Script (Option VerifyFailure) :=
  .look fun inst => (blocksHold x w (openBlocks inst.produced (x.blocks w))).bind fun holds =>
    if holds then x.verify w else .ret (some .checksumMismatch)

/-- The readings of an MMCMP header, its block table checked (46_formats.md R234, 45_decompressor.md R198 check 6). -/
def mmcmpReading (x : MmcmpParts) : Interpretation where
  header := x.reading.header
  fieldsLegal := fun h w => (blocksLegal w (x.blocks w)).bind fun legal =>
    if legal then x.reading.fieldsLegal h w else .ret false

/-- `FD[5]`, MMCMP. -/
def mmcmpDescriptor (x : MmcmpParts) : Descriptor where
  minHeader := x.minHeader
  matchWindow := fun w => bareMagic 5 w && x.matchMore w
  needsDeclared := false
  covers := fun _ _ => true
  first := fun _ => mmcmpReading x
  second := fun _ => none
  chunked := false
  init := mmcmpInit x
  step := mmcmpStep x
  chkUpdate := x.chkUpdate
  verify := mmcmpVerify x
  nextChunk := fun _ => .ret .finished
  extraSteps := x.extraSteps

/-- What is open of MMCMP (decision D28: OPEN). Log entry 32. -/
opaque Config.mmcmp : MmcmpParts

end Sys2Proof.Machine
end

