-- ==== Sys2Proof/Machine/StoneCracker.lean ====
section
/-!
DEFINITION. StoneCracker, `FD[3]` (46_formats.md R229 to R232).
-/
namespace Sys2Proof.Machine

/-- The eight generations (46_formats.md R229: "an enum selecting one of eight pure decode functions"). -/
inductive Generation where
  | gen1
  | gen2
  | gen3
  | gen4
  | gen5
  | gen6
  | gen7
  | gen8
deriving DecidableEq, Repr, Inhabited

/-- What `GEN` holds for a generation, 1 to 8 (46_formats.md R229). -/
def Generation.number : Generation → Byte
  | .gen1 => 1
  | .gen2 => 2
  | .gen3 => 3
  | .gen4 => 4
  | .gen5 => 5
  | .gen6 => 6
  | .gen7 => 7
  | .gen8 => 8

/-- What a magic selects: a generation, or, where it is ambiguous, generation 2 or else generation 1 (46_formats.md R229,
R231). -/
inductive Selection where
  | generation (g : Generation)
  | twoOrOne
deriving DecidableEq, Repr, Inhabited

/-- What the spec leaves open of StoneCracker: which magic selects what, each generation's reading of the header, and the
eight decode functions (46_formats.md R229). Log entry 13. -/
structure StoneParts where
  minHeader : Nat
  matchMore : Window → Bool
  selects : Nat → Selection
  reading : Generation → Interpretation
  init : Nat → Window → Script (Option InitFailure)
  step : Nat → Window → Script (Option StepFailure)
  chkUpdate : Word → List Byte → Word
  verify : Nat → Window → Script (Option VerifyFailure)
  extraSteps : Inst → Nat
deriving Inhabited

/-- Generation 6's mandatory `count++` on every copy its step issues; an overflow of the count is
`Decompression(ValueOverflow)` (46_formats.md R230). -/
def correctCounts : Script (Option StepFailure) → Script (Option StepFailure)
  | .ret r => .ret r
  | .look next => .look fun inst => correctCounts (next inst)
  | .setChk v next => .setChk v (correctCounts next)
  | .issue (.outCopy distance count) next =>
    if (sum count.toNat 1).2 then .ret (some .valueOverflow)
    else .issue (.outCopy distance (word (sum count.toNat 1).1)) fun accepted inst => correctCounts (next accepted inst)
  | .issue i next => .issue i fun accepted inst => correctCounts (next accepted inst)

/-- The selection that the magic of a window makes, and nothing else of it (46_formats.md R229). -/
def StoneParts.selection (x : StoneParts) (w : Window) : Selection := x.selects ((w.be32 0).getD 0)

/-- The reading of a header as one of a generation, which `GEN` then holds (46_formats.md R229, R231). -/
def StoneParts.readingOf (x : StoneParts) (g : Generation) : Interpretation where
  header := fun d w => ((x.reading g).header d w).bind fun h => .ret { h with gen := g.number }
  fieldsLegal := (x.reading g).fieldsLegal

/-- The decode function of a generation; generation 6 with its count correction (46_formats.md R229, R230). -/
def stoneStep (x : StoneParts) (gen : Nat) (w : Window) : Script (Option StepFailure) :=
  if gen = 6 then correctCounts (x.step gen w) else x.step gen w

/-- `FD[3]`, StoneCracker: the magic selects the generation and `GEN` one of eight decode functions (46_formats.md R229), the
count correction of generation 6 (R230), and the fallback from generation 2 to generation 1 where the magic is ambiguous (R231). -/
def stoneDescriptor (x : StoneParts) : Descriptor where
  minHeader := x.minHeader
  matchWindow := fun w => bareMagic 3 w && x.matchMore w
  needsDeclared := false
  covers := fun _ _ => true
  first := fun w =>
    match x.selection w with
    | .generation g => x.readingOf g
    | .twoOrOne => x.readingOf .gen2
  second := fun w =>
    match x.selection w with
    | .generation _ => none
    | .twoOrOne => some (x.readingOf .gen1)
  chunked := false
  init := fun w => .look fun inst => x.init inst.gen.toNat w
  step := fun w => .look fun inst => stoneStep x inst.gen.toNat w
  chkUpdate := x.chkUpdate
  verify := fun w => .look fun inst => x.verify inst.gen.toNat w
  nextChunk := fun _ => .ret .finished
  extraSteps := x.extraSteps

/-- What is open of StoneCracker (decision D28: OPEN). Log entry 13. -/
opaque Config.stone : StoneParts

end Sys2Proof.Machine
end

