-- ==== Sys2Proof/Machine/Formats.lean ====
section
/-!
DEFINITION. The format descriptors `FD[fmt]` by their tags (46_formats.md R220). What the spec leaves open of a
descriptor is a constant with no body; what it states of every descriptor, or of one format's, is built round it in the
file of the format.
-/
namespace Sys2Proof.Machine

/-- What is open of the PowerPacker family (decision D28: OPEN). Log entry 8. -/
opaque Config.powerPacker : Descriptor

/-- `FD[2]`, the PowerPacker family: six magics select one decoder, of which the spec says no more (46_formats.md R228).
What holds of every descriptor is held of it: its match tests never less than the magic (R221), only XPK is chunked
(R223), only lh.library takes a declared size (R235), it has one reading of a header (R231). -/
def plainDescriptor (tag : Nat) (d : Descriptor) : Descriptor :=
  { d with
    matchWindow := fun w => bareMagic tag w && d.matchWindow w
    needsDeclared := false
    covers := fun _ _ => true
    second := fun _ => none
    chunked := false }

/-- `FD[fmt]` (45_decompressor.md R196; tags of 46_formats.md R220; 0x7D, 0x7E and 0x7F are the test-only ones). The
last arm is the tag 2 and, for totality, every number that is no tag. -/
def format (fmt : Byte) : Descriptor :=
  match fmt.toNat with
  | 1 => xpkDescriptor Config.xpk
  | 3 => stoneDescriptor Config.stone
  | 4 => crunchDescriptor Config.crunch
  | 5 => mmcmpDescriptor Config.mmcmp
  | 6 => lhDescriptor Config.lhLibrary
  | 0x7D => xpkDescriptor fixtureParts
  | 0x7E => toyDescriptor 0x544F5932
  | 0x7F => toyDescriptor 0x544F5931
  | tag => plainDescriptor tag Config.powerPacker

/-- The tags that can name a descriptor: those of 46_formats.md R220 and the three test-only ones. -/
def formatTag (fmt : Byte) : Bool :=
  (decide (1 ≤ fmt.toNat) && decide (fmt.toNat ≤ 6)) || fmt.toNat == 0x7D || fmt.toNat == 0x7E || fmt.toNat == 0x7F

/-- The model holds `FD[fmt]` (45_decompressor.md R196: "a model without a descriptor for `fmt`"). -/
def State.holds (s : State) (fmt : Byte) : Bool := formatTag fmt && s.setup.heldFormats.contains fmt

end Sys2Proof.Machine
end

