-- ==== Sys2Proof/Machine/Output.lean ====
section
/-!
DEFINITION. The output stream family (44_output.md R171 to R178).
-/
namespace Sys2Proof.Machine

/-- `OUT.INIT dir, rawSize, window` (44_output.md R171); also the last act of a successful `DEC.CREATE`. -/
def outInit (dir : Direction) (rawSize window : Word) (s : State) : Run (Option Word) :=
  if s.outValid then .illegal
  else if rawSize = 0 then .raised .zeroSize s
  else if s.setup.maxRawSize.toNat < rawSize.toNat then .raised .sizeExceedsMax s
  else complete { s with
    rawSize := rawSize
    outDir := dir
    outWin := window
    out := []
    outCur := (match dir with
      | .forward => 0
      | .backward => rawSize)
    outValid := true }

/-- `OUT.WRITEBYTE b` (44_output.md R172). -/
def outWritebyte (b : Byte) (s : State) : Run (Option Word) :=
  if s.outValid = false then .illegal
  else if s.eof then .raised .outputOverrun s
  else complete (s.put b)

/-- `OUT.COPY distance, count` (44_output.md R173 to R176): every check comes before the first byte. -/
def outCopy (distance count : Word) (s : State) : Run (Option Word) :=
  if s.outValid = false then .illegal
  else if distance = 0 then .raised .copyDistance s
  else if s.outWin = 0 && decide (s.produced < distance.toNat) then .raised .copyDistance s
  else if s.outWin != 0 && decide (s.outWin.toNat < distance.toNat) then .raised .copyDistance s
  else if !sumLe s.produced count.toNat s.rawSize.toNat then .raised .outputOverrun s
  else complete (State.copy distance.toNat count.toNat s)

/-- `OUT.EOF` (44_output.md R177). -/
def outEof (s : State) : Run (Option Word) :=
  if s.outValid = false then .illegal else result (if s.eof then 1 else 0) s

/-- `OUT.RD8 index` (44_output.md R178): in Decoding only of a chunked decode. -/
def outRd8 (index : Word) (s : State) : Run (Option Word) :=
  if s.outValid = false then .illegal
  else if s.fsm = .decoding && !(format s.fmt).chunked then .illegal
  else if s.rawSize.toNat ≤ index.toNat then .illegal
  else
    match Memory.get s.out index.toNat with
    | some b => result (b.setWidth 32) s
    | none => .illegal

/-- `OUT.INIT` (44_output.md R171). -/
def execOutInit (dir : Direction) (rawSize window : Word) (s : State) : Host.Outcome State Fault Refusal :=
  hostCommand .outInit (outInit dir rawSize window) s

/-- `OUT.WRITEBYTE` (44_output.md R172). -/
def execOutWritebyte (b : Byte) (s : State) : Host.Outcome State Fault Refusal :=
  hostCommand .outWrite (outWritebyte b) s

/-- `OUT.COPY` (44_output.md R173 to R176). -/
def execOutCopy (distance count : Word) (s : State) : Host.Outcome State Fault Refusal :=
  hostCommand .outWrite (outCopy distance count) s

/-- `OUT.EOF` (44_output.md R177). -/
def execOutEof (s : State) : Host.Outcome State Fault Refusal := hostCommand .outEof outEof s

/-- `OUT.RD8` (44_output.md R178). -/
def execOutRd8 (index : Word) (s : State) : Host.Outcome State Fault Refusal := hostCommand .outRead (outRd8 index) s

end Sys2Proof.Machine
end

