-- ==== Sys2Proof/Machine/System.lean ====
section
/-!
DEFINITION. The system family: `RESET` (70_reset_and_hazards.md R290) and `STATUS` (45_decompressor.md R193).
-/
namespace Sys2Proof.Machine

/-- `RESET` (70_reset_and_hazards.md R290). -/
def execReset (s : State) : Host.Outcome State Fault Refusal :=
  hostCommand .system (fun s => complete s.restarted) s

/-- `STATUS` (45_decompressor.md R193). -/
def execStatus (s : State) : Host.Outcome State Fault Refusal :=
  hostCommand .system (fun s => result (statusWord s.fsm s.err s.errInfo) s) s

end Sys2Proof.Machine
end

