-- ==== Sys2Proof/Machine/Vlc.lean ====
section
/-!
DEFINITION. The variable-length-code family (43_vlc.md R161 to R163).
-/
namespace Sys2Proof.Machine

/-- `VLC.SET index, bits, base` (43_vlc.md R161). -/
def vlcSet (index : Byte) (bits : BitVec 6) (base : Word) (s : State) : Run (Option Word) :=
  if Config.vlcMax ≤ index.toNat || decide (32 < bits.toNat) then .illegal
  else complete { s with
    vlcBase := Memory.set s.vlcBase index.toNat base
    vlcBits := Memory.set s.vlcBits index.toNat bits }

/-- `VLC.SETN N` (43_vlc.md R162). -/
def vlcSetn (n : Byte) (s : State) : Run (Option Word) :=
  if Config.vlcMax ≤ n.toNat then .illegal
  else if (Memory.prefixOf s.vlcBase (n.toNat + 1)).isNone || (Memory.prefixOf s.vlcBits (n.toNat + 1)).isNone then
    .illegal
  else complete { s with vlcN := BitVec.ofNat 7 n.toNat }

/-- `VLC.DECODE index` (43_vlc.md R163). An entry up to `VLC_N` is written (R162), so the last arm is out of
reach; there the command is refused as every read of an unwritten entry is (70_reset_and_hazards.md R291). -/
def vlcDecode (index : Word) (s : State) : Run (Option Word) :=
  if s.vlcN = vlcNone || s.brCfg.valid = false then .illegal
  else if s.vlcN.toNat < index.toNat then .raised .vlcIndex s
  else
    match Memory.get s.vlcBase index.toNat, Memory.get s.vlcBits index.toNat with
    | some base, some bits =>
      (readBits bits.toNat s).andThen fun x s =>
        let v := sum base.toNat x
        if v.2 then .raised .valueOverflow s else result (word v.1) s
    | _, _ => .illegal

/-- `VLC.SET` (43_vlc.md R161). -/
def execVlcSet (index : Byte) (bits : BitVec 6) (base : Word) (s : State) : Host.Outcome State Fault Refusal :=
  hostCommand .tool (vlcSet index bits base) s

/-- `VLC.SETN` (43_vlc.md R162). -/
def execVlcSetn (n : Byte) (s : State) : Host.Outcome State Fault Refusal := hostCommand .tool (vlcSetn n) s

/-- `VLC.DECODE` (43_vlc.md R163). -/
def execVlcDecode (index : Word) (s : State) : Host.Outcome State Fault Refusal := hostCommand .tool (vlcDecode index) s

end Sys2Proof.Machine
end

