-- ==== Sys2Proof/Machine/Decompressor.lean ====
section
/-!
DEFINITION. The decompressor family (45_decompressor.md R196 to R207): the format sequencer's use of the toolkit,
`DEC.CREATE`, `DEC.GETRAWSIZE`, `DEC.DECOMPRESS`, `DEC.NEXTCHUNK`.
-/
namespace Sys2Proof.Machine

/-! ## The format sequencer -/

/-- The commands of the toolkit, as both issuers run them. The others are never accepted from the sequencer
(45_decompressor.md R192). -/
def toolkit (i : Instr) (s : State) : Run (Option Word) :=
  match i with
  | .bufSize => bufSize s
  | .bufRd8 off => bufRead 1 .bigEndian off s
  | .bufRdbe16 off => bufRead 2 .bigEndian off s
  | .bufRdbe32 off => bufRead 4 .bigEndian off s
  | .bufRdle16 off => bufRead 2 .littleEndian off s
  | .bufRdle32 off => bufRead 4 .littleEndian off s
  | .bufGetdata off len => bufGetdata off len s
  | .bufSlrd8 i => bufSlrd8 i s
  | .ovfSum chain a b => ovfSum chain a b s
  | .brInit order dir rw wend rot lo hi => brInit order dir rw wend rot lo hi s
  | .brReset live value => brReset live value s
  | .brAnchor w => brAnchor w s
  | .brRead count => brRead count s
  | .rotb count value => rotb count value s
  | .hufSetlen index len => hufSetlen index len s
  | .hufSettri index length code value => hufSettri index length code value s
  | .hufMake t ok width n => hufMake t ok width n s
  | .hufFixed t ok width n => hufFixed t ok width n s
  | .hufAdapt t => hufAdapt t s
  | .hufDecode t => hufDecode t s
  | .vlcSet index bits base => vlcSet index bits base s
  | .vlcSetn n => vlcSetn n s
  | .vlcDecode index => vlcDecode index s
  | .outWritebyte b => outWritebyte b s
  | .outCopy distance count => outCopy distance count s
  | .outEof => outEof s
  | .reset | .status | .outInit _ _ _ | .outRd8 _ | .decCreate _ _ | .decGetrawsize | .decDecompress | .decNextchunk
  | .dispDetect => .illegal

/-- A command issued by the format sequencer: accepted where 45_decompressor.md R192 says "S". -/
def sequencerCommand (i : Instr) (s : State) : Run (Option Word) :=
  if accepts .sequencer (kindOf i) s.fsm then toolkit i s else .illegal

/-- One activity of the sequencer. A refused command changes nothing and the script goes on knowing it; a failure ends
the whole command (45_decompressor.md R201, 60_exceptions.md R263). A command that returns no value shows `RES = 0`, as
its response does (log entry 3). -/
def Script.run {α : Type} : Script α → State → Run α
  | .ret a, s => .ok a s
  | .look next, s => (next (s.toInst.showing 0)).run s
  | .setChk v next, s => next.run { s with chk := v }
  | .issue i next, s =>
    match sequencerCommand i s with
    | .ok v s' => (next true (s'.toInst.showing (v.getD 0))).run s'
    | .illegal => (next false (s.toInst.showing 0)).run s
    | .raised c s' => .raised c s'
    | .stuck => .stuck

/-- An activity that ends well or with a failure of its own. -/
def runChecked {ε : Type} (cause : ε → Cause) (x : Script (Option ε)) (s : State) : Run Unit :=
  (x.run s).andThen fun r s =>
    match r with
    | none => .ok () s
    | some e => .raised (cause e) s

/-! ## Create -/

/-- "set all toolkit state (bit reader, input stream, tables, VLC, slice, SUMR, OVF) to its reset value"
(45_decompressor.md R197); the model's own count of free values starts over with it, so that a decode is a function of
its inputs alone (R208; log entry 16). -/
def State.toolkitCleared (s : State) : State :=
  { s with
    freeCount := 0
    sumr := 0, slOff := 0, slLen := 0, slValid := false, ovf := false
    brAcc := 0, brLive := 0, brCfg := .reset, isLo := 0, isHi := 0, isPos := 0
    len := [], tri := [], ht := [], vlcBase := [], vlcBits := [], vlcN := vlcNone }

/-- Checks 3 to 5 of 45_decompressor.md R198, in their order. -/
def sizeFailure (h : HeaderInfo) (setup : Setup) : Option Cause :=
  if h.rawSize = 0 || h.packedSize = 0 then some .zeroSize
  else if !sumLe h.packedOffset.toNat h.packedSize.toNat setup.bufSize.toNat then some .sizeExceedsBuffer
  else if setup.checkRawAgainstBuffer && decide (setup.bufSize.toNat < h.rawSize.toNat) then some .sizeExceedsBuffer
  else if setup.maxRawSize.toNat < h.rawSize.toNat || decide (setup.maxPackedSize.toNat < h.packedSize.toNat) then
    some .sizeExceedsMax
  else none

/-- The sizes of a format that takes its raw size from the container (45_decompressor.md R198). -/
def declaredSizes (d : Descriptor) (declared : Word) (setup : Setup) (h : HeaderInfo) : HeaderInfo :=
  if d.needsDeclared then { h with rawSize := declared, packedSize := setup.bufSize, packedOffset := 0 } else h

/-- One reading of the header: its fields, checks 3 to 5, then check 6 (45_decompressor.md R198). -/
def interpret (d : Descriptor) (i : Interpretation) (declared : Word) (s : State) : Run HeaderInfo :=
  ((i.header declared s.window).run s).andThen fun raw s =>
    let h := declaredSizes d declared s.setup raw
    match sizeFailure h s.setup with
    | some c => .raised c s
    | none =>
      ((i.fieldsLegal h s.window).run s).andThen fun legal s =>
        if legal then .ok h s else .raised .badHeaderField s

/-- `parse` (45_decompressor.md R198): checks 1 and 2, then the first reading of the header; where it fails and a
second one exists, that one alone decides (46_formats.md R231). -/
def parse (d : Descriptor) (declared : Word) (s : State) : Run HeaderInfo :=
  if s.setup.bufSize.toNat < d.minHeader then .raised .tooShort s
  else if !d.needsDeclared && !d.matchWindow s.window then .raised .badMagic s
  else
    match interpret d (d.first s.window) declared s, d.second s.window with
    | .raised _ s', some again => interpret d again declared s'
    | r, _ => r

/-- `CTRL` from the descriptor's list: the entries it gives, of the 64 there are (10_state.md R32). -/
def ctrlEntries (l : List (Nat × Word)) : List (Nat × Word) :=
  l.foldl (fun m c => if c.1 < Config.ctrlWords then Memory.set m c.1 c.2 else m) []

/-- The body of `DEC.CREATE` for a descriptor (45_decompressor.md R197). -/
def create (d : Descriptor) (fmt : Byte) (declared : Word) (s : State) : Run (Option Word) :=
  (parse d declared s.toolkitCleared).andThen fun h s =>
    (outInit h.outDir h.rawSize h.outWindow
        { s with fmt := fmt, packedSize := h.packedSize, gen := h.gen, ctrl := ctrlEntries h.ctrl, chk := 0 }).andThen
      fun _ s => result s.rawSize { s with fsm := .headerParsed }

/-- `DEC.CREATE fmt, declared` (45_decompressor.md R197; refused without a descriptor by 46_formats.md R238, without a
protocol for the container's sub-decompressor by R227). -/
def decCreate (fmt : Byte) (declared : Word) (s : State) : Run (Option Word) :=
  if s.outValid || !s.holds fmt then .illegal
  else if declared != 0 && !(format fmt).needsDeclared then .illegal
  else if !(format fmt).covers s.setup.heldSubFormats s.window then .illegal
  else create (format fmt) fmt declared s

/-! ## Decompress -/

/-- One step of the decode loop and its `chk_update` (45_decompressor.md R201, R203). -/
def decodeStep (d : Descriptor) (s : State) : Run Unit :=
  (runChecked StepFailure.cause (d.step s.window) s).andThen fun _ s' =>
    .ok () { s' with chk := d.chkUpdate s'.chk (s'.toInst.writtenSince s.produced) }

/-- The decode loop (45_decompressor.md R201, R202): until `Eof`, in at most so many steps. -/
def decodeLoop (d : Descriptor) : Nat → State → Run Unit
  | 0, s => if s.produced < s.rawSize.toNat then .stuck else .ok () s
  | steps + 1, s =>
    if s.produced < s.rawSize.toNat then (decodeStep d s).andThen fun _ s => decodeLoop d steps s
    else .ok () s

/-- The bound on the steps of a decode (70_reset_and_hazards.md R306). -/
def stepBound (d : Descriptor) (s : State) : Nat :=
  s.rawSize.toNat + 8 * s.setup.bufSize.toNat + 32 + d.extraSteps s.toInst

/-- What `DEC.NEXTCHUNK`'s body reports: another chunk, or the end. -/
inductive Delivery where
  | chunk
  | finished
deriving DecidableEq, Repr

/-- The body of `DEC.NEXTCHUNK` (45_decompressor.md R206), what it writes into `RES` included. That `CHUNK_IDX`, 32 bits
wide, goes from 2^32 - 1 to 0 is a DESIGN CHOICE: R206 and 10_state.md R33 state neither a check nor a wrap (log
entry 34). -/
def chunkBody (d : Descriptor) (s0 : State) : Run Delivery :=
  let s : State := { s0 with fsm := .decoding, chunkLo := word s0.produced }
  ((d.nextChunk s.window).run s).andThen fun r s =>
    match r with
    | .failed e => .raised e.cause s
    | .noProgress => .stuck
    | .chunk =>
      .ok .chunk { s with chunkIdx := s.chunkIdx + 1, res := word (s.produced - s.chunkLo.toNat) }
    | .finished =>
      if s.produced = s.rawSize.toNat then
        (runChecked VerifyFailure.cause (d.verify s.window) s).andThen fun _ s =>
          .ok .finished { s with fsm := .done, res := 0 }
      else .raised .endOfInput s

/-- "repeat DEC.NEXTCHUNK's body until it reports the end" (45_decompressor.md R201), at most so many times. -/
def chunkLoop (d : Descriptor) : Nat → State → Run Unit
  | 0, _ => .stuck
  | chunks + 1, s =>
    (chunkBody d s).andThen fun r s =>
      match r with
      | .chunk => chunkLoop d chunks s
      | .finished => .ok () s

/-- The body of `DEC.DECOMPRESS` for a descriptor (45_decompressor.md R201). -/
def decompress (d : Descriptor) (s0 : State) : Run (Option Word) :=
  let s : State := { s0 with fsm := .decoding }
  let decoded : Run Unit :=
    if d.chunked then chunkLoop d (stepBound d s) s
    else
      (runChecked InitFailure.cause (d.init s.window) s).andThen fun _ s =>
        (decodeLoop d (stepBound d s) s).andThen fun _ s =>
          runChecked VerifyFailure.cause (d.verify s.window) s
  decoded.andThen fun _ s => result s.rawSize { s with fsm := .done }

/-- `DEC.NEXTCHUNK` for a descriptor (45_decompressor.md R206): refused for a format that is not chunked. -/
def nextChunk (d : Descriptor) (s : State) : Run (Option Word) :=
  if !d.chunked then .illegal
  else (chunkBody d s).andThen fun _ s => result s.res s

/-- `DEC.CREATE` (45_decompressor.md R197, R198). -/
def execDecCreate (fmt : Byte) (declared : Word) (s : State) : Host.Outcome State Fault Refusal :=
  hostCommand .create (decCreate fmt declared) s

/-- `DEC.GETRAWSIZE` (45_decompressor.md R200). -/
def execDecGetrawsize (s : State) : Host.Outcome State Fault Refusal :=
  hostCommand .rawSize (fun s => result s.rawSize s) s

/-- `DEC.DECOMPRESS` (45_decompressor.md R201). -/
def execDecDecompress (s : State) : Host.Outcome State Fault Refusal :=
  hostCommand .decompress (fun s => decompress (format s.fmt) s) s

/-- `DEC.NEXTCHUNK` (45_decompressor.md R206). -/
def execDecNextchunk (s : State) : Host.Outcome State Fault Refusal :=
  hostCommand .nextChunk (fun s => nextChunk (format s.fmt) s) s

end Sys2Proof.Machine
end

