-- ==== Sys2Proof/Machine/Dispatcher.lean ====
section
/-!
DEFINITION. The dispatcher family: `DISP.DETECT` (47_dispatcher.md R250 to R252).
-/
namespace Sys2Proof.Machine

/-- `MinHdr(fmt)` (47_dispatcher.md R250). -/
def minHeader (s : State) (fmt : Byte) : Nat :=
  if s.holds fmt then (format fmt).minHeader else if fmt = 5 then 8 else 4

/-- `Match(fmt)` (47_dispatcher.md R250). -/
def matchFormat (s : State) (fmt : Byte) : Bool :=
  if s.holds fmt then (format fmt).matchWindow s.window else bareMagic fmt.toNat s.window

/-- `Pred(fmt)` (47_dispatcher.md R250): the length is tested before anything is read (R252). -/
def predicate (s : State) (fmt : Byte) : Bool :=
  decide (minHeader s fmt ≤ s.setup.bufSize.toNat) && matchFormat s fmt

/-- The first format in the order of 47_dispatcher.md R251 whose predicate holds; 0 is "unrecognized". -/
def detect (s : State) : Byte := (([1, 2, 3, 4, 5] : List Byte).find? (predicate s)).getD 0

/-- `DISP.DETECT` (47_dispatcher.md R250). -/
def execDispDetect (s : State) : Host.Outcome State Fault Refusal :=
  hostCommand .create (fun s => result ((detect s).setWidth 32) s) s

end Sys2Proof.Machine
end

