-- ==== Sys2Proof/Machine/Dispatch.lean ====
section
/-!
DEFINITION. What each command does: one arm for each row of spec/opcode_table.json, in the table's order.
-/
namespace Sys2Proof.Machine

def exec (i : Instr) (s : State) : Host.Outcome State Fault Refusal :=
  match i with
  | .reset => Sys2Proof.Machine.execReset s
  | .status => Sys2Proof.Machine.execStatus s
  | .bufSize => Sys2Proof.Machine.execBufSize s
  | .bufRd8 off => Sys2Proof.Machine.execBufRd8 off s
  | .bufRdbe16 off => Sys2Proof.Machine.execBufRdbe16 off s
  | .bufRdbe32 off => Sys2Proof.Machine.execBufRdbe32 off s
  | .bufRdle16 off => Sys2Proof.Machine.execBufRdle16 off s
  | .bufRdle32 off => Sys2Proof.Machine.execBufRdle32 off s
  | .bufGetdata off len => Sys2Proof.Machine.execBufGetdata off len s
  | .bufSlrd8 index => Sys2Proof.Machine.execBufSlrd8 index s
  | .ovfSum chain a b => Sys2Proof.Machine.execOvfSum chain a b s
  | .brInit order dir rw wend rot lo hi => Sys2Proof.Machine.execBrInit order dir rw wend rot lo hi s
  | .brReset live value => Sys2Proof.Machine.execBrReset live value s
  | .brAnchor word => Sys2Proof.Machine.execBrAnchor word s
  | .brRead count => Sys2Proof.Machine.execBrRead count s
  | .rotb count value => Sys2Proof.Machine.execRotb count value s
  | .hufSetlen index len => Sys2Proof.Machine.execHufSetlen index len s
  | .hufSettri index length code value => Sys2Proof.Machine.execHufSettri index length code value s
  | .hufMake t incompleteOk tableWidth numSymbols => Sys2Proof.Machine.execHufMake t incompleteOk tableWidth numSymbols s
  | .hufFixed t incompleteOk tableWidth numTriples => Sys2Proof.Machine.execHufFixed t incompleteOk tableWidth numTriples s
  | .hufAdapt t => Sys2Proof.Machine.execHufAdapt t s
  | .hufDecode t => Sys2Proof.Machine.execHufDecode t s
  | .vlcSet index bits base => Sys2Proof.Machine.execVlcSet index bits base s
  | .vlcSetn n => Sys2Proof.Machine.execVlcSetn n s
  | .vlcDecode index => Sys2Proof.Machine.execVlcDecode index s
  | .outInit dir rawSize window => Sys2Proof.Machine.execOutInit dir rawSize window s
  | .outWritebyte b => Sys2Proof.Machine.execOutWritebyte b s
  | .outCopy distance count => Sys2Proof.Machine.execOutCopy distance count s
  | .outEof => Sys2Proof.Machine.execOutEof s
  | .outRd8 index => Sys2Proof.Machine.execOutRd8 index s
  | .decCreate fmt declared => Sys2Proof.Machine.execDecCreate fmt declared s
  | .decGetrawsize => Sys2Proof.Machine.execDecGetrawsize s
  | .decDecompress => Sys2Proof.Machine.execDecDecompress s
  | .decNextchunk => Sys2Proof.Machine.execDecNextchunk s
  | .dispDetect => Sys2Proof.Machine.execDispDetect s

end Sys2Proof.Machine
end

