-- ==== Sys2Proof/Decode.lean ====
section
/-!
DEFINITION. Decoding and encoding of the 96-bit command word (30_encoding.md R60 to R68).
Decoding is total and depends on no state (R66); what it refuses it refuses by name.
-/
namespace Sys2Proof

/-- Why a word spells no command (30_encoding.md R68). -/
inductive DecodeError where
  /-- The `OP` value is not in the table of 30_encoding.md section 3. -/
  | unassignedOp
  /-- A bit that R61 wants zero is set. -/
  | unassignedBits
  /-- `BR.INIT` with the reserved `RW = 3` (R67). -/
  | reservedWidth
deriving DecidableEq, Repr

/-- `OP`, bits 95:88 (R60). -/
def Command.op (w : Command) : BitVec 8 := w.extractLsb' 88 8

/-- `F`, bits 87:64 (R60). -/
def Command.f (w : Command) : BitVec 24 := w.extractLsb' 64 24

/-- `A`, bits 63:32 (R60). -/
def Command.a (w : Command) : Word := w.extractLsb' 32 32

/-- `B`, bits 31:0 (R60). -/
def Command.b (w : Command) : Word := w.extractLsb' 0 32

/-- A one-bit `ORDER` field (10_state.md R21). -/
def BitOrder.ofBit : Bool → BitOrder
  | false => .msbFirst
  | true => .lsbFirst

/-- The bit of an `ORDER` field. -/
def BitOrder.bit : BitOrder → Bool
  | .msbFirst => false
  | .lsbFirst => true

/-- A one-bit `DIR` field (10_state.md R21, R28). -/
def Direction.ofBit : Bool → Direction
  | false => .forward
  | true => .backward

/-- The bit of a `DIR` field. -/
def Direction.bit : Direction → Bool
  | .forward => false
  | .backward => true

/-- A one-bit `WEND` field (10_state.md R21). -/
def ByteOrder.ofBit : Bool → ByteOrder
  | false => .bigEndian
  | true => .littleEndian

/-- The bit of a `WEND` field. -/
def ByteOrder.bit : ByteOrder → Bool
  | .bigEndian => false
  | .littleEndian => true

/-- A command whose unassigned bits must all be zero (R61): `clear` says that they are. -/
def whenClear (clear : Bool) (i : Instr) : Except DecodeError Instr :=
  if clear then .ok i else .error .unassignedBits

/-- The command a word spells, or why it spells none (30_encoding.md section 3, R61, R66 to R68). -/
def decode (w : Command) : Except DecodeError Instr :=
  let f := w.f
  let a := w.a
  let b := w.b
  let fNone := f == 0
  let aNone := a == 0
  let bNone := b == 0
  match w.op.toNat with
  | 0x01 => whenClear (fNone && aNone && bNone) .reset
  | 0x02 => whenClear (fNone && aNone && bNone) .status
  | 0x10 => whenClear (fNone && aNone && bNone) .bufSize
  | 0x11 => whenClear (fNone && bNone) (.bufRd8 a)
  | 0x12 => whenClear (fNone && bNone) (.bufRdbe16 a)
  | 0x13 => whenClear (fNone && bNone) (.bufRdbe32 a)
  | 0x14 => whenClear (fNone && bNone) (.bufRdle16 a)
  | 0x15 => whenClear (fNone && bNone) (.bufRdle32 a)
  | 0x16 => whenClear fNone (.bufGetdata a b)
  | 0x17 => whenClear (fNone && bNone) (.bufSlrd8 a)
  | 0x18 => whenClear (f.extractLsb' 1 23 == 0) (.ovfSum (f.getLsbD 0) a b)
  | 0x20 =>
    if f.extractLsb' 6 18 != 0 then .error .unassignedBits
    else if !refillWidthLegal (f.extractLsb' 2 2) then .error .reservedWidth
    else .ok (.brInit (.ofBit (f.getLsbD 0)) (.ofBit (f.getLsbD 1)) (f.extractLsb' 2 2) (.ofBit (f.getLsbD 4))
      (f.getLsbD 5) a b)
  | 0x21 => whenClear (f.extractLsb' 6 18 == 0 && bNone) (.brReset (f.extractLsb' 0 6) a)
  | 0x22 => whenClear (fNone && bNone) (.brAnchor a)
  | 0x23 => whenClear (f.extractLsb' 6 18 == 0 && aNone && bNone) (.brRead (f.extractLsb' 0 6))
  | 0x24 => whenClear (f.extractLsb' 6 18 == 0 && bNone) (.rotb (f.extractLsb' 0 6) a)
  | 0x30 => whenClear (f.extractLsb' 16 8 == 0 && a.extractLsb' 6 26 == 0 && bNone)
      (.hufSetlen (f.extractLsb' 0 16) (a.extractLsb' 0 6))
  | 0x31 => whenClear (f.extractLsb' 6 2 == 0 && b.extractLsb' 16 16 == 0)
      (.hufSettri (f.extractLsb' 8 16) (f.extractLsb' 0 6) a (b.extractLsb' 0 16))
  | 0x32 => whenClear (f.extractLsb' 9 7 == 0 && f.extractLsb' 5 3 == 0 && bNone)
      (.hufMake (f.extractLsb' 16 8) (f.getLsbD 8) (f.extractLsb' 0 5) a)
  | 0x33 => whenClear (f.extractLsb' 9 7 == 0 && f.extractLsb' 5 3 == 0 && bNone)
      (.hufFixed (f.extractLsb' 16 8) (f.getLsbD 8) (f.extractLsb' 0 5) a)
  | 0x34 => whenClear (f.extractLsb' 0 16 == 0 && aNone && bNone) (.hufAdapt (f.extractLsb' 16 8))
  | 0x35 => whenClear (f.extractLsb' 0 16 == 0 && aNone && bNone) (.hufDecode (f.extractLsb' 16 8))
  | 0x38 => whenClear (f.extractLsb' 16 8 == 0 && f.extractLsb' 6 2 == 0 && bNone)
      (.vlcSet (f.extractLsb' 8 8) (f.extractLsb' 0 6) a)
  | 0x39 => whenClear (f.extractLsb' 8 16 == 0 && aNone && bNone) (.vlcSetn (f.extractLsb' 0 8))
  | 0x3A => whenClear (fNone && bNone) (.vlcDecode a)
  | 0x40 => whenClear (f.extractLsb' 1 23 == 0) (.outInit (.ofBit (f.getLsbD 0)) a b)
  | 0x41 => whenClear (fNone && a.extractLsb' 8 24 == 0 && bNone) (.outWritebyte (a.extractLsb' 0 8))
  | 0x42 => whenClear fNone (.outCopy a b)
  | 0x43 => whenClear (fNone && aNone && bNone) .outEof
  | 0x44 => whenClear (fNone && bNone) (.outRd8 a)
  | 0x50 => whenClear (f.extractLsb' 8 16 == 0 && bNone) (.decCreate (f.extractLsb' 0 8) a)
  | 0x51 => whenClear (fNone && aNone && bNone) .decGetrawsize
  | 0x52 => whenClear (fNone && aNone && bNone) .decDecompress
  | 0x53 => whenClear (fNone && aNone && bNone) .decNextchunk
  | 0x58 => whenClear (fNone && aNone && bNone) .dispDetect
  | _ => .error .unassignedOp

/-- The instruction read from a word numbered as spec/opcode_table.json numbers its bits: a command is one 96-bit
word presented whole (R60), so the number's bits are the word's and nothing is laid out in bytes. -/
def decodeTableWord (_nbits w : Nat) : Option Instr :=
  if w < 2 ^ 96 then
    match decode (BitVec.ofNat 96 w) with
    | .ok i => some i
    | .error _ => none
  else none

/-- A command word from its four fields (R60). -/
def commandWord (op : BitVec 8) (f : BitVec 24) (a b : Word) : Command := op ++ f ++ a ++ b

/-- A one-bit field. -/
def bitField (b : Bool) : BitVec 1 := BitVec.ofBool b

/-- The `F` field of `HUF.MAKE` and `HUF.FIXED` (30_encoding.md section 3). -/
def makeField (t : Byte) (incompleteOk : Bool) (tableWidth : BitVec 5) : BitVec 24 :=
  t ++ 0#7 ++ bitField incompleteOk ++ 0#3 ++ tableWidth

/-- The word that spells a command (30_encoding.md section 3). -/
def encode : Instr → Command
  | .reset => commandWord 0x01 0 0 0
  | .status => commandWord 0x02 0 0 0
  | .bufSize => commandWord 0x10 0 0 0
  | .bufRd8 off => commandWord 0x11 0 off 0
  | .bufRdbe16 off => commandWord 0x12 0 off 0
  | .bufRdbe32 off => commandWord 0x13 0 off 0
  | .bufRdle16 off => commandWord 0x14 0 off 0
  | .bufRdle32 off => commandWord 0x15 0 off 0
  | .bufGetdata off len => commandWord 0x16 0 off len
  | .bufSlrd8 i => commandWord 0x17 0 i 0
  | .ovfSum chain a b => commandWord 0x18 (0#23 ++ bitField chain) a b
  | .brInit order dir rw wend rot lo hi =>
    commandWord 0x20
      (0#18 ++ bitField rot ++ bitField wend.bit ++ rw ++ bitField dir.bit ++ bitField order.bit) lo hi
  | .brReset live value => commandWord 0x21 (0#18 ++ live) value 0
  | .brAnchor word => commandWord 0x22 0 word 0
  | .brRead count => commandWord 0x23 (0#18 ++ count) 0 0
  | .rotb count value => commandWord 0x24 (0#18 ++ count) value 0
  | .hufSetlen index len => commandWord 0x30 (0#8 ++ index) (0#26 ++ len) 0
  | .hufSettri index length code value => commandWord 0x31 (index ++ 0#2 ++ length) code (0#16 ++ value)
  | .hufMake t incompleteOk tableWidth numSymbols =>
    commandWord 0x32 (makeField t incompleteOk tableWidth) numSymbols 0
  | .hufFixed t incompleteOk tableWidth numTriples =>
    commandWord 0x33 (makeField t incompleteOk tableWidth) numTriples 0
  | .hufAdapt t => commandWord 0x34 (t ++ 0#16) 0 0
  | .hufDecode t => commandWord 0x35 (t ++ 0#16) 0 0
  | .vlcSet index bits base => commandWord 0x38 (0#8 ++ index ++ 0#2 ++ bits) base 0
  | .vlcSetn n => commandWord 0x39 (0#16 ++ n) 0 0
  | .vlcDecode index => commandWord 0x3A 0 index 0
  | .outInit dir rawSize window => commandWord 0x40 (0#23 ++ bitField dir.bit) rawSize window
  | .outWritebyte b => commandWord 0x41 0 (0#24 ++ b) 0
  | .outCopy distance count => commandWord 0x42 0 distance count
  | .outEof => commandWord 0x43 0 0 0
  | .outRd8 index => commandWord 0x44 0 index 0
  | .decCreate fmt declared => commandWord 0x50 (0#16 ++ fmt) declared 0
  | .decGetrawsize => commandWord 0x51 0 0 0
  | .decDecompress => commandWord 0x52 0 0 0
  | .decNextchunk => commandWord 0x53 0 0 0
  | .dispDetect => commandWord 0x58 0 0 0

/-- A row of spec/opcode_table.json: a word spells the row's command iff `w &&& mask = pattern`
(30_encoding.md R65). -/
structure OpcodeRow where
  mask : Command
  pattern : Command
deriving DecidableEq, Repr

/-- The row of spec/opcode_table.json a command belongs to, with the mask and match the table gives it (R65). -/
def Instr.row : Instr → OpcodeRow
  | .reset => ⟨0xFFFFFFFFFFFFFFFFFFFFFFFF, 0x010000000000000000000000⟩
  | .status => ⟨0xFFFFFFFFFFFFFFFFFFFFFFFF, 0x020000000000000000000000⟩
  | .bufSize => ⟨0xFFFFFFFFFFFFFFFFFFFFFFFF, 0x100000000000000000000000⟩
  | .bufRd8 _ => ⟨0xFFFFFFFF00000000FFFFFFFF, 0x110000000000000000000000⟩
  | .bufRdbe16 _ => ⟨0xFFFFFFFF00000000FFFFFFFF, 0x120000000000000000000000⟩
  | .bufRdbe32 _ => ⟨0xFFFFFFFF00000000FFFFFFFF, 0x130000000000000000000000⟩
  | .bufRdle16 _ => ⟨0xFFFFFFFF00000000FFFFFFFF, 0x140000000000000000000000⟩
  | .bufRdle32 _ => ⟨0xFFFFFFFF00000000FFFFFFFF, 0x150000000000000000000000⟩
  | .bufGetdata _ _ => ⟨0xFFFFFFFF0000000000000000, 0x160000000000000000000000⟩
  | .bufSlrd8 _ => ⟨0xFFFFFFFF00000000FFFFFFFF, 0x170000000000000000000000⟩
  | .ovfSum _ _ _ => ⟨0xFFFFFFFE0000000000000000, 0x180000000000000000000000⟩
  | .brInit _ _ _ _ _ _ _ => ⟨0xFFFFFFC00000000000000000, 0x200000000000000000000000⟩
  | .brReset _ _ => ⟨0xFFFFFFC000000000FFFFFFFF, 0x210000000000000000000000⟩
  | .brAnchor _ => ⟨0xFFFFFFFF00000000FFFFFFFF, 0x220000000000000000000000⟩
  | .brRead _ => ⟨0xFFFFFFC0FFFFFFFFFFFFFFFF, 0x230000000000000000000000⟩
  | .rotb _ _ => ⟨0xFFFFFFC000000000FFFFFFFF, 0x240000000000000000000000⟩
  | .hufSetlen _ _ => ⟨0xFFFF0000FFFFFFC0FFFFFFFF, 0x300000000000000000000000⟩
  | .hufSettri _ _ _ _ => ⟨0xFF0000C000000000FFFF0000, 0x310000000000000000000000⟩
  | .hufMake _ _ _ _ => ⟨0xFF00FEE000000000FFFFFFFF, 0x320000000000000000000000⟩
  | .hufFixed _ _ _ _ => ⟨0xFF00FEE000000000FFFFFFFF, 0x330000000000000000000000⟩
  | .hufAdapt _ => ⟨0xFF00FFFFFFFFFFFFFFFFFFFF, 0x340000000000000000000000⟩
  | .hufDecode _ => ⟨0xFF00FFFFFFFFFFFFFFFFFFFF, 0x350000000000000000000000⟩
  | .vlcSet _ _ _ => ⟨0xFFFF00C000000000FFFFFFFF, 0x380000000000000000000000⟩
  | .vlcSetn _ => ⟨0xFFFFFF00FFFFFFFFFFFFFFFF, 0x390000000000000000000000⟩
  | .vlcDecode _ => ⟨0xFFFFFFFF00000000FFFFFFFF, 0x3A0000000000000000000000⟩
  | .outInit _ _ _ => ⟨0xFFFFFFFE0000000000000000, 0x400000000000000000000000⟩
  | .outWritebyte _ => ⟨0xFFFFFFFFFFFFFF00FFFFFFFF, 0x410000000000000000000000⟩
  | .outCopy _ _ => ⟨0xFFFFFFFF0000000000000000, 0x420000000000000000000000⟩
  | .outEof => ⟨0xFFFFFFFFFFFFFFFFFFFFFFFF, 0x430000000000000000000000⟩
  | .outRd8 _ => ⟨0xFFFFFFFF00000000FFFFFFFF, 0x440000000000000000000000⟩
  | .decCreate _ _ => ⟨0xFFFFFF0000000000FFFFFFFF, 0x500000000000000000000000⟩
  | .decGetrawsize => ⟨0xFFFFFFFFFFFFFFFFFFFFFFFF, 0x510000000000000000000000⟩
  | .decDecompress => ⟨0xFFFFFFFFFFFFFFFFFFFFFFFF, 0x520000000000000000000000⟩
  | .decNextchunk => ⟨0xFFFFFFFFFFFFFFFFFFFFFFFF, 0x530000000000000000000000⟩
  | .dispDetect => ⟨0xFFFFFFFFFFFFFFFFFFFFFFFF, 0x580000000000000000000000⟩

end Sys2Proof
end

