-- ==== Sys2Proof/Machine/Interface.lean ====
section
/-!
DEFINITION. The command interface: which requests the host may make (70_reset_and_hazards.md R292, R305), taking the
next one, and the answer to a word that spells no command (30_encoding.md R68).
-/
namespace Sys2Proof.Machine

/-- What the host must establish of what it supplies (10_state.md R13, R14, R34; 70_reset_and_hazards.md R291). The
sub-decompressor `Lhlb` is lh.library, so both are held or neither is, and lh.library uses `ADAPT` (46_formats.md R227,
R235; log entry 31). -/
abbrev Setup.ok (c : Setup) : Prop :=
  Memory.inputWf c.und c.undSize.toNat
    ∧ c.bufBase.toNat + c.bufSize.toNat ≤ c.undSize.toNat
    ∧ c.maxRawSize ≠ 0 ∧ c.maxPackedSize ≠ 0
    ∧ (∀ t ∈ c.heldFormats, formatTag t = true)
    ∧ (.lhlb ∈ c.heldSubFormats ↔ 6 ∈ c.heldFormats)
    ∧ (6 ∈ c.heldFormats → c.adaptHeld = true)

/-- The word of `RESET` (30_encoding.md section 3). -/
def resetWord : Command := encode .reset

/-- The host may present a new configuration with `RESET` (70_reset_and_hazards.md R292), or new bytes of `UND` alone
when no instance is between `RESET` and Done or Failed (20_memory.md R53, 70_reset_and_hazards.md R305). -/
def Request.admissible (s : State) (r : Request) : Bool :=
  match r.setup with
  | none => true
  | some c =>
    decide c.ok && (r.word == resetWord
      || ((s.fsm == .done || s.fsm == .failed) && decide (c = { s.setup with und := c.und })))

/-- The machine with a request taken from the head of those presented. -/
def State.taking (s : State) (r : Request) (rest : List Request) : State :=
  { s with pending := rest, setup := r.setup.getD s.setup }

end Sys2Proof.Machine
end

