-- ==== Sys2Proof/Machine/Step.lean ====
section
/-!
DEFINITION. One step: the core takes the next command the host has presented and runs it to its end
(20_memory.md R51, 60_exceptions.md R268).
-/
namespace Sys2Proof.Machine

/-- One step. With no command presented the instance is idle and keeps all its state (60_exceptions.md R277); a word
that spells no command is answered with `STATUS = 7` and changes nothing (30_encoding.md R68). -/
def step (s : State) : Host.Outcome State Fault Refusal :=
  match s.pending with
  | [] => .next s
  | r :: rest =>
    if r.admissible s then
      match decode r.word with
      | .ok i => exec i (s.taking r rest)
      | .error _ => .next (s.taking r rest).refusedIllegal
    else .refused .hostMove

/-- The machine with a command word presented ahead of all others: the host puts a program to the block as a list of
commands (log entry 1). A word is numbered as R60 numbers its bits. -/
def State.withFetchWord (s : State) (_nbits w : Nat) : State :=
  { s with pending := { word := BitVec.ofNat 96 w, setup := none } :: s.pending }

end Sys2Proof.Machine
end

