-- ==== Sys2Proof/Safety.lean ====
section
/-!
DEFINITION. The terms the statements speak in: the answers a command gives, the invariant of a run, the logical bit
sequence of a reader (41_bitreader.md R111) and what a decode table finds in a sequence of bits (42_huffman.md R142).
-/
namespace Sys2Proof.Machine

/-! ## Answers -/

/-- `STATUS = 0` with a result, which `RES` keeps (10_state.md R17, 30_encoding.md R63). -/
def State.returned (s : State) (v : Word) : State :=
  { s with res := v, rsp := some { status := .ok, ovf := s.ovf, res := v } }

/-- `STATUS = 0` of a command that returns no value (30_encoding.md R63; log entry 3). -/
def State.finished (s : State) : State := { s with rsp := some { status := .ok, ovf := s.ovf, res := 0 } }

/-- `STATUS` names a failure, `RES = 0`, and the instance is Failed with the category and the cause latched
(60_exceptions.md R263, outside Done). -/
def State.latched (s : State) (category : Category) (cause : Cause) : State :=
  { s with
    fsm := .failed, err := category, errInfo := cause,
    rsp := some { status := category.status, ovf := s.ovf, res := 0 } }

/-- `STATUS = 7` and nothing else (60_exceptions.md R267). -/
def State.turnedAway (s : State) : State :=
  { s with rsp := some { status := .illegalCommand, ovf := s.ovf, res := 0 } }

/-- What an access outside the window answers, by the state (60_exceptions.md R270). -/
def State.rangeFaulted (s : State) : State :=
  match s.fsm with
  | .unvalidated => s.latched .invalidFormat .range
  | .headerParsed | .decoding => s.latched .decompression .range
  | .done => { s with rsp := some { status := .decompression, ovf := s.ovf, res := 0 } }
  | .failed => s.turnedAway

/-- The machine in another state of its state machine. -/
def State.withFsm (s : State) (f : Fsm) : State := { s with fsm := f }

/-- The machine with the answer of another: `RES`, the state-machine register, what a failure latches, the response. -/
def State.answeredAs (s t : State) : State :=
  { s with res := t.res, fsm := t.fsm, err := t.err, errInfo := t.errInfo, rsp := t.rsp }

/-- `ReadBe32(i)` of the window (20_memory.md R45). -/
def State.inWord (s : State) (i : Nat) : Word := s.inByte i ++ s.inByte (i + 1) ++ s.inByte (i + 2) ++ s.inByte (i + 3)

/-- The rows of the table of 45_decompressor.md R192 that have an "H" in the column of a state. -/
def Fsm.openToHost : Fsm → List Kind
  | .unvalidated => [.system, .buffer, .tool, .outInit, .outWrite, .outEof, .outRead, .create]
  | .headerParsed => [.system, .buffer, .outEof, .rawSize, .decompress, .nextChunk]
  | .decoding => [.system, .buffer, .outEof, .outRead, .rawSize, .nextChunk]
  | .done => [.system, .buffer, .outEof, .outRead, .rawSize]
  | .failed => [.system]

/-- The rows of the table of 45_decompressor.md R192 that have an "S" in the column of a state. -/
def Fsm.openToSequencer : Fsm → List Kind
  | .unvalidated => [.buffer]
  | .decoding => [.buffer, .tool, .outWrite, .outEof]
  | .headerParsed | .done | .failed => []

/-- The outcome with its next state, if it has one, changed. -/
def mapNext (f : State → State) : Host.Outcome State Fault Refusal → Host.Outcome State Fault Refusal
  | .next s => .next (f s)
  | .fault r => .fault r
  | .refused r => .refused r

/-- The same machine with other bytes in `UND`. -/
def State.withInput (s : State) (und : List Host.Cell) : State := { s with setup := { s.setup with und := und } }

/-! ## The invariant -/

/-- The reader holds at most 32 live bits and zeros above them (10_state.md R20), its refill width is not the reserved
one (R21), and its stream lies in the window (R22). -/
abbrev State.ReaderInv (s : State) : Prop :=
  s.brLive.toNat ≤ 32 ∧ s.brAcc.toNat < 2 ^ s.brLive.toNat ∧ s.brCfg.rw ≠ 3#2
    ∧ s.isLo.toNat ≤ s.isPos.toNat ∧ s.isPos.toNat ≤ s.isHi.toNat ∧ s.isHi.toNat ≤ s.setup.bufSize.toNat

/-- A granted slice lies in the window (40_buffer.md R86, R87). -/
abbrev State.SliceInv (s : State) : Prop :=
  s.slValid = true → s.slOff.toNat + s.slLen.toNat ≤ s.setup.bufSize.toNat

/-- The indices of `OUT` that are written: `0 .. OUT_CUR - 1` forward, `OUT_CUR .. RAW_SIZE - 1` backward
(10_state.md R29). -/
def Inst.writtenIndices (s : Inst) : List Nat :=
  match s.outDir with
  | .forward => List.range s.outCur.toNat
  | .backward => List.range' s.outCur.toNat (s.rawSize.toNat - s.outCur.toNat)

/-- The output cursor is in its range (10_state.md R28), exactly the indices R29 names are written, the array exists
only while `OUT_VALID = 1` (R15) and its size was found within bounds (44_output.md R171). -/
abbrev State.OutputInv (s : State) : Prop :=
  s.outCur.toNat ≤ s.rawSize.toNat ∧ s.out.map Prod.fst = s.writtenIndices
    ∧ (s.outValid = false → s.rawSize = 0)
    ∧ (s.outValid = true → 1 ≤ s.rawSize.toNat ∧ s.rawSize.toNat ≤ s.setup.maxRawSize.toNat)

/-- A triple that `HUF.SETTRI` stores (42_huffman.md R132). -/
abbrev Triple.Ok (t : Triple) : Prop :=
  1 ≤ t.length.toNat ∧ t.length.toNat ≤ Config.hufMaxlen ∧ t.code.toNat < 2 ^ t.length.toNat

/-- A table that may be decoded from (10_state.md R25): its entries fit its array, and a built one has a primary table
of its width. -/
abbrev Table.Ok (t : Table) : Prop :=
  t.entries.length ≤ Config.tblCap
    ∧ (t.mode ≠ .adaptive → 1 ≤ t.w.toNat ∧ t.w.toNat ≤ Config.hufMaxw ∧ 2 ^ t.w.toNat ≤ t.entries.length)

/-- The table memories hold entries within their capacities and ranges, each in canonical form (10_state.md R16, R25,
R27, R32), and every VLC entry up to `VLC_N` is written (43_vlc.md R162). -/
abbrev State.TablesInv (s : State) : Prop :=
  (Memory.wf s.len ∧ ∀ c ∈ s.len, c.1 < Config.maxSyms ∧ c.2.toNat ≤ Config.hufMaxlen)
    ∧ (Memory.wf s.tri ∧ ∀ c ∈ s.tri, c.1 < Config.maxTri ∧ c.2.Ok)
    ∧ (Memory.wf s.ht ∧ ∀ c ∈ s.ht, c.1 < Config.numTables ∧ c.2.Ok)
    ∧ (Memory.wf s.vlcBase ∧ ∀ c ∈ s.vlcBase, c.1 < Config.vlcMax)
    ∧ (Memory.wf s.vlcBits ∧ ∀ c ∈ s.vlcBits, c.1 < Config.vlcMax ∧ c.2.toNat ≤ 32)
    ∧ (s.vlcN = vlcNone ∨ (s.vlcN.toNat < Config.vlcMax
        ∧ ∀ i ∈ List.range (s.vlcN.toNat + 1),
          (Memory.get s.vlcBase i).isSome = true ∧ (Memory.get s.vlcBits i).isSome = true))
    ∧ (Memory.wf s.ctrl ∧ ∀ c ∈ s.ctrl, c.1 < Config.ctrlWords)

/-- A failure is latched exactly in Failed, under a category that its cause can have (10_state.md R31,
60_exceptions.md R262); past Unvalidated the output is allocated; in Done it is complete (44_output.md R178). -/
abbrev State.SequenceInv (s : State) : Prop :=
  (s.fsm ≠ .failed → s.err = .clear ∧ s.errInfo = .noCause)
    ∧ (s.fsm = .failed → s.errInfo ≠ .noCause
        ∧ (s.err = s.errInfo.category .unvalidated ∨ s.err = s.errInfo.category .decoding))
    ∧ (s.fsm = .headerParsed ∨ s.fsm = .decoding ∨ s.fsm = .done → s.outValid = true)
    ∧ (s.fsm = .done → s.produced = s.rawSize.toNat)

/-- What holds of every state of a run. -/
abbrev State.Inv (s : State) : Prop :=
  s.setup.ok ∧ s.ReaderInv ∧ s.SliceInv ∧ s.OutputInv ∧ s.TablesInv ∧ s.SequenceInv

/-! ## The logical bit sequence of a reader -/

/-- The bits of an `n`-bit word in the order a reader consumes them (41_bitreader.md R111). -/
def bitsOf (order : BitOrder) (n w : Nat) : List Bool :=
  match order with
  | .msbFirst => (List.range n).map fun i => w.testBit (n - 1 - i)
  | .lsbFirst => (List.range n).map fun i => w.testBit i

/-- The number bits spell when a read assembles them: the first is the most significant (MSB-first) or bit 0
(41_bitreader.md R111). -/
def numberOf : BitOrder → List Bool → Nat
  | .msbFirst, bs => bs.foldl (fun n b => 2 * n + b.toNat) 0
  | .lsbFirst, bs => bs.foldr (fun b n => b.toNat + 2 * n) 0

/-- The refill words the reader has not loaded, in the order it loads them: whole words only (41_bitreader.md R103,
R111). -/
def State.wordsToCome (s : State) : List Nat :=
  let n := refillBytes s.brCfg.rw
  match s.brCfg.dir with
  | .forward => (List.range ((s.isHi.toNat - s.isPos.toNat) / n)).map fun j =>
      refillWord s.brCfg (s.memRead (s.isPos.toNat + j * n) n)
  | .backward => (List.range ((s.isPos.toNat - s.isLo.toNat) / n)).map fun j =>
      refillWord s.brCfg (s.memRead (s.isPos.toNat - (j + 1) * n) n)

/-- Every bit the reader can still give, the next one first: those live, then those of the words to come
(41_bitreader.md R107, R111). -/
def State.bitStream (s : State) : List Bool :=
  bitsOf s.brCfg.order s.brLive.toNat s.brAcc.toNat
    ++ s.wordsToCome.flatMap (bitsOf s.brCfg.order (8 * refillBytes s.brCfg.rw))

/-- The same machine with the reader's accumulator, live count and position of another. -/
def State.withReader (s t : State) : State :=
  { s with brAcc := t.brAcc, brLive := t.brLive, isPos := t.isPos }

/-! ## What a descriptor does -/

/-- From `u` to `v` a byte was produced or a bit consumed, and no bit was given back (45_decompressor.md R203 (d);
70_reset_and_hazards.md R306: what puts bits into the reader belongs in `init`). -/
abbrev State.ProgressTo (u v : State) : Prop :=
  v.bitStream.length ≤ u.bitStream.length ∧ (u.produced < v.produced ∨ v.bitStream.length < u.bitStream.length)

/-- Obligation (d) of 45_decompressor.md R203: every step that ends without a fault has made progress. -/
def Descriptor.StepsProgress (d : Descriptor) : Prop :=
  ∀ u v : State, u.Inv → u.fsm = .decoding → decodeStep d u = .ok () v → u.ProgressTo v

/-- Obligation (d) of 45_decompressor.md R203 for a sub-decompressor (46_formats.md R227). -/
def StreamDecoder.StepsProgress (d : StreamDecoder) : Prop :=
  ∀ u v : State, u.Inv → u.fsm = .decoding → runChecked StepFailure.cause (d.step u.window) u = .ok () v →
    u.ProgressTo v

/-- One activity of the sequencer with another meaning of the commands it issues. -/
def Script.runAs {α : Type} (cmd : Instr → State → Run (Option Word)) : Script α → State → Run α
  | .ret a, s => .ok a s
  | .look next, s => (next (s.toInst.showing 0)).runAs cmd s
  | .setChk v next, s => next.runAs cmd { s with chk := v }
  | .issue i next, s =>
    match cmd i s with
    | .ok v s' => (next true (s'.toInst.showing (v.getD 0))).runAs cmd s'
    | .illegal => (next false (s.toInst.showing 0)).runAs cmd s
    | .raised c s' => .raised c s'
    | .stuck => .stuck

/-- The commands of a step of StoneCracker's generation 6: a copy is of one byte more, and fails where that count does not
fit 32 bits; every other command is as it is (46_formats.md R230). -/
def countCorrected (i : Instr) (s : State) : Run (Option Word) :=
  match i with
  | .outCopy distance count =>
    if count.toNat = 2 ^ 32 - 1 then .raised .valueOverflow s else sequencerCommand (.outCopy distance (count + 1)) s
  | i => sequencerCommand i s

/-! ## XPK -/

/-- The state in which `next_chunk` of XPK begins (45_decompressor.md R206). -/
def State.atChunk (s : State) : State := { s with fsm := .decoding, chunkLo := BitVec.ofNat 32 s.produced }

/-- `next_chunk` of XPK comes to a chunk: the header's checksum, asked for at the first chunk alone, holds, and the chunk's
header, read after that, says `c` (46_formats.md R224, R226). -/
def XpkParts.Opens (x : XpkParts) (s : State) (c : XpkChunk) (u : State) : Prop :=
  ∃ t, (if s.chunkIdx = 0 then (x.headerChecksumHolds s.window).run s.atChunk else .ok true s.atChunk) = .ok true t
    ∧ (x.chunkHeader s.window).run t = .ok c u

/-- `DEC.NEXTCHUNK` of XPK with these parts comes to this, and where they are the parts of the format in `FMT` the command
answers that state (45_decompressor.md R206). -/
def XpkParts.NextChunk (x : XpkParts) (s : State) (r : Run (Option Word)) (t : State) : Prop :=
  nextChunk (xpkDescriptor x) s = r ∧ (format s.fmt = xpkDescriptor x → exec .decNextchunk s = .next t)

/-! ## What a table finds -/

/-- The index of a level `width` bits wide once these bits have been read, unread bits counting as zero
(42_huffman.md R142). -/
def prefixIndex (order : BitOrder) (width : Nat) (bits : List Bool) : Nat :=
  match order with
  | .lsbFirst => numberOf .lsbFirst bits
  | .msbFirst => numberOf .msbFirst bits * 2 ^ (width - bits.length)

/-- The entry a level stands on once these bits have been read. -/
def Table.entryAt (t : Table) (base width : Nat) (bits : List Bool) : Entry :=
  (t.entries[base + prefixIndex t.order width bits]?).getD .unmapped

/-- No `LEAF` of the level is reached by fewer than `k` of these bits. -/
abbrev Table.Passes (t : Table) (base width : Nat) (bits : List Bool) (k : Nat) : Prop :=
  ∀ j < k, (t.entryAt base width (bits.take j)).covered j = none

/-- The level reaches a `LEAF` with this value after exactly `k` of these bits (42_huffman.md R142). -/
abbrev Table.Finds (t : Table) (base width : Nat) (bits : List Bool) (k : Nat) (v : BitVec 16) : Prop :=
  k ≤ width ∧ k ≤ bits.length ∧ t.Passes base width bits k
    ∧ (t.entryAt base width (bits.take k)).covered k = some v

/-- The level is used up without a `LEAF`, and stands on this entry. -/
abbrev Table.Exhausts (t : Table) (base width : Nat) (bits : List Bool) (e : Entry) : Prop :=
  width ≤ bits.length ∧ t.Passes base width bits (width + 1) ∧ t.entryAt base width (bits.take width) = e

/-- The table reaches the value after exactly `k` of these bits, in the primary table or in the sub-table it links to. -/
abbrev Table.Decodes (t : Table) (bits : List Bool) (k : Nat) (v : BitVec 16) : Prop :=
  t.Finds 0 t.w.toNat bits k v
    ∨ ∃ base sw, t.Exhausts 0 t.w.toNat bits (.link base sw) ∧ t.w.toNat ≤ k
        ∧ t.Finds base.toNat sw.toNat (bits.drop t.w.toNat) (k - t.w.toNat) v

/-- The bits of a code in the order a reader consumes them (42_huffman.md R132). -/
def Code.bits (c : Code) : List Bool := bitsOf .msbFirst c.length c.code

/-- Decoding from table `t` finds these codes and no others (42_huffman.md R143): where a code comes next it is consumed
and its value returned; where the next bits begin with no code, and enough of them are there to see it, the lookup
stands on an `UNMAPPED` slot. 48 bits are more than the two levels of any table hold. -/
def State.DecodesAs (s : State) (t : Byte) (cs : List Code) : Prop :=
  (∀ c ∈ cs, c.bits <+: s.bitStream → ∃ u,
      exec (.hufDecode t) s = .next ((s.withReader u).returned (BitVec.ofNat 32 c.value))
        ∧ (s.withReader u).bitStream = s.bitStream.drop c.length)
    ∧ (48 ≤ s.bitStream.length → (∀ c ∈ cs, ¬ c.bits <+: s.bitStream) → ∃ u,
        exec (.hufDecode t) s = .next ((s.withReader u).latched .decompression .huffUnmapped))

end Sys2Proof.Machine
end

