-- ==== Sys2Proof/Certificates/Slice0/Obligations.lean ====
section
/-!
DEFINITION. The statements for the provers, in the order of OBLIGATIONS.json: the encoding, the machine as a whole,
then the commands family by family, then what each family leaves alone. Where a statement rests on a choice of the
model its docstring names the log entry.
-/
open Sys2Proof Sys2Proof.Machine

/-! ## Encoding -/

/-- Words written out from the tables of 30_encoding.md section 3, at least one of each family. -/
def Obligations.WordsDecode : Prop :=
  decode 0x020000000000000000000000 = .ok .status
    ∧ decode 0x160000000000000100000003 = .ok (.bufGetdata 1 3)
    ∧ decode 0x200000360000000200000004 = .ok (.brInit .msbFirst .backward 1 .littleEndian true 2 4)
    ∧ decode 0x310001020000000200000042 = .ok (.hufSettri 1 2 2 0x42)
    ∧ decode 0x320501040000000900000000 = .ok (.hufMake 5 true 4 9)
    ∧ decode 0x380002030000000800000000 = .ok (.vlcSet 2 3 8)
    ∧ decode 0x4200000000000004000000A0 = .ok (.outCopy 4 0xA0)
    ∧ decode 0x500000060000001000000000 = .ok (.decCreate 6 16)
    ∧ decode 0x580000000000000000000000 = .ok .dispDetect
    ∧ decode 0x2000000C0000000000000000 = .error .reservedWidth
    ∧ decode 0x100000000000000000000001 = .error .unassignedBits
    ∧ decode 0x590000000000000000000000 = .error .unassignedOp

/-- Every well-formed command is read back from the word that spells it, with every operand (30_encoding.md R60 to
R62). -/
def Obligations.DecodeOfEncode : Prop := ∀ i : Instr, i.wellFormed = true → decode (encode i) = .ok i

/-- A word that decodes is the word of the command it decodes to, and that command is well formed: one word, one
command (30_encoding.md R61, R67). -/
def Obligations.EncodeOfDecode : Prop :=
  ∀ (w : Command) (i : Instr), decode w = .ok i → i.wellFormed = true ∧ encode i = w

/-- Decoding is total, looks at no state, and agrees with the masks of the opcode table: a word that decodes matches the
row of its command and no other row; a word that does not decode matches no row, but for `BR.INIT` with the reserved
`RW` (30_encoding.md R65, R66). -/
def Obligations.DecodingMatchesOneRow : Prop :=
  (∀ (w : Command) (i : Instr), decode w = .ok i →
      w &&& i.row.mask = i.row.pattern ∧ ∀ j : Instr, w &&& j.row.mask = j.row.pattern → j.row = i.row)
    ∧ (∀ (w : Command) (e : DecodeError), decode w = .error e → e ≠ .reservedWidth →
        ∀ j : Instr, w &&& j.row.mask ≠ j.row.pattern)
    ∧ ∀ w : Command, decode w = .error .reservedWidth ↔
        (w.extractLsb' 88 8 = 0x20 ∧ w.extractLsb' 66 2 = 3 ∧ w.extractLsb' 70 18 = 0)

/-! ## The machine as a whole -/

/-- A step takes the command the host has presented first and runs it, whatever is presented behind it; with a new
configuration, where the host may give one, the command runs on that. A word placed by `withFetchWord` is the very next
command run (log entry 1: the commands come from outside the machine). -/
def Obligations.StepRunsTheDecodedCommand : Prop :=
  (∀ (s : State) (r : Request) (rest : List Request) (i : Instr), s.pending = r :: rest → r.admissible s = true →
      decode r.word = .ok i →
      step s = exec i { s with pending := rest, setup := r.setup.getD s.setup })
    ∧ ∀ (s : State) (n w : Nat) (i : Instr), decodeTableWord n w = some i → step (s.withFetchWord n w) = exec i s

/-- A word that spells no command is answered with `STATUS = 7` and `RES = 0` and changes nothing, in every state
(30_encoding.md R68). -/
def Obligations.IllegalWordIsTurnedAway : Prop :=
  ∀ (s : State) (w : Command) (rest : List Request), s.pending = { word := w, setup := none } :: rest →
    (∀ i : Instr, i.wellFormed = true → encode i ≠ w) →
    step s = .next { s with pending := rest, rsp := some { status := .illegalCommand, ovf := s.ovf, res := 0 } }

/-- With no command presented the instance keeps all its state (60_exceptions.md R277). Log entry 1: that a step then
answers the same state is the model's form of it. -/
def Obligations.IdleKeepsEverything : Prop := ∀ s : State, s.pending = [] → step s = .next s

/-- The moves of the host that change what it supplies: a new configuration with `RESET` (70_reset_and_hazards.md R292),
new bytes of `UND` alone in Done and Failed (20_memory.md R53), there with any word, one that spells no command included;
any other is no move of the model (log entry 4). -/
def Obligations.HostChangesItsInputOnlyWhereItMay : Prop :=
  ∀ (s : State) (w : Command) (c : Setup) (rest : List Request), s.pending = { word := w, setup := some c } :: rest →
    (c.ok → w = encode .reset → step s = exec .reset { s with pending := rest, setup := c })
      ∧ (∀ i : Instr, c.ok → (s.fsm = .done ∨ s.fsm = .failed) → c = { s.setup with und := c.und } → decode w = .ok i →
          step s = exec i { s with pending := rest, setup := c })
      ∧ (c.ok → (s.fsm = .done ∨ s.fsm = .failed) → c = { s.setup with und := c.und } →
          (∀ i : Instr, i.wellFormed = true → encode i ≠ w) →
          step s = .next (State.turnedAway { s with pending := rest, setup := c }))
      ∧ ((¬ c.ok ∨ (w ≠ encode .reset
            ∧ ((s.fsm ≠ .done ∧ s.fsm ≠ .failed) ∨ c ≠ { s.setup with und := c.und }))) →
          step s = .refused .hostMove)

/-- What every step keeps holds right after reset. The limits and the empty input of that state are the model's (log
entries 5 to 7). -/
def Obligations.ResetKeepsTheInvariant : Prop := State.reset.Inv

/-- Every step keeps the invariant: the reader's live count, accumulator and stream are in range (10_state.md R20 to
R22), the output cursor is, and exactly the bytes R29 names are written, the table memories stay in canonical form and
within their capacities (R16, R25, R27, R32), a failure is latched in Failed alone (R31), and in Done the output is
complete. From any state that meets it, not only from those a run reaches. -/
def Obligations.StepKeepsTheInvariant : Prop := ∀ s t : State, s.Inv → step s = .next t → t.Inv

/-- Every command but the two decoding ones runs to its end, and those end too or use up the bound of a loop
(60_exceptions.md R268, 70_reset_and_hazards.md R306), `DEC.NEXTCHUNK` only where `next_chunk` reports it. That `DEC.CREATE` and one activity of a descriptor end for every descriptor rests on the
model's form of these activities, which are finite scripts: log entries 9 and 18. -/
def Obligations.EveryCommandEnds : Prop :=
  ∀ (i : Instr) (s : State),
    (i ≠ .decDecompress → i ≠ .decNextchunk → ∃ t, exec i s = .next t)
      ∧ (i = .decDecompress → (∃ t, exec i s = .next t) ∨ exec i s = .fault .noProgress)
      ∧ (i = .decNextchunk → (∃ t, exec i s = .next t)
        ∨ (exec i s = .fault .noProgress ∧ (format s.fmt).chunked = true
          ∧ ∃ u, ((format s.fmt).nextChunk s.window).run s.atChunk = .ok .noProgress u))

/-- What the response of a command says (30_encoding.md R63, 60_exceptions.md R263, R267): there is one, with the flag as
it then stands; `RES` is 0 unless `STATUS` is; `STATUS = 7` comes with no change of state; a failure category comes with
that category latched in Failed, or, in Done, with no change of state; success never enters Failed. -/
def Obligations.ResponseSaysHowACommandEnded : Prop :=
  ∀ (i : Instr) (s t : State), exec i s = .next t → ∃ r : Response,
    t.rsp = some r ∧ r.ovf = t.ovf ∧ (r.status ≠ .ok → r.res = 0)
      ∧ (r.status = .illegalCommand → t = { s with rsp := some r })
      ∧ (∀ c : Category, c ≠ .clear → r.status = c.status →
          if s.fsm = .done then t = { s with rsp := some r }
          else t.fsm = .failed ∧ t.err = c ∧ t.errInfo ≠ .noCause)
      ∧ (r.status = .ok → t.fsm = .failed → s.fsm = .failed)

/-- The transitions of `FSM` (45_decompressor.md R191): a command that changes it is one of these, with these categories
latched; nothing but `RESET` leaves Done or Failed. -/
def Obligations.TransitionsOfTheStateMachine : Prop :=
  ∀ (i : Instr) (s t : State), exec i s = .next t → t.fsm ≠ s.fsm →
    (i = .reset ∧ t.fsm = .unvalidated)
      ∨ (i ≠ .reset ∧ s.fsm = .unvalidated ∧ t.fsm = .headerParsed ∧ ∃ fmt declared, i = .decCreate fmt declared)
      ∨ (i ≠ .reset ∧ s.fsm = .unvalidated ∧ t.fsm = .failed
          ∧ ((∃ fmt declared, i = .decCreate fmt declared) → t.err = .invalidFormat)
          ∧ t.err = t.errInfo.category .unvalidated)
      ∨ (i ≠ .reset ∧ (s.fsm = .headerParsed ∨ s.fsm = .decoding) ∧ t.fsm = .failed
          ∧ (i ≠ .decDecompress → i ≠ .decNextchunk →
              kindOf i = .buffer ∧ t.err = .decompression ∧ t.errInfo = .range)
          ∧ (t.err = .decompression ∨ t.err = .verification))
      ∨ (i = .decDecompress ∧ s.fsm = .headerParsed ∧ t.fsm = .done)
      ∨ (i = .decNextchunk ∧ s.fsm = .headerParsed ∧ (t.fsm = .decoding ∨ t.fsm = .done))
      ∨ (i = .decNextchunk ∧ s.fsm = .decoding ∧ t.fsm = .done)

/-- The legality table (45_decompressor.md R192), read by its columns: a command with no "H" in the column of the state is
refused to the host, one with no "S" to the format sequencer, and a refusal changes nothing (60_exceptions.md R267). Log
entry 21: where 44_output.md R172, R173 say otherwise of HeaderParsed the table is followed. A command with an "S" does for
the sequencer what it does for the host in Unvalidated, `FSM` aside, and its failures are of category Decompression in
Decoding and, a range fault alone, InvalidFormat in Unvalidated (60_exceptions.md R262, R266). That a command without a
value answers `RES = 0` is log entry 3. -/
def Obligations.IllegalInThisStateIsTurnedAway : Prop :=
  ∀ (i : Instr) (s : State),
    (kindOf i ∉ s.fsm.openToHost → exec i s = .next s.turnedAway)
      ∧ (kindOf i ∉ s.fsm.openToSequencer → sequencerCommand i s = .illegal)
      ∧ (kindOf i ∈ s.fsm.openToSequencer →
        match sequencerCommand i s with
        | .ok (some v) u => u.fsm = s.fsm ∧ exec i (s.withFsm .unvalidated) = .next ((u.withFsm .unvalidated).returned v)
        | .ok none u => u.fsm = s.fsm ∧ exec i (s.withFsm .unvalidated) = .next (u.withFsm .unvalidated).finished
        | .raised c u => u.fsm = s.fsm ∧ c.category s.fsm = (if s.fsm = .decoding then .decompression else .invalidFormat)
            ∧ exec i (s.withFsm .unvalidated)
              = .next ((u.withFsm .unvalidated).latched (c.category .unvalidated) c)
        | .illegal => exec i (s.withFsm .unvalidated) = .next (s.withFsm .unvalidated).turnedAway
        | .stuck => False)

/-- No command writes what the host supplies: the input bytes, the window, the limits (10_state.md R13, R14, R34). -/
def Obligations.InputIsNeverWritten : Prop :=
  ∀ (i : Instr) (s t : State), exec i s = .next t →
    t.setup = s.setup ∧ t.pending = s.pending ∧ ∀ k, t.inByte k = s.inByte k

/-- No command but `RESET` rewrites a byte of the output or moves the cursor back (44_output.md R179): what is written
stays as it is, and the bytes produced never become fewer. -/
def Obligations.WrittenOutputStays : Prop :=
  ∀ (i : Instr) (s t : State), s.Inv → i ≠ .reset → exec i s = .next t →
    s.produced ≤ t.produced ∧ ∀ (k : Nat) (b : Byte), Memory.get s.out k = some b → Memory.get t.out k = some b

/-- Nothing outside the window is ever read (20_memory.md R42 to R44, 47_dispatcher.md R252): two inputs that agree on
the window, and on nothing else, give the same outcome of every command, a whole decode included. -/
def Obligations.NothingOutsideTheWindowIsRead : Prop :=
  ∀ (i : Instr) (s : State) (und : List Host.Cell), s.Inv →
    (∀ k < s.setup.bufSize.toNat, (s.withInput und).inByte k = s.inByte k) →
    exec i (s.withInput und) = mapNext (fun t => t.withInput und) (exec i s)

/-! ## System -/

/-- `RESET` (70_reset_and_hazards.md R290): every element of the table of 10_state.md section 10 takes its value there, in
every state; what the host supplies stays. Power-on has the same effect. The model's own count of free values is left out
(log entry 16). -/
def Obligations.ResetResult : Prop :=
  decode (commandWord 0x01 0 0 0) = .ok .reset
    ∧ (∀ s : State, ∃ n, exec .reset s = .next { s with
        freeCount := n, res := 0, sumr := 0, slOff := 0, slLen := 0, slValid := false, ovf := false
        brAcc := 0, brLive := 0, isLo := 0, isHi := 0, isPos := 0
        brCfg := { order := .msbFirst, dir := .forward, rw := 0, wend := .bigEndian, rot := false, valid := false }
        len := [], tri := [], ht := [], vlcBase := [], vlcBits := [], vlcN := 127
        outValid := false, outDir := .forward, outCur := 0, outWin := 0, rawSize := 0, out := []
        fsm := .unvalidated, err := .clear, errInfo := .noCause
        fmt := 0, packedSize := 0, gen := 0, ctrl := [], chk := 0, chunkIdx := 0, chunkLo := 0
        rsp := some { status := .ok, ovf := false, res := 0 } })
    ∧ ∀ s t : State, exec .reset s = .next t → t.toInst = State.reset.toInst

/-- `STATUS` (45_decompressor.md R193): `RES[2:0] = FSM`, `RES[6:4] = ERR`, `RES[12:8] = ERR_INFO`, zeros elsewhere, in
every state; nothing else changes. The rule's example: 0x0B24 after a copy with a bad distance. -/
def Obligations.StatusResult : Prop :=
  decode (commandWord 0x02 0 0 0) = .ok .status
    ∧ (∀ s : State, ∃ v : Word, exec .status s = .next (s.returned v)
        ∧ v.toNat = s.fsm.code.toNat + 16 * s.err.code.toNat + 256 * s.errInfo.code.toNat)
    ∧ ∀ s : State, s.fsm = .failed → s.err = .decompression → s.errInfo = .copyDistance →
        exec .status s = .next (s.returned 0x0B24)

/-- `BUF.SIZE` (40_buffer.md R80), `OUT.EOF` (44_output.md R177) and `DEC.GETRAWSIZE` (45_decompressor.md R200), each in
every state it is legal in, and where the output is not allocated or no header is parsed. -/
def Obligations.SizeAndEofResults : Prop :=
  (decode (commandWord 0x10 0 0 0) = .ok .bufSize ∧ decode (commandWord 0x43 0 0 0) = .ok .outEof
      ∧ decode (commandWord 0x51 0 0 0) = .ok .decGetrawsize)
    ∧ ∀ s : State,
      (s.fsm ≠ .failed → exec .bufSize s = .next (s.returned s.setup.bufSize))
        ∧ (s.fsm ≠ .failed → s.outValid = true →
            exec .outEof s = .next (s.returned (if s.produced = s.rawSize.toNat then 1 else 0)))
        ∧ (s.outValid = false → exec .outEof s = .next s.turnedAway)
        ∧ (s.fsm = .headerParsed ∨ s.fsm = .decoding ∨ s.fsm = .done →
            exec .decGetrawsize s = .next (s.returned s.rawSize))
        ∧ (s.fsm = .unvalidated ∨ s.fsm = .failed → exec .decGetrawsize s = .next s.turnedAway)

/-! ## Buffer -/

/-- The five reads of the window (40_buffer.md R81 to R85): the bytes in their order where all of them lie in the window,
at any offset, odd or even; the range fault where one does not, and nothing is read. -/
def Obligations.BufferReadResults : Prop :=
  (∀ off : Word, decode (commandWord 0x11 0 off 0) = .ok (.bufRd8 off)
      ∧ decode (commandWord 0x12 0 off 0) = .ok (.bufRdbe16 off) ∧ decode (commandWord 0x13 0 off 0) = .ok (.bufRdbe32 off)
      ∧ decode (commandWord 0x14 0 off 0) = .ok (.bufRdle16 off) ∧ decode (commandWord 0x15 0 off 0) = .ok (.bufRdle32 off))
    ∧ ∀ (s : State) (off : Word), s.fsm ≠ .failed →
      let o := off.toNat
      (o + 1 ≤ s.setup.bufSize.toNat → exec (.bufRd8 off) s = .next (s.returned ((s.inByte o).setWidth 32)))
        ∧ (s.setup.bufSize.toNat < o + 1 → exec (.bufRd8 off) s = .next s.rangeFaulted)
        ∧ (o + 2 ≤ s.setup.bufSize.toNat →
            exec (.bufRdbe16 off) s = .next (s.returned ((s.inByte o ++ s.inByte (o + 1)).setWidth 32))
              ∧ exec (.bufRdle16 off) s = .next (s.returned ((s.inByte (o + 1) ++ s.inByte o).setWidth 32)))
        ∧ (s.setup.bufSize.toNat < o + 2 →
            exec (.bufRdbe16 off) s = .next s.rangeFaulted ∧ exec (.bufRdle16 off) s = .next s.rangeFaulted)
        ∧ (o + 4 ≤ s.setup.bufSize.toNat →
            exec (.bufRdbe32 off) s
                = .next (s.returned (s.inByte o ++ s.inByte (o + 1) ++ s.inByte (o + 2) ++ s.inByte (o + 3)))
              ∧ exec (.bufRdle32 off) s
                = .next (s.returned (s.inByte (o + 3) ++ s.inByte (o + 2) ++ s.inByte (o + 1) ++ s.inByte o)))
        ∧ (s.setup.bufSize.toNat < o + 4 →
            exec (.bufRdbe32 off) s = .next s.rangeFaulted ∧ exec (.bufRdle32 off) s = .next s.rangeFaulted)

/-- `BUF.GETDATA` grants a slice that lies in the window and replaces the last grant (40_buffer.md R86); `BUF.SLRD8` reads
a byte of the slice, checked against the slice's own length (R87). -/
def Obligations.SliceResults : Prop :=
  (∀ off len : Word, decode (commandWord 0x16 0 off len) = .ok (.bufGetdata off len)
      ∧ decode (commandWord 0x17 0 off 0) = .ok (.bufSlrd8 off))
    ∧ ∀ s : State, s.fsm ≠ .failed →
      (∀ off len : Word,
        (off.toNat + len.toNat ≤ s.setup.bufSize.toNat → exec (.bufGetdata off len) s
            = .next (State.returned { s with slOff := off, slLen := len, slValid := true } len))
          ∧ (s.setup.bufSize.toNat < off.toNat + len.toNat → exec (.bufGetdata off len) s = .next s.rangeFaulted))
        ∧ ∀ i : Word,
          (s.slValid = false → exec (.bufSlrd8 i) s = .next s.turnedAway)
            ∧ (s.slValid = true → s.slLen.toNat ≤ i.toNat → exec (.bufSlrd8 i) s = .next s.rangeFaulted)
            ∧ (s.slValid = true → i.toNat < s.slLen.toNat →
                exec (.bufSlrd8 i) s = .next (s.returned ((s.inByte (s.slOff.toNat + i.toNat)).setWidth 32)))

/-- `OVF.SUM` saturates and flags (40_buffer.md R88), the flag sticky in a chain; two of them in a row are the sum of
three (30_encoding.md R71): the flag and the saturation are those of the true sum. -/
def Obligations.OverflowCheckedSum : Prop :=
  (∀ (s : State) (a b : Word), s.fsm ≠ .failed →
      exec (.ovfSum false a b) s = .next (State.returned
          { s with sumr := BitVec.ofNat 32 (min (a.toNat + b.toNat) (2 ^ 32 - 1)),
                   ovf := decide (2 ^ 32 - 1 < a.toNat + b.toNat) }
          (BitVec.ofNat 32 (min (a.toNat + b.toNat) (2 ^ 32 - 1))))
        ∧ exec (.ovfSum true a 0) s = .next (State.returned
          { s with sumr := BitVec.ofNat 32 (min (s.sumr.toNat + a.toNat) (2 ^ 32 - 1)),
                   ovf := s.ovf || decide (2 ^ 32 - 1 < s.sumr.toNat + a.toNat) }
          (BitVec.ofNat 32 (min (s.sumr.toNat + a.toNat) (2 ^ 32 - 1))))
        ∧ (b ≠ 0 → exec (.ovfSum true a b) s = .next s.turnedAway))
    ∧ ∀ (s t u : State) (a b c : Word), s.fsm ≠ .failed → exec (.ovfSum false a b) s = .next t →
        exec (.ovfSum true c 0) t = .next u →
        u.res.toNat = min (a.toNat + b.toNat + c.toNat) (2 ^ 32 - 1)
          ∧ u.ovf = decide (2 ^ 32 - 1 < a.toNat + b.toNat + c.toNat)

/-! ## Bit reader -/

/-- `BR.INIT` (41_bitreader.md R101): the configuration and the stream bounds are stored, the position is at the low end
of a forward and at the high end of a backward stream, no bit is live; a stream that does not lie in the window is a range
fault; the reserved width is refused (30_encoding.md R67). That the response carries `RES = 0` is log entry 3. -/
def Obligations.ReaderInitResult : Prop :=
  ∀ (s : State) (order : BitOrder) (dir : Direction) (rw : BitVec 2) (wend : ByteOrder) (rot : Bool) (lo hi : Word),
    s.fsm = .unvalidated →
      (rw ≠ 3 → lo.toNat ≤ hi.toNat → hi.toNat ≤ s.setup.bufSize.toNat →
          exec (.brInit order dir rw wend rot lo hi) s = .next (State.finished
            { s with
              brCfg := { order := order, dir := dir, rw := rw, wend := wend, rot := rot, valid := true }
              isLo := lo, isHi := hi, isPos := if dir = .forward then lo else hi, brAcc := 0, brLive := 0 }))
        ∧ (rw ≠ 3 → hi.toNat < lo.toNat ∨ s.setup.bufSize.toNat < hi.toNat →
            exec (.brInit order dir rw wend rot lo hi) s = .next (s.latched .invalidFormat .range))
        ∧ (rw = 3 → exec (.brInit order dir rw wend rot lo hi) s = .next s.turnedAway)

/-- `BR.RESET` (41_bitreader.md R107) and `BR.ANCHOR` (R108): what the accumulator and the live count become; after
`BR.RESET` the `live` bits of `value` are the next bits of the stream and the refill words that were to come follow
them. That the response of `BR.RESET` carries `RES = 0` is log entry 3. -/
def Obligations.ReaderPreloadResults : Prop :=
  (∀ (live : BitVec 6) (value : Word), decode (commandWord 0x21 (live.setWidth 24) value 0) = .ok (.brReset live value)
      ∧ decode (commandWord 0x22 0 value 0) = .ok (.brAnchor value))
    ∧ ∀ s : State, s.fsm = .unvalidated →
      (∀ (live : BitVec 6) (value : Word),
        (s.brCfg.valid = true → live.toNat ≤ 32 → ∃ acc : Word, acc.toNat = value.toNat % 2 ^ live.toNat
            ∧ exec (.brReset live value) s = .next (State.finished { s with brAcc := acc, brLive := live })
            ∧ State.bitStream { s with brAcc := acc, brLive := live }
              = bitsOf s.brCfg.order live.toNat value.toNat
                ++ s.wordsToCome.flatMap (bitsOf s.brCfg.order (8 * refillBytes s.brCfg.rw)))
          ∧ (s.brCfg.valid = false ∨ 32 < live.toNat → exec (.brReset live value) s = .next s.turnedAway))
        ∧ ∀ (live : Nat) (w : Word),
          (s.brCfg.valid = true → live < 32 → 2 ^ live ≤ w.toNat → w.toNat < 2 ^ (live + 1) →
              exec (.brAnchor w) s = .next (State.returned
                { s with brAcc := BitVec.ofNat 32 (w.toNat - 2 ^ live), brLive := BitVec.ofNat 6 live }
                (BitVec.ofNat 32 live)))
            ∧ (s.brCfg.valid = true → w = 0 → exec (.brAnchor w) s = .next (s.latched .decompression .anchorZero))
            ∧ (s.brCfg.valid = false → exec (.brAnchor w) s = .next s.turnedAway)

/-- Bits preloaded by `BR.RESET` are the bits the next read gives, in either bit order (41_bitreader.md R107). -/
def Obligations.PreloadedBitsAreReadNext : Prop :=
  ∀ (s : State) (live : BitVec 6) (value : Word), s.fsm = .unvalidated → s.brCfg.valid = true → live.toNat ≤ 32 →
    ∃ t u, exec (.brReset live value) s = .next t ∧ exec (.brRead live) t = .next u
      ∧ u.res.toNat = value.toNat % 2 ^ live.toNat ∧ u.brLive = 0 ∧ u.isPos = s.isPos

/-- `BR.READ` (41_bitreader.md R105, R106, R110, R111): it takes the next `count` bits of the reader's bit sequence, the
first as the most significant bit of the result (MSB-first) or as bit 0 (LSB-first), with as many refills as R110 says
and no other change; where the sequence is shorter the input has ended. -/
def Obligations.ReaderReadResult : Prop :=
  ∀ (s : State) (count : BitVec 6), s.fsm = .unvalidated →
    (s.brCfg.valid = true → count.toNat ≤ 32 → count.toNat ≤ s.bitStream.length → ∃ t,
        exec (.brRead count) s = .next ((s.withReader t).returned
            (BitVec.ofNat 32 (numberOf s.brCfg.order (s.bitStream.take count.toNat))))
          ∧ (s.withReader t).bitStream = s.bitStream.drop count.toNat
          ∧ (s.withReader t).wordsToCome.length
              + (count.toNat - s.brLive.toNat + (8 * refillBytes s.brCfg.rw - 1)) / (8 * refillBytes s.brCfg.rw)
            = s.wordsToCome.length)
      ∧ (s.brCfg.valid = true → count.toNat ≤ 32 → s.bitStream.length < count.toNat → ∃ t,
          exec (.brRead count) s = .next ((s.withReader t).latched .decompression .endOfInput))
      ∧ (s.brCfg.valid = false ∨ 32 < count.toNat → exec (.brRead count) s = .next s.turnedAway)

/-- Two reads give the bits of one read of both counts, split accordingly, and leave the same bits to come
(41_bitreader.md R111). -/
def Obligations.ReadsSplit : Prop :=
  ∀ (s : State) (a b : BitVec 6), s.fsm = .unvalidated → s.brCfg.valid = true → a.toNat + b.toNat ≤ 32 →
    a.toNat + b.toNat ≤ s.bitStream.length →
    ∃ t u v, exec (.brRead a) s = .next t ∧ exec (.brRead b) t = .next u ∧ exec (.brRead (a + b)) s = .next v
      ∧ u.bitStream = v.bitStream
      ∧ (s.brCfg.order = .msbFirst → v.res.toNat = t.res.toNat * 2 ^ b.toNat + u.res.toNat)
      ∧ (s.brCfg.order = .lsbFirst → v.res.toNat = t.res.toNat + u.res.toNat * 2 ^ a.toNat)

/-- A backward reader that rotates its words consumes exactly the reverse of what a forward MSB-first reader over the same
range consumes, whatever the widths, if both divide the range; and with bytes it is the backward LSB-first reader that
does not rotate (41_bitreader.md R112 (b), (c)). -/
def Obligations.RotationReversesTheStream : Prop :=
  ∀ (s : State) (rw rw' : BitVec 2) (wend : ByteOrder) (lo hi : Word), s.fsm = .unvalidated → rw ≠ 3 → rw' ≠ 3 →
    lo.toNat ≤ hi.toNat → hi.toNat ≤ s.setup.bufSize.toNat →
      (refillBytes rw ∣ hi.toNat - lo.toNat → refillBytes rw' ∣ hi.toNat - lo.toNat →
        ∃ t u, exec (.brInit .msbFirst .backward rw .bigEndian true lo hi) s = .next t
          ∧ exec (.brInit .msbFirst .forward rw' .bigEndian false lo hi) s = .next u
          ∧ t.bitStream = u.bitStream.reverse ∧ t.bitStream.length = 8 * (hi.toNat - lo.toNat))
        ∧ ∃ t u, exec (.brInit .msbFirst .backward 0 wend true lo hi) s = .next t
          ∧ exec (.brInit .lsbFirst .backward 0 wend false lo hi) s = .next u ∧ t.bitStream = u.bitStream

/-- `ROTB` (41_bitreader.md R109): bit `k` of the result is bit `count - 1 - k` of the value, bits at or above the count
are zero; `RES` alone changes, with or without a reader. -/
def Obligations.RotateBitsResult : Prop :=
  (∀ (count : BitVec 6) (value : Word), decode (commandWord 0x24 (count.setWidth 24) value 0) = .ok (.rotb count value))
    ∧ ∀ (s : State) (count : BitVec 6) (value : Word), s.fsm = .unvalidated →
      (count.toNat ≤ 32 → ∃ r : Word, exec (.rotb count value) s = .next (s.returned r)
          ∧ ∀ k < 32, r.getLsbD k = (decide (k < count.toNat) && value.getLsbD (count.toNat - 1 - k)))
        ∧ (32 < count.toNat → exec (.rotb count value) s = .next s.turnedAway)

/-! ## Huffman and VLC -/

/-- `HUF.SETLEN` (42_huffman.md R131), `HUF.SETTRI` (R132) and `VLC.SET` (43_vlc.md R161): one entry is written, no built
table changes; an index past the RAM, a length past 32, a triple without a length or with a code that does not fit it is
refused. That the responses carry `RES = 0` is log entry 3. -/
def Obligations.TableLoadResults : Prop :=
  (∀ (index : BitVec 16) (l : BitVec 6) (a : Word) (v : BitVec 16) (n : Byte),
      decode (commandWord 0x30 (index.setWidth 24) (l.setWidth 32) 0) = .ok (.hufSetlen index l)
        ∧ decode (commandWord 0x31 (index ++ 0#2 ++ l) a (v.setWidth 32)) = .ok (.hufSettri index l a v)
        ∧ decode (commandWord 0x38 (0#8 ++ n ++ 0#2 ++ l) a 0) = .ok (.vlcSet n l a))
    ∧ ∀ s : State, s.fsm = .unvalidated →
      (∀ (index : BitVec 16) (l : BitVec 6),
        (index.toNat < 1024 → l.toNat ≤ 32 → ∃ m,
            exec (.hufSetlen index l) s = .next (State.finished { s with len := m })
              ∧ ∀ k, Memory.get m k = if k = index.toNat then some l else Memory.get s.len k)
          ∧ (1024 ≤ index.toNat ∨ 32 < l.toNat → exec (.hufSetlen index l) s = .next s.turnedAway))
        ∧ (∀ (index : BitVec 16) (l : BitVec 6) (code : Word) (v : BitVec 16),
          (index.toNat < 1024 → 1 ≤ l.toNat → l.toNat ≤ 32 → code.toNat < 2 ^ l.toNat → ∃ m,
              exec (.hufSettri index l code v) s = .next (State.finished { s with tri := m })
                ∧ ∀ k, Memory.get m k
                    = if k = index.toNat then some { length := l, code := code, value := v } else Memory.get s.tri k)
            ∧ (1024 ≤ index.toNat ∨ l.toNat = 0 ∨ 32 < l.toNat ∨ 2 ^ l.toNat ≤ code.toNat →
                exec (.hufSettri index l code v) s = .next s.turnedAway))
        ∧ ∀ (n : Byte) (bits : BitVec 6) (base : Word),
          (n.toNat < 64 → bits.toNat ≤ 32 → ∃ m m',
              exec (.vlcSet n bits base) s = .next (State.finished { s with vlcBase := m, vlcBits := m' })
                ∧ (∀ k, Memory.get m k = if k = n.toNat then some base else Memory.get s.vlcBase k)
                ∧ ∀ k, Memory.get m' k = if k = n.toNat then some bits else Memory.get s.vlcBits k)
            ∧ (64 ≤ n.toNat ∨ 32 < bits.toNat → exec (.vlcSet n bits base) s = .next s.turnedAway)

/-- `CanonicalCodes` (42_huffman.md R134), in closed form: every symbol with a length has one code, of that length; its
value is what the symbols before it in the order of (length, number) take up at that length; a symbol of length 0 has
none; the codes stand in that order; and there is such a list exactly if no length is over-subscribed. -/
def Obligations.CanonicalCodesAreTheCanonicalOnes : Prop :=
  ∀ lens : List Nat, (∀ l ∈ lens, l ≤ 32) →
    (canonicalCodes lens = none ↔ 2 ^ 32 < ((lens.filter (· ≠ 0)).map fun l => 2 ^ (32 - l)).sum)
      ∧ ∀ cs, canonicalCodes lens = some cs →
        cs.Pairwise (fun c d => c.length < d.length ∨ (c.length = d.length ∧ c.value < d.value))
          ∧ ∀ c, c ∈ cs ↔ c.length ≠ 0 ∧ lens[c.value]? = some c.length
              ∧ c.code = ((List.range lens.length).map fun r =>
                  let l := lens.getD r 0
                  if l ≠ 0 ∧ (l < c.length ∨ (l = c.length ∧ r < c.value)) then 2 ^ (c.length - l) else 0).sum

/-- `HUF.MAKE` (42_huffman.md R133) and `HUF.FIXED` (R140): where the codes can be placed the table is valid, for the
reader's bit order, of the width asked for, and the answer is the number of its entries; where they cannot, the failure
is that of the construction and the table is gone (60_exceptions.md R273); operands out of range, an entry never loaded
or no reader are refused. No other table changes. -/
def Obligations.TableConstructionResults : Prop :=
  ∀ (s : State) (t : Byte) (ok : Bool) (width : BitVec 5) (num : Word), s.fsm = .unvalidated →
    (8 ≤ t.toNat ∨ width.toNat = 0 ∨ 16 < width.toNat ∨ 1024 < num.toNat ∨ s.brCfg.valid = false →
        exec (.hufMake t ok width num) s = .next s.turnedAway ∧ exec (.hufFixed t ok width num) s = .next s.turnedAway)
      ∧ (Memory.prefixOf s.len num.toNat = none → exec (.hufMake t ok width num) s = .next s.turnedAway)
      ∧ (Memory.prefixOf s.tri num.toNat = none → exec (.hufFixed t ok width num) s = .next s.turnedAway)
      ∧ (t.toNat < 8 → 1 ≤ width.toNat → width.toNat ≤ 16 → num.toNat ≤ 1024 → s.brCfg.valid = true →
        (∀ lens, Memory.prefixOf s.len num.toNat = some lens → canonicalCodes (lens.map (·.toNat)) = none → ∃ m,
            exec (.hufMake t ok width num) s = .next (State.latched { s with ht := m } .decompression .huffOver)
              ∧ ∀ k, Memory.get m k = if k = t.toNat then none else Memory.get s.ht k)
          ∧ ∀ (cs : List Code) (i : Instr) (mode : TableMode),
            ((i = .hufMake t ok width num ∧ mode = .canonical
                ∧ ∃ lens, Memory.prefixOf s.len num.toNat = some lens ∧ canonicalCodes (lens.map (·.toNat)) = some cs)
              ∨ (i = .hufFixed t ok width num ∧ mode = .fixed
                ∧ ∃ ts, Memory.prefixOf s.tri num.toNat = some ts
                  ∧ cs = ts.map fun x => { length := x.length.toNat, code := x.code.toNat, value := x.value.toNat })) →
            (∀ es, build cs width.toNat s.brCfg.order ok = .ok es → ∃ m,
                exec i s = .next (State.returned { s with ht := m } (BitVec.ofNat 32 es.length))
                  ∧ ∀ k, Memory.get m k = if k = t.toNat
                      then some { mode := mode, order := s.brCfg.order, w := width, entries := es, shape := [] }
                      else Memory.get s.ht k)
              ∧ ∀ c, build cs width.toNat s.brCfg.order ok = .error c → ∃ m,
                exec i s = .next (State.latched { s with ht := m } .decompression c)
                  ∧ ∀ k, Memory.get m k = if k = t.toNat then none else Memory.get s.ht k)

/-- When a length array makes a table (42_huffman.md R136, R138, R139), lengths above the width included: over-subscribed
lengths fail with `HuffOver`; lengths that do not fill the tree, where it must be complete, with `HuffUnder`; the others
make a table. Only where the codes longer than the width need sub-tables that may not fit the array can either of the last
two be `TableCapacity` instead; the sub-table of a prefix has at most as many entries as its codes need together. -/
def Obligations.LengthsMakeATableByKraft : Prop :=
  ∀ (s : State) (t : Byte) (ok : Bool) (width : BitVec 5) (num : Word) (lens : List (BitVec 6)),
    s.fsm = .unvalidated → s.brCfg.valid = true → t.toNat < 8 → 1 ≤ width.toNat → width.toNat ≤ 16 →
    num.toNat ≤ 1024 → Memory.prefixOf s.len num.toNat = some lens → (∀ l ∈ lens, l.toNat ≤ 32) →
    let total := ((lens.filter (fun l => l.toNat ≠ 0)).map fun l => 2 ^ (32 - l.toNat)).sum
    let room := 2 ^ width.toNat
      + ((lens.filter (fun l => width.toNat < l.toNat)).map fun l => 2 ^ (l.toNat - width.toNat)).sum
    (2 ^ 32 < total → ∃ m, exec (.hufMake t ok width num) s
          = .next (State.latched { s with ht := m } .decompression .huffOver) ∧ Memory.get m t.toNat = none)
      ∧ (total < 2 ^ 32 → ok = false → ∃ m c, exec (.hufMake t ok width num) s
          = .next (State.latched { s with ht := m } .decompression c) ∧ Memory.get m t.toNat = none
            ∧ (c = .huffUnder ∨ (c = .tableCapacity ∧ 65536 < room)))
      ∧ (total = 2 ^ 32 ∨ (total < 2 ^ 32 ∧ ok = true) →
          (∃ m table, exec (.hufMake t ok width num) s
              = .next (State.returned { s with ht := m } (BitVec.ofNat 32 table.entries.length))
            ∧ Memory.get m t.toNat = some table ∧ table.mode = .canonical ∧ table.order = s.brCfg.order
            ∧ table.w = width ∧ 2 ^ width.toNat ≤ table.entries.length ∧ table.entries.length ≤ 65536
            ∧ table.entries.length ≤ room)
          ∨ (65536 < room ∧ ∃ m, exec (.hufMake t ok width num) s
              = .next (State.latched { s with ht := m } .decompression .tableCapacity) ∧ Memory.get m t.toNat = none))

/-- A table that was built leads from the bits of each of its codes to the code's value, in the primary table or through
one sub-table, after exactly the bits of the code (42_huffman.md R135, R136, R142, R143). -/
def Obligations.BuiltTableFindsItsCodes : Prop :=
  ∀ (cs : List Code) (width : BitVec 5) (order : BitOrder) (ok : Bool) (es : List Entry) (mode : TableMode)
    (shape : AdaptShape),
    1 ≤ width.toNat → width.toNat ≤ 16 →
    (∀ c ∈ cs, 1 ≤ c.length ∧ c.length ≤ 32 ∧ c.code < 2 ^ c.length ∧ c.value < 2 ^ 16) →
    build cs width.toNat order ok = .ok es →
    ∀ c ∈ cs, ∀ rest : List Bool,
      Table.Decodes { mode := mode, order := order, w := width, entries := es, shape := shape } (c.bits ++ rest)
        c.length (BitVec.ofNat 16 c.value)

/-- `HUF.DECODE` (42_huffman.md R142): bits are read one at a time until a `LEAF` is covered; its value is returned and
exactly those bits are consumed; a lookup that ends on an `UNMAPPED` slot, and one that runs out of bits, fail; a table
that is not valid, or not for the reader's bit order, is refused. -/
def Obligations.SymbolDecodeResult : Prop :=
  ∀ (s : State) (t : Byte), s.fsm = .unvalidated →
    (8 ≤ t.toNat ∨ Memory.get s.ht t.toNat = none ∨ s.brCfg.valid = false
        ∨ (∃ table, Memory.get s.ht t.toNat = some table ∧ table.order ≠ s.brCfg.order) →
        exec (.hufDecode t) s = .next s.turnedAway)
      ∧ ∀ table : Table, t.toNat < 8 → Memory.get s.ht t.toNat = some table → s.brCfg.valid = true →
        table.order = s.brCfg.order → table.mode ≠ .adaptive →
        (∀ k v, table.Decodes s.bitStream k v → ∃ u,
            exec (.hufDecode t) s = .next ((s.withReader u).returned (v.setWidth 32))
              ∧ (s.withReader u).bitStream = s.bitStream.drop k)
          ∧ (table.Exhausts 0 table.w.toNat s.bitStream .unmapped
              ∨ (∃ base sw, table.Exhausts 0 table.w.toNat s.bitStream (.link base sw)
                  ∧ table.Exhausts base.toNat sw.toNat (s.bitStream.drop table.w.toNat) .unmapped) →
              ∃ u, exec (.hufDecode t) s = .next ((s.withReader u).latched .decompression .huffUnmapped))
          ∧ ((s.bitStream.length < table.w.toNat
                ∧ table.Passes 0 table.w.toNat s.bitStream (s.bitStream.length + 1))
              ∨ (∃ base sw, table.Exhausts 0 table.w.toNat s.bitStream (.link base sw)
                  ∧ s.bitStream.length - table.w.toNat < sw.toNat
                  ∧ table.Passes base.toNat sw.toNat (s.bitStream.drop table.w.toNat)
                      (s.bitStream.length - table.w.toNat + 1)) →
              ∃ u, exec (.hufDecode t) s = .next ((s.withReader u).latched .decompression .endOfInput))

/-- What a decode returns, stated without the table (42_huffman.md R143): right after a `HUF.MAKE` or a `HUF.FIXED` that
succeeded, `HUF.DECODE` consumes the bits of a code of the list and returns its value; where the bits to come begin with
no code of the list it fails with `HuffUnmapped`. -/
def Obligations.DecodeFindsTheCodesOfItsList : Prop :=
  ∀ (s u : State) (t : Byte) (ok : Bool) (width : BitVec 5) (num : Word) (cs : List Code) (r : Response),
    s.fsm = .unvalidated → u.rsp = some r → r.status = .ok →
    (exec (.hufMake t ok width num) s = .next u → ∀ lens, Memory.prefixOf s.len num.toNat = some lens →
        (∀ l ∈ lens, l.toNat ≤ 32) → canonicalCodes (lens.map (·.toNat)) = some cs → u.DecodesAs t cs)
      ∧ (exec (.hufFixed t ok width num) s = .next u → ∀ ts, Memory.prefixOf s.tri num.toNat = some ts →
        (∀ x ∈ ts, x.Ok) →
        cs = ts.map (fun x => { length := x.length.toNat, code := x.code.toNat, value := x.value.toNat }) →
        u.DecodesAs t cs)

/-- The adaptive mode (42_huffman.md R147), whose shape, decoding and reshaping are parameters (log entry 15): refused
without them; `HUF.ADAPT` makes the table valid in mode 2 with the default shape, and where no bit order was ever stored
in it the order is a free value (log entry 16) and it has no entries, while an old table keeps its width and entries (log
entry 28); `HUF.DECODE` reads until the shape names a symbol, of the 32 bits the model gives it (log entry 15), and then
reshapes below the cap alone. That the response of `HUF.ADAPT` carries `RES = 0` is log entry 3. -/
def Obligations.AdaptiveTableResults : Prop :=
  ∀ (s : State) (t : Byte), s.fsm = .unvalidated →
    (s.setup.adaptHeld = false ∨ 8 ≤ t.toNat → exec (.hufAdapt t) s = .next s.turnedAway)
      ∧ (s.setup.adaptHeld = true → t.toNat < 8 →
        (∀ old, Memory.get s.ht t.toNat = some old → ∃ m,
            exec (.hufAdapt t) s = .next (State.finished { s with ht := m })
              ∧ ∀ k, Memory.get m k = if k = t.toNat then some { old with mode := .adaptive, shape := Config.adaptInit }
                  else Memory.get s.ht k)
          ∧ (Memory.get s.ht t.toNat = none → ∃ m order,
            exec (.hufAdapt t) s = .next (State.finished { s with ht := m, freeCount := s.freeCount + 1 })
              ∧ ∀ k, Memory.get m k = if k = t.toNat
                  then some { mode := .adaptive, order := order, w := 0, entries := [], shape := Config.adaptInit }
                  else Memory.get s.ht k))
      ∧ ∀ table : Table, t.toNat < 8 → Memory.get s.ht t.toNat = some table → s.brCfg.valid = true →
        table.order = s.brCfg.order → table.mode = .adaptive →
        (s.setup.adaptHeld = false → exec (.hufDecode t) s = .next s.turnedAway)
          ∧ (s.setup.adaptHeld = true →
            (∃ n v u m, n ≤ s.bitStream.length ∧ Config.adaptDecode table.shape (s.bitStream.take n) = some v
                ∧ (∀ j < n, Config.adaptDecode table.shape (s.bitStream.take j) = none)
                ∧ exec (.hufDecode t) s
                    = .next (State.returned { s.withReader u with ht := m } v)
                ∧ (s.withReader u).bitStream = s.bitStream.drop n
                ∧ ∀ k, Memory.get m k = if k = t.toNat
                    then some { table with shape := (if Config.adaptTotal table.shape < Config.adaptCap
                      then Config.adaptUpdate table.shape v else table.shape) }
                    else Memory.get s.ht k)
              ∨ ((∀ j ≤ s.bitStream.length, Config.adaptDecode table.shape (s.bitStream.take j) = none)
                ∧ ∃ u, exec (.hufDecode t) s = .next ((s.withReader u).latched .decompression .endOfInput)))

/-- `VLC.SETN` (43_vlc.md R162) and `VLC.DECODE` (R163): the base and the extra bits, read as `BR.READ` reads them, are
added with the overflow checked and the flag not written; an index past `N` fails; without a range or a reader the
command is refused. That the response of `VLC.SETN` carries `RES = 0` is log entry 3. -/
def Obligations.VlcResults : Prop :=
  ∀ s : State, s.fsm = .unvalidated →
    (∀ n : Byte,
      (n.toNat < 64 → (∀ i ≤ n.toNat, (Memory.get s.vlcBase i).isSome = true ∧ (Memory.get s.vlcBits i).isSome = true) →
          exec (.vlcSetn n) s = .next (State.finished { s with vlcN := n.setWidth 7 }))
        ∧ (64 ≤ n.toNat ∨ (∃ i ≤ n.toNat, Memory.get s.vlcBase i = none ∨ Memory.get s.vlcBits i = none) →
            exec (.vlcSetn n) s = .next s.turnedAway))
      ∧ ∀ index : Word,
        (s.vlcN = 127 ∨ s.brCfg.valid = false → exec (.vlcDecode index) s = .next s.turnedAway)
          ∧ (s.vlcN ≠ 127 → s.brCfg.valid = true →
            (s.vlcN.toNat < index.toNat →
                exec (.vlcDecode index) s = .next (s.latched .decompression .vlcIndex))
              ∧ ∀ (base : Word) (bits : BitVec 6), index.toNat ≤ s.vlcN.toNat →
                Memory.get s.vlcBase index.toNat = some base → Memory.get s.vlcBits index.toNat = some bits →
                let x := numberOf s.brCfg.order (s.bitStream.take bits.toNat)
                (bits.toNat ≤ s.bitStream.length → base.toNat + x < 2 ^ 32 → ∃ u,
                    exec (.vlcDecode index) s = .next ((s.withReader u).returned (base + BitVec.ofNat 32 x))
                      ∧ (s.withReader u).bitStream = s.bitStream.drop bits.toNat)
                  ∧ (bits.toNat ≤ s.bitStream.length → 2 ^ 32 ≤ base.toNat + x → ∃ u,
                      exec (.vlcDecode index) s = .next ((s.withReader u).latched .decompression .valueOverflow))
                  ∧ (s.bitStream.length < bits.toNat → ∃ u,
                      exec (.vlcDecode index) s = .next ((s.withReader u).latched .decompression .endOfInput)))

/-! ## Output -/

/-- `OUT.INIT` (44_output.md R171) in direct use: the array is allocated once, after the checks of its size, with every
entry unwritten and the cursor at the end it starts from. That the response carries `RES = 0` is log entry 3. -/
def Obligations.OutputAllocationResult : Prop :=
  ∀ (s : State) (dir : Direction) (size window : Word), s.fsm = .unvalidated →
    (s.outValid = true → exec (.outInit dir size window) s = .next s.turnedAway)
      ∧ (s.outValid = false → size = 0 → exec (.outInit dir size window) s = .next (s.latched .invalidFormat .zeroSize))
      ∧ (s.outValid = false → size ≠ 0 → s.setup.maxRawSize.toNat < size.toNat →
          exec (.outInit dir size window) s = .next (s.latched .invalidFormat .sizeExceedsMax))
      ∧ (s.outValid = false → size ≠ 0 → size.toNat ≤ s.setup.maxRawSize.toNat → ∃ m,
          exec (.outInit dir size window) s = .next (State.finished
            { s with rawSize := size, outDir := dir, outWin := window, out := m
                     outCur := if dir = .forward then 0 else size, outValid := true })
          ∧ ∀ k, Memory.get m k = none)

/-- `OUT.WRITEBYTE` (44_output.md R172): the byte goes to the write position and the cursor moves past it; a write at
`Eof` fails and writes nothing. Log entry 21: in Unvalidated, where 45_decompressor.md R192 admits it. That the response
carries `RES = 0` is log entry 3. -/
def Obligations.WriteByteResult : Prop :=
  ∀ (s : State) (b : Byte), s.fsm = .unvalidated →
    (s.outValid = false → exec (.outWritebyte b) s = .next s.turnedAway)
      ∧ (s.outValid = true → s.produced = s.rawSize.toNat →
          exec (.outWritebyte b) s = .next (s.latched .decompression .outputOverrun))
      ∧ (s.outValid = true → s.outCur.toNat ≤ s.rawSize.toNat → s.produced < s.rawSize.toNat → ∃ m,
          exec (.outWritebyte b) s = .next (State.finished
            { s with out := m, outCur := if s.outDir = .forward then s.outCur + 1 else s.outCur - 1 })
          ∧ ∀ k, Memory.get m k
              = if k = (if s.outDir = .forward then s.outCur.toNat else s.outCur.toNat - 1) then some b
                else Memory.get s.out k)

/-- The checks of `OUT.COPY`, in their order, before any byte is written (44_output.md R173): the distance, by the bytes
produced or by the window, then the room. Log entry 21: in Unvalidated, where 45_decompressor.md R192 admits it. -/
def Obligations.CopyChecks : Prop :=
  ∀ (s : State) (distance count : Word), s.fsm = .unvalidated →
    let tooFar := distance.toNat = 0 ∨ (s.outWin = 0 ∧ s.produced < distance.toNat)
      ∨ (s.outWin ≠ 0 ∧ s.outWin.toNat < distance.toNat)
    (s.outValid = false → exec (.outCopy distance count) s = .next s.turnedAway)
      ∧ (s.outValid = true → tooFar →
          exec (.outCopy distance count) s = .next (s.latched .decompression .copyDistance))
      ∧ (s.outValid = true → ¬ tooFar → s.rawSize.toNat < s.produced + count.toNat →
          exec (.outCopy distance count) s = .next (s.latched .decompression .outputOverrun))

/-- What `OUT.COPY` writes (44_output.md R174 to R176): byte `j` of the copy is byte `j mod distance` of the `distance`
bytes behind the cursor, which is `OUT_FILL` where that lies before the first byte produced; a backward stream is the
mirror image. Every other byte stays, and the cursor ends past the last. That the response carries `RES = 0` is log
entry 3. -/
def Obligations.CopyRepeatsWithItsDistance : Prop :=
  ∀ (s : State) (distance count : Word), s.fsm = .unvalidated → s.outValid = true → s.OutputInv →
    1 ≤ distance.toNat → (s.outWin = 0 → distance.toNat ≤ s.produced) →
    (s.outWin ≠ 0 → distance.toNat ≤ s.outWin.toNat) → s.produced + count.toNat ≤ s.rawSize.toNat →
    let d := distance.toNat
    let cur := s.outCur.toNat
    (s.outDir = .forward → ∃ m,
        exec (.outCopy distance count) s = .next (State.finished { s with out := m, outCur := s.outCur + count })
          ∧ (∀ j < count.toNat, Memory.get m (cur + j)
              = if d ≤ cur + j % d then Memory.get s.out (cur + j % d - d) else some s.setup.outFill)
          ∧ ∀ k, k < cur ∨ cur + count.toNat ≤ k → Memory.get m k = Memory.get s.out k)
      ∧ (s.outDir = .backward → ∃ m,
        exec (.outCopy distance count) s = .next (State.finished { s with out := m, outCur := s.outCur - count })
          ∧ (∀ j < count.toNat, Memory.get m (cur - 1 - j)
              = if cur - 1 - j % d + d < s.rawSize.toNat then Memory.get s.out (cur - 1 - j % d + d)
                else some s.setup.outFill)
          ∧ ∀ k, k + count.toNat < cur ∨ cur ≤ k → Memory.get m k = Memory.get s.out k)

/-- `OUT.RD8` (44_output.md R178): a written byte is returned in Done, in direct use, and in Decoding of a chunked decode;
an entry that is not written or not there, and Decoding of any other format, are refused. -/
def Obligations.OutputReadResult : Prop :=
  ∀ (s : State) (index : Word),
    (s.fsm = .unvalidated ∨ s.fsm = .done ∨ (s.fsm = .decoding ∧ (format s.fmt).chunked = true) →
      (∀ b, s.outValid = true → index.toNat < s.rawSize.toNat → Memory.get s.out index.toNat = some b →
          exec (.outRd8 index) s = .next (s.returned (b.setWidth 32)))
        ∧ (s.outValid = false ∨ s.rawSize.toNat ≤ index.toNat ∨ Memory.get s.out index.toNat = none →
            exec (.outRd8 index) s = .next s.turnedAway))
      ∧ (s.fsm = .decoding → (format s.fmt).chunked = false → exec (.outRd8 index) s = .next s.turnedAway)

/-! ## Decompressor -/

/-- `DEC.CREATE` where `parse` accepts the header (45_decompressor.md R197): the toolkit is at its reset values, but for
what the reads of the header leave in `RES`, `SUMR`, `OVF` and the slice (log entry 10); the fields are those of the
header; the output is allocated; `FSM` is HeaderParsed and the answer is the raw size. The model's own count of free values
starts over (log entry 16). -/
def Obligations.CreateResult : Prop :=
  ∀ (s u : State) (fmt : Byte) (declared : Word) (h : HeaderInfo), s.fsm = .unvalidated → s.outValid = false →
    s.holds fmt = true → (declared = 0 ∨ (format fmt).needsDeclared = true) →
    (format fmt).covers s.setup.heldSubFormats s.window = true →
    parse (format fmt) declared s.toolkitCleared = .ok h u →
    exec (.decCreate fmt declared) s = .next (State.returned
        { s with
          freeCount := 0, sumr := u.sumr, ovf := u.ovf, slOff := u.slOff, slLen := u.slLen, slValid := u.slValid
          brAcc := 0, brLive := 0, isLo := 0, isHi := 0, isPos := 0
          brCfg := { order := .msbFirst, dir := .forward, rw := 0, wend := .bigEndian, rot := false, valid := false }
          len := [], tri := [], ht := [], vlcBase := [], vlcBits := [], vlcN := 127
          fmt := fmt, packedSize := h.packedSize, gen := h.gen, ctrl := ctrlEntries h.ctrl, chk := 0
          rawSize := h.rawSize, outDir := h.outDir, outWin := h.outWindow, out := [], outValid := true
          outCur := if h.outDir = .forward then 0 else h.rawSize
          fsm := .headerParsed }
        h.rawSize)

/-- What `DEC.CREATE` comes to, for every descriptor (45_decompressor.md R197 to R199, 60_exceptions.md R266): refused
without a descriptor, over an output in direct use, or with a declared size the format does not take; else HeaderParsed
with sizes within the bounds and an output with no entry written, or Failed under InvalidFormat with nothing
allocated. -/
def Obligations.CreateOutcomes : Prop :=
  ∀ (s : State) (fmt : Byte) (declared : Word), s.fsm = .unvalidated →
    let refused := s.outValid = true ∨ s.holds fmt = false ∨ (declared ≠ 0 ∧ (format fmt).needsDeclared = false)
      ∨ (format fmt).covers s.setup.heldSubFormats s.window = false
    (refused → exec (.decCreate fmt declared) s = .next s.turnedAway)
      ∧ (¬ refused → ∃ t, exec (.decCreate fmt declared) s = .next t
        ∧ ((t.fsm = .headerParsed ∧ t.fmt = fmt ∧ t.outValid = true ∧ t.out = [] ∧ t.produced = 0
              ∧ 1 ≤ t.rawSize.toNat ∧ t.rawSize.toNat ≤ s.setup.maxRawSize.toNat
              ∧ 1 ≤ t.packedSize.toNat ∧ t.packedSize.toNat ≤ s.setup.maxPackedSize.toNat
              ∧ t.packedSize.toNat ≤ s.setup.bufSize.toNat
              ∧ (s.setup.checkRawAgainstBuffer = true → t.rawSize.toNat ≤ s.setup.bufSize.toNat)
              ∧ ((format fmt).needsDeclared = true → t.rawSize = declared ∧ t.packedSize = s.setup.bufSize)
              ∧ t.rsp = some { status := .ok, ovf := t.ovf, res := t.rawSize })
          ∨ (t.fsm = .failed ∧ t.err = .invalidFormat ∧ t.outValid = false ∧ t.out = s.out
              ∧ t.errInfo ∈ [.tooShort, .badMagic, .zeroSize, .sizeExceedsBuffer, .sizeExceedsMax, .badHeaderField, .range]
              ∧ t.rsp = some { status := .invalidFormat, ovf := t.ovf, res := 0 })))

/-- The checks of a header in their order (45_decompressor.md R198), on the spec's own test-only descriptor `TOY`
(95_test_vectors.md section 10; log entry 14): too short, magic, zero sizes, the buffer, the raw size against the buffer
where that is asked for, the maxima, the header's own field; and what is created where all of them pass. -/
def Obligations.CreateChecksInOrder : Prop :=
  ∀ (s : State) (fmt : Byte) (magic : Word), s.fsm = .unvalidated → s.outValid = false →
    fmt ∈ s.setup.heldFormats → (fmt = 0x7F ∧ magic = 0x544F5931) ∨ (fmt = 0x7E ∧ magic = 0x544F5932) →
    let raw := s.inWord 4
    let packed := s.inWord 8
    let size := s.setup.bufSize.toNat
    let rejects (c : Cause) : Prop := ∃ t, exec (.decCreate fmt 0) s = .next t ∧ t.fsm = .failed
      ∧ t.err = .invalidFormat ∧ t.errInfo = c ∧ t.outValid = false
      ∧ t.rsp = some { status := .invalidFormat, ovf := false, res := 0 }
    if size < 12 then rejects .tooShort
    else if s.inWord 0 ≠ magic then rejects .badMagic
    else if raw = 0 ∨ packed = 0 then rejects .zeroSize
    else if size < 12 + packed.toNat then rejects .sizeExceedsBuffer
    else if s.setup.checkRawAgainstBuffer = true ∧ size < raw.toNat then rejects .sizeExceedsBuffer
    else if s.setup.maxRawSize.toNat < raw.toNat ∨ s.setup.maxPackedSize.toNat < packed.toNat then
      rejects .sizeExceedsMax
    else if size < 12 + packed.toNat + 1 then rejects .badHeaderField
    else exec (.decCreate fmt 0) s = .next (State.returned
        { s.toolkitCleared with
          fmt := fmt, packedSize := packed, gen := 0, ctrl := [], chk := 0, rawSize := raw, outDir := .forward
          outWin := 0, out := [], outCur := 0, outValid := true, fsm := .headerParsed }
        raw)

/-- `DEC.DECOMPRESS` (45_decompressor.md R201, R202), along the states of its loop. Of a format that is not chunked: an
`init` that fails ends it; after `init` it takes steps while bytes are missing, and no step after the last is written;
then `verify` runs and the instance is Done; a step or a verification that fails ends it there. Of a chunked one: it
repeats the body of `DEC.NEXTCHUNK` until that reports the end, or fails. The bound on the steps is
70_reset_and_hazards.md R306's. -/
def Obligations.DecompressRunsItsLoop : Prop :=
  ∀ (s : State) (n : Nat) (f : Nat → State), s.fsm = .headerParsed →
    let d := format s.fmt
    (d.chunked = false →
      (∀ c u, runChecked InitFailure.cause (d.init s.window) { s with fsm := .decoding } = .raised c u →
          exec .decDecompress s = .next (u.latched (c.category .decoding) c))
        ∧ (runChecked InitFailure.cause (d.init s.window) { s with fsm := .decoding } = .ok () (f 0) →
          (∀ i < n, (f i).produced < (f i).rawSize.toNat ∧ decodeStep d (f i) = .ok () (f (i + 1))) →
          (∀ u, n ≤ stepBound d (f 0) → (f n).rawSize.toNat ≤ (f n).produced →
              runChecked VerifyFailure.cause (d.verify (f n).window) (f n) = .ok () u →
              exec .decDecompress s = .next (State.returned { u with fsm := .done } u.rawSize))
            ∧ (∀ c u, n ≤ stepBound d (f 0) → (f n).rawSize.toNat ≤ (f n).produced →
              runChecked VerifyFailure.cause (d.verify (f n).window) (f n) = .raised c u →
              exec .decDecompress s = .next (u.latched (c.category .decoding) c))
            ∧ (∀ c u, n < stepBound d (f 0) → (f n).produced < (f n).rawSize.toNat →
              decodeStep d (f n) = .raised c u → exec .decDecompress s = .next (u.latched (c.category .decoding) c))))
      ∧ (d.chunked = true → f 0 = { s with fsm := .decoding } → n < stepBound d (f 0) →
        (∀ i < n, chunkBody d (f i) = .ok .chunk (f (i + 1))) →
        (∀ u, chunkBody d (f n) = .ok .finished u → exec .decDecompress s = .next (u.returned u.rawSize))
          ∧ ∀ c u, chunkBody d (f n) = .raised c u → exec .decDecompress s = .next (u.latched (c.category .decoding) c))

/-- How `DEC.DECOMPRESS` ends, for every descriptor (45_decompressor.md R190, R202, R204, R205): in Done with every byte of
the declared size written and that size as the answer, or in Failed under Decompression or Verification. -/
def Obligations.DecompressEndsDoneOrFailed : Prop :=
  ∀ s t : State, s.Inv → s.fsm = .headerParsed → exec .decDecompress s = .next t →
    (t.fsm = .done ∧ t.rawSize = s.rawSize ∧ t.produced = t.rawSize.toNat
        ∧ (∀ k < t.rawSize.toNat, (Memory.get t.out k).isSome = true)
        ∧ t.rsp = some { status := .ok, ovf := t.ovf, res := s.rawSize })
      ∨ (t.fsm = .failed ∧ (t.err = .decompression ∨ t.err = .verification)
        ∧ t.rsp = some { status := t.err.status, ovf := t.ovf, res := 0 })

/-- A descriptor that meets obligation (d) of 45_decompressor.md R203, every step producing a byte or consuming a bit,
cannot use up the bound of the loop (70_reset_and_hazards.md R306): its decode always ends. So does that of the spec's
test-only descriptor; and so does a chunk of an XPK container whose sub-decompressor meets the obligation, whatever XPK's
open parts are. Log entries 9, 12, 14 and 18. -/
def Obligations.DecodeThatReadsAlwaysEnds : Prop :=
  ∀ s : State, s.Inv →
    (s.fsm = .headerParsed →
      ((format s.fmt).chunked = false → (format s.fmt).StepsProgress → ∃ t, exec .decDecompress s = .next t)
        ∧ (s.fmt = 0x7E ∨ s.fmt = 0x7F → ∃ t, exec .decDecompress s = .next t))
      ∧ ∀ x : XpkParts, s.fsm = .headerParsed ∨ s.fsm = .decoding →
        (∀ name, x.subFormat s.window = some name → (xpkSub x name).StepsProgress) →
        nextChunk (xpkDescriptor x) s ≠ .stuck
          ∧ (format s.fmt = xpkDescriptor x → ∃ t, exec .decNextchunk s = .next t)

/-- `DEC.NEXTCHUNK` (45_decompressor.md R206), for every descriptor: refused for a format that is not chunked; where
`next_chunk` comes to a chunk it answers the number of bytes produced since it began, with `CHUNK_IDX` one up; where it
comes to the end, the output is complete and `verify` passes, it is Done and answers 0; where a loop in it uses up its
bound that is no failure but the model's own outcome (70_reset_and_hazards.md R306, log entry 18); and it ends in no other
way but a failure. That `CHUNK_IDX` is one up modulo 2^32 is log entry 34. -/
def Obligations.NextChunkOutcomes : Prop :=
  ∀ s : State, s.fsm = .headerParsed ∨ s.fsm = .decoding →
    let d := format s.fmt
    (d.chunked = false → exec .decNextchunk s = .next s.turnedAway)
      ∧ (d.chunked = true →
        (∀ u, (d.nextChunk s.window).run s.atChunk = .ok .chunk u → exec .decNextchunk s = .next (State.returned
            { u with chunkIdx := s.chunkIdx + 1 } (BitVec.ofNat 32 (u.produced - s.produced))))
          ∧ ∀ u v, (d.nextChunk s.window).run s.atChunk = .ok .finished u → u.produced = u.rawSize.toNat →
            runChecked VerifyFailure.cause (d.verify s.window) u = .ok () v →
            exec .decNextchunk s = .next (State.returned { v with fsm := .done } 0))
      ∧ (∀ (d' : Descriptor) (u : State), d'.chunked = true →
        (d'.nextChunk s.window).run s.atChunk = .ok .noProgress u →
        nextChunk d' s = .stuck ∧ (d = d' → exec .decNextchunk s = .fault .noProgress))
      ∧ (s.Inv → d.chunked = true → (∀ u, (d.nextChunk s.window).run s.atChunk ≠ .ok .noProgress u) →
        ∃ t, exec .decNextchunk s = .next t
        ∧ t.chunkLo = BitVec.ofNat 32 s.produced
        ∧ ((t.fsm = .decoding ∧ t.chunkIdx = s.chunkIdx + 1 ∧ s.produced ≤ t.produced
              ∧ t.res.toNat = t.produced - s.produced ∧ t.rsp = some { status := .ok, ovf := t.ovf, res := t.res })
          ∨ (t.fsm = .done ∧ t.chunkIdx = s.chunkIdx ∧ t.produced = t.rawSize.toNat ∧ t.res = 0
              ∧ t.rsp = some { status := .ok, ovf := t.ovf, res := 0 })
          ∨ (t.fsm = .failed ∧ (t.err = .decompression ∨ t.err = .verification)
              ∧ t.rsp = some { status := t.err.status, ovf := t.ovf, res := 0 })))

/-- A raw XPK chunk of `N` bytes is copied to the output verbatim, whatever the open parts of XPK are and whatever they do
before and after (46_formats.md R224, R225, R226): from the state in which the chunk's header is read, those bytes, in
order, at the cursor, and through `chk_update`, and nothing else; where the chunk's checksum then holds `DEC.NEXTCHUNK`
delivers, where it does not it fails. With the parts of `Config.xpk` that is the XPK of `FD[1]`. Log entries 12 and 33;
that `CHUNK_IDX` is one up modulo 2^32 is log entry 34. -/
def Obligations.XpkRawChunkIsCopied : Prop :=
  ∀ (x : XpkParts) (c : XpkChunk) (s u : State), s.Inv → s.fsm = .headerParsed ∨ s.fsm = .decoding →
    s.outDir = .forward → x.Opens s c u → c.type = 0 → c.off.toNat + c.size.toNat ≤ s.setup.bufSize.toNat →
    u.produced + c.size.toNat ≤ u.rawSize.toNat →
    ∃ v : State, v = { u with
        out := v.out, outCur := u.outCur + c.size, res := v.res
        chk := x.chkUpdate u.chk ((List.range c.size.toNat).map fun i => s.inByte (c.off.toNat + i)) }
      ∧ (∀ i < c.size.toNat, Memory.get v.out (u.outCur.toNat + i) = some (s.inByte (c.off.toNat + i)))
      ∧ (∀ k, k < u.outCur.toNat ∨ u.outCur.toNat + c.size.toNat ≤ k → Memory.get v.out k = Memory.get u.out k)
      ∧ (∀ w, (x.chunkChecksumHolds c s.window).run v = .ok true w →
          let n := BitVec.ofNat 32 (w.produced - s.produced)
          let t : State := { w with chunkIdx := s.chunkIdx + 1, res := n }
          x.NextChunk s (.ok (some n) t) (t.returned n)
            ∧ (u.outCur = s.outCur → w.outCur = v.outCur → n = c.size))
      ∧ ∀ w, (x.chunkChecksumHolds c s.window).run v = .ok false w →
          x.NextChunk s (.raised .checksumMismatch w) (w.latched .verification .checksumMismatch)

/-- What else `DEC.NEXTCHUNK` of XPK comes to, whatever the open parts are (46_formats.md R223, R224, R226,
45_decompressor.md R206): a header checksum that does not hold fails at the first chunk; a chunk that is neither raw, nor
compressed, nor the terminator fails; at the terminator the output must be complete, and its first 16 bytes (all of them,
where there are fewer) must be those the header holds. The first chunk is known by `CHUNK_IDX = 0`, which in Decoding only
the wrap of log entry 34 brings about. Log entries 12, 33 and 34. -/
def Obligations.XpkTerminatorTypesAndHeaderChecksum : Prop :=
  ∀ (x : XpkParts) (c : XpkChunk) (s u : State), s.fsm = .headerParsed ∨ s.fsm = .decoding →
    (s.chunkIdx = 0 → (x.headerChecksumHolds s.window).run s.atChunk = .ok false u →
        x.NextChunk s (.raised .checksumMismatch u) (u.latched .verification .checksumMismatch))
      ∧ (x.Opens s c u →
        (c.type ≠ 0 → c.type ≠ 15 → x.isCompressed c.type = false →
            x.NextChunk s (.raised .formatSpecific u) (u.latched .decompression .formatSpecific))
          ∧ (c.type = 15 → u.produced ≠ u.rawSize.toNat →
            x.NextChunk s (.raised .endOfInput u) (u.latched .decompression .endOfInput))
          ∧ ∀ (stored : List Byte) (v : State), c.type = 15 → u.produced = u.rawSize.toNat →
            (x.storedFirst16 s.window).run u = .ok stored v →
            let same : Prop := ∀ i < min 16 v.rawSize.toNat, stored[i]? = some ((Memory.get v.out i).getD 0)
            (same → x.NextChunk s (.ok (some 0) { v with fsm := .done, res := 0 })
                (State.returned { v with fsm := .done } 0))
              ∧ (¬ same → x.NextChunk s (.raised .first16Mismatch v) (v.latched .verification .first16Mismatch)))

/-- What the spec fixes of StoneCracker (46_formats.md R229 to R231), whatever its open parts are: a step of its descriptor
with 6 in `GEN` runs as that generation's decode function with every copy it issues one byte longer, wherever in the step,
and a count that does not fit failing; with another number in `GEN` it is the decode function of that number; a magic that selects one generation has the header read
as that one, and `GEN` says so; with one that is ambiguous it is read as generation 2 and, only where that fails, as
generation 1 alone. Log entry 13. -/
def Obligations.StoneCrackerQuirks : Prop :=
  ∀ x : StoneParts,
    (∀ (w : Window) (s : State), s.gen.toNat = 6 → runChecked StepFailure.cause ((stoneDescriptor x).step w) s
          = ((x.step 6 w).runAs countCorrected s).andThen fun r t =>
              match r with
              | none => .ok () t
              | some e => .raised e.cause t)
      ∧ (∀ (w : Window) (s : State), s.gen.toNat ≠ 6 → runChecked StepFailure.cause ((stoneDescriptor x).step w) s
          = runChecked StepFailure.cause (x.step s.gen.toNat w) s)
      ∧ ∀ (declared : Word) (s : State), x.minHeader ≤ s.setup.bufSize.toNat → bareMagic 3 s.window = true →
        x.matchMore s.window = true →
        let d := stoneDescriptor x
        let magic := (s.inWord 0).toNat
        (∀ g, x.selects magic = .generation g →
            parse d declared s = interpret d (x.readingOf g) declared s
              ∧ ∀ h v, parse d declared s = .ok h v → h.gen = g.number)
          ∧ (x.selects magic = .twoOrOne →
            (∀ h u, interpret d (x.readingOf .gen2) declared s = .ok h u → parse d declared s = .ok h u ∧ h.gen = 2)
              ∧ ∀ c u, interpret d (x.readingOf .gen2) declared s = .raised c u →
                parse d declared s = interpret d (x.readingOf .gen1) declared u
                  ∧ ∀ h v, parse d declared s = .ok h v → h.gen = 1)

/-! ## Dispatcher -/

/-- `DISP.DETECT` (47_dispatcher.md R250 to R252) answers the first tag of 1 to 5 that fits, 0 exactly where none does, and
changes `RES` alone: a held descriptor fits where the window has its minimum header and it matches, a tag without one where
the window has its magic. A tag answered has its magic in the window in either case (46_formats.md R221). With no
descriptor held that is the tag of the magic at the start of the window (R220), 0 where none stands there, where the window
is too short for it, and where MMCMP's secondary tag is missing. -/
def Obligations.DetectResult : Prop :=
  ∀ s : State, s.fsm = .unvalidated →
    let size := s.setup.bufSize.toNat
    let magic (t : Byte) : Prop :=
      4 ≤ size ∧ ((t = 1 ∧ s.inWord 0 = 0x58504B46)
        ∨ (t = 2 ∧ s.inWord 0 ∈ ([0x50503230, 0x43484643, 0x44454E21, 0x44585339, 0x482E442E, 0x52565621] : List Word))
        ∨ (t = 3 ∧ s.inWord 0 ∈ ([0x53333030, 0x53333130, 0x53343030, 0x53343031, 0x53343033, 0x53343034, 0x31414D00,
            0x32414D00, 0x5A264721, 0x5A554C55, 0x41595321] : List Word))
        ∨ (t = 4 ∧ s.inWord 0 ∈ ([0x43724D21, 0x43724D32, 0x43726D21, 0x43726D32] : List Word))
        ∨ (t = 5 ∧ s.inWord 0 = 0x7A695243 ∧ 8 ≤ size ∧ s.inWord 4 = 0x4F4E6961))
    let fits (t : Byte) : Prop :=
      if s.holds t = true then (format t).minHeader ≤ size ∧ (format t).matchWindow s.window = true else magic t
    (∃ v : Byte, v.toNat ≤ 5 ∧ exec .dispDetect s = .next (s.returned (v.setWidth 32))
        ∧ (v = 0 ↔ ∀ t : Byte, 1 ≤ t.toNat → t.toNat ≤ 5 → ¬ fits t)
        ∧ (v ≠ 0 → fits v ∧ magic v ∧ ∀ t : Byte, 1 ≤ t.toNat → t.toNat < v.toNat → ¬ fits t))
      ∧ (s.setup.heldFormats = [] → exec .dispDetect s = .next (s.returned (
          if s.setup.bufSize.toNat < 4 then 0
          else if s.inWord 0 = 0x58504B46 then 1
          else if s.inWord 0 ∈ ([0x50503230, 0x43484643, 0x44454E21, 0x44585339, 0x482E442E, 0x52565621] : List Word)
          then 2
          else if s.inWord 0 ∈ ([0x53333030, 0x53333130, 0x53343030, 0x53343031, 0x53343033, 0x53343034, 0x31414D00,
              0x32414D00, 0x5A264721, 0x5A554C55, 0x41595321] : List Word) then 3
          else if s.inWord 0 ∈ ([0x43724D21, 0x43724D32, 0x43726D21, 0x43726D32] : List Word) then 4
          else if s.inWord 0 = 0x7A695243 ∧ 8 ≤ s.setup.bufSize.toNat ∧ s.inWord 4 = 0x4F4E6961 then 5
          else 0)))

/-! ## What the commands leave alone -/

/-- The commands that answer a value change `RES` and the response, and `FSM`, `ERR`, `ERR_INFO` where they fail;
`BUF.GETDATA` also the slice, `OVF.SUM` also `SUMR` and the flag. Every byte of memory reads as before. -/
def Obligations.FrameOfValueCommands : Prop :=
  ∀ (i : Instr) (s t : State), exec i s = .next t →
    match i with
    | .status | .bufSize | .bufRd8 _ | .bufRdbe16 _ | .bufRdbe32 _ | .bufRdle16 _ | .bufRdle32 _ | .bufSlrd8 _
    | .rotb _ _ | .outEof | .outRd8 _ | .decGetrawsize | .dispDetect =>
      t = s.answeredAs t ∧ ∀ k, Memory.get t.out k = Memory.get s.out k ∧ t.inByte k = s.inByte k
    | .bufGetdata _ _ => t = { s.answeredAs t with slOff := t.slOff, slLen := t.slLen, slValid := t.slValid }
        ∧ ∀ k, Memory.get t.out k = Memory.get s.out k ∧ t.inByte k = s.inByte k
    | .ovfSum _ _ _ => t = { s.answeredAs t with sumr := t.sumr, ovf := t.ovf }
        ∧ ∀ k, Memory.get t.out k = Memory.get s.out k ∧ t.inByte k = s.inByte k
    | _ => True

/-- The reader's commands change the reader alone beside the answer, and `VLC.DECODE` too; `BR.INIT` alone writes the
configuration and the bounds of the stream. Every byte of memory reads as before. -/
def Obligations.FrameOfReaderCommands : Prop :=
  ∀ (i : Instr) (s t : State), exec i s = .next t →
    match i with
    | .brInit _ _ _ _ _ _ _ => t = { s.answeredAs t with
          res := s.res, brCfg := t.brCfg, isLo := t.isLo, isHi := t.isHi, isPos := t.isPos, brAcc := t.brAcc
          brLive := t.brLive }
        ∧ ∀ k, Memory.get t.out k = Memory.get s.out k ∧ t.inByte k = s.inByte k
    | .brReset _ _ => t = { s.answeredAs t with res := s.res, brAcc := t.brAcc, brLive := t.brLive }
        ∧ ∀ k, Memory.get t.out k = Memory.get s.out k ∧ t.inByte k = s.inByte k
    | .brAnchor _ => t = { s.answeredAs t with brAcc := t.brAcc, brLive := t.brLive }
        ∧ ∀ k, Memory.get t.out k = Memory.get s.out k ∧ t.inByte k = s.inByte k
    | .brRead _ | .vlcDecode _ => t = (s.answeredAs t).withReader t
        ∧ ∀ k, Memory.get t.out k = Memory.get s.out k ∧ t.inByte k = s.inByte k
    | _ => True

/-- The commands that load and build tables change the entry or the table they name, and nothing else beside the answer;
`HUF.DECODE` changes the reader, and the table only where it is adaptive. Every byte of memory reads as before. -/
def Obligations.FrameOfTableCommands : Prop :=
  ∀ (i : Instr) (s t : State), exec i s = .next t →
    (match i with
      | .hufSetlen index _ => t = { s with len := t.len, rsp := t.rsp }
          ∧ ∀ k, k ≠ index.toNat → Memory.get t.len k = Memory.get s.len k
      | .hufSettri index _ _ _ => t = { s with tri := t.tri, rsp := t.rsp }
          ∧ ∀ k, k ≠ index.toNat → Memory.get t.tri k = Memory.get s.tri k
      | .vlcSet index _ _ => t = { s with vlcBase := t.vlcBase, vlcBits := t.vlcBits, rsp := t.rsp }
          ∧ ∀ k, k ≠ index.toNat → Memory.get t.vlcBase k = Memory.get s.vlcBase k
            ∧ Memory.get t.vlcBits k = Memory.get s.vlcBits k
      | .vlcSetn _ => t = { s with vlcN := t.vlcN, rsp := t.rsp }
      | .hufMake n _ _ _ | .hufFixed n _ _ _ => t = { s.answeredAs t with ht := t.ht }
          ∧ ∀ k, k ≠ n.toNat → Memory.get t.ht k = Memory.get s.ht k
      | .hufAdapt n => t = { s with ht := t.ht, freeCount := t.freeCount, rsp := t.rsp }
          ∧ ∀ k, k ≠ n.toNat → Memory.get t.ht k = Memory.get s.ht k
      | .hufDecode n => t = { (s.answeredAs t).withReader t with ht := t.ht }
          ∧ (∀ k, k ≠ n.toNat → Memory.get t.ht k = Memory.get s.ht k)
          ∧ ((∀ table, Memory.get s.ht n.toNat = some table → table.mode ≠ .adaptive) → t.ht = s.ht)
      | _ => True)
      ∧ match i with
        | .hufSetlen _ _ | .hufSettri _ _ _ _ | .vlcSet _ _ _ | .vlcSetn _ | .hufMake _ _ _ _ | .hufFixed _ _ _ _
        | .hufAdapt _ | .hufDecode _ => ∀ k, Memory.get t.out k = Memory.get s.out k ∧ t.inByte k = s.inByte k
        | _ => True

/-- The output's writers change the output and its cursor alone beside the answer: `OUT.WRITEBYTE` the byte at the write
position, `OUT.COPY` the bytes from there on, in the stream's direction; every other byte reads as before. `OUT.INIT`
writes the output's registers. The invariant of the output rules out cursors that no run reaches. -/
def Obligations.FrameOfOutputCommands : Prop :=
  ∀ (i : Instr) (s t : State), s.OutputInv → exec i s = .next t →
    match i with
    | .outInit _ _ _ => t = { s with
        fsm := t.fsm, err := t.err, errInfo := t.errInfo, rsp := t.rsp, rawSize := t.rawSize, outDir := t.outDir
        outWin := t.outWin, out := t.out, outCur := t.outCur, outValid := t.outValid }
    | .outWritebyte _ => t = { s.answeredAs t with res := s.res, out := t.out, outCur := t.outCur }
        ∧ ∀ k, k ≠ s.wp → Memory.get t.out k = Memory.get s.out k
    | .outCopy _ count => t = { s.answeredAs t with res := s.res, out := t.out, outCur := t.outCur }
        ∧ ∀ k, (∀ j < count.toNat, k ≠ (if s.outDir = .forward then s.outCur.toNat + j else s.outCur.toNat - 1 - j)) →
          Memory.get t.out k = Memory.get s.out k
    | _ => True

/-- The decompressor's commands leave alone what the host supplies; `DEC.CREATE` the count of chunks, while the model's
own count of free values starts over (log entry 16); a decode the fields of the header and the size, the direction and
the window of the output (10_state.md R32), and, where it is not chunked, the count of chunks. -/
def Obligations.FrameOfDecompressorCommands : Prop :=
  ∀ (i : Instr) (s t : State), exec i s = .next t →
    match i with
    | .decCreate _ _ => t.setup = s.setup ∧ t.pending = s.pending ∧ (t = s.turnedAway ∨ t.freeCount = 0)
        ∧ t.chunkIdx = s.chunkIdx ∧ t.chunkLo = s.chunkLo
    | .decDecompress | .decNextchunk => t.setup = s.setup ∧ t.pending = s.pending ∧ t.fmt = s.fmt
        ∧ t.packedSize = s.packedSize ∧ t.gen = s.gen ∧ t.ctrl = s.ctrl ∧ t.rawSize = s.rawSize ∧ t.outDir = s.outDir
        ∧ t.outWin = s.outWin ∧ t.outValid = s.outValid
        ∧ ((format s.fmt).chunked = false → t.chunkIdx = s.chunkIdx ∧ t.chunkLo = s.chunkLo)
    | _ => True
end

