-- ==== Sys2Proof/Laws/Memory.lean ====
section
/-!
SUPPORT. Laws of the sparse memories: a read after a write, what a write leaves alone, and that every memory operation
keeps the canonical form.
-/
namespace Sys2Proof.Machine

variable {α : Type}

@[simp] theorem Memory.get_nil (i : Nat) : Memory.get ([] : List (Nat × α)) i = none := rfl

theorem Memory.get_cons (k : Nat) (v : α) (m : List (Nat × α)) (i : Nat) :
    Memory.get ((k, v) :: m) i = if k = i then some v else Memory.get m i := rfl

/-- A read after a write: the value written at its index, what stood there at every other. -/
theorem Memory.get_set (m : List (Nat × α)) (i j : Nat) (v : α) :
    Memory.get (Memory.set m i v) j = if i = j then some v else Memory.get m j := by
  induction m with
  | nil => rfl
  | cons c m ih =>
    obtain ⟨k, u⟩ := c
    by_cases h1 : i < k
    · simp [Memory.set, h1, Memory.get_cons]
    · by_cases h2 : i = k
      · subst h2
        simp only [Memory.set, Nat.lt_irrefl, ↓reduceIte, Memory.get_cons]
        split <;> rfl
      · simp only [Memory.set, h1, h2, ↓reduceIte, Memory.get_cons, ih]
        by_cases h3 : k = j
        · simp [h3, show i ≠ j by omega]
        · simp [h3]

@[simp] theorem Memory.get_set_same (m : List (Nat × α)) (i : Nat) (v : α) :
    Memory.get (Memory.set m i v) i = some v := by simp [Memory.get_set]

theorem Memory.get_set_other (m : List (Nat × α)) {i j : Nat} (v : α) (h : i ≠ j) :
    Memory.get (Memory.set m i v) j = Memory.get m j := by simp [Memory.get_set, h]

theorem Memory.get_erase (m : List (Nat × α)) (i j : Nat) :
    Memory.get (Memory.erase m i) j = if i = j then none else Memory.get m j := by
  induction m with
  | nil => simp [Memory.erase]
  | cons c m ih =>
    obtain ⟨k, u⟩ := c
    by_cases h : k = i
    · subst h
      rw [show Memory.erase ((k, u) :: m) k = Memory.erase m k by simp [Memory.erase], ih, Memory.get_cons]
      split <;> rfl
    · rw [show Memory.erase ((k, u) :: m) i = (k, u) :: Memory.erase m i by simp [Memory.erase, h],
        Memory.get_cons, Memory.get_cons, ih]
      by_cases h2 : k = j
      · simp [h2, show i ≠ j by omega]
      · simp [h2]

/-- What a write lists: the entry it wrote, and entries that were listed before. -/
theorem Memory.mem_set {m : List (Nat × α)} {i : Nat} {v : α} {c : Nat × α} (h : c ∈ Memory.set m i v) :
    c = (i, v) ∨ c ∈ m := by
  induction m with
  | nil => simpa [Memory.set] using h
  | cons d m ih =>
    obtain ⟨k, u⟩ := d
    simp only [Memory.set] at h
    split at h
    · simpa using h
    · split at h
      · rcases List.mem_cons.1 h with h | h
        · exact .inl h
        · exact .inr (List.mem_cons_of_mem _ h)
      · rcases List.mem_cons.1 h with h | h
        · exact .inr (h ▸ List.mem_cons_self)
        · exact (ih h).imp_right (List.mem_cons_of_mem _)

theorem Memory.mem_erase {m : List (Nat × α)} {i : Nat} {c : Nat × α} :
    c ∈ Memory.erase m i ↔ c ∈ m ∧ c.1 ≠ i := by simp [Memory.erase]

/-- A listed entry is what a read of its index gives. -/
theorem Memory.get_of_mem {m : List (Nat × α)} (hm : Memory.wf m) {c : Nat × α} (hc : c ∈ m) :
    Memory.get m c.1 = some c.2 := by
  induction m with
  | nil => cases hc
  | cons d m ih =>
    obtain ⟨k, u⟩ := d
    rw [Memory.wf, List.pairwise_cons] at hm
    rcases List.mem_cons.1 hc with rfl | hc
    · simp [Memory.get_cons]
    · have : k < c.1 := hm.1 c hc
      rw [Memory.get_cons, if_neg (by omega)]
      exact ih hm.2 hc

theorem Memory.mem_of_get {m : List (Nat × α)} {i : Nat} {v : α} (h : Memory.get m i = some v) : (i, v) ∈ m := by
  induction m with
  | nil => cases h
  | cons d m ih =>
    obtain ⟨k, u⟩ := d
    rw [Memory.get_cons] at h
    split at h
    · next hk => cases h; subst hk; exact List.mem_cons_self
    · exact List.mem_cons_of_mem _ (ih h)

/-- A write keeps the canonical form. -/
theorem Memory.wf_set {m : List (Nat × α)} (hm : Memory.wf m) (i : Nat) (v : α) : Memory.wf (Memory.set m i v) := by
  induction m with
  | nil => simp [Memory.set, Memory.wf]
  | cons d m ih =>
    obtain ⟨k, u⟩ := d
    rw [Memory.wf, List.pairwise_cons] at hm
    simp only [Memory.set]
    split
    · next h =>
      rw [Memory.wf, List.pairwise_cons, List.pairwise_cons]
      refine ⟨fun c hc => ?_, hm⟩
      rcases List.mem_cons.1 hc with rfl | hc
      · exact h
      · exact Nat.lt_trans h (hm.1 c hc)
    · split
      · next h =>
        subst h
        rw [Memory.wf, List.pairwise_cons]
        exact hm
      · next h1 h2 =>
        rw [Memory.wf, List.pairwise_cons]
        refine ⟨fun c hc => ?_, ih hm.2⟩
        rcases Memory.mem_set hc with rfl | hc
        · show k < i
          omega
        · exact hm.1 c hc

/-- Making an entry unwritten keeps the canonical form. -/
theorem Memory.wf_erase {m : List (Nat × α)} (hm : Memory.wf m) (i : Nat) : Memory.wf (Memory.erase m i) :=
  List.Pairwise.filter _ hm

/-- Placing a byte of `UND` keeps the canonical form. -/
theorem Memory.inputWf_putByte {m : List Host.Cell} {size : Nat} (hm : Memory.inputWf m size) {i : Nat} (hi : i < size)
    (b : Byte) : Memory.inputWf (Memory.putByte m i b) size := by
  simp only [Memory.putByte]
  split
  · exact ⟨Memory.wf_erase hm.1 i, fun c hc => hm.2 c (Memory.mem_erase.1 hc).1⟩
  · next h =>
    refine ⟨Memory.wf_set hm.1 i b, fun c hc => ?_⟩
    rcases Memory.mem_set hc with rfl | hc
    · exact ⟨hi, h⟩
    · exact hm.2 c hc

/-- A byte read after a byte is placed. -/
theorem Memory.byteAt_putByte (m : List Host.Cell) (i j : Nat) (b : Byte) :
    Memory.byteAt (Memory.putByte m i b) j = if i = j then b else Memory.byteAt m j := by
  simp only [Memory.byteAt, Memory.putByte]
  split
  · next h => subst h; rw [Memory.get_erase]; split <;> rfl
  · rw [Memory.get_set]; split <;> rfl

/-- The bytes a host lays out are listed between the first address and the address past the last. -/
theorem Memory.mem_ofBytes {bs : List Byte} {i : Nat} {c : Host.Cell} (h : c ∈ Memory.ofBytes bs i) :
    i ≤ c.1 ∧ c.1 < i + bs.length ∧ c.2 ≠ Memory.unlistedByte := by
  induction bs generalizing i with
  | nil => cases h
  | cons b bs ih =>
    simp only [Memory.ofBytes] at h
    split at h
    · obtain ⟨h1, h2, h3⟩ := ih h
      exact ⟨by omega, by simp; omega, h3⟩
    · next hb =>
      rcases List.mem_cons.1 h with rfl | h
      · exact ⟨Nat.le_refl _, by simp, hb⟩
      · obtain ⟨h1, h2, h3⟩ := ih h
        exact ⟨by omega, by simp; omega, h3⟩

theorem Memory.wf_ofBytes (bs : List Byte) (i : Nat) : Memory.wf (Memory.ofBytes bs i) := by
  induction bs generalizing i with
  | nil => exact List.Pairwise.nil
  | cons b bs ih =>
    simp only [Memory.ofBytes]
    split
    · exact ih (i + 1)
    · rw [Memory.wf, List.pairwise_cons]
      exact ⟨fun c hc => (Memory.mem_ofBytes hc).1, ih (i + 1)⟩

/-- What a host lays out is in canonical form. -/
theorem Memory.inputWf_ofBytes (bs : List Byte) : Memory.inputWf (Memory.ofBytes bs 0) bs.length :=
  ⟨Memory.wf_ofBytes bs 0, fun c hc => by
    obtain ⟨_, h2, h3⟩ := Memory.mem_ofBytes hc
    exact ⟨by omega, h3⟩⟩

/-- The canonical form makes equal contents equal data. -/
theorem Memory.ext {m m' : List (Nat × α)} (hm : Memory.wf m) (hm' : Memory.wf m')
    (h : ∀ i, Memory.get m i = Memory.get m' i) : m = m' := by
  have sub : ∀ {a b : List (Nat × α)}, Memory.wf a → (∀ i, Memory.get a i = Memory.get b i) → ∀ c ∈ a, c ∈ b := by
    intro a b ha hab c hc
    exact Memory.mem_of_get ((hab c.1).symm.trans (Memory.get_of_mem ha hc))
  have nd : ∀ {a : List (Nat × α)}, Memory.wf a → a.Nodup := fun ha => ha.imp (fun {x y} hxy he => by
    subst he; exact Nat.lt_irrefl _ hxy)
  have perm : List.Perm m m' := (List.perm_ext_iff_of_nodup (nd hm) (nd hm')).2 fun c =>
    ⟨sub hm h c, sub hm' (fun i => (h i).symm) c⟩
  exact List.Perm.eq_of_pairwise (fun a b _ _ hab hba => absurd hab (Nat.not_lt.2 (Nat.le_of_lt hba))) hm hm' perm

/-- A list of optional values all of which are there. -/
theorem mapM_some {β : Type} {f : β → Option α} {xs : List β} {l : List α} (h : xs.mapM f = some l) :
    xs.map f = l.map some := by
  induction xs generalizing l with
  | nil => simp at h; subst h; rfl
  | cons x xs ih =>
    simp only [List.mapM_cons, Option.pure_def, Option.bind_eq_bind, Option.bind_eq_some_iff] at h
    obtain ⟨a, ha, l', hl', he⟩ := h
    cases he
    simp [ha, ih hl']

/-- The values at the first `n` indices are there, and they are what reads give. -/
theorem Memory.prefixOf_eq_some {m : List (Nat × α)} {n : Nat} {l : List α} (h : Memory.prefixOf m n = some l) :
    l.length = n ∧ ∀ i (hi : i < l.length), Memory.get m i = some l[i] := by
  have h2 := mapM_some h
  have hl : l.length = n := by simpa using (congrArg List.length h2).symm
  refine ⟨hl, fun i hi => ?_⟩
  have h3 := congrArg (fun x => x[i]?) h2
  simp only [List.getElem?_map] at h3
  rw [List.getElem?_range (by omega), List.getElem?_eq_getElem hi] at h3
  simpa using h3

end Sys2Proof.Machine
end

