-- ==== Sys2Proof/Laws/Operands.lean ====
section
/-!
SUPPORT. Laws of the operand functions: the overflow-checked sum, byte combination, bit reversal.
-/
namespace Sys2Proof.Machine

/-- `a ⊕ b ≤ c` for a 32-bit `c` is the comparison of the true sum (40_buffer.md R88). -/
theorem sumLe_iff {a b c : Nat} (hc : c ≤ Config.sizeMax) : sumLe a b c = true ↔ a + b ≤ c := by
  have hc : c ≤ 4294967295 := hc
  have h : sumLe a b c = true ↔ ¬ 4294967295 < a + b ∧ min (a + b) 4294967295 ≤ c := by simp [sumLe, sum]
  rw [h]; omega

theorem word_toNat_le (w : Word) : w.toNat ≤ Config.sizeMax := by
  have := w.isLt
  simp only [Config.sizeMax]; omega

/-- A range check against a register's value (20_memory.md R43). -/
theorem sumLe_word {a b : Nat} (w : Word) : sumLe a b w.toNat = true ↔ a + b ≤ w.toNat := sumLe_iff (word_toNat_le w)

@[simp] theorem word_toNat (n : Nat) : (word n).toNat = n % 2 ^ 32 := by simp [word]

theorem word_toNat_of_lt {n : Nat} (h : n < 2 ^ 32) : (word n).toNat = n := by
  rw [word_toNat, Nat.mod_eq_of_lt h]

/-- The overflow-checked sum: the true sum where it fits, all ones and the flag where it does not (40_buffer.md R88). -/
theorem sum_fst_lt (a b : Nat) : (sum a b).1 < 2 ^ 32 := by
  simp only [sum, Config.sizeMax]; omega

theorem sum_snd (a b : Nat) : (sum a b).2 = true ↔ 2 ^ 32 ≤ a + b := by
  simp only [sum, Config.sizeMax, decide_eq_true_eq]; omega

theorem sum_fst_of_fits {a b : Nat} (h : a + b < 2 ^ 32) : (sum a b).1 = a + b := by
  simp only [sum, Config.sizeMax]; omega

theorem littleEndian_lt (bs : List Byte) : littleEndian bs < 256 ^ bs.length := by
  induction bs with
  | nil => decide
  | cons b bs ih =>
    have := b.isLt
    simp only [littleEndian, List.foldr_cons, List.length_cons, Nat.pow_succ] at *
    omega

theorem bigEndian_append (bs cs : List Byte) :
    bigEndian (bs ++ cs) = bigEndian bs * 256 ^ cs.length + bigEndian cs := by
  induction cs using List.reverseRecOn with
  | nil => simp [bigEndian]
  | append_singleton cs c ih =>
    simp only [bigEndian, ← List.append_assoc, List.foldl_append, List.foldl_cons, List.foldl_nil,
      List.length_append, List.length_cons, List.length_nil, Nat.pow_add] at *
    rw [ih]; ring

theorem bigEndian_lt (bs : List Byte) : bigEndian bs < 256 ^ bs.length := by
  induction bs using List.reverseRecOn with
  | nil => decide
  | append_singleton bs b ih =>
    have := b.isLt
    simp only [bigEndian, List.foldl_append, List.foldl_cons, List.foldl_nil, List.length_append, List.length_cons,
      List.length_nil, Nat.pow_succ] at *
    omega

/-- Bytes combine to a number of as many bits as they have. -/
theorem combine_lt (o : ByteOrder) (bs : List Byte) : combine o bs < 2 ^ (8 * bs.length) := by
  rw [Nat.pow_mul]
  cases o
  · exact bigEndian_lt bs
  · exact littleEndian_lt bs

theorem rev_lt (n v : Nat) : rev n v < 2 ^ n := by
  induction n generalizing v with
  | zero => simp [rev]
  | succ n ih =>
    have h1 := ih (v / 2)
    have h2 : v % 2 * 2 ^ n ≤ 1 * 2 ^ n := Nat.mul_le_mul_right _ (by omega)
    simp only [rev, Nat.pow_succ]
    omega

/-- The bits of a reversal (00_scope.md section 6). -/
theorem rev_testBit (n v i : Nat) : (rev n v).testBit i = (decide (i < n) && v.testBit (n - 1 - i)) := by
  induction n generalizing v i with
  | zero => simp [rev]
  | succ n ih =>
    have hlt := rev_lt n (v / 2)
    rw [rev, Nat.mul_comm, Nat.testBit_two_pow_mul_add _ hlt]
    by_cases h : i < n
    · rw [if_pos h, ih]
      have h2 : n - i = n - 1 - i + 1 := by omega
      simp [h, show i < n + 1 by omega, h2, Nat.testBit_succ]
    · rw [if_neg h]
      by_cases h2 : i = n
      · subst h2; simp [Nat.testBit_zero]
      · have h3 : i - n ≠ 0 := by omega
        obtain ⟨k, hk⟩ := Nat.exists_eq_succ_of_ne_zero h3
        rw [hk, Nat.testBit_succ]
        have : v % 2 / 2 = 0 := by omega
        simp [this, show ¬ i < n + 1 by omega]

theorem refillBytes_cases (rw : BitVec 2) : refillBytes rw = 1 ∨ refillBytes rw = 2 ∨ refillBytes rw = 4 := by
  unfold refillBytes; split <;> simp

theorem refillBytes_pos (rw : BitVec 2) : 0 < refillBytes rw := by rcases refillBytes_cases rw with h | h | h <;> omega

theorem refillBytes_le (rw : BitVec 2) : refillBytes rw ≤ 4 := by rcases refillBytes_cases rw with h | h | h <;> omega

/-- A refill word has as many bits as its bytes (41_bitreader.md R104). -/
theorem refillWord_lt (cfg : ReaderConfig) (bs : List Byte) : refillWord cfg bs < 2 ^ (8 * bs.length) := by
  simp only [refillWord]
  split
  · exact rev_lt _ _
  · exact combine_lt _ _

end Sys2Proof.Machine
end

