-- ==== Sys2Proof/Laws/State.lean ====
section
/-!
SUPPORT. One lemma for each field under each named update of the state, so that no later proof unfolds a record.
An update that leaves the instance alone has one lemma for the whole of it.
-/
namespace Sys2Proof.Machine

/-! ## `answered` -/

@[simp] theorem State.answered_toInst (s : State) (v : Option Word) : (s.answered v).toInst = s.toInst := rfl
@[simp] theorem State.answered_setup (s : State) (v : Option Word) : (s.answered v).setup = s.setup := rfl
@[simp] theorem State.answered_pending (s : State) (v : Option Word) : (s.answered v).pending = s.pending := rfl
@[simp] theorem State.answered_rsp (s : State) (v : Option Word) :
    (s.answered v).rsp = some { status := .ok, ovf := s.ovf, res := v.getD 0 } := rfl
@[simp] theorem State.answered_freeCount (s : State) (v : Option Word) : (s.answered v).freeCount = s.freeCount := rfl

/-! ## `refusedIllegal` -/

@[simp] theorem State.refusedIllegal_toInst (s : State) : (s.refusedIllegal).toInst = s.toInst := rfl
@[simp] theorem State.refusedIllegal_setup (s : State) : (s.refusedIllegal).setup = s.setup := rfl
@[simp] theorem State.refusedIllegal_pending (s : State) : (s.refusedIllegal).pending = s.pending := rfl
@[simp] theorem State.refusedIllegal_rsp (s : State) :
    (s.refusedIllegal).rsp = some { status := .illegalCommand, ovf := s.ovf, res := 0 } := rfl
@[simp] theorem State.refusedIllegal_freeCount (s : State) : (s.refusedIllegal).freeCount = s.freeCount := rfl

/-! ## `turnedAway` -/

@[simp] theorem State.turnedAway_toInst (s : State) : (s.turnedAway).toInst = s.toInst := rfl
@[simp] theorem State.turnedAway_setup (s : State) : (s.turnedAway).setup = s.setup := rfl
@[simp] theorem State.turnedAway_pending (s : State) : (s.turnedAway).pending = s.pending := rfl
@[simp] theorem State.turnedAway_rsp (s : State) :
    (s.turnedAway).rsp = some { status := .illegalCommand, ovf := s.ovf, res := 0 } := rfl
@[simp] theorem State.turnedAway_freeCount (s : State) : (s.turnedAway).freeCount = s.freeCount := rfl

/-! ## `finished` -/

@[simp] theorem State.finished_toInst (s : State) : (s.finished).toInst = s.toInst := rfl
@[simp] theorem State.finished_setup (s : State) : (s.finished).setup = s.setup := rfl
@[simp] theorem State.finished_pending (s : State) : (s.finished).pending = s.pending := rfl
@[simp] theorem State.finished_rsp (s : State) :
    (s.finished).rsp = some { status := .ok, ovf := s.ovf, res := 0 } := rfl
@[simp] theorem State.finished_freeCount (s : State) : (s.finished).freeCount = s.freeCount := rfl

/-! ## `restarted` -/

@[simp] theorem State.restarted_toInst (s : State) : (s.restarted).toInst = Inst.reset := rfl
@[simp] theorem State.restarted_setup (s : State) : (s.restarted).setup = s.setup := rfl
@[simp] theorem State.restarted_pending (s : State) : (s.restarted).pending = s.pending := rfl
@[simp] theorem State.restarted_rsp (s : State) : (s.restarted).rsp = s.rsp := rfl
@[simp] theorem State.restarted_freeCount (s : State) : (s.restarted).freeCount = 0 := rfl

/-! ## `taking` -/

@[simp] theorem State.taking_toInst (s : State) (r : Request) (rest : List Request) :
    (s.taking r rest).toInst = s.toInst := rfl
@[simp] theorem State.taking_setup (s : State) (r : Request) (rest : List Request) :
    (s.taking r rest).setup = r.setup.getD s.setup := rfl
@[simp] theorem State.taking_pending (s : State) (r : Request) (rest : List Request) :
    (s.taking r rest).pending = rest := rfl
@[simp] theorem State.taking_rsp (s : State) (r : Request) (rest : List Request) :
    (s.taking r rest).rsp = s.rsp := rfl
@[simp] theorem State.taking_freeCount (s : State) (r : Request) (rest : List Request) :
    (s.taking r rest).freeCount = s.freeCount := rfl

/-! ## `withFetchWord` -/

@[simp] theorem State.withFetchWord_toInst (s : State) (n w : Nat) : (s.withFetchWord n w).toInst = s.toInst := rfl
@[simp] theorem State.withFetchWord_setup (s : State) (n w : Nat) : (s.withFetchWord n w).setup = s.setup := rfl
@[simp] theorem State.withFetchWord_pending (s : State) (n w : Nat) :
    (s.withFetchWord n w).pending = { word := BitVec.ofNat 96 w, setup := none } :: s.pending := rfl
@[simp] theorem State.withFetchWord_rsp (s : State) (n w : Nat) : (s.withFetchWord n w).rsp = s.rsp := rfl
@[simp] theorem State.withFetchWord_freeCount (s : State) (n w : Nat) :
    (s.withFetchWord n w).freeCount = s.freeCount := rfl

/-! ## `withInput` -/

@[simp] theorem State.withInput_toInst (s : State) (und : List Host.Cell) : (s.withInput und).toInst = s.toInst := rfl
@[simp] theorem State.withInput_setup (s : State) (und : List Host.Cell) :
    (s.withInput und).setup = { s.setup with und := und } := rfl
@[simp] theorem State.withInput_pending (s : State) (und : List Host.Cell) :
    (s.withInput und).pending = s.pending := rfl
@[simp] theorem State.withInput_rsp (s : State) (und : List Host.Cell) : (s.withInput und).rsp = s.rsp := rfl
@[simp] theorem State.withInput_freeCount (s : State) (und : List Host.Cell) :
    (s.withInput und).freeCount = s.freeCount := rfl

/-! ## `returned` -/

@[simp] theorem State.returned_res (s : State) (v : Word) : (s.returned v).res = v := rfl
@[simp] theorem State.returned_sumr (s : State) (v : Word) : (s.returned v).sumr = s.sumr := rfl
@[simp] theorem State.returned_slOff (s : State) (v : Word) : (s.returned v).slOff = s.slOff := rfl
@[simp] theorem State.returned_slLen (s : State) (v : Word) : (s.returned v).slLen = s.slLen := rfl
@[simp] theorem State.returned_slValid (s : State) (v : Word) : (s.returned v).slValid = s.slValid := rfl
@[simp] theorem State.returned_ovf (s : State) (v : Word) : (s.returned v).ovf = s.ovf := rfl
@[simp] theorem State.returned_brAcc (s : State) (v : Word) : (s.returned v).brAcc = s.brAcc := rfl
@[simp] theorem State.returned_brLive (s : State) (v : Word) : (s.returned v).brLive = s.brLive := rfl
@[simp] theorem State.returned_brCfg (s : State) (v : Word) : (s.returned v).brCfg = s.brCfg := rfl
@[simp] theorem State.returned_isLo (s : State) (v : Word) : (s.returned v).isLo = s.isLo := rfl
@[simp] theorem State.returned_isHi (s : State) (v : Word) : (s.returned v).isHi = s.isHi := rfl
@[simp] theorem State.returned_isPos (s : State) (v : Word) : (s.returned v).isPos = s.isPos := rfl
@[simp] theorem State.returned_len (s : State) (v : Word) : (s.returned v).len = s.len := rfl
@[simp] theorem State.returned_tri (s : State) (v : Word) : (s.returned v).tri = s.tri := rfl
@[simp] theorem State.returned_ht (s : State) (v : Word) : (s.returned v).ht = s.ht := rfl
@[simp] theorem State.returned_vlcBase (s : State) (v : Word) : (s.returned v).vlcBase = s.vlcBase := rfl
@[simp] theorem State.returned_vlcBits (s : State) (v : Word) : (s.returned v).vlcBits = s.vlcBits := rfl
@[simp] theorem State.returned_vlcN (s : State) (v : Word) : (s.returned v).vlcN = s.vlcN := rfl
@[simp] theorem State.returned_outValid (s : State) (v : Word) : (s.returned v).outValid = s.outValid := rfl
@[simp] theorem State.returned_outDir (s : State) (v : Word) : (s.returned v).outDir = s.outDir := rfl
@[simp] theorem State.returned_outCur (s : State) (v : Word) : (s.returned v).outCur = s.outCur := rfl
@[simp] theorem State.returned_outWin (s : State) (v : Word) : (s.returned v).outWin = s.outWin := rfl
@[simp] theorem State.returned_rawSize (s : State) (v : Word) : (s.returned v).rawSize = s.rawSize := rfl
@[simp] theorem State.returned_out (s : State) (v : Word) : (s.returned v).out = s.out := rfl
@[simp] theorem State.returned_fsm (s : State) (v : Word) : (s.returned v).fsm = s.fsm := rfl
@[simp] theorem State.returned_err (s : State) (v : Word) : (s.returned v).err = s.err := rfl
@[simp] theorem State.returned_errInfo (s : State) (v : Word) : (s.returned v).errInfo = s.errInfo := rfl
@[simp] theorem State.returned_fmt (s : State) (v : Word) : (s.returned v).fmt = s.fmt := rfl
@[simp] theorem State.returned_packedSize (s : State) (v : Word) : (s.returned v).packedSize = s.packedSize := rfl
@[simp] theorem State.returned_gen (s : State) (v : Word) : (s.returned v).gen = s.gen := rfl
@[simp] theorem State.returned_ctrl (s : State) (v : Word) : (s.returned v).ctrl = s.ctrl := rfl
@[simp] theorem State.returned_chk (s : State) (v : Word) : (s.returned v).chk = s.chk := rfl
@[simp] theorem State.returned_chunkIdx (s : State) (v : Word) : (s.returned v).chunkIdx = s.chunkIdx := rfl
@[simp] theorem State.returned_chunkLo (s : State) (v : Word) : (s.returned v).chunkLo = s.chunkLo := rfl
@[simp] theorem State.returned_setup (s : State) (v : Word) : (s.returned v).setup = s.setup := rfl
@[simp] theorem State.returned_pending (s : State) (v : Word) : (s.returned v).pending = s.pending := rfl
@[simp] theorem State.returned_rsp (s : State) (v : Word) :
    (s.returned v).rsp = some { status := .ok, ovf := s.ovf, res := v } := rfl
@[simp] theorem State.returned_freeCount (s : State) (v : Word) : (s.returned v).freeCount = s.freeCount := rfl

/-! ## `latched` -/

@[simp] theorem State.latched_res (s : State) (k : Category) (c : Cause) : (s.latched k c).res = s.res := rfl
@[simp] theorem State.latched_sumr (s : State) (k : Category) (c : Cause) : (s.latched k c).sumr = s.sumr := rfl
@[simp] theorem State.latched_slOff (s : State) (k : Category) (c : Cause) : (s.latched k c).slOff = s.slOff := rfl
@[simp] theorem State.latched_slLen (s : State) (k : Category) (c : Cause) : (s.latched k c).slLen = s.slLen := rfl
@[simp] theorem State.latched_slValid (s : State) (k : Category) (c : Cause) :
    (s.latched k c).slValid = s.slValid := rfl
@[simp] theorem State.latched_ovf (s : State) (k : Category) (c : Cause) : (s.latched k c).ovf = s.ovf := rfl
@[simp] theorem State.latched_brAcc (s : State) (k : Category) (c : Cause) : (s.latched k c).brAcc = s.brAcc := rfl
@[simp] theorem State.latched_brLive (s : State) (k : Category) (c : Cause) : (s.latched k c).brLive = s.brLive := rfl
@[simp] theorem State.latched_brCfg (s : State) (k : Category) (c : Cause) : (s.latched k c).brCfg = s.brCfg := rfl
@[simp] theorem State.latched_isLo (s : State) (k : Category) (c : Cause) : (s.latched k c).isLo = s.isLo := rfl
@[simp] theorem State.latched_isHi (s : State) (k : Category) (c : Cause) : (s.latched k c).isHi = s.isHi := rfl
@[simp] theorem State.latched_isPos (s : State) (k : Category) (c : Cause) : (s.latched k c).isPos = s.isPos := rfl
@[simp] theorem State.latched_len (s : State) (k : Category) (c : Cause) : (s.latched k c).len = s.len := rfl
@[simp] theorem State.latched_tri (s : State) (k : Category) (c : Cause) : (s.latched k c).tri = s.tri := rfl
@[simp] theorem State.latched_ht (s : State) (k : Category) (c : Cause) : (s.latched k c).ht = s.ht := rfl
@[simp] theorem State.latched_vlcBase (s : State) (k : Category) (c : Cause) :
    (s.latched k c).vlcBase = s.vlcBase := rfl
@[simp] theorem State.latched_vlcBits (s : State) (k : Category) (c : Cause) :
    (s.latched k c).vlcBits = s.vlcBits := rfl
@[simp] theorem State.latched_vlcN (s : State) (k : Category) (c : Cause) : (s.latched k c).vlcN = s.vlcN := rfl
@[simp] theorem State.latched_outValid (s : State) (k : Category) (c : Cause) :
    (s.latched k c).outValid = s.outValid := rfl
@[simp] theorem State.latched_outDir (s : State) (k : Category) (c : Cause) : (s.latched k c).outDir = s.outDir := rfl
@[simp] theorem State.latched_outCur (s : State) (k : Category) (c : Cause) : (s.latched k c).outCur = s.outCur := rfl
@[simp] theorem State.latched_outWin (s : State) (k : Category) (c : Cause) : (s.latched k c).outWin = s.outWin := rfl
@[simp] theorem State.latched_rawSize (s : State) (k : Category) (c : Cause) :
    (s.latched k c).rawSize = s.rawSize := rfl
@[simp] theorem State.latched_out (s : State) (k : Category) (c : Cause) : (s.latched k c).out = s.out := rfl
@[simp] theorem State.latched_fsm (s : State) (k : Category) (c : Cause) : (s.latched k c).fsm = .failed := rfl
@[simp] theorem State.latched_err (s : State) (k : Category) (c : Cause) : (s.latched k c).err = k := rfl
@[simp] theorem State.latched_errInfo (s : State) (k : Category) (c : Cause) : (s.latched k c).errInfo = c := rfl
@[simp] theorem State.latched_fmt (s : State) (k : Category) (c : Cause) : (s.latched k c).fmt = s.fmt := rfl
@[simp] theorem State.latched_packedSize (s : State) (k : Category) (c : Cause) :
    (s.latched k c).packedSize = s.packedSize := rfl
@[simp] theorem State.latched_gen (s : State) (k : Category) (c : Cause) : (s.latched k c).gen = s.gen := rfl
@[simp] theorem State.latched_ctrl (s : State) (k : Category) (c : Cause) : (s.latched k c).ctrl = s.ctrl := rfl
@[simp] theorem State.latched_chk (s : State) (k : Category) (c : Cause) : (s.latched k c).chk = s.chk := rfl
@[simp] theorem State.latched_chunkIdx (s : State) (k : Category) (c : Cause) :
    (s.latched k c).chunkIdx = s.chunkIdx := rfl
@[simp] theorem State.latched_chunkLo (s : State) (k : Category) (c : Cause) :
    (s.latched k c).chunkLo = s.chunkLo := rfl
@[simp] theorem State.latched_setup (s : State) (k : Category) (c : Cause) : (s.latched k c).setup = s.setup := rfl
@[simp] theorem State.latched_pending (s : State) (k : Category) (c : Cause) :
    (s.latched k c).pending = s.pending := rfl
@[simp] theorem State.latched_rsp (s : State) (k : Category) (c : Cause) :
    (s.latched k c).rsp = some { status := k.status, ovf := s.ovf, res := 0 } := rfl
@[simp] theorem State.latched_freeCount (s : State) (k : Category) (c : Cause) :
    (s.latched k c).freeCount = s.freeCount := rfl

/-! ## `failed` -/

@[simp] theorem State.failed_res (s : State) (c : Cause) :
    (s.failed c).res = s.res := by unfold State.failed; split <;> rfl
@[simp] theorem State.failed_sumr (s : State) (c : Cause) :
    (s.failed c).sumr = s.sumr := by unfold State.failed; split <;> rfl
@[simp] theorem State.failed_slOff (s : State) (c : Cause) :
    (s.failed c).slOff = s.slOff := by unfold State.failed; split <;> rfl
@[simp] theorem State.failed_slLen (s : State) (c : Cause) :
    (s.failed c).slLen = s.slLen := by unfold State.failed; split <;> rfl
@[simp] theorem State.failed_slValid (s : State) (c : Cause) :
    (s.failed c).slValid = s.slValid := by unfold State.failed; split <;> rfl
@[simp] theorem State.failed_ovf (s : State) (c : Cause) :
    (s.failed c).ovf = s.ovf := by unfold State.failed; split <;> rfl
@[simp] theorem State.failed_brAcc (s : State) (c : Cause) :
    (s.failed c).brAcc = s.brAcc := by unfold State.failed; split <;> rfl
@[simp] theorem State.failed_brLive (s : State) (c : Cause) :
    (s.failed c).brLive = s.brLive := by unfold State.failed; split <;> rfl
@[simp] theorem State.failed_brCfg (s : State) (c : Cause) :
    (s.failed c).brCfg = s.brCfg := by unfold State.failed; split <;> rfl
@[simp] theorem State.failed_isLo (s : State) (c : Cause) :
    (s.failed c).isLo = s.isLo := by unfold State.failed; split <;> rfl
@[simp] theorem State.failed_isHi (s : State) (c : Cause) :
    (s.failed c).isHi = s.isHi := by unfold State.failed; split <;> rfl
@[simp] theorem State.failed_isPos (s : State) (c : Cause) :
    (s.failed c).isPos = s.isPos := by unfold State.failed; split <;> rfl
@[simp] theorem State.failed_len (s : State) (c : Cause) :
    (s.failed c).len = s.len := by unfold State.failed; split <;> rfl
@[simp] theorem State.failed_tri (s : State) (c : Cause) :
    (s.failed c).tri = s.tri := by unfold State.failed; split <;> rfl
@[simp] theorem State.failed_ht (s : State) (c : Cause) :
    (s.failed c).ht = s.ht := by unfold State.failed; split <;> rfl
@[simp] theorem State.failed_vlcBase (s : State) (c : Cause) :
    (s.failed c).vlcBase = s.vlcBase := by unfold State.failed; split <;> rfl
@[simp] theorem State.failed_vlcBits (s : State) (c : Cause) :
    (s.failed c).vlcBits = s.vlcBits := by unfold State.failed; split <;> rfl
@[simp] theorem State.failed_vlcN (s : State) (c : Cause) :
    (s.failed c).vlcN = s.vlcN := by unfold State.failed; split <;> rfl
@[simp] theorem State.failed_outValid (s : State) (c : Cause) :
    (s.failed c).outValid = s.outValid := by unfold State.failed; split <;> rfl
@[simp] theorem State.failed_outDir (s : State) (c : Cause) :
    (s.failed c).outDir = s.outDir := by unfold State.failed; split <;> rfl
@[simp] theorem State.failed_outCur (s : State) (c : Cause) :
    (s.failed c).outCur = s.outCur := by unfold State.failed; split <;> rfl
@[simp] theorem State.failed_outWin (s : State) (c : Cause) :
    (s.failed c).outWin = s.outWin := by unfold State.failed; split <;> rfl
@[simp] theorem State.failed_rawSize (s : State) (c : Cause) :
    (s.failed c).rawSize = s.rawSize := by unfold State.failed; split <;> rfl
@[simp] theorem State.failed_out (s : State) (c : Cause) :
    (s.failed c).out = s.out := by unfold State.failed; split <;> rfl
@[simp] theorem State.failed_fmt (s : State) (c : Cause) :
    (s.failed c).fmt = s.fmt := by unfold State.failed; split <;> rfl
@[simp] theorem State.failed_packedSize (s : State) (c : Cause) :
    (s.failed c).packedSize = s.packedSize := by unfold State.failed; split <;> rfl
@[simp] theorem State.failed_gen (s : State) (c : Cause) :
    (s.failed c).gen = s.gen := by unfold State.failed; split <;> rfl
@[simp] theorem State.failed_ctrl (s : State) (c : Cause) :
    (s.failed c).ctrl = s.ctrl := by unfold State.failed; split <;> rfl
@[simp] theorem State.failed_chk (s : State) (c : Cause) :
    (s.failed c).chk = s.chk := by unfold State.failed; split <;> rfl
@[simp] theorem State.failed_chunkIdx (s : State) (c : Cause) :
    (s.failed c).chunkIdx = s.chunkIdx := by unfold State.failed; split <;> rfl
@[simp] theorem State.failed_chunkLo (s : State) (c : Cause) :
    (s.failed c).chunkLo = s.chunkLo := by unfold State.failed; split <;> rfl
@[simp] theorem State.failed_setup (s : State) (c : Cause) :
    (s.failed c).setup = s.setup := by unfold State.failed; split <;> rfl
@[simp] theorem State.failed_pending (s : State) (c : Cause) :
    (s.failed c).pending = s.pending := by unfold State.failed; split <;> rfl
@[simp] theorem State.failed_rsp (s : State) (c : Cause) :
    (s.failed c).rsp = some { status := (c.category s.fsm).status, ovf := s.ovf, res := 0 } := by unfold State.failed; split <;> rfl
@[simp] theorem State.failed_freeCount (s : State) (c : Cause) :
    (s.failed c).freeCount = s.freeCount := by unfold State.failed; split <;> rfl

/-! ## `put` -/

@[simp] theorem State.put_res (s : State) (b : Byte) : (s.put b).res = s.res := by unfold State.put; split <;> rfl
@[simp] theorem State.put_sumr (s : State) (b : Byte) : (s.put b).sumr = s.sumr := by unfold State.put; split <;> rfl
@[simp] theorem State.put_slOff (s : State) (b : Byte) :
    (s.put b).slOff = s.slOff := by unfold State.put; split <;> rfl
@[simp] theorem State.put_slLen (s : State) (b : Byte) :
    (s.put b).slLen = s.slLen := by unfold State.put; split <;> rfl
@[simp] theorem State.put_slValid (s : State) (b : Byte) :
    (s.put b).slValid = s.slValid := by unfold State.put; split <;> rfl
@[simp] theorem State.put_ovf (s : State) (b : Byte) : (s.put b).ovf = s.ovf := by unfold State.put; split <;> rfl
@[simp] theorem State.put_brAcc (s : State) (b : Byte) :
    (s.put b).brAcc = s.brAcc := by unfold State.put; split <;> rfl
@[simp] theorem State.put_brLive (s : State) (b : Byte) :
    (s.put b).brLive = s.brLive := by unfold State.put; split <;> rfl
@[simp] theorem State.put_brCfg (s : State) (b : Byte) :
    (s.put b).brCfg = s.brCfg := by unfold State.put; split <;> rfl
@[simp] theorem State.put_isLo (s : State) (b : Byte) : (s.put b).isLo = s.isLo := by unfold State.put; split <;> rfl
@[simp] theorem State.put_isHi (s : State) (b : Byte) : (s.put b).isHi = s.isHi := by unfold State.put; split <;> rfl
@[simp] theorem State.put_isPos (s : State) (b : Byte) :
    (s.put b).isPos = s.isPos := by unfold State.put; split <;> rfl
@[simp] theorem State.put_len (s : State) (b : Byte) : (s.put b).len = s.len := by unfold State.put; split <;> rfl
@[simp] theorem State.put_tri (s : State) (b : Byte) : (s.put b).tri = s.tri := by unfold State.put; split <;> rfl
@[simp] theorem State.put_ht (s : State) (b : Byte) : (s.put b).ht = s.ht := by unfold State.put; split <;> rfl
@[simp] theorem State.put_vlcBase (s : State) (b : Byte) :
    (s.put b).vlcBase = s.vlcBase := by unfold State.put; split <;> rfl
@[simp] theorem State.put_vlcBits (s : State) (b : Byte) :
    (s.put b).vlcBits = s.vlcBits := by unfold State.put; split <;> rfl
@[simp] theorem State.put_vlcN (s : State) (b : Byte) : (s.put b).vlcN = s.vlcN := by unfold State.put; split <;> rfl
@[simp] theorem State.put_outValid (s : State) (b : Byte) :
    (s.put b).outValid = s.outValid := by unfold State.put; split <;> rfl
@[simp] theorem State.put_outDir (s : State) (b : Byte) :
    (s.put b).outDir = s.outDir := by unfold State.put; split <;> rfl
@[simp] theorem State.put_outWin (s : State) (b : Byte) :
    (s.put b).outWin = s.outWin := by unfold State.put; split <;> rfl
@[simp] theorem State.put_rawSize (s : State) (b : Byte) :
    (s.put b).rawSize = s.rawSize := by unfold State.put; split <;> rfl
@[simp] theorem State.put_fsm (s : State) (b : Byte) : (s.put b).fsm = s.fsm := by unfold State.put; split <;> rfl
@[simp] theorem State.put_err (s : State) (b : Byte) : (s.put b).err = s.err := by unfold State.put; split <;> rfl
@[simp] theorem State.put_errInfo (s : State) (b : Byte) :
    (s.put b).errInfo = s.errInfo := by unfold State.put; split <;> rfl
@[simp] theorem State.put_fmt (s : State) (b : Byte) : (s.put b).fmt = s.fmt := by unfold State.put; split <;> rfl
@[simp] theorem State.put_packedSize (s : State) (b : Byte) :
    (s.put b).packedSize = s.packedSize := by unfold State.put; split <;> rfl
@[simp] theorem State.put_gen (s : State) (b : Byte) : (s.put b).gen = s.gen := by unfold State.put; split <;> rfl
@[simp] theorem State.put_ctrl (s : State) (b : Byte) : (s.put b).ctrl = s.ctrl := by unfold State.put; split <;> rfl
@[simp] theorem State.put_chk (s : State) (b : Byte) : (s.put b).chk = s.chk := by unfold State.put; split <;> rfl
@[simp] theorem State.put_chunkIdx (s : State) (b : Byte) :
    (s.put b).chunkIdx = s.chunkIdx := by unfold State.put; split <;> rfl
@[simp] theorem State.put_chunkLo (s : State) (b : Byte) :
    (s.put b).chunkLo = s.chunkLo := by unfold State.put; split <;> rfl
@[simp] theorem State.put_setup (s : State) (b : Byte) :
    (s.put b).setup = s.setup := by unfold State.put; split <;> rfl
@[simp] theorem State.put_pending (s : State) (b : Byte) :
    (s.put b).pending = s.pending := by unfold State.put; split <;> rfl
@[simp] theorem State.put_rsp (s : State) (b : Byte) : (s.put b).rsp = s.rsp := by unfold State.put; split <;> rfl
@[simp] theorem State.put_freeCount (s : State) (b : Byte) :
    (s.put b).freeCount = s.freeCount := by unfold State.put; split <;> rfl

/-! ## `withReader` -/

@[simp] theorem State.withReader_res (s t : State) : (s.withReader t).res = s.res := rfl
@[simp] theorem State.withReader_sumr (s t : State) : (s.withReader t).sumr = s.sumr := rfl
@[simp] theorem State.withReader_slOff (s t : State) : (s.withReader t).slOff = s.slOff := rfl
@[simp] theorem State.withReader_slLen (s t : State) : (s.withReader t).slLen = s.slLen := rfl
@[simp] theorem State.withReader_slValid (s t : State) : (s.withReader t).slValid = s.slValid := rfl
@[simp] theorem State.withReader_ovf (s t : State) : (s.withReader t).ovf = s.ovf := rfl
@[simp] theorem State.withReader_brAcc (s t : State) : (s.withReader t).brAcc = t.brAcc := rfl
@[simp] theorem State.withReader_brLive (s t : State) : (s.withReader t).brLive = t.brLive := rfl
@[simp] theorem State.withReader_brCfg (s t : State) : (s.withReader t).brCfg = s.brCfg := rfl
@[simp] theorem State.withReader_isLo (s t : State) : (s.withReader t).isLo = s.isLo := rfl
@[simp] theorem State.withReader_isHi (s t : State) : (s.withReader t).isHi = s.isHi := rfl
@[simp] theorem State.withReader_isPos (s t : State) : (s.withReader t).isPos = t.isPos := rfl
@[simp] theorem State.withReader_len (s t : State) : (s.withReader t).len = s.len := rfl
@[simp] theorem State.withReader_tri (s t : State) : (s.withReader t).tri = s.tri := rfl
@[simp] theorem State.withReader_ht (s t : State) : (s.withReader t).ht = s.ht := rfl
@[simp] theorem State.withReader_vlcBase (s t : State) : (s.withReader t).vlcBase = s.vlcBase := rfl
@[simp] theorem State.withReader_vlcBits (s t : State) : (s.withReader t).vlcBits = s.vlcBits := rfl
@[simp] theorem State.withReader_vlcN (s t : State) : (s.withReader t).vlcN = s.vlcN := rfl
@[simp] theorem State.withReader_outValid (s t : State) : (s.withReader t).outValid = s.outValid := rfl
@[simp] theorem State.withReader_outDir (s t : State) : (s.withReader t).outDir = s.outDir := rfl
@[simp] theorem State.withReader_outCur (s t : State) : (s.withReader t).outCur = s.outCur := rfl
@[simp] theorem State.withReader_outWin (s t : State) : (s.withReader t).outWin = s.outWin := rfl
@[simp] theorem State.withReader_rawSize (s t : State) : (s.withReader t).rawSize = s.rawSize := rfl
@[simp] theorem State.withReader_out (s t : State) : (s.withReader t).out = s.out := rfl
@[simp] theorem State.withReader_fsm (s t : State) : (s.withReader t).fsm = s.fsm := rfl
@[simp] theorem State.withReader_err (s t : State) : (s.withReader t).err = s.err := rfl
@[simp] theorem State.withReader_errInfo (s t : State) : (s.withReader t).errInfo = s.errInfo := rfl
@[simp] theorem State.withReader_fmt (s t : State) : (s.withReader t).fmt = s.fmt := rfl
@[simp] theorem State.withReader_packedSize (s t : State) : (s.withReader t).packedSize = s.packedSize := rfl
@[simp] theorem State.withReader_gen (s t : State) : (s.withReader t).gen = s.gen := rfl
@[simp] theorem State.withReader_ctrl (s t : State) : (s.withReader t).ctrl = s.ctrl := rfl
@[simp] theorem State.withReader_chk (s t : State) : (s.withReader t).chk = s.chk := rfl
@[simp] theorem State.withReader_chunkIdx (s t : State) : (s.withReader t).chunkIdx = s.chunkIdx := rfl
@[simp] theorem State.withReader_chunkLo (s t : State) : (s.withReader t).chunkLo = s.chunkLo := rfl
@[simp] theorem State.withReader_setup (s t : State) : (s.withReader t).setup = s.setup := rfl
@[simp] theorem State.withReader_pending (s t : State) : (s.withReader t).pending = s.pending := rfl
@[simp] theorem State.withReader_rsp (s t : State) : (s.withReader t).rsp = s.rsp := rfl
@[simp] theorem State.withReader_freeCount (s t : State) : (s.withReader t).freeCount = s.freeCount := rfl

/-! ## `withFsm` -/

@[simp] theorem State.withFsm_res (s : State) (f : Fsm) : (s.withFsm f).res = s.res := rfl
@[simp] theorem State.withFsm_sumr (s : State) (f : Fsm) : (s.withFsm f).sumr = s.sumr := rfl
@[simp] theorem State.withFsm_slOff (s : State) (f : Fsm) : (s.withFsm f).slOff = s.slOff := rfl
@[simp] theorem State.withFsm_slLen (s : State) (f : Fsm) : (s.withFsm f).slLen = s.slLen := rfl
@[simp] theorem State.withFsm_slValid (s : State) (f : Fsm) : (s.withFsm f).slValid = s.slValid := rfl
@[simp] theorem State.withFsm_ovf (s : State) (f : Fsm) : (s.withFsm f).ovf = s.ovf := rfl
@[simp] theorem State.withFsm_brAcc (s : State) (f : Fsm) : (s.withFsm f).brAcc = s.brAcc := rfl
@[simp] theorem State.withFsm_brLive (s : State) (f : Fsm) : (s.withFsm f).brLive = s.brLive := rfl
@[simp] theorem State.withFsm_brCfg (s : State) (f : Fsm) : (s.withFsm f).brCfg = s.brCfg := rfl
@[simp] theorem State.withFsm_isLo (s : State) (f : Fsm) : (s.withFsm f).isLo = s.isLo := rfl
@[simp] theorem State.withFsm_isHi (s : State) (f : Fsm) : (s.withFsm f).isHi = s.isHi := rfl
@[simp] theorem State.withFsm_isPos (s : State) (f : Fsm) : (s.withFsm f).isPos = s.isPos := rfl
@[simp] theorem State.withFsm_len (s : State) (f : Fsm) : (s.withFsm f).len = s.len := rfl
@[simp] theorem State.withFsm_tri (s : State) (f : Fsm) : (s.withFsm f).tri = s.tri := rfl
@[simp] theorem State.withFsm_ht (s : State) (f : Fsm) : (s.withFsm f).ht = s.ht := rfl
@[simp] theorem State.withFsm_vlcBase (s : State) (f : Fsm) : (s.withFsm f).vlcBase = s.vlcBase := rfl
@[simp] theorem State.withFsm_vlcBits (s : State) (f : Fsm) : (s.withFsm f).vlcBits = s.vlcBits := rfl
@[simp] theorem State.withFsm_vlcN (s : State) (f : Fsm) : (s.withFsm f).vlcN = s.vlcN := rfl
@[simp] theorem State.withFsm_outValid (s : State) (f : Fsm) : (s.withFsm f).outValid = s.outValid := rfl
@[simp] theorem State.withFsm_outDir (s : State) (f : Fsm) : (s.withFsm f).outDir = s.outDir := rfl
@[simp] theorem State.withFsm_outCur (s : State) (f : Fsm) : (s.withFsm f).outCur = s.outCur := rfl
@[simp] theorem State.withFsm_outWin (s : State) (f : Fsm) : (s.withFsm f).outWin = s.outWin := rfl
@[simp] theorem State.withFsm_rawSize (s : State) (f : Fsm) : (s.withFsm f).rawSize = s.rawSize := rfl
@[simp] theorem State.withFsm_out (s : State) (f : Fsm) : (s.withFsm f).out = s.out := rfl
@[simp] theorem State.withFsm_fsm (s : State) (f : Fsm) : (s.withFsm f).fsm = f := rfl
@[simp] theorem State.withFsm_err (s : State) (f : Fsm) : (s.withFsm f).err = s.err := rfl
@[simp] theorem State.withFsm_errInfo (s : State) (f : Fsm) : (s.withFsm f).errInfo = s.errInfo := rfl
@[simp] theorem State.withFsm_fmt (s : State) (f : Fsm) : (s.withFsm f).fmt = s.fmt := rfl
@[simp] theorem State.withFsm_packedSize (s : State) (f : Fsm) : (s.withFsm f).packedSize = s.packedSize := rfl
@[simp] theorem State.withFsm_gen (s : State) (f : Fsm) : (s.withFsm f).gen = s.gen := rfl
@[simp] theorem State.withFsm_ctrl (s : State) (f : Fsm) : (s.withFsm f).ctrl = s.ctrl := rfl
@[simp] theorem State.withFsm_chk (s : State) (f : Fsm) : (s.withFsm f).chk = s.chk := rfl
@[simp] theorem State.withFsm_chunkIdx (s : State) (f : Fsm) : (s.withFsm f).chunkIdx = s.chunkIdx := rfl
@[simp] theorem State.withFsm_chunkLo (s : State) (f : Fsm) : (s.withFsm f).chunkLo = s.chunkLo := rfl
@[simp] theorem State.withFsm_setup (s : State) (f : Fsm) : (s.withFsm f).setup = s.setup := rfl
@[simp] theorem State.withFsm_pending (s : State) (f : Fsm) : (s.withFsm f).pending = s.pending := rfl
@[simp] theorem State.withFsm_rsp (s : State) (f : Fsm) : (s.withFsm f).rsp = s.rsp := rfl
@[simp] theorem State.withFsm_freeCount (s : State) (f : Fsm) : (s.withFsm f).freeCount = s.freeCount := rfl

/-! ## `toolkitCleared` -/

@[simp] theorem State.toolkitCleared_res (s : State) : (s.toolkitCleared).res = s.res := rfl
@[simp] theorem State.toolkitCleared_sumr (s : State) : (s.toolkitCleared).sumr = 0 := rfl
@[simp] theorem State.toolkitCleared_slOff (s : State) : (s.toolkitCleared).slOff = 0 := rfl
@[simp] theorem State.toolkitCleared_slLen (s : State) : (s.toolkitCleared).slLen = 0 := rfl
@[simp] theorem State.toolkitCleared_slValid (s : State) : (s.toolkitCleared).slValid = false := rfl
@[simp] theorem State.toolkitCleared_ovf (s : State) : (s.toolkitCleared).ovf = false := rfl
@[simp] theorem State.toolkitCleared_brAcc (s : State) : (s.toolkitCleared).brAcc = 0 := rfl
@[simp] theorem State.toolkitCleared_brLive (s : State) : (s.toolkitCleared).brLive = 0 := rfl
@[simp] theorem State.toolkitCleared_brCfg (s : State) : (s.toolkitCleared).brCfg = .reset := rfl
@[simp] theorem State.toolkitCleared_isLo (s : State) : (s.toolkitCleared).isLo = 0 := rfl
@[simp] theorem State.toolkitCleared_isHi (s : State) : (s.toolkitCleared).isHi = 0 := rfl
@[simp] theorem State.toolkitCleared_isPos (s : State) : (s.toolkitCleared).isPos = 0 := rfl
@[simp] theorem State.toolkitCleared_len (s : State) : (s.toolkitCleared).len = [] := rfl
@[simp] theorem State.toolkitCleared_tri (s : State) : (s.toolkitCleared).tri = [] := rfl
@[simp] theorem State.toolkitCleared_ht (s : State) : (s.toolkitCleared).ht = [] := rfl
@[simp] theorem State.toolkitCleared_vlcBase (s : State) : (s.toolkitCleared).vlcBase = [] := rfl
@[simp] theorem State.toolkitCleared_vlcBits (s : State) : (s.toolkitCleared).vlcBits = [] := rfl
@[simp] theorem State.toolkitCleared_vlcN (s : State) : (s.toolkitCleared).vlcN = vlcNone := rfl
@[simp] theorem State.toolkitCleared_outValid (s : State) : (s.toolkitCleared).outValid = s.outValid := rfl
@[simp] theorem State.toolkitCleared_outDir (s : State) : (s.toolkitCleared).outDir = s.outDir := rfl
@[simp] theorem State.toolkitCleared_outCur (s : State) : (s.toolkitCleared).outCur = s.outCur := rfl
@[simp] theorem State.toolkitCleared_outWin (s : State) : (s.toolkitCleared).outWin = s.outWin := rfl
@[simp] theorem State.toolkitCleared_rawSize (s : State) : (s.toolkitCleared).rawSize = s.rawSize := rfl
@[simp] theorem State.toolkitCleared_out (s : State) : (s.toolkitCleared).out = s.out := rfl
@[simp] theorem State.toolkitCleared_fsm (s : State) : (s.toolkitCleared).fsm = s.fsm := rfl
@[simp] theorem State.toolkitCleared_err (s : State) : (s.toolkitCleared).err = s.err := rfl
@[simp] theorem State.toolkitCleared_errInfo (s : State) : (s.toolkitCleared).errInfo = s.errInfo := rfl
@[simp] theorem State.toolkitCleared_fmt (s : State) : (s.toolkitCleared).fmt = s.fmt := rfl
@[simp] theorem State.toolkitCleared_packedSize (s : State) : (s.toolkitCleared).packedSize = s.packedSize := rfl
@[simp] theorem State.toolkitCleared_gen (s : State) : (s.toolkitCleared).gen = s.gen := rfl
@[simp] theorem State.toolkitCleared_ctrl (s : State) : (s.toolkitCleared).ctrl = s.ctrl := rfl
@[simp] theorem State.toolkitCleared_chk (s : State) : (s.toolkitCleared).chk = s.chk := rfl
@[simp] theorem State.toolkitCleared_chunkIdx (s : State) : (s.toolkitCleared).chunkIdx = s.chunkIdx := rfl
@[simp] theorem State.toolkitCleared_chunkLo (s : State) : (s.toolkitCleared).chunkLo = s.chunkLo := rfl
@[simp] theorem State.toolkitCleared_setup (s : State) : (s.toolkitCleared).setup = s.setup := rfl
@[simp] theorem State.toolkitCleared_pending (s : State) : (s.toolkitCleared).pending = s.pending := rfl
@[simp] theorem State.toolkitCleared_rsp (s : State) : (s.toolkitCleared).rsp = s.rsp := rfl
@[simp] theorem State.toolkitCleared_freeCount (s : State) : (s.toolkitCleared).freeCount = 0 := rfl

/-! ## `showing` -/

@[simp] theorem Inst.showing_res (s : Inst) (v : Word) : (s.showing v).res = v := rfl
@[simp] theorem Inst.showing_sumr (s : Inst) (v : Word) : (s.showing v).sumr = s.sumr := rfl
@[simp] theorem Inst.showing_slOff (s : Inst) (v : Word) : (s.showing v).slOff = s.slOff := rfl
@[simp] theorem Inst.showing_slLen (s : Inst) (v : Word) : (s.showing v).slLen = s.slLen := rfl
@[simp] theorem Inst.showing_slValid (s : Inst) (v : Word) : (s.showing v).slValid = s.slValid := rfl
@[simp] theorem Inst.showing_ovf (s : Inst) (v : Word) : (s.showing v).ovf = s.ovf := rfl
@[simp] theorem Inst.showing_brAcc (s : Inst) (v : Word) : (s.showing v).brAcc = s.brAcc := rfl
@[simp] theorem Inst.showing_brLive (s : Inst) (v : Word) : (s.showing v).brLive = s.brLive := rfl
@[simp] theorem Inst.showing_brCfg (s : Inst) (v : Word) : (s.showing v).brCfg = s.brCfg := rfl
@[simp] theorem Inst.showing_isLo (s : Inst) (v : Word) : (s.showing v).isLo = s.isLo := rfl
@[simp] theorem Inst.showing_isHi (s : Inst) (v : Word) : (s.showing v).isHi = s.isHi := rfl
@[simp] theorem Inst.showing_isPos (s : Inst) (v : Word) : (s.showing v).isPos = s.isPos := rfl
@[simp] theorem Inst.showing_len (s : Inst) (v : Word) : (s.showing v).len = s.len := rfl
@[simp] theorem Inst.showing_tri (s : Inst) (v : Word) : (s.showing v).tri = s.tri := rfl
@[simp] theorem Inst.showing_ht (s : Inst) (v : Word) : (s.showing v).ht = s.ht := rfl
@[simp] theorem Inst.showing_vlcBase (s : Inst) (v : Word) : (s.showing v).vlcBase = s.vlcBase := rfl
@[simp] theorem Inst.showing_vlcBits (s : Inst) (v : Word) : (s.showing v).vlcBits = s.vlcBits := rfl
@[simp] theorem Inst.showing_vlcN (s : Inst) (v : Word) : (s.showing v).vlcN = s.vlcN := rfl
@[simp] theorem Inst.showing_outValid (s : Inst) (v : Word) : (s.showing v).outValid = s.outValid := rfl
@[simp] theorem Inst.showing_outDir (s : Inst) (v : Word) : (s.showing v).outDir = s.outDir := rfl
@[simp] theorem Inst.showing_outCur (s : Inst) (v : Word) : (s.showing v).outCur = s.outCur := rfl
@[simp] theorem Inst.showing_outWin (s : Inst) (v : Word) : (s.showing v).outWin = s.outWin := rfl
@[simp] theorem Inst.showing_rawSize (s : Inst) (v : Word) : (s.showing v).rawSize = s.rawSize := rfl
@[simp] theorem Inst.showing_out (s : Inst) (v : Word) : (s.showing v).out = s.out := rfl
@[simp] theorem Inst.showing_fsm (s : Inst) (v : Word) : (s.showing v).fsm = s.fsm := rfl
@[simp] theorem Inst.showing_err (s : Inst) (v : Word) : (s.showing v).err = s.err := rfl
@[simp] theorem Inst.showing_errInfo (s : Inst) (v : Word) : (s.showing v).errInfo = s.errInfo := rfl
@[simp] theorem Inst.showing_fmt (s : Inst) (v : Word) : (s.showing v).fmt = s.fmt := rfl
@[simp] theorem Inst.showing_packedSize (s : Inst) (v : Word) : (s.showing v).packedSize = s.packedSize := rfl
@[simp] theorem Inst.showing_gen (s : Inst) (v : Word) : (s.showing v).gen = s.gen := rfl
@[simp] theorem Inst.showing_ctrl (s : Inst) (v : Word) : (s.showing v).ctrl = s.ctrl := rfl
@[simp] theorem Inst.showing_chk (s : Inst) (v : Word) : (s.showing v).chk = s.chk := rfl
@[simp] theorem Inst.showing_chunkIdx (s : Inst) (v : Word) : (s.showing v).chunkIdx = s.chunkIdx := rfl
@[simp] theorem Inst.showing_chunkLo (s : Inst) (v : Word) : (s.showing v).chunkLo = s.chunkLo := rfl
@[simp] theorem Inst.showing_produced (s : Inst) (v : Word) : (s.showing v).produced = s.produced := rfl
@[simp] theorem Inst.showing_eof (s : Inst) (v : Word) : (s.showing v).eof = s.eof := rfl
@[simp] theorem Inst.showing_writtenSince (s : Inst) (v : Word) (n : Nat) :
    (s.showing v).writtenSince n = s.writtenSince n := rfl
@[simp] theorem Inst.showing_first16 (s : Inst) (v : Word) : (s.showing v).first16 = s.first16 := rfl

/-! ## What a raise latches -/

/-- In Done a raise leaves the instance as it is (60_exceptions.md R263). -/
theorem State.failed_of_done {s : State} (h : s.fsm = .done) (c : Cause) :
    s.failed c = { s with rsp := some { status := (c.category s.fsm).status, ovf := s.ovf, res := 0 } } := by
  simp [State.failed, h]

/-- Elsewhere a raise latches its category and its cause (60_exceptions.md R263). -/
theorem State.failed_of_not_done {s : State} (h : s.fsm ≠ .done) (c : Cause) :
    s.failed c = s.latched (c.category s.fsm) c := by simp [State.failed, h, State.latched]

theorem State.refusedIllegal_eq_turnedAway (s : State) : s.refusedIllegal = s.turnedAway := rfl

end Sys2Proof.Machine
end

