-- ==== Sys2Proof/Laws/Ops.lean ====
section
/-!
SUPPORT. What running a command can come to: one inversion lemma for each way two parts are joined, for the end of a
command, and for the legality table.
-/
namespace Sys2Proof.Machine

/-! ## Parts of a command -/

variable {α β : Type}

@[simp] theorem Run.ok_andThen (a : α) (s : State) (k : α → State → Run β) : (Run.ok a s).andThen k = k a s := rfl

@[simp] theorem Run.raised_andThen (c : Cause) (s : State) (k : α → State → Run β) :
    (Run.raised c s : Run α).andThen k = .raised c s := rfl

@[simp] theorem Run.illegal_andThen (k : α → State → Run β) : (Run.illegal : Run α).andThen k = .illegal := rfl

@[simp] theorem Run.stuck_andThen (k : α → State → Run β) : (Run.stuck : Run α).andThen k = .stuck := rfl

/-- A whole goes on exactly where both its parts do. -/
theorem Run.andThen_ok {r : Run α} {k : α → State → Run β} {b : β} {t : State} :
    r.andThen k = .ok b t ↔ ∃ a u, r = .ok a u ∧ k a u = .ok b t := by
  cases r <;> simp [Run.andThen]

/-- A whole fails in its first part, or in its second after the first went on. -/
theorem Run.andThen_raised {r : Run α} {k : α → State → Run β} {c : Cause} {t : State} :
    r.andThen k = .raised c t ↔ r = .raised c t ∨ ∃ a u, r = .ok a u ∧ k a u = .raised c t := by
  cases r <;> simp [Run.andThen]

/-- A whole is refused in its first part, or in its second after the first went on. -/
theorem Run.andThen_illegal {r : Run α} {k : α → State → Run β} :
    r.andThen k = .illegal ↔ r = .illegal ∨ ∃ a u, r = .ok a u ∧ k a u = .illegal := by
  cases r <;> simp [Run.andThen]

/-- A whole is stuck in its first part, or in its second after the first went on. -/
theorem Run.andThen_stuck {r : Run α} {k : α → State → Run β} :
    r.andThen k = .stuck ↔ r = .stuck ∨ ∃ a u, r = .ok a u ∧ k a u = .stuck := by
  cases r <;> simp [Run.andThen]

/-- What holds of the state a part ends in, whether it goes on or fails. -/
def Run.Ends (P : State → Prop) : Run α → Prop
  | .ok _ t => P t
  | .raised _ t => P t
  | .illegal => True
  | .stuck => True

@[simp] theorem Run.ends_ok (P : State → Prop) (a : α) (t : State) : (Run.ok a t).Ends P ↔ P t := Iff.rfl

@[simp] theorem Run.ends_raised (P : State → Prop) (c : Cause) (t : State) :
    (Run.raised c t : Run α).Ends P ↔ P t := Iff.rfl

@[simp] theorem Run.ends_illegal (P : State → Prop) : (Run.illegal : Run α).Ends P ↔ True := Iff.rfl

@[simp] theorem Run.ends_stuck (P : State → Prop) : (Run.stuck : Run α).Ends P ↔ True := Iff.rfl

/-- A property that the first part ends with and that the second keeps is one the whole ends with. -/
theorem Run.Ends.andThen {P : State → Prop} {r : Run α} {k : α → State → Run β} (hr : r.Ends P)
    (hk : ∀ a t, P t → (k a t).Ends P) : (r.andThen k).Ends P := by
  cases r with
  | ok a t => exact hk a t hr
  | raised c t => exact hr
  | illegal => trivial
  | stuck => trivial

/-- A weaker property. -/
theorem Run.Ends.imp {P Q : State → Prop} {r : Run α} (hr : r.Ends P) (h : ∀ t, P t → Q t) : r.Ends Q := by
  cases r with
  | ok a t => exact h t hr
  | raised c t => exact h t hr
  | illegal => trivial
  | stuck => trivial

/-! ## The end of a command -/

@[simp] theorem outcome_ok (s t : State) (v : Option Word) : s.outcome (.ok v t) = .next (t.answered v) := rfl

@[simp] theorem outcome_raised (s t : State) (c : Cause) : s.outcome (.raised c t) = .next (t.failed c) := rfl

@[simp] theorem outcome_illegal (s : State) : s.outcome .illegal = .next s.refusedIllegal := rfl

/-- A command that ends has completed, failed, or been refused. -/
theorem outcome_next {s t : State} {r : Run (Option Word)} (h : s.outcome r = .next t) :
    (∃ v u, r = .ok v u ∧ t = u.answered v) ∨ (∃ c u, r = .raised c u ∧ t = u.failed c)
      ∨ (r = .illegal ∧ t = s.refusedIllegal) := by
  cases r with
  | ok v u => cases h; exact .inl ⟨v, u, rfl, rfl⟩
  | raised c u => cases h; exact .inr (.inl ⟨c, u, rfl, rfl⟩)
  | illegal => cases h; exact .inr (.inr ⟨rfl, rfl⟩)
  | stuck => cases h

/-- A legal command runs (45_decompressor.md R192). -/
theorem hostCommand_of_accepted {k : Kind} {s : State} (h : accepts .host k s.fsm = true)
    (op : State → Run (Option Word)) : hostCommand k op s = s.outcome (op s) := by simp [hostCommand, h]

/-- A command that is not legal is refused (45_decompressor.md R192, 60_exceptions.md R267). -/
theorem hostCommand_of_refused {k : Kind} {s : State} (h : accepts .host k s.fsm = false)
    (op : State → Run (Option Word)) : hostCommand k op s = .next s.refusedIllegal := by simp [hostCommand, h]

/-- Everything a host's command can do when it ends. -/
theorem hostCommand_next {k : Kind} {op : State → Run (Option Word)} {s t : State}
    (h : hostCommand k op s = .next t) :
    t = s.refusedIllegal ∨ (accepts .host k s.fsm = true
      ∧ ((∃ v u, op s = .ok v u ∧ t = u.answered v) ∨ ∃ c u, op s = .raised c u ∧ t = u.failed c)) := by
  by_cases ha : accepts .host k s.fsm = true
  · rw [hostCommand_of_accepted ha] at h
    rcases outcome_next h with h | h | ⟨_, h⟩
    · exact .inr ⟨ha, .inl h⟩
    · exact .inr ⟨ha, .inr h⟩
    · exact .inl h
  · rw [hostCommand_of_refused (by simpa using ha)] at h
    cases h
    exact .inl rfl

/-- A command whose body is never stuck ends (60_exceptions.md R268). -/
theorem hostCommand_ends {k : Kind} {op : State → Run (Option Word)} {s : State} (h : op s ≠ .stuck) :
    ∃ t, hostCommand k op s = .next t := by
  by_cases ha : accepts .host k s.fsm = true
  · rw [hostCommand_of_accepted ha]
    cases hr : op s with
    | ok v u => exact ⟨_, rfl⟩
    | raised c u => exact ⟨_, rfl⟩
    | illegal => exact ⟨_, rfl⟩
    | stuck => exact absurd hr h
  · exact ⟨_, hostCommand_of_refused (by simpa using ha) op⟩

end Sys2Proof.Machine
end

