-- ==== Sys2Proof/Laws/Output.lean ====
section
/-!
SUPPORT. What a write to the output and a copy can do (44_output.md R172 to R176): the cursor moves, the bytes passed
over are written, every other byte reads as before.
-/
namespace Sys2Proof.Machine

/-! ## Where a write goes -/

variable {α : Type}

theorem Memory.keys_set_above {m : List (Nat × α)} {i : Nat} (v : α) (h : ∀ k ∈ m.map Prod.fst, k < i) :
    (Memory.set m i v).map Prod.fst = m.map Prod.fst ++ [i] := by
  induction m with
  | nil => rfl
  | cons c m ih =>
    obtain ⟨k, u⟩ := c
    have hk : k < i := h k (by simp)
    simp only [Memory.set, show ¬ i < k by omega, show ¬ i = k by omega, ↓reduceIte, List.map_cons, List.cons_append]
    rw [ih fun j hj => h j (by simp only [List.map_cons, List.mem_cons]; exact .inr hj)]

theorem Memory.keys_set_below {m : List (Nat × α)} {i : Nat} (v : α) (h : ∀ k ∈ m.map Prod.fst, i < k) :
    (Memory.set m i v).map Prod.fst = i :: m.map Prod.fst := by
  cases m with
  | nil => rfl
  | cons c m =>
    obtain ⟨k, u⟩ := c
    have hk : i < k := h k (by simp)
    simp [Memory.set, hk]

/-- An index is written exactly where it is among the keys. -/
theorem Memory.get_isSome {m : List (Nat × α)} {i : Nat} : (Memory.get m i).isSome = true ↔ i ∈ m.map Prod.fst := by
  induction m with
  | nil => simp
  | cons c m ih =>
    obtain ⟨k, u⟩ := c
    rw [Memory.get_cons]
    by_cases h : k = i
    · simp [h]
    · simp only [h, ↓reduceIte, ih, List.map_cons, List.mem_cons]
      exact ⟨.inr, fun hc => hc.resolve_left fun he => h he.symm⟩

/-- A rising list of keys is the canonical form. -/
theorem Memory.wf_of_keys {m : List (Nat × α)} (h : (m.map Prod.fst).Pairwise (· < ·)) : Memory.wf m :=
  List.pairwise_map.1 h

theorem Inst.mem_writtenIndices {s : Inst} {i : Nat} : i ∈ s.writtenIndices ↔ match s.outDir with
    | .forward => i < s.outCur.toNat
    | .backward => s.outCur.toNat ≤ i ∧ i < s.rawSize.toNat := by
  cases hd : s.outDir with
  | forward => simp [Inst.writtenIndices, hd]
  | backward =>
    simp only [Inst.writtenIndices, hd, List.mem_range'_1]
    omega

/-- Exactly the indices of 10_state.md R29 are written. -/
theorem State.OutputInv.get_isSome {s : State} (h : s.OutputInv) (i : Nat) :
    (Memory.get s.out i).isSome = true ↔ i ∈ s.writtenIndices := by rw [Memory.get_isSome, h.2.1]

/-- The output of a state that keeps the invariant is in canonical form. -/
theorem State.OutputInv.wf {s : State} (h : s.OutputInv) : Memory.wf s.out := by
  refine Memory.wf_of_keys ?_
  rw [h.2.1]
  cases hd : s.outDir with
  | forward => simp only [Inst.writtenIndices, hd]; exact List.pairwise_lt_range
  | backward => simp only [Inst.writtenIndices, hd]; exact List.pairwise_lt_range'

/-! ## A byte -/

/-- A read of the output after a write at `wp` (44_output.md R172). -/
theorem put_get (s : State) (b : Byte) (i : Nat) :
    Memory.get (s.put b).out i = if s.wp = i then some b else Memory.get s.out i := by
  unfold State.put Inst.wp
  cases s.outDir <;> simp [Memory.get_set]

/-- The cursor after a write where there is room (44_output.md R172). -/
theorem put_outCur {s : State} (h : s.produced < s.rawSize.toNat) (b : Byte) :
    (s.put b).outCur.toNat = match s.outDir with
      | .forward => s.outCur.toNat + 1
      | .backward => s.outCur.toNat - 1 := by
  have hr := s.rawSize.isLt
  cases hd : s.outDir with
  | forward =>
    simp only [Inst.produced, hd] at h
    simp only [State.put, hd]
    exact word_toNat_of_lt (by omega)
  | backward =>
    simp only [State.put, hd]
    exact word_toNat_of_lt (by omega)

/-- A write produces one byte (10_state.md R29). -/
theorem put_produced {s : State} (h : s.produced < s.rawSize.toNat) (hc : s.outCur.toNat ≤ s.rawSize.toNat) (b : Byte) :
    (s.put b).produced = s.produced + 1 := by
  have hcur := put_outCur h b
  cases hd : s.outDir with
  | forward =>
    simp only [Inst.produced, hd, State.put_outDir] at *
    exact hcur
  | backward =>
    simp only [Inst.produced, hd, State.put_outDir, State.put_rawSize] at *
    omega

/-- A write where there is room keeps the output as 10_state.md R15, R28 and R29 say. -/
theorem put_keeps {s : State} (h : s.OutputInv) (hp : s.produced < s.rawSize.toNat) (b : Byte) :
    (s.put b).OutputInv := by
  obtain ⟨h1, h2, h3, h4⟩ := h
  have hcur := put_outCur hp b
  have hr := s.rawSize.isLt
  cases hd : s.outDir with
  | forward =>
    simp only [hd] at hcur
    simp only [Inst.produced, hd] at hp
    refine ⟨by rw [hcur, State.put_rawSize]; omega, ?_, by simpa using h3, by simpa using h4⟩
    have hkeys : s.out.map Prod.fst = List.range s.outCur.toNat := by simpa [Inst.writtenIndices, hd] using h2
    simp only [Inst.writtenIndices, State.put_outDir, hd, hcur]
    simp only [State.put, hd]
    rw [Memory.keys_set_above _ (by rw [hkeys]; simp), hkeys, List.range_succ]
  | backward =>
    simp only [hd] at hcur
    simp only [Inst.produced, hd] at hp
    refine ⟨by rw [hcur, State.put_rawSize]; omega, ?_, by simpa using h3, by simpa using h4⟩
    have hkeys : s.out.map Prod.fst = List.range' s.outCur.toNat (s.rawSize.toNat - s.outCur.toNat) := by
      simpa [Inst.writtenIndices, hd] using h2
    simp only [Inst.writtenIndices, State.put_outDir, hd, hcur, State.put_rawSize]
    simp only [State.put, hd]
    rw [Memory.keys_set_below _ (by rw [hkeys]; intro k hk; have := (List.mem_range'_1.1 hk).1; omega), hkeys,
      show s.rawSize.toNat - (s.outCur.toNat - 1) = s.rawSize.toNat - s.outCur.toNat + 1 by omega, List.range'_succ,
      show s.outCur.toNat - 1 + 1 = s.outCur.toNat by omega]

/-! ## A copy -/

/-- The index the `j`-th byte from here on is written to (44_output.md R179). -/
def Inst.wpAfter (s : Inst) (j : Nat) : Nat :=
  match s.outDir with
  | .forward => s.outCur.toNat + j
  | .backward => s.outCur.toNat - 1 - j

/-- A copy changes `OUT` and the cursor alone (44_output.md R174, R175). -/
theorem copy_frame (distance count : Nat) (s : State) : State.copy distance count s
    = { s with out := (State.copy distance count s).out, outCur := (State.copy distance count s).outCur } := by
  induction count generalizing s with
  | zero => rfl
  | succ count ih =>
    rw [State.copy, ih]
    unfold State.put
    split <;> rfl

/-- A copy with room for it keeps the output as 10_state.md R15, R28 and R29 say, and produces its bytes. -/
theorem copy_keeps {distance count : Nat} {s : State} (h : s.OutputInv)
    (hp : s.produced + count ≤ s.rawSize.toNat) :
    (State.copy distance count s).OutputInv ∧ (State.copy distance count s).produced = s.produced + count := by
  induction count generalizing s with
  | zero => exact ⟨h, rfl⟩
  | succ count ih =>
    have h1 := put_keeps h (by omega) (s.copySource distance)
    have h2 := put_produced (by omega : s.produced < _) h.1 (s.copySource distance)
    obtain ⟨i1, i2⟩ := ih h1 (by rw [h2, State.put_rawSize]; omega)
    exact ⟨i1, by rw [State.copy, i2, h2]; omega⟩

/-- A copy leaves every byte that it does not pass over (44_output.md R179). -/
theorem copy_get_other {distance count : Nat} {s : State} (h : s.outCur.toNat ≤ s.rawSize.toNat)
    (hp : s.produced + count ≤ s.rawSize.toNat) {i : Nat} (hi : ∀ j < count, i ≠ s.wpAfter j) :
    Memory.get (State.copy distance count s).out i = Memory.get s.out i := by
  induction count generalizing s with
  | zero => rfl
  | succ count ih =>
    have hcur := put_outCur (by omega : s.produced < _) (s.copySource distance)
    have hpr := put_produced (by omega : s.produced < _) h (s.copySource distance)
    have h0 := hi 0 (by omega)
    have hwp : s.wp = s.wpAfter 0 := by simp only [Inst.wp, Inst.wpAfter]; cases s.outDir <;> simp
    have hle : (s.put (s.copySource distance)).outCur.toNat ≤ s.rawSize.toNat := by
      rw [hcur]
      cases hd : s.outDir <;> simp only [Inst.produced, hd] at hp ⊢ <;> omega
    rw [State.copy, ih (by rw [State.put_rawSize]; exact hle) (by rw [hpr, State.put_rawSize]; omega) ?_, put_get, hwp,
      if_neg (Ne.symm h0)]
    intro j hj
    have := hi (j + 1) (by omega)
    simp only [Inst.wpAfter, State.put_outDir, hcur] at this ⊢
    cases hd : s.outDir <;> simp only [hd] at this ⊢ <;> omega

end Sys2Proof.Machine
end

