-- ==== Sys2Proof/Laws/Reader.lean ====
section
/-!
SUPPORT. What the bit reader can do (41_bitreader.md R103 to R106, R111): a read takes the next bits of the reader's
bit sequence, or runs past its end; it changes nothing but the accumulator, the live count and the position.
-/
namespace Sys2Proof.Machine

/-! ## Bits and numbers -/

@[simp] theorem bitsOf_length (o : BitOrder) (n w : Nat) : (bitsOf o n w).length = n := by cases o <;> simp [bitsOf]

theorem bitsOf_take (o : BitOrder) {n k : Nat} (h : k ≤ n) (w : Nat) :
    (bitsOf o n w).take k = bitsOf o k (match o with | .msbFirst => w / 2 ^ (n - k) % 2 ^ k | .lsbFirst => w % 2 ^ k) := by
  apply List.ext_getElem
  · simp; omega
  · intro i h1 h2
    simp only [bitsOf_length] at h2
    cases o
    · simp only [bitsOf, List.getElem_take, List.getElem_map, List.getElem_range, Nat.testBit_mod_two_pow,
        Nat.testBit_div_two_pow, show k - 1 - i < k by omega, decide_true, Bool.true_and]
      congr 1; omega
    · simp [bitsOf, show i < k by simpa using h2]

theorem bitsOf_drop (o : BitOrder) {n k : Nat} (h : k ≤ n) (w : Nat) :
    (bitsOf o n w).drop k = bitsOf o (n - k) (match o with | .msbFirst => w % 2 ^ (n - k) | .lsbFirst => w / 2 ^ k) := by
  apply List.ext_getElem
  · simp
  · intro i h1 h2
    simp only [bitsOf_length] at h2
    cases o
    · simp only [bitsOf, List.getElem_drop, List.getElem_map, List.getElem_range, Nat.testBit_mod_two_pow,
        show n - k - 1 - i < n - k by omega, decide_true, Bool.true_and]
      congr 1; omega
    · simp only [bitsOf, List.getElem_drop, List.getElem_map, List.getElem_range, Nat.testBit_div_two_pow]
      congr 1; omega

theorem numberOf_append (o : BitOrder) (as bs : List Bool) :
    numberOf o (as ++ bs) = match o with
      | .msbFirst => numberOf o as * 2 ^ bs.length + numberOf o bs
      | .lsbFirst => numberOf o as + numberOf o bs * 2 ^ as.length := by
  cases o
  · show numberOf .msbFirst (as ++ bs) = _
    induction bs using List.reverseRecOn with
    | nil => simp [numberOf]
    | append_singleton bs b ih =>
      simp only [numberOf, ← List.append_assoc, List.foldl_append, List.foldl_cons, List.foldl_nil, List.length_append,
        List.length_cons, List.length_nil, Nat.pow_succ] at *
      rw [ih]; ring
  · show numberOf .lsbFirst (as ++ bs) = _
    induction as with
    | nil => simp [numberOf]
    | cons a as ih =>
      simp only [numberOf, List.cons_append, List.foldr_cons, List.length_cons, Nat.pow_succ] at *
      rw [ih]; ring

theorem numberOf_lt (o : BitOrder) (bs : List Bool) : numberOf o bs < 2 ^ bs.length := by
  cases o
  · induction bs using List.reverseRecOn with
    | nil => simp [numberOf]
    | append_singleton bs b ih =>
      have hb : b.toNat ≤ 1 := Bool.toNat_le b
      simp only [numberOf, List.foldl_append, List.foldl_cons, List.foldl_nil, List.length_append, List.length_cons,
        List.length_nil, Nat.pow_succ] at *
      omega
  · induction bs with
    | nil => simp [numberOf]
    | cons b bs ih =>
      have hb : b.toNat ≤ 1 := Bool.toNat_le b
      simp only [numberOf, List.foldr_cons, List.length_cons, Nat.pow_succ] at *
      omega

/-- A number's bits spell it. -/
theorem numberOf_bitsOf (o : BitOrder) (n w : Nat) : numberOf o (bitsOf o n w) = w % 2 ^ n := by
  cases o
  · induction n generalizing w with
    | zero => simp [numberOf, bitsOf, Nat.mod_one]
    | succ n ih =>
      have hsplit : bitsOf .msbFirst (n + 1) w = bitsOf .msbFirst n (w / 2) ++ [w.testBit 0] := by
        simp only [bitsOf, List.range_succ, List.map_append, List.map_cons, List.map_nil]
        congr 1
        · apply List.map_congr_left
          intro i hi
          have hi := List.mem_range.1 hi
          rw [← Nat.testBit_succ]; congr 1; omega
        · simp
      have h1 := ih (w / 2)
      rw [hsplit, numberOf_append]
      simp only [List.length_singleton, Nat.pow_one, h1]
      have h2 : numberOf .msbFirst [w.testBit 0] = w % 2 := by
        simp only [numberOf, List.foldl_cons, List.foldl_nil, Nat.mul_zero, Nat.zero_add, Nat.testBit_zero]
        rcases Nat.mod_two_eq_zero_or_one w with h | h <;> simp [h]
      rw [h2, Nat.pow_succ, Nat.mul_comm (2 ^ n) 2, Nat.mod_mul]
      omega
  · induction n generalizing w with
    | zero => simp [numberOf, bitsOf, Nat.mod_one]
    | succ n ih =>
      have hsplit : bitsOf .lsbFirst (n + 1) w = w.testBit 0 :: bitsOf .lsbFirst n (w / 2) := by
        simp only [bitsOf, List.range_succ_eq_map, List.map_cons, List.map_map]
        congr 1
        apply List.map_congr_left
        intro i _
        simp [Nat.testBit_succ]
      have h1 := ih (w / 2)
      rw [hsplit]
      have h2 : numberOf .lsbFirst (w.testBit 0 :: bitsOf .lsbFirst n (w / 2))
          = (w.testBit 0).toNat + 2 * numberOf .lsbFirst (bitsOf .lsbFirst n (w / 2)) := rfl
      rw [h2, h1, Nat.pow_succ, Nat.mul_comm (2 ^ n) 2, Nat.mod_mul, Nat.testBit_zero]
      rcases Nat.mod_two_eq_zero_or_one w with h | h <;> simp [h]

/-! ## The refill -/

@[simp] theorem memRead_length (s : State) (a n : Nat) : (s.memRead a n).length = n := by simp [State.memRead]

/-- What a refill leaves: the next word whole in the accumulator, the position past it (41_bitreader.md R103). -/
theorem refill_of_word {s : State} {w : Nat} {ws : List Nat} (h : s.wordsToCome = w :: ws) :
    ∃ t, refill s = .ok () t ∧ t = s.withReader t ∧ t.brLive.toNat = 8 * refillBytes s.brCfg.rw
      ∧ t.brAcc.toNat = w ∧ t.wordsToCome = ws
      ∧ (s.brCfg.dir = .forward → t.isPos.toNat = s.isPos.toNat + refillBytes s.brCfg.rw ∧ t.isPos.toNat ≤ s.isHi.toNat)
      ∧ (s.brCfg.dir = .backward → t.isPos.toNat + refillBytes s.brCfg.rw = s.isPos.toNat ∧ s.isLo.toNat ≤ t.isPos.toNat) := by
  have hn := refillBytes_pos s.brCfg.rw
  have hn4 := refillBytes_le s.brCfg.rw
  have hhi := s.isHi.isLt
  have hpos := s.isPos.isLt
  have hw32 : ∀ a, refillWord s.brCfg (s.memRead a (refillBytes s.brCfg.rw)) < 2 ^ 32 := fun a =>
    Nat.lt_of_lt_of_le (refillWord_lt _ _) (Nat.pow_le_pow_right (by omega) (by simp; omega))
  cases hd : s.brCfg.dir with
  | forward =>
    simp only [State.wordsToCome, hd] at h
    set n := refillBytes s.brCfg.rw with hnd
    have hfit : s.isPos.toNat + n ≤ s.isHi.toNat := by
      by_contra hc
      rw [Nat.div_eq_of_lt (by omega)] at h
      cases h
    have hdiv : (s.isHi.toNat - s.isPos.toNat) / n = (s.isHi.toNat - (s.isPos.toNat + n)) / n + 1 := by
      rw [show s.isHi.toNat - s.isPos.toNat = s.isHi.toNat - (s.isPos.toNat + n) + n by omega, Nat.add_div_right _ hn]
    rw [hdiv, List.range_succ_eq_map, List.map_cons, List.map_map] at h
    simp only [Nat.zero_mul, Nat.add_zero, List.cons.injEq] at h
    obtain ⟨rfl, rfl⟩ := h
    refine ⟨{ s with
        isPos := word (s.isPos.toNat + n), brAcc := word (refillWord s.brCfg (s.memRead s.isPos.toNat n)),
        brLive := BitVec.ofNat 6 (8 * n) },
      by simp only [refill, hd, ← hnd, (sumLe_word s.isHi).2 hfit, ↓reduceIte], rfl, ?_, ?_, ?_, ?_, ?_⟩
    · simp only [BitVec.toNat_ofNat]; omega
    · exact word_toNat_of_lt (hw32 _)
    · have hp : (word (s.isPos.toNat + n)).toNat = s.isPos.toNat + n := word_toNat_of_lt (by omega)
      simp only [State.wordsToCome, hd, hp, ← hnd]
      apply List.map_congr_left
      intro j _
      simp only [Function.comp, Nat.succ_mul, State.memRead, State.inByte]
      rw [show s.isPos.toNat + n + j * n = s.isPos.toNat + (j * n + n) by omega]
    · intro _
      have hp : (word (s.isPos.toNat + n)).toNat = s.isPos.toNat + n := word_toNat_of_lt (by omega)
      exact ⟨hp, by rw [hp]; exact hfit⟩
    · intro hc; cases hc
  | backward =>
    simp only [State.wordsToCome, hd] at h
    set n := refillBytes s.brCfg.rw with hnd
    have hfit : s.isLo.toNat + n ≤ s.isPos.toNat := by
      by_contra hc
      rw [Nat.div_eq_of_lt (by omega)] at h
      cases h
    have hdiv : (s.isPos.toNat - s.isLo.toNat) / n = (s.isPos.toNat - n - s.isLo.toNat) / n + 1 := by
      rw [show s.isPos.toNat - s.isLo.toNat = s.isPos.toNat - n - s.isLo.toNat + n by omega, Nat.add_div_right _ hn]
    rw [hdiv, List.range_succ_eq_map, List.map_cons, List.map_map] at h
    simp only [Nat.zero_add, Nat.one_mul, List.cons.injEq] at h
    obtain ⟨rfl, rfl⟩ := h
    have hp : (word (s.isPos.toNat - n)).toNat = s.isPos.toNat - n := word_toNat_of_lt (by omega)
    refine ⟨{ s with
        isPos := word (s.isPos.toNat - n), brAcc := word (refillWord s.brCfg (s.memRead (s.isPos.toNat - n) n)),
        brLive := BitVec.ofNat 6 (8 * n) },
      by simp only [refill, hd, ← hnd, show ¬ s.isPos.toNat < s.isLo.toNat + n by omega, ↓reduceIte], rfl,
      ?_, ?_, ?_, ?_, ?_⟩
    · simp only [BitVec.toNat_ofNat]; omega
    · exact word_toNat_of_lt (hw32 _)
    · simp only [State.wordsToCome, hd, hp, ← hnd]
      apply List.map_congr_left
      intro j _
      simp only [Function.comp, Nat.succ_mul, State.memRead, State.inByte]
      rw [show s.isPos.toNat - n - (j * n + n) = s.isPos.toNat - (j * n + n + n) by omega]
    · intro hc; cases hc
    · intro _
      exact ⟨by rw [hp]; omega, by rw [hp]; omega⟩

/-- With no whole word left a refill runs past the end of the input (41_bitreader.md R103). -/
theorem refill_of_no_word {s : State} (h : s.wordsToCome = []) : refill s = .raised .endOfInput s := by
  have hn := refillBytes_pos s.brCfg.rw
  have hz : ∀ {a : Nat}, a / refillBytes s.brCfg.rw = 0 → a < refillBytes s.brCfg.rw := fun h =>
    (Nat.div_eq_zero_iff.1 h).resolve_left (by omega)
  cases hd : s.brCfg.dir with
  | forward =>
    simp only [State.wordsToCome, hd, List.map_eq_nil_iff, List.range_eq_nil] at h
    have h := hz h
    have hc : ¬ sumLe s.isPos.toNat (refillBytes s.brCfg.rw) s.isHi.toNat = true := by
      rw [sumLe_word]; omega
    simp [refill, hd, hc]
  | backward =>
    simp only [State.wordsToCome, hd, List.map_eq_nil_iff, List.range_eq_nil] at h
    have h := hz h
    simp [refill, hd, show s.isPos.toNat < s.isLo.toNat + refillBytes s.brCfg.rw by omega]

/-! ## Reading bits -/

/-- Refills a read of `rem` bits performs (41_bitreader.md R110). -/
def refillsFor (s : State) (rem : Nat) : Nat :=
  (rem - s.brLive.toNat + (8 * refillBytes s.brCfg.rw - 1)) / (8 * refillBytes s.brCfg.rw)

theorem bitStream_length (s : State) :
    s.bitStream.length = s.brLive.toNat + s.wordsToCome.length * (8 * refillBytes s.brCfg.rw) := by
  simp only [State.bitStream, List.length_append, bitsOf_length, List.length_flatMap]
  congr 1
  induction s.wordsToCome with
  | nil => simp
  | cons w ws _ => simp [Nat.succ_mul, Nat.add_comm]

theorem live_eq_zero {s : State} : s.brLive = 0 ↔ s.brLive.toNat = 0 :=
  ⟨fun h => by simp [h], fun h => BitVec.eq_of_toNat_eq (by simpa using h)⟩

theorem refillIfEmpty_of_bits {s : State} (h : s.bitStream ≠ []) :
    ∃ u, refillIfEmpty s = .ok () u ∧ u = s.withReader u ∧ u.bitStream = s.bitStream ∧ 0 < u.brLive.toNat
      ∧ (s.brLive.toNat ≠ 0 → u = s)
      ∧ (s.brLive.toNat = 0 → u.brLive.toNat = 8 * refillBytes s.brCfg.rw
          ∧ u.wordsToCome.length + 1 = s.wordsToCome.length) := by
  by_cases hl : s.brLive = 0
  · have hz : s.brLive.toNat = 0 := live_eq_zero.1 hl
    cases hw : s.wordsToCome with
    | nil =>
      have := bitStream_length s
      rw [hw, hz] at this
      exact absurd (List.eq_nil_of_length_eq_zero (by simpa using this)) h
    | cons w ws =>
      obtain ⟨t, h1, h2, h3, h4, h5, _, _⟩ := refill_of_word hw
      have hcfg : t.brCfg = s.brCfg := by rw [h2]; rfl
      have hn := refillBytes_pos s.brCfg.rw
      refine ⟨t, by rw [refillIfEmpty, if_pos hl, h1], h2, ?_, by omega, fun hc => absurd hz hc,
        fun _ => ⟨h3, by simp [h5]⟩⟩
      simp only [State.bitStream, hcfg, h3, h4, h5, hw, hz, List.flatMap_cons]
      cases s.brCfg.order <;> simp [bitsOf]
  · have hz : s.brLive.toNat ≠ 0 := fun hc => hl (live_eq_zero.2 hc)
    exact ⟨s, by rw [refillIfEmpty, if_neg hl], rfl, rfl, by omega, fun _ => rfl, fun hc => absurd hc hz⟩

theorem refillIfEmpty_of_no_bits {s : State} (h : s.bitStream = []) : refillIfEmpty s = .raised .endOfInput s := by
  have hlen := bitStream_length s
  have hn := refillBytes_pos s.brCfg.rw
  rw [h, List.length_nil] at hlen
  have hl : s.brLive = 0 := live_eq_zero.2 (by omega)
  have hw : s.wordsToCome = [] := by
    have : s.wordsToCome.length * (8 * refillBytes s.brCfg.rw) = 0 := by omega
    rcases Nat.mul_eq_zero.1 this with h | h
    · exact List.eq_nil_of_length_eq_zero h
    · omega
  rw [refillIfEmpty, if_pos hl, refill_of_no_word hw]

/-- A read's first turn after an empty accumulator loads one word, and needs one refill less for the rest. -/
theorem refills_turn {m rem k live : Nat} (hm : 0 < m) (hr : 0 < rem) (hk : k = min rem m) (hl : live = m - k) :
    (rem + (m - 1)) / m = (rem - k - live + (m - 1)) / m + 1 := by
  by_cases hc : rem ≤ m
  · rw [show rem - k - live = 0 by omega, Nat.zero_add, Nat.div_eq_of_lt (by omega : m - 1 < m),
      show rem + (m - 1) = (rem - 1) + m by omega, Nat.add_div_right _ hm, Nat.div_eq_of_lt (by omega)]
  · rw [show rem + (m - 1) = (rem - k - live + (m - 1)) + m by omega, Nat.add_div_right _ hm]

/-- The `k` live bits a turn consumes, as a number. -/
def State.nextChunk (u : State) (k : Nat) : Nat :=
  match u.brCfg.order with
  | .msbFirst => u.brAcc.toNat / 2 ^ (u.brLive.toNat - k) % 2 ^ k
  | .lsbFirst => u.brAcc.toNat % 2 ^ k

/-- The state after a turn has consumed `k` live bits (41_bitreader.md R105, R106). -/
def State.consumed (u : State) (k : Nat) : State :=
  { u with
    brAcc := word (match u.brCfg.order with
      | .msbFirst => u.brAcc.toNat % 2 ^ (u.brLive.toNat - k)
      | .lsbFirst => u.brAcc.toNat / 2 ^ k)
    brLive := BitVec.ofNat 6 (u.brLive.toNat - k) }

/-- One turn of either reading loop: `k` more of the reader's bits are consumed. -/
theorem reader_turn {s : State} {rem : Nat} (hs : s.bitStream ≠ []) (hr : 0 < rem) :
    ∃ u k, refillIfEmpty s = .ok () u ∧ k = min rem u.brLive.toNat ∧ 0 < k ∧ k ≤ s.bitStream.length
      ∧ u.brCfg = s.brCfg
      ∧ u.nextChunk k = numberOf s.brCfg.order (s.bitStream.take k)
      ∧ u.consumed k = s.withReader (u.consumed k)
      ∧ (u.consumed k).bitStream = s.bitStream.drop k
      ∧ refillsFor (u.consumed k) (rem - k) + s.wordsToCome.length
          = refillsFor s rem + (u.consumed k).wordsToCome.length := by
  obtain ⟨u, hu, huw, hub, hupos, husame, hurefill⟩ := refillIfEmpty_of_bits hs
  obtain ⟨k, hk⟩ : ∃ k, k = min rem u.brLive.toNat := ⟨_, rfl⟩
  have hcfg : u.brCfg = s.brCfg := by rw [huw]; rfl
  have hn := refillBytes_pos s.brCfg.rw
  have hlt := u.brLive.isLt
  have hklen : k ≤ s.bitStream.length := by
    have := bitStream_length u
    rw [hub] at this; omega
  have hlive : (u.consumed k).brLive.toNat = u.brLive.toNat - k := by
    show (BitVec.ofNat 6 (u.brLive.toNat - k)).toNat = _
    rw [BitVec.toNat_ofNat, Nat.mod_eq_of_lt (by omega)]
  have hacc : (u.consumed k).brAcc.toNat = match u.brCfg.order with
      | .msbFirst => u.brAcc.toNat % 2 ^ (u.brLive.toNat - k)
      | .lsbFirst => u.brAcc.toNat / 2 ^ k := by
    have hacclt := u.brAcc.isLt
    refine word_toNat_of_lt ?_
    split
    · exact Nat.lt_of_le_of_lt (Nat.mod_le _ _) hacclt
    · exact Nat.lt_of_le_of_lt (Nat.div_le_self _ _) hacclt
  have hwords : (u.consumed k).wordsToCome = u.wordsToCome := rfl
  refine ⟨u, k, hu, hk, by omega, hklen, hcfg, ?_, ?_, ?_, ?_⟩
  · rw [← hub, State.bitStream, List.take_append_of_le_length (by simp; omega), bitsOf_take _ (by omega), ← hcfg,
      numberOf_bitsOf, State.nextChunk]
    cases u.brCfg.order <;> simp
  · rw [show u.consumed k = u.withReader (u.consumed k) from rfl, huw]; rfl
  · rw [← hub]
    simp only [State.bitStream, hlive, hacc, hwords]
    rw [List.drop_append_of_le_length (by simp; omega), bitsOf_drop _ (by omega)]
    rfl
  · rw [hwords]
    have hv : refillsFor (u.consumed k) (rem - k)
        = (rem - k - (u.brLive.toNat - k) + (8 * refillBytes s.brCfg.rw - 1)) / (8 * refillBytes s.brCfg.rw) := by
      simp only [refillsFor, hlive, show (u.consumed k).brCfg = s.brCfg from hcfg]
    by_cases hl0 : s.brLive.toNat = 0
    · obtain ⟨e1, e2⟩ := hurefill hl0
      have := refills_turn (m := 8 * refillBytes s.brCfg.rw) (by omega) hr (hk.trans (by rw [e1])) rfl
      rw [hv, e1, refillsFor, hl0, Nat.sub_zero, this, ← e2]
      omega
    · have hus := husame hl0
      subst hus
      rw [hv, refillsFor, show rem - k - (u.brLive.toNat - k) = rem - u.brLive.toNat by omega]

theorem refillsFor_zero (s : State) : refillsFor s 0 = 0 := by
  have hn := refillBytes_pos s.brCfg.rw
  rw [refillsFor, Nat.zero_sub, Nat.zero_add, Nat.div_eq_of_lt (by omega)]

theorem readMsb_spec (turns : Nat) : ∀ (rem ret : Nat) (s : State), rem ≤ turns → s.brCfg.order = .msbFirst →
    (rem ≤ s.bitStream.length → ∃ t,
      readMsb turns rem ret s = .ok (ret * 2 ^ rem + numberOf .msbFirst (s.bitStream.take rem)) t
        ∧ t = s.withReader t ∧ t.bitStream = s.bitStream.drop rem
        ∧ t.wordsToCome.length + refillsFor s rem = s.wordsToCome.length)
    ∧ (s.bitStream.length < rem → ∃ t, readMsb turns rem ret s = .raised .endOfInput t ∧ t = s.withReader t) := by
  induction turns with
  | zero =>
    intro rem ret s hr ho
    have hz : rem = 0 := by omega
    subst hz
    exact ⟨fun _ => ⟨s, by simp [readMsb, numberOf], rfl, rfl, by rw [refillsFor_zero]; rfl⟩,
      fun h => absurd h (by omega)⟩
  | succ turns ih =>
    intro rem ret s hr ho
    by_cases hz : rem = 0
    · subst hz
      exact ⟨fun _ => ⟨s, by simp [readMsb, numberOf], rfl, rfl, by rw [refillsFor_zero]; rfl⟩,
        fun h => absurd h (by omega)⟩
    · by_cases hs : s.bitStream = []
      · refine ⟨fun h => absurd h (by rw [hs]; simpa using hz), fun _ => ⟨s, ?_, rfl⟩⟩
        simp [readMsb, hz, refillIfEmpty_of_no_bits hs]
      · obtain ⟨u, k, hu, hk, hk0, hklen, hcfg, hchunk, hw, hb, hrf⟩ := reader_turn (rem := rem) hs (by omega)
        have hrun : readMsb (turns + 1) rem ret s
            = readMsb turns (rem - k) (ret * 2 ^ k + numberOf .msbFirst (s.bitStream.take k)) (u.consumed k) := by
          rw [ho] at hchunk
          have hc2 : u.nextChunk k = u.brAcc.toNat / 2 ^ (u.brLive.toNat - k) % 2 ^ k := by
            simp only [State.nextChunk, hcfg, ho]
          rw [← hchunk, hc2]
          simp only [readMsb, hz, ↓reduceIte, hu, Run.ok_andThen, ← hk, State.consumed, hcfg, ho]
        have hord : (u.consumed k).brCfg.order = .msbFirst := by
          rw [show (u.consumed k).brCfg = u.brCfg from rfl, hcfg, ho]
        have hlen : (u.consumed k).bitStream.length = s.bitStream.length - k := by rw [hb, List.length_drop]
        refine ⟨fun h => ?_, fun h => ?_⟩
        · obtain ⟨t, h1, h2, h3, h4⟩ := (ih (rem - k) _ _ (by omega) hord).1 (by omega)
          refine ⟨t, ?_, ?_, ?_, by omega⟩
          · rw [hrun, h1, hb]
            congr 1
            have htake : s.bitStream.take rem = s.bitStream.take k ++ (s.bitStream.drop k).take (rem - k) := by
              rw [← List.take_add, Nat.add_sub_cancel' (by omega)]
            have hl2 : ((s.bitStream.drop k).take (rem - k)).length = rem - k := by simp; omega
            rw [htake, numberOf_append, hl2]
            simp only
            rw [Nat.add_mul, Nat.mul_assoc, ← Nat.pow_add, Nat.add_sub_cancel' (by omega), Nat.add_assoc]
          · rw [h2, hw]; rfl
          · rw [h3, hb, List.drop_drop, Nat.add_sub_cancel' (by omega)]
        · obtain ⟨t, h1, h2⟩ := (ih (rem - k) _ _ (by omega) hord).2 (by omega)
          exact ⟨t, by rw [hrun, h1], by rw [h2, hw]; rfl⟩

theorem readLsb_spec (turns : Nat) : ∀ (rem pos ret : Nat) (s : State), rem ≤ turns → s.brCfg.order = .lsbFirst →
    (rem ≤ s.bitStream.length → ∃ t,
      readLsb turns rem pos ret s = .ok (ret + numberOf .lsbFirst (s.bitStream.take rem) * 2 ^ pos) t
        ∧ t = s.withReader t ∧ t.bitStream = s.bitStream.drop rem
        ∧ t.wordsToCome.length + refillsFor s rem = s.wordsToCome.length)
    ∧ (s.bitStream.length < rem → ∃ t, readLsb turns rem pos ret s = .raised .endOfInput t ∧ t = s.withReader t) := by
  induction turns with
  | zero =>
    intro rem pos ret s hr ho
    have hz : rem = 0 := by omega
    subst hz
    exact ⟨fun _ => ⟨s, by simp [readLsb, numberOf], rfl, rfl, by rw [refillsFor_zero]; rfl⟩,
      fun h => absurd h (by omega)⟩
  | succ turns ih =>
    intro rem pos ret s hr ho
    by_cases hz : rem = 0
    · subst hz
      exact ⟨fun _ => ⟨s, by simp [readLsb, numberOf], rfl, rfl, by rw [refillsFor_zero]; rfl⟩,
        fun h => absurd h (by omega)⟩
    · by_cases hs : s.bitStream = []
      · refine ⟨fun h => absurd h (by rw [hs]; simpa using hz), fun _ => ⟨s, ?_, rfl⟩⟩
        simp [readLsb, hz, refillIfEmpty_of_no_bits hs]
      · obtain ⟨u, k, hu, hk, hk0, hklen, hcfg, hchunk, hw, hb, hrf⟩ := reader_turn (rem := rem) hs (by omega)
        have hrun : readLsb (turns + 1) rem pos ret s
            = readLsb turns (rem - k) (pos + k) (ret + numberOf .lsbFirst (s.bitStream.take k) * 2 ^ pos)
                (u.consumed k) := by
          rw [ho] at hchunk
          have hc2 : u.nextChunk k = u.brAcc.toNat % 2 ^ k := by simp only [State.nextChunk, hcfg, ho]
          rw [← hchunk, hc2]
          simp only [readLsb, hz, ↓reduceIte, hu, Run.ok_andThen, ← hk, State.consumed, hcfg, ho]
        have hord : (u.consumed k).brCfg.order = .lsbFirst := by
          rw [show (u.consumed k).brCfg = u.brCfg from rfl, hcfg, ho]
        have hlen : (u.consumed k).bitStream.length = s.bitStream.length - k := by rw [hb, List.length_drop]
        refine ⟨fun h => ?_, fun h => ?_⟩
        · obtain ⟨t, h1, h2, h3, h4⟩ := (ih (rem - k) _ _ _ (by omega) hord).1 (by omega)
          refine ⟨t, ?_, ?_, ?_, by omega⟩
          · rw [hrun, h1, hb]
            congr 1
            have htake : s.bitStream.take rem = s.bitStream.take k ++ (s.bitStream.drop k).take (rem - k) := by
              rw [← List.take_add, Nat.add_sub_cancel' (by omega)]
            have hl2 : (s.bitStream.take k).length = k := by simp; omega
            rw [htake, numberOf_append, hl2]
            simp only
            rw [Nat.pow_add, Nat.add_mul, Nat.add_assoc, Nat.mul_assoc, Nat.mul_comm (2 ^ pos) (2 ^ k)]
          · rw [h2, hw]; rfl
          · rw [h3, hb, List.drop_drop, Nat.add_sub_cancel' (by omega)]
        · obtain ⟨t, h1, h2⟩ := (ih (rem - k) _ _ _ (by omega) hord).2 (by omega)
          exact ⟨t, by rw [hrun, h1], by rw [h2, hw]; rfl⟩

/-- Everything `ReadBits(count)` can do: where the reader's bit sequence holds the bits, it takes them, and nothing else
changes; where it does not, the input has ended (41_bitreader.md R105, R106, R110, R111). -/
theorem readBits_spec (count : Nat) (s : State) :
    (count ≤ s.bitStream.length → ∃ t,
      readBits count s = .ok (numberOf s.brCfg.order (s.bitStream.take count)) t
        ∧ t = s.withReader t ∧ t.bitStream = s.bitStream.drop count
        ∧ t.wordsToCome.length + refillsFor s count = s.wordsToCome.length)
    ∧ (s.bitStream.length < count → ∃ t, readBits count s = .raised .endOfInput t ∧ t = s.withReader t) := by
  cases ho : s.brCfg.order with
  | msbFirst => simpa [readBits, ho] using readMsb_spec count count 0 s (Nat.le_refl _) ho
  | lsbFirst => simpa [readBits, ho] using readLsb_spec count count 0 0 s (Nat.le_refl _) ho

/-! ## What a read keeps -/

/-- A state that differs from another in the reader alone, and whose reader is as 10_state.md R20 to R22 say. -/
def ReaderMoved (s t : State) : Prop := t = s.withReader t ∧ t.ReaderInv

theorem ReaderMoved.trans {s t u : State} (h1 : ReaderMoved s t) (h2 : ReaderMoved t u) : ReaderMoved s u :=
  ⟨by rw [h2.1, h1.1]; rfl, h2.2⟩

theorem refill_keeps {s : State} (h : s.ReaderInv) : (refill s).Ends (ReaderMoved s) := by
  have hn4 := refillBytes_le s.brCfg.rw
  cases hw : s.wordsToCome with
  | nil => rw [refill_of_no_word hw]; exact ⟨rfl, h⟩
  | cons w ws =>
    obtain ⟨t, h1, h2, h3, h4, h5, h6, h7⟩ := refill_of_word hw
    rw [h1]
    obtain ⟨i1, i2, i3, i4, i5, i6⟩ := h
    have hmem : w ∈ s.wordsToCome := hw ▸ List.mem_cons_self
    have hlt : w < 2 ^ (8 * refillBytes s.brCfg.rw) := by
      simp only [State.wordsToCome] at hmem
      split at hmem <;> obtain ⟨j, _, rfl⟩ := List.mem_map.1 hmem <;>
        simpa using refillWord_lt s.brCfg (s.memRead _ (refillBytes s.brCfg.rw))
    have e1 : t.brCfg = s.brCfg := by rw [h2]; rfl
    have e2 : t.isLo = s.isLo := by rw [h2]; rfl
    have e3 : t.isHi = s.isHi := by rw [h2]; rfl
    have e4 : t.setup = s.setup := by rw [h2]; rfl
    refine ⟨h2, by omega, by rw [h3, h4]; exact hlt, by rw [e1]; exact i3, ?_, ?_, by rw [e3, e4]; exact i6⟩
    · cases hd : s.brCfg.dir with
      | forward => rw [e2]; have := (h6 hd).1; omega
      | backward => rw [e2]; exact (h7 hd).2
    · cases hd : s.brCfg.dir with
      | forward => rw [e3]; exact (h6 hd).2
      | backward => rw [e3]; have := (h7 hd).1; omega

theorem refillIfEmpty_keeps {s : State} (h : s.ReaderInv) : (refillIfEmpty s).Ends (ReaderMoved s) := by
  simp only [refillIfEmpty]
  split
  · exact refill_keeps h
  · exact ⟨rfl, h⟩

theorem consumed_keeps {u : State} {k : Nat} (hu : u.ReaderInv) (hk : k ≤ u.brLive.toNat) :
    ReaderMoved u (u.consumed k) := by
  obtain ⟨i1, i2, i3, i4, i5, i6⟩ := hu
  have hlive : (u.consumed k).brLive.toNat = u.brLive.toNat - k := by
    show (BitVec.ofNat 6 (u.brLive.toNat - k)).toNat = _
    rw [BitVec.toNat_ofNat, Nat.mod_eq_of_lt (by omega)]
  refine ⟨rfl, by omega, ?_, i3, i4, i5, i6⟩
  rw [hlive]
  refine Nat.lt_of_le_of_lt (m := match u.brCfg.order with
    | .msbFirst => u.brAcc.toNat % 2 ^ (u.brLive.toNat - k)
    | .lsbFirst => u.brAcc.toNat / 2 ^ k) ?_ ?_
  · exact (word_toNat _).trans_le (Nat.mod_le _ _)
  · split
    · exact Nat.mod_lt _ (Nat.two_pow_pos _)
    · rw [Nat.div_lt_iff_lt_mul (Nat.two_pow_pos _), ← Nat.pow_add, Nat.sub_add_cancel hk]
      exact i2

theorem readMsb_keeps (turns : Nat) : ∀ (rem ret : Nat) (s : State), s.ReaderInv → s.brCfg.order = .msbFirst →
    (readMsb turns rem ret s).Ends (ReaderMoved s) := by
  induction turns with
  | zero => exact fun rem ret s h _ => ⟨rfl, h⟩
  | succ turns ih =>
    intro rem ret s h ho
    simp only [readMsb]
    split
    · exact ⟨rfl, h⟩
    · refine (refillIfEmpty_keeps h).andThen fun _ u hu => ?_
      have hcfg : u.brCfg = s.brCfg := by rw [hu.1]; rfl
      have hc := consumed_keeps (k := min rem u.brLive.toNat) hu.2 (by omega)
      have he : u.consumed (min rem u.brLive.toNat)
          = { u with
              brAcc := word (u.brAcc.toNat % 2 ^ (u.brLive.toNat - min rem u.brLive.toNat))
              brLive := BitVec.ofNat 6 (u.brLive.toNat - min rem u.brLive.toNat) } := by
        simp only [State.consumed, hcfg, ho]
      rw [← he]
      exact (ih _ _ _ hc.2 (by rw [show (u.consumed _).brCfg = u.brCfg from rfl, hcfg, ho])).imp
        fun t ht => hu.trans (hc.trans ht)

theorem readLsb_keeps (turns : Nat) : ∀ (rem pos ret : Nat) (s : State), s.ReaderInv → s.brCfg.order = .lsbFirst →
    (readLsb turns rem pos ret s).Ends (ReaderMoved s) := by
  induction turns with
  | zero => exact fun rem pos ret s h _ => ⟨rfl, h⟩
  | succ turns ih =>
    intro rem pos ret s h ho
    simp only [readLsb]
    split
    · exact ⟨rfl, h⟩
    · refine (refillIfEmpty_keeps h).andThen fun _ u hu => ?_
      have hcfg : u.brCfg = s.brCfg := by rw [hu.1]; rfl
      have hc := consumed_keeps (k := min rem u.brLive.toNat) hu.2 (by omega)
      have he : u.consumed (min rem u.brLive.toNat)
          = { u with
              brAcc := word (u.brAcc.toNat / 2 ^ min rem u.brLive.toNat)
              brLive := BitVec.ofNat 6 (u.brLive.toNat - min rem u.brLive.toNat) } := by
        simp only [State.consumed, hcfg, ho]
      rw [← he]
      exact (ih _ _ _ _ hc.2 (by rw [show (u.consumed _).brCfg = u.brCfg from rfl, hcfg, ho])).imp
        fun t ht => hu.trans (hc.trans ht)

/-- `ReadBits` moves the reader alone, and leaves it as 10_state.md R20 to R22 say. -/
theorem readBits_keeps (count : Nat) {s : State} (h : s.ReaderInv) : (readBits count s).Ends (ReaderMoved s) := by
  simp only [readBits]
  split
  · next ho => exact readMsb_keeps _ _ _ _ h ho
  · next ho => exact readLsb_keeps _ _ _ _ _ h ho

/-- `ReadBits` is neither refused nor stuck. -/
theorem readBits_ends (count : Nat) (s : State) :
    (∃ v t, readBits count s = .ok v t) ∨ ∃ t, readBits count s = .raised .endOfInput t := by
  rcases Nat.lt_or_ge s.bitStream.length count with h | h
  · obtain ⟨t, ht, _⟩ := (readBits_spec count s).2 h
    exact .inr ⟨t, ht⟩
  · obtain ⟨t, ht, _⟩ := (readBits_spec count s).1 h
    exact .inl ⟨_, t, ht⟩

/-- `ReadBits` changes nothing but the reader, whatever it comes to. -/
theorem readBits_frame (count : Nat) (s : State) : (readBits count s).Ends fun t => t = s.withReader t := by
  rcases Nat.lt_or_ge s.bitStream.length count with h | h
  · obtain ⟨t, ht, hf⟩ := (readBits_spec count s).2 h
    rw [ht]; exact hf
  · obtain ⟨t, ht, hf, _⟩ := (readBits_spec count s).1 h
    rw [ht]; exact hf

end Sys2Proof.Machine
end

