-- ==== Sys2Proof/Laws/Sequencer.lean ====
section
/-!
SUPPORT. What the toolkit and the format sequencer can do: every toolkit command leaves the decompressor's own fields
alone, and what every toolkit command keeps, every activity of the sequencer keeps (45_decompressor.md R196).
-/
namespace Sys2Proof.Machine

/-- What no toolkit command writes: what the host supplies, the interface, the state machine, the decompressor's
fields, the shape of the output. -/
structure ToolkitFrame (s t : State) : Prop where
  setup : t.setup = s.setup
  pending : t.pending = s.pending
  rsp : t.rsp = s.rsp
  fsm : t.fsm = s.fsm
  err : t.err = s.err
  errInfo : t.errInfo = s.errInfo
  fmt : t.fmt = s.fmt
  packedSize : t.packedSize = s.packedSize
  gen : t.gen = s.gen
  ctrl : t.ctrl = s.ctrl
  chk : t.chk = s.chk
  chunkIdx : t.chunkIdx = s.chunkIdx
  chunkLo : t.chunkLo = s.chunkLo
  outValid : t.outValid = s.outValid
  outDir : t.outDir = s.outDir
  outWin : t.outWin = s.outWin
  rawSize : t.rawSize = s.rawSize

theorem ToolkitFrame.refl (s : State) : ToolkitFrame s s := by constructor <;> rfl

theorem ToolkitFrame.trans {s t u : State} (h1 : ToolkitFrame s t) (h2 : ToolkitFrame t u) : ToolkitFrame s u where
  setup := h2.setup.trans h1.setup
  pending := h2.pending.trans h1.pending
  rsp := h2.rsp.trans h1.rsp
  fsm := h2.fsm.trans h1.fsm
  err := h2.err.trans h1.err
  errInfo := h2.errInfo.trans h1.errInfo
  fmt := h2.fmt.trans h1.fmt
  packedSize := h2.packedSize.trans h1.packedSize
  gen := h2.gen.trans h1.gen
  ctrl := h2.ctrl.trans h1.ctrl
  chk := h2.chk.trans h1.chk
  chunkIdx := h2.chunkIdx.trans h1.chunkIdx
  chunkLo := h2.chunkLo.trans h1.chunkLo
  outValid := h2.outValid.trans h1.outValid
  outDir := h2.outDir.trans h1.outDir
  outWin := h2.outWin.trans h1.outWin
  rawSize := h2.rawSize.trans h1.rawSize

theorem ToolkitFrame.of_reader {s t : State} (h : t = s.withReader t) : ToolkitFrame s t := by
  rw [h]; constructor <;> rfl

/-! ## Looking up a symbol -/

/-- A lookup reads bits and changes nothing else (42_huffman.md R142). -/
theorem lookup_frame (t : Table) (base width : Nat) (left : Nat) : ∀ (k idx : Nat) (s : State),
    (lookup t base width left k idx s).Ends fun u => u = s.withReader u := by
  induction left with
  | zero =>
    intro k idx s
    simp only [lookup]
    split <;> rfl
  | succ left ih =>
    intro k idx s
    simp only [lookup]
    split
    · rfl
    · exact (readBits_frame 1 s).andThen fun b u hu => (ih _ _ u).imp fun v hv => by rw [hv, hu]; rfl

/-- A lookup keeps the reader. -/
theorem lookup_keeps (t : Table) (base width : Nat) (left : Nat) : ∀ (k idx : Nat) (s : State), s.ReaderInv →
    (lookup t base width left k idx s).Ends (ReaderMoved s) := by
  induction left with
  | zero =>
    intro k idx s h
    simp only [lookup]
    split <;> exact ⟨rfl, h⟩
  | succ left ih =>
    intro k idx s h
    simp only [lookup]
    split
    · exact ⟨rfl, h⟩
    · exact (readBits_keeps 1 h).andThen fun b u hu => (ih _ _ u hu.2).imp fun v hv => hu.trans hv

/-- A symbol of an adaptive table reads bits and changes nothing else (42_huffman.md R147). -/
theorem adaptiveSymbol_frame (shape : AdaptShape) (turns : Nat) : ∀ (bits : List Bool) (s : State),
    (adaptiveSymbol shape turns bits s).Ends fun u => u = s.withReader u := by
  induction turns with
  | zero => exact fun bits s => rfl
  | succ turns ih =>
    intro bits s
    simp only [adaptiveSymbol]
    split
    · rfl
    · exact (readBits_frame 1 s).andThen fun b u hu => (ih _ u).imp fun v hv => by rw [hv, hu]; rfl

/-- A symbol of an adaptive table keeps the reader. -/
theorem adaptiveSymbol_keeps (shape : AdaptShape) (turns : Nat) : ∀ (bits : List Bool) (s : State), s.ReaderInv →
    (adaptiveSymbol shape turns bits s).Ends (ReaderMoved s) := by
  induction turns with
  | zero => exact fun bits s h => ⟨rfl, h⟩
  | succ turns ih =>
    intro bits s h
    simp only [adaptiveSymbol]
    split
    · exact ⟨rfl, h⟩
    · exact (readBits_keeps 1 h).andThen fun b u hu => (ih _ u hu.2).imp fun v hv => hu.trans hv

/-! ## The toolkit -/

theorem ToolkitFrame.put (s : State) (b : Byte) : ToolkitFrame s (s.put b) := by constructor <;> simp

theorem ToolkitFrame.copy (distance count : Nat) (s : State) : ToolkitFrame s (State.copy distance count s) := by
  rw [copy_frame]; constructor <;> rfl

theorem makeTable_frame (t : Byte) (m : TableMode) (ok : Bool) (w : BitVec 5) (cs : List Code) (s : State) :
    (makeTable t m ok w cs s).Ends (ToolkitFrame s) := by
  simp only [makeTable]
  split <;> (constructor <;> rfl)

theorem decodeSymbol_frame (t : Table) (s : State) : (decodeSymbol t s).Ends (ToolkitFrame s) := by
  refine ((lookup_frame t 0 _ _ 0 0 s).imp fun u hu => ToolkitFrame.of_reader hu).andThen fun l u hu => ?_
  split
  · exact hu.trans (by constructor <;> rfl)
  · refine ((lookup_frame t _ _ _ 0 0 u).imp fun v hv => hu.trans (ToolkitFrame.of_reader hv)).andThen fun l v hv => ?_
    split
    · exact hv.trans (by constructor <;> rfl)
    · exact hv
  · exact hu

theorem decodeAdaptive_frame (n : Byte) (t : Table) (s : State) : (decodeAdaptive n t s).Ends (ToolkitFrame s) := by
  simp only [decodeAdaptive]
  split
  · trivial
  · exact ((adaptiveSymbol_frame _ _ _ s).imp fun u hu => ToolkitFrame.of_reader hu).andThen fun v u hu =>
      hu.trans (by constructor <;> rfl)

/-- Everything a toolkit command leaves alone, whether it completes or fails. -/
theorem toolkit_frame (i : Instr) (s : State) : (toolkit i s).Ends (ToolkitFrame s) := by
  cases i with
  | bufSize => constructor <;> rfl
  | bufRd8 | bufRdbe16 | bufRdbe32 | bufRdle16 | bufRdle32 =>
    simp only [toolkit, bufRead]; split <;> (constructor <;> rfl)
  | bufGetdata => simp only [toolkit, bufGetdata]; split <;> (constructor <;> rfl)
  | bufSlrd8 =>
    simp only [toolkit, bufSlrd8]
    split
    · trivial
    · split <;> (constructor <;> rfl)
  | ovfSum =>
    simp only [toolkit, ovfSum]
    split
    · trivial
    · constructor <;> rfl
  | brInit =>
    simp only [toolkit, brInit]
    split
    · trivial
    · split <;> (constructor <;> rfl)
  | brReset =>
    simp only [toolkit, brReset]
    split
    · trivial
    · constructor <;> rfl
  | brAnchor =>
    simp only [toolkit, brAnchor]
    split
    · trivial
    · split <;> (constructor <;> rfl)
  | brRead =>
    simp only [toolkit, brRead]
    split
    · trivial
    · exact ((readBits_frame _ s).imp fun u hu => ToolkitFrame.of_reader hu).andThen fun v u hu =>
        hu.trans (by constructor <;> rfl)
  | rotb =>
    simp only [toolkit, rotb]
    split
    · trivial
    · constructor <;> rfl
  | hufSetlen =>
    simp only [toolkit, hufSetlen]
    split
    · trivial
    · constructor <;> rfl
  | hufSettri =>
    simp only [toolkit, hufSettri]
    split
    · trivial
    · split
      · trivial
      · constructor <;> rfl
  | hufMake =>
    simp only [toolkit, hufMake]
    split
    · trivial
    · split
      · trivial
      · split
        · constructor <;> rfl
        · exact makeTable_frame _ _ _ _ _ _
  | hufFixed =>
    simp only [toolkit, hufFixed]
    split
    · trivial
    · split
      · trivial
      · exact makeTable_frame _ _ _ _ _ _
  | hufAdapt =>
    simp only [toolkit, hufAdapt]
    split
    · trivial
    · split <;> (constructor <;> rfl)
  | hufDecode =>
    simp only [toolkit, hufDecode]
    split
    · trivial
    · split
      · trivial
      · split
        · trivial
        · split
          · exact decodeAdaptive_frame _ _ _
          · exact decodeSymbol_frame _ _
  | vlcSet =>
    simp only [toolkit, vlcSet]
    split
    · trivial
    · constructor <;> rfl
  | vlcSetn =>
    simp only [toolkit, vlcSetn]
    split
    · trivial
    · split
      · trivial
      · constructor <;> rfl
  | vlcDecode =>
    simp only [toolkit, vlcDecode]
    split
    · trivial
    · split
      · exact ToolkitFrame.refl s
      · split
        · refine ((readBits_frame _ s).imp fun u hu => ToolkitFrame.of_reader hu).andThen fun v u hu => ?_
          split
          · exact hu
          · exact hu.trans (by constructor <;> rfl)
        · trivial
  | outWritebyte =>
    simp only [toolkit, outWritebyte]
    split
    · trivial
    · split
      · exact ToolkitFrame.refl s
      · exact ToolkitFrame.put s _
  | outCopy =>
    simp only [toolkit, outCopy]
    split
    · trivial
    · split
      · exact ToolkitFrame.refl s
      · split
        · exact ToolkitFrame.refl s
        · split
          · exact ToolkitFrame.refl s
          · split
            · exact ToolkitFrame.refl s
            · exact ToolkitFrame.copy _ _ s
  | outEof =>
    simp only [toolkit, outEof]
    split
    · trivial
    · constructor <;> rfl
  | reset | status | outInit | outRd8 | decCreate | decGetrawsize | decDecompress | decNextchunk | dispDetect => trivial

/-! ## The format sequencer -/

/-- One activity after another runs the first and goes on with the second in the state it leads to. -/
theorem Script.run_bind {α β : Type} (x : Script α) (k : α → Script β) : ∀ s : State,
    (x.bind k).run s = (x.run s).andThen fun a t => (k a).run t := by
  induction x with
  | ret a => exact fun s => rfl
  | look next ih => exact fun s => ih (s.toInst.showing 0) s
  | setChk v next ih => exact fun s => ih { s with chk := v }
  | issue i next ih =>
    intro s
    simp only [Script.bind, Script.run]
    cases sequencerCommand i s with
    | ok v t => exact ih true (t.toInst.showing (v.getD 0)) t
    | illegal => exact ih false (s.toInst.showing 0) s
    | raised c t => rfl
    | stuck => rfl

/-- What holds between the states before and after of every accepted command and of every write of `CHK` holds of a
whole activity of the sequencer, whether it ends or fails. -/
theorem Script.run_ends {α : Type} {P : State → State → Prop} (refl : ∀ s, P s s)
    (trans : ∀ {s t u}, P s t → P t u → P s u) (chk : ∀ (s : State) (v : Word), P s { s with chk := v })
    (cmd : ∀ (i : Instr) (s : State), accepts .sequencer (kindOf i) s.fsm = true → (toolkit i s).Ends (P s))
    (x : Script α) : ∀ s, (x.run s).Ends (P s) := by
  induction x with
  | ret a => exact fun s => refl s
  | look next ih => exact fun s => ih (s.toInst.showing 0) s
  | setChk v next ih => exact fun s => (ih { s with chk := v }).imp fun t ht => trans (chk s v) ht
  | issue i next ih =>
    intro s
    simp only [Script.run, sequencerCommand]
    by_cases ha : accepts .sequencer (kindOf i) s.fsm = true
    · simp only [ha, ↓reduceIte]
      have hc := cmd i s ha
      cases hr : toolkit i s with
      | ok v t => rw [hr] at hc; exact (ih true (t.toInst.showing (v.getD 0)) t).imp fun u hu => trans hc hu
      | illegal => exact ih false (s.toInst.showing 0) s
      | raised c t => rw [hr] at hc; exact hc
      | stuck => trivial
    · simp only [ha]
      exact ih false (s.toInst.showing 0) s

/-- Everything an activity of the sequencer leaves alone: a toolkit command's frame, but for `CHK`. -/
theorem Script.run_frame {α : Type} (x : Script α) (s : State) :
    (x.run s).Ends fun t => ToolkitFrame s { t with chk := s.chk } := by
  refine Script.run_ends (P := fun s t => ToolkitFrame s { t with chk := s.chk }) (fun s => ToolkitFrame.refl s) ?_ ?_ ?_
    x s
  · intro s t u h1 h2
    exact ⟨h2.setup.trans h1.setup, h2.pending.trans h1.pending, h2.rsp.trans h1.rsp, h2.fsm.trans h1.fsm,
      h2.err.trans h1.err, h2.errInfo.trans h1.errInfo, h2.fmt.trans h1.fmt, h2.packedSize.trans h1.packedSize,
      h2.gen.trans h1.gen, h2.ctrl.trans h1.ctrl, rfl, h2.chunkIdx.trans h1.chunkIdx, h2.chunkLo.trans h1.chunkLo,
      h2.outValid.trans h1.outValid, h2.outDir.trans h1.outDir, h2.outWin.trans h1.outWin,
      h2.rawSize.trans h1.rawSize⟩
  · intro s v; constructor <;> rfl
  · intro i s _
    exact (toolkit_frame i s).imp fun t h => { h with chk := rfl }

end Sys2Proof.Machine
end

