-- ==== Sys2Proof/Laws/Fixtures.lean ====
section
/-!
SUPPORT. What a read and a write of the format sequencer do to the bits to come and to the bytes produced, and that the
spec's test-only descriptor meets obligation (d) of 45_decompressor.md R203.
-/
namespace Sys2Proof.Machine

/-- A read by the sequencer: refused, at the end of the input, or it takes its bits and writes `RES` (41_bitreader.md
R105, R106). -/
theorem sequencer_read (count : BitVec 6) {s : State} (hf : s.fsm = .decoding) :
    sequencerCommand (.brRead count) s = .illegal ∨ (∃ t, sequencerCommand (.brRead count) s = .raised .endOfInput t)
      ∨ ∃ v t, sequencerCommand (.brRead count) s = .ok (some v) t ∧ t = { s.withReader t with res := v }
        ∧ t.bitStream.length + count.toNat = s.bitStream.length := by
  have ha : accepts .sequencer (kindOf (.brRead count)) s.fsm = true := by rw [hf]; rfl
  simp only [sequencerCommand, ha, ↓reduceIte, toolkit, brRead]
  split
  · exact .inl rfl
  · right
    rcases Nat.lt_or_ge s.bitStream.length count.toNat with h | h
    · obtain ⟨t, ht, _⟩ := (readBits_spec count.toNat s).2 h
      exact .inl ⟨t, by rw [ht]; rfl⟩
    · obtain ⟨t, ht, hm, hb, _⟩ := (readBits_spec count.toNat s).1 h
      refine .inr ⟨_, _, by rw [ht]; rfl, by rw [hm]; rfl, ?_⟩
      show t.bitStream.length + _ = _
      rw [hb, List.length_drop]
      omega

/-- A write by the sequencer: at `Eof`, or it produces one byte and takes no bit (44_output.md R172). -/
theorem sequencer_write (b : Byte) {s : State} (hf : s.fsm = .decoding) (hv : s.outValid = true)
    (hc : s.outCur.toNat ≤ s.rawSize.toNat) :
    sequencerCommand (.outWritebyte b) s = .raised .outputOverrun s
      ∨ ∃ t, sequencerCommand (.outWritebyte b) s = .ok none t ∧ t.produced = s.produced + 1
        ∧ t.bitStream = s.bitStream := by
  have ha : accepts .sequencer (kindOf (.outWritebyte b)) s.fsm = true := by rw [hf]; rfl
  have hp : s.produced ≤ s.rawSize.toNat := by
    simp only [Inst.produced]
    split <;> omega
  simp only [sequencerCommand, ha, ↓reduceIte, toolkit, outWritebyte, hv, Bool.true_eq_false]
  by_cases he : s.eof = true
  · exact .inl (if_pos he)
  · have : s.produced ≠ s.rawSize.toNat := by simpa [Inst.eof] using he
    refine .inr ⟨s.put b, by rw [if_neg he]; rfl, put_produced (by omega) hc b, ?_⟩
    unfold State.put
    split <;> rfl

/-- A copy by the sequencer takes no bit and loses no byte (44_output.md R173 to R175). -/
theorem sequencer_copy (distance count : Word) {s : State} (hf : s.fsm = .decoding) (ho : s.OutputInv) :
    sequencerCommand (.outCopy distance count) s = .illegal
      ∨ (∃ c, sequencerCommand (.outCopy distance count) s = .raised c s)
      ∨ ∃ t, sequencerCommand (.outCopy distance count) s = .ok none t ∧ s.produced ≤ t.produced
        ∧ t.bitStream = s.bitStream := by
  have ha : accepts .sequencer (kindOf (.outCopy distance count)) s.fsm = true := by rw [hf]; rfl
  simp only [sequencerCommand, ha, ↓reduceIte, toolkit, outCopy]
  repeat' split
  · exact .inl rfl
  · exact .inr (.inl ⟨_, rfl⟩)
  · exact .inr (.inl ⟨_, rfl⟩)
  · exact .inr (.inl ⟨_, rfl⟩)
  · exact .inr (.inl ⟨_, rfl⟩)
  · next h =>
    have hs : s.produced + count.toNat ≤ s.rawSize.toNat := by
      have hr := s.rawSize.isLt
      simp [sumLe, sum, Config.sizeMax] at h
      omega
    refine .inr (.inr ⟨_, rfl, by rw [(copy_keeps ho hs).2]; omega, ?_⟩)
    rw [copy_frame]
    rfl

/-- The literal branch of `TOY`'s step produces a byte, and gives no bit back. -/
theorem toyLiteral_progress {s t : State} {r : Option StepFailure} (hf : s.fsm = .decoding) (hv : s.outValid = true)
    (hc : s.outCur.toNat ≤ s.rawSize.toNat)
    (h : Script.run (.issue (.brRead 8) fun _ b => .issue (.outWritebyte (b.res.setWidth 8)) fun _ _ => .ret none) s
      = .ok r t) : s.produced < t.produced ∧ t.bitStream.length ≤ s.bitStream.length := by
  simp only [Script.run] at h
  rcases sequencer_read 8 hf with hr | ⟨u, hr⟩ | ⟨v, u, hr, hu, hb⟩
  · simp only [hr] at h
    rcases sequencer_write (((s.toInst.showing 0).res).setWidth 8) hf hv hc with hw | ⟨w, hw, hp, hs⟩
    · rw [hw] at h; cases h
    · rw [hw] at h
      cases h
      exact ⟨by omega, by rw [hs]⟩
  · rw [hr] at h; cases h
  · simp only [hr] at h
    have e : u.produced = s.produced := by rw [hu]; rfl
    rcases sequencer_write (((u.toInst.showing v).res).setWidth 8) (s := u) (by rw [hu]; exact hf) (by rw [hu]; exact hv)
      (by rw [hu]; exact hc) with hw | ⟨w, hw, hp, hs⟩
    · simp only [Option.getD_some] at h; rw [hw] at h; cases h
    · simp only [Option.getD_some] at h
      rw [hw] at h
      cases h
      exact ⟨by omega, by rw [hs]; omega⟩

/-- A read that does not end the command keeps what the copy branch of `TOY`'s step needs, and gives no bit back. -/
theorem sequencer_read_then {α : Type} (count : BitVec 6) {s t : State} {r : α} {next : Bool → Inst → Script α}
    (hf : s.fsm = .decoding) (ho : s.OutputInv) (h : Script.run (.issue (.brRead count) next) s = .ok r t) :
    ∃ (a : Bool) (i : Inst) (u : State), (next a i).run u = .ok r t ∧ u.fsm = .decoding ∧ u.OutputInv
      ∧ u.produced = s.produced ∧ u.bitStream.length ≤ s.bitStream.length := by
  simp only [Script.run] at h
  rcases sequencer_read count hf with hr | ⟨u, hr⟩ | ⟨v, u, hr, hu, hb⟩
  · rw [hr] at h
    exact ⟨_, _, s, h, hf, ho, rfl, Nat.le_refl _⟩
  · rw [hr] at h; cases h
  · rw [hr] at h
    exact ⟨_, _, u, h, by rw [hu]; exact hf, by rw [hu]; exact ho, by rw [hu]; rfl, by omega⟩

/-- The copy branch of `TOY`'s step loses no byte and gives no bit back. -/
theorem toyCopy_progress {s t : State} {r : Option StepFailure} (hf : s.fsm = .decoding) (ho : s.OutputInv)
    (h : Script.run (.issue (.brRead 4) fun _ d => .issue (.brRead 4) fun _ c =>
        .issue (.outCopy (d.res + 1) (c.res + 1)) fun _ _ => .ret none) s = .ok r t) :
    s.produced ≤ t.produced ∧ t.bitStream.length ≤ s.bitStream.length := by
  obtain ⟨_, d, u, h, hf, ho, hp, hb⟩ := sequencer_read_then 4 hf ho h
  obtain ⟨_, c, v, h, hf, ho, hp', hb'⟩ := sequencer_read_then 4 hf ho h
  simp only [Script.run] at h
  rcases sequencer_copy (d.res + 1) (c.res + 1) hf ho with hc | ⟨e, hc⟩ | ⟨w, hc, hp'', hs⟩
  · rw [hc] at h; cases h; exact ⟨by omega, by omega⟩
  · rw [hc] at h; cases h
  · rw [hc] at h; cases h; exact ⟨by omega, by rw [hs]; omega⟩

/-- A step of the test-only descriptor makes progress (45_decompressor.md R203 (d)): a literal produces a byte, and a copy
has read at least the bit that says so. -/
theorem toyStep_progress {s w : State} (hi : s.Inv) (hf : s.fsm = .decoding)
    (h : runChecked StepFailure.cause toyStep s = .ok () w) : s.ProgressTo w := by
  obtain ⟨r, u, hw, hr⟩ := Run.andThen_ok.1 h
  have huw : u = w := by cases r <;> cases hr; rfl
  subst huw
  clear h hr
  have ho : s.OutputInv := hi.2.2.2.1
  have hval : s.outValid = true := hi.2.2.2.2.2.2.2.1 (.inr (.inl hf))
  have hrun : Script.run toyStep s = .ok r u := hw
  simp only [toyStep, Script.run.eq_4] at hrun
  rcases sequencer_read 1 hf with hc | ⟨t, hc⟩ | ⟨x, t, hc, ht, hbits⟩
  · simp only [hc, Inst.showing_res, ↓reduceIte] at hrun
    obtain ⟨h1, h2⟩ := toyLiteral_progress hf hval ho.1 hrun
    exact ⟨h2, .inl h1⟩
  · rw [hc] at hrun; cases hrun
  · simp only [hc] at hrun
    have hres : (t.toInst.showing ((some x).getD 0)).res = x := rfl
    have hone : (1 : BitVec 6).toNat = 1 := rfl
    have e : t.produced = s.produced := by rw [ht]; rfl
    by_cases hx : x = 0
    · rw [if_pos (hres.trans hx)] at hrun
      obtain ⟨h1, h2⟩ := toyLiteral_progress (s := t) (by rw [ht]; exact hf) (by rw [ht]; exact hval)
        (by rw [ht]; exact ho.1) hrun
      exact ⟨by omega, .inl (by omega)⟩
    · rw [if_neg fun h => hx (hres.symm.trans h)] at hrun
      obtain ⟨h1, h2⟩ := toyCopy_progress (s := t) (by rw [ht]; exact hf) (by rw [ht]; exact ho) hrun
      exact ⟨by omega, .inr (by omega)⟩

/-- The test-only descriptor meets obligation (d) of 45_decompressor.md R203. -/
theorem toy_stepsProgress (magic : Nat) : (toyDescriptor magic).StepsProgress := by
  intro s v hi hf h
  obtain ⟨_, u, hu, hv⟩ := Run.andThen_ok.1 h
  have hp := toyStep_progress hi hf hu
  cases hv
  exact hp

/-- So does any sub-decompressor whose step is the test-only one's. -/
theorem toy_streamProgress {d : StreamDecoder} (h : ∀ w, d.step w = toyStep) : d.StepsProgress := by
  intro s v hi hf hv
  rw [h] at hv
  exact toyStep_progress hi hf hv

end Sys2Proof.Machine
end

