-- ==== Sys2Proof/Laws/Formats.lean ====
section
/-!
SUPPORT. MMCMP verifies each of its blocks (46_formats.md R234): which of them a step or the end of the decode asks, and
what it means that their checksums hold.
-/
namespace Sys2Proof.Machine

/-- A block is completed by a step that produces bytes exactly where its end is among them, or at the start of the output
together with the first byte. -/
theorem mem_completedBlocks {before after : Nat} {b : MmcmpBlock} {bs : List MmcmpBlock} :
    b ∈ completedBlocks before after bs ↔ b ∈ bs ∧ before < after
      ∧ (before < b.rawStart + b.rawSize ∨ before = 0) ∧ b.rawStart + b.rawSize ≤ after := by
  simp [completedBlocks]

theorem mem_openBlocks {produced : Nat} {b : MmcmpBlock} {bs : List MmcmpBlock} :
    b ∈ openBlocks produced bs ↔ b ∈ bs ∧ produced < b.rawStart + b.rawSize := by
  simp [openBlocks]

/-- Along a decode that begins with no byte produced and has produced one, every block is completed by a step or is left
open at the end. -/
theorem every_block_is_asked {bs : List MmcmpBlock} {b : MmcmpBlock} (hb : b ∈ bs) (p : Nat → Nat) (h0 : p 0 = 0) :
    ∀ n, 0 < p n → b ∈ openBlocks (p n) bs ∨ ∃ i < n, b ∈ completedBlocks (p i) (p (i + 1)) bs := by
  simp only [mem_openBlocks, mem_completedBlocks, hb, true_and]
  intro n
  induction n with
  | zero => intro h; omega
  | succ n ih =>
    intro h
    by_cases hz : p n = 0
    · by_cases he : b.rawStart + b.rawSize ≤ p (n + 1)
      · exact .inr ⟨n, by omega, by omega, .inr hz, he⟩
      · exact .inl (by omega)
    · rcases ih (by omega) with ho | ⟨i, hi, h⟩
      · by_cases he : b.rawStart + b.rawSize ≤ p (n + 1)
        · exact .inr ⟨n, by omega, by omega, .inl ho, he⟩
        · exact .inl (by omega)
      · exact .inr ⟨i, by omega, h⟩

/-- Where the checksums of blocks hold, that of each was asked, over the bytes it had made, and held. -/
theorem blocksHold_each {x : MmcmpParts} {w : Window} {bs : List MmcmpBlock} : ∀ {s t : State},
    (blocksHold x w bs).run s = .ok true t → ∀ b ∈ bs, ∃ u v : State,
      (x.blockChecksumHolds b ((u.toInst.writtenSince b.rawStart).take b.rawSize) w).run u = .ok true v := by
  induction bs with
  | nil => intro s t _ b hb; cases hb
  | cons a bs ih =>
    intro s t h b hb
    simp only [blocksHold, Script.run, Script.run_bind] at h
    obtain ⟨holds, u, h1, h2⟩ := Run.andThen_ok.1 h
    cases holds with
    | false => cases h2
    | true =>
      rcases List.mem_cons.1 hb with rfl | hb
      · exact ⟨s, u, h1⟩
      · exact ih h2 b hb

end Sys2Proof.Machine
end

