-- ==== Sys2Proof/Laws/Huffman.lean ====
section
/-!
SUPPORT. What building a decode table can do (42_huffman.md R136 to R138).
-/
namespace Sys2Proof.Machine

theorem placeLeaf_length {e : Entry} {is : List Nat} : ∀ {es es' : List Entry}, placeLeaf e is es = some es' →
    es'.length = es.length := by
  induction is with
  | nil => intro es es' h; cases h; rfl
  | cons i is ih =>
    intro es es' h
    simp only [placeLeaf] at h
    split at h
    · rw [ih h, List.length_set]
    · cases h

theorem placeInSub_length {c : Code} {width base sw : Nat} {order : BitOrder} {es es' : List Entry}
    (h : placeInSub c width order base sw es = .ok es') : es'.length = es.length := by
  simp only [placeInSub] at h
  split at h
  · next hp => cases h; exact placeLeaf_length hp
  · cases h

/-- Placing a code never shrinks a table, and never grows it past its array. -/
theorem placeCode_length {all : List Code} {width : Nat} {order : BitOrder} {c : Code} {es es' : List Entry}
    (h : placeCode all width order c es = .ok es') (hc : es.length ≤ Config.tblCap) :
    es.length ≤ es'.length ∧ es'.length ≤ Config.tblCap := by
  unfold placeCode at h
  split at h
  · split at h
    · next hp =>
      cases h
      have := placeLeaf_length hp
      omega
    · cases h
  · dsimp only at h
    generalize subWidth all width (c.code / 2 ^ (c.length - width)) = sw at h
    generalize (slots (c.code / 2 ^ (c.length - width)) width width order).headD 0 = pidx at h
    cases hp : es[pidx]? with
    | none => rw [hp] at h; cases h
    | some e =>
      rw [hp] at h
      cases e with
      | leaf => cases h
      | link base sw =>
        have := placeInSub_length h
        omega
      | unmapped =>
        dsimp only at h
        by_cases hcap : Config.tblCap < es.length + 2 ^ sw
        · rw [if_pos hcap] at h; cases h
        · rw [if_neg hcap] at h
          have := placeInSub_length h
          rw [List.length_append, List.length_set, List.length_replicate] at this
          have hpos := Nat.two_pow_pos sw
          omega

theorem placeCodes_length {all : List Code} {width : Nat} {order : BitOrder} {cs : List Code} :
    ∀ {es es' : List Entry}, placeCodes all width order cs es = .ok es' → es.length ≤ Config.tblCap →
      es.length ≤ es'.length ∧ es'.length ≤ Config.tblCap := by
  induction cs with
  | nil => intro es es' h hc; cases h; exact ⟨Nat.le_refl _, hc⟩
  | cons c cs ih =>
    intro es es' h hc
    simp only [placeCodes] at h
    split at h
    · next hp =>
      have h1 := placeCode_length hp hc
      have h2 := ih h h1.2
      omega
    · cases h

/-- A built table has its primary table whole and fits its array (10_state.md R25). -/
theorem build_length {cs : List Code} {width : Nat} {order : BitOrder} {ok : Bool} {es : List Entry}
    (h : build cs width order ok = .ok es) (hw : width ≤ Config.hufMaxw) :
    2 ^ width ≤ es.length ∧ es.length ≤ Config.tblCap := by
  simp only [build] at h
  split at h
  · cases h
  · next hp =>
    have hcap : 2 ^ width ≤ Config.tblCap := Nat.pow_le_pow_right (n := 2) (by omega) hw
    have h1 := placeCodes_length hp (by simpa using hcap)
    rw [List.length_replicate] at h1
    split at h
    · cases h
    · split at h
      · cases h
      · cases h; exact h1

/-- A table is built exactly where its codes can be placed and the completeness test passes (42_huffman.md R138). -/
theorem build_ok {cs : List Code} {width : Nat} {order : BitOrder} {ok : Bool} {es : List Entry} :
    build cs width order ok = .ok es ↔
      placeCodes cs width order cs (List.replicate (2 ^ width) .unmapped) = .ok es
        ∧ kraft cs ≤ 2 ^ 32 ∧ (kraft cs = 2 ^ 32 ∨ ok = true) := by
  simp only [build]
  split
  · next hp => simp [hp]
  · next es' hp =>
    rw [hp]
    split
    · simp; omega
    · split
      · next h => simp at h; simp [h]; omega
      · next h1 h2 =>
        simp only [Bool.and_eq_true, decide_eq_true_eq, Bool.not_eq_true', not_and, Bool.not_eq_false] at h2
        simp only [Except.ok.injEq]
        refine ⟨fun h => ⟨h, by omega, ?_⟩, fun h => h.1⟩
        by_cases hk : kraft cs < 2 ^ 32
        · exact .inr (h2 hk)
        · exact .inl (by omega)

end Sys2Proof.Machine
end

