-- ==== Sys2Proof/Laws/Invariant.lean ====
section
/-!
SUPPORT. What the toolkit's commands, the format sequencer and the bodies of `DEC.*` keep of `State.Inv`, and that a
failure always has a cause.
-/
namespace Sys2Proof.Machine

/-- The part of the invariant that toolkit commands can break. -/
structure ToolkitInv (s : State) : Prop where
  reader : s.ReaderInv
  slice : s.SliceInv
  output : s.OutputInv
  tables : s.TablesInv

/-- The toolkit's part of the invariant is kept, and no byte produced is lost. -/
def Keeps (s t : State) : Prop := ToolkitInv s → ToolkitInv t ∧ s.produced ≤ t.produced

theorem Keeps.refl (s) : Keeps s s := fun h => ⟨h, Nat.le_refl _⟩

theorem Keeps.trans {s t u} (h1 : Keeps s t) (h2 : Keeps t u) : Keeps s u := fun h =>
  ⟨(h2 (h1 h).1).1, Nat.le_trans (h1 h).2 (h2 (h1 h).1).2⟩

/-- Writing `RES` keeps it. -/
theorem Keeps.of_res (s : State) (v) : Keeps s { s with res := v } := fun h => ⟨⟨h.reader, h.slice, h.output,
    h.tables⟩, Nat.le_refl _⟩

theorem Keeps.of_moved {s t : State} (h : ReaderMoved s t) : Keeps s t := fun hi => by
  obtain ⟨h1, h2⟩ := h
  have e : t.produced = s.produced := by rw [h1]; rfl
  exact ⟨⟨h2, by rw [h1]; exact hi.slice, by rw [h1]; exact hi.output, by rw [h1]; exact hi.tables⟩, by omega⟩

/-- A command that reads bits and then goes on. -/
theorem Keeps.of_read {α β} {r : Run α} {k : α → State → Run β} {s} (hi : ToolkitInv s) (hr : r.Ends (ReaderMoved s))
   (hk : ∀ a t, ToolkitInv t → (k a t).Ends (Keeps t)) : (r.andThen k).Ends (Keeps s) := by
  refine Run.Ends.andThen (P := Keeps s) ?_ ?_
  · exact hr.imp fun t ht => Keeps.of_moved ht
  · intro a t ht
    exact (hk a t (ht hi).1).imp fun u hu => Keeps.trans ht hu

theorem makeTable_keeps (t : Byte) (m : TableMode) (ok : Bool) (w : BitVec 5) (cs : List Code) (s : State)
   (ht : t.toNat < 8) (hw : 1 ≤ w.toNat ∧ w.toNat ≤ 16) : (makeTable t m ok w cs s).Ends (Keeps s) := by
  simp only [makeTable]
  split
  · intro h
    refine ⟨⟨h.reader, h.slice, h.output, ?_⟩, Nat.le_refl _⟩
    obtain ⟨h1,h2,h3,h4⟩ := h.tables
    exact ⟨h1,h2,⟨Memory.wf_erase h3.1 _, fun c hc => h3.2 c (Memory.mem_erase.1 hc).1⟩,h4⟩
  · next es hb =>
    intro h
    refine ⟨⟨h.reader, h.slice, h.output, ?_⟩, Nat.le_refl _⟩
    obtain ⟨h1,h2,h3,h4⟩ := h.tables
    refine ⟨h1,h2,⟨Memory.wf_set h3.1 _ _, fun c hc => ?_⟩,h4⟩
    rcases Memory.mem_set hc with rfl | hc
    · have := build_length hb hw.2
      exact ⟨ht, this.2, fun _ => ⟨hw.1, hw.2, this.1⟩⟩
    · exact h3.2 c hc

theorem decodeSymbol_keeps (t : Table) (s : State) (h : ToolkitInv s): (decodeSymbol t s).Ends (Keeps s) := by
  refine Keeps.of_read h (lookup_keeps _ _ _ _ _ _ _ h.reader) ?_
  intro l u hu
  split
  · exact Keeps.of_res _ _
  · refine Keeps.of_read hu (lookup_keeps _ _ _ _ _ _ _ hu.reader) ?_
    intro l v hv
    split
    · exact Keeps.of_res _ _
    · exact Keeps.refl _
  · exact Keeps.refl _

/-- Every toolkit command keeps the toolkit's part of the invariant, whether it completes or fails. -/
theorem toolkit_keeps (i : Instr) (s : State) (h : ToolkitInv s) : (toolkit i s).Ends (Keeps s) := by
  cases i with
  | bufSize => exact Keeps.of_res _ _
  | bufRd8 | bufRdbe16 | bufRdbe32 | bufRdle16 | bufRdle32 =>
    simp only [toolkit, bufRead]; split
    · exact Keeps.of_res _ _
    · exact Keeps.refl _
  | bufGetdata off len =>
    simp only [toolkit, bufGetdata]; split
    · next hc =>
      intro h
      refine ⟨⟨h.reader, fun _ => ?_, h.output, h.tables⟩, Nat.le_refl _⟩
      exact (sumLe_word _).1 hc
    · exact Keeps.refl _
  | bufSlrd8 =>
    simp only [toolkit, bufSlrd8]
    split
    · trivial
    · split
      · exact Keeps.refl _
      · exact Keeps.of_res _ _
  | ovfSum =>
    simp only [toolkit, ovfSum]
    split
    · trivial
    · intro h; exact ⟨⟨h.reader, h.slice, h.output, h.tables⟩, Nat.le_refl _⟩
  | brInit order dir rw wend rot lo hi =>
    simp only [toolkit, brInit]
    split
    · trivial
    · next hrw =>
      split
      · next hc =>
        intro h
        simp only [Bool.and_eq_true, decide_eq_true_eq] at hc
        refine ⟨⟨⟨by simp, by simp, ?_, ?_, ?_, hc.2⟩, h.slice, h.output, h.tables⟩, Nat.le_refl _⟩
        · simpa [refillWidthLegal] using hrw
        · cases dir <;> simp [hc.1]
        · cases dir <;> simp [hc.1]
      · exact Keeps.refl _
  | brReset live value =>
    simp only [toolkit, brReset]
    split
    · trivial
    · next hc =>
      intro h
      simp at hc
      obtain ⟨h1,h2,h3,h4⟩ := h.reader
      refine ⟨⟨⟨by simpa using hc.2, ?_, h3, h4⟩, h.slice, h.output, h.tables⟩, Nat.le_refl _⟩
      refine Nat.lt_of_le_of_lt ((word_toNat _).trans_le (Nat.mod_le _ _)) (Nat.mod_lt _ (Nat.two_pow_pos _))
  | brAnchor w =>
    simp only [toolkit, brAnchor]
    split
    · trivial
    · split
      · exact Keeps.refl _
      · next hw =>
        intro h
        obtain ⟨h1,h2,h3,h4⟩ := h.reader
        have hl : msbIndex w.toNat < 32 := by
          have : w.toNat ≠ 0 := fun hc => hw (BitVec.eq_of_toNat_eq (by simpa using hc))
          exact (Nat.log2_lt this).2 w.isLt
        have hm : (BitVec.ofNat 6 (msbIndex w.toNat)).toNat = msbIndex w.toNat := by
          rw [BitVec.toNat_ofNat, Nat.mod_eq_of_lt (by omega)]
        refine ⟨⟨⟨?_, ?_, h3, h4⟩, h.slice, h.output, h.tables⟩, Nat.le_refl _⟩
        · show (BitVec.ofNat 6 (msbIndex w.toNat)).toNat ≤ 32
          omega
        · show (word _).toNat < 2 ^ (BitVec.ofNat 6 (msbIndex w.toNat)).toNat
          rw [hm]
          exact Nat.lt_of_le_of_lt ((word_toNat _).trans_le (Nat.mod_le _ _)) (Nat.mod_lt _ (Nat.two_pow_pos _))
  | brRead =>
    simp only [toolkit, brRead]
    split
    · trivial
    · exact Keeps.of_read h (readBits_keeps _ h.reader) fun v u hu => Keeps.of_res _ _
  | rotb =>
    simp only [toolkit, rotb]
    split
    · trivial
    · exact Keeps.of_res _ _
  | hufSetlen index len =>
    simp only [toolkit, hufSetlen]
    split
    · trivial
    · next hc =>
      intro h
      simp only [Bool.or_eq_true, decide_eq_true_eq, not_or, Nat.not_le, Nat.not_lt] at hc
      obtain ⟨h1,h2⟩ := h.tables
      refine ⟨⟨h.reader, h.slice, h.output, ⟨⟨Memory.wf_set h1.1 _ _, fun c hcm => ?_⟩, h2⟩⟩, Nat.le_refl _⟩
      rcases Memory.mem_set hcm with rfl | hcm
      · exact hc
      · exact h1.2 c hcm
  | hufSettri index length code value =>
    simp only [toolkit, hufSettri]
    split
    · trivial
    · next hc =>
      split
      · trivial
      · next hc2 =>
        intro h
        simp only [Bool.or_eq_true, decide_eq_true_eq, not_or, Nat.not_le, Nat.not_lt, beq_iff_eq] at hc
        obtain ⟨h1,h2,h3⟩ := h.tables
        refine ⟨⟨h.reader, h.slice, h.output, ⟨h1, ⟨Memory.wf_set h2.1 _ _, fun c hcm => ?_⟩, h3⟩⟩, Nat.le_refl _⟩
        rcases Memory.mem_set hcm with rfl | hcm
        · refine ⟨hc.1.1, ?_, hc.2, by simpa using hc2⟩
          have : length.toNat ≠ 0 := fun he => hc.1.2 (BitVec.eq_of_toNat_eq (by simpa using he))
          show 1 ≤ length.toNat
          omega
        · exact h2.2 c hcm
  | hufMake t ok w n =>
    simp only [toolkit, hufMake]
    split
    · trivial
    · next hc =>
      have hw : t.toNat < 8 ∧ 1 ≤ w.toNat ∧ w.toNat ≤ 16 := by
        simp [makeRefused] at hc
        have : w.toNat ≠ 0 := fun he => hc.1.1.1.2 (BitVec.eq_of_toNat_eq (by simpa using he))
        exact ⟨hc.1.1.1.1, by omega, hc.1.1.2⟩
      split
      · trivial
      · split
        · intro h
          refine ⟨⟨h.reader, h.slice, h.output, ?_⟩, Nat.le_refl _⟩
          obtain ⟨h1,h2,h3,h4⟩ := h.tables
          exact ⟨h1,h2,⟨Memory.wf_erase h3.1 _, fun c hc => h3.2 c (Memory.mem_erase.1 hc).1⟩,h4⟩
        · exact makeTable_keeps _ _ _ _ _ _ hw.1 hw.2
  | hufFixed t ok w n =>
    simp only [toolkit, hufFixed]
    split
    · trivial
    · next hc =>
      have hw : t.toNat < 8 ∧ 1 ≤ w.toNat ∧ w.toNat ≤ 16 := by
        simp [makeRefused] at hc
        have : w.toNat ≠ 0 := fun he => hc.1.1.1.2 (BitVec.eq_of_toNat_eq (by simpa using he))
        exact ⟨hc.1.1.1.1, by omega, hc.1.1.2⟩
      split
      · trivial
      · exact makeTable_keeps _ _ _ _ _ _ hw.1 hw.2
  | hufAdapt t =>
    simp only [toolkit, hufAdapt]
    split
    · trivial
    · next hc =>
      simp at hc
      split
      · next old hold =>
        intro h
        obtain ⟨h1,h2,h3,h4⟩ := h.tables
        refine ⟨⟨h.reader, h.slice, h.output, ⟨h1,h2,⟨Memory.wf_set h3.1 _ _, fun c hcm => ?_⟩, h4⟩⟩, Nat.le_refl _⟩
        rcases Memory.mem_set hcm with rfl | hcm
        · exact ⟨hc.2, (h3.2 _ (Memory.mem_of_get hold)).2.1, fun hne => absurd rfl hne⟩
        · exact h3.2 c hcm
      · intro h
        obtain ⟨h1,h2,h3,h4⟩ := h.tables
        refine ⟨⟨h.reader, h.slice, h.output, ⟨h1,h2,⟨Memory.wf_set h3.1 _ _, fun c hcm => ?_⟩, h4⟩⟩, Nat.le_refl _⟩
        rcases Memory.mem_set hcm with rfl | hcm
        · exact ⟨hc.2, by simp, fun hne => absurd rfl hne⟩
        · exact h3.2 c hcm
  | hufDecode t =>
    simp only [toolkit, hufDecode]
    split
    · trivial
    · next ht =>
      split
      · trivial
      · next table htab =>
        split
        · trivial
        · split
          · next hmode =>
            simp only [decodeAdaptive]
            split
            · trivial
            · have htk := (h.tables.2.2.1.2 _ (Memory.mem_of_get htab))
              refine Keeps.of_read h (adaptiveSymbol_keeps _ _ _ _ h.reader) fun v u hu => ?_
              intro h
              obtain ⟨h1,h2,h3,h4⟩ := h.tables
              refine ⟨⟨h.reader, h.slice, h.output, ⟨h1,h2,⟨Memory.wf_set h3.1 _ _, fun c hcm => ?_⟩, h4⟩⟩,
                  Nat.le_refl _⟩
              rcases Memory.mem_set hcm with rfl | hcm
              · exact htk
              · exact h3.2 c hcm
          · exact decodeSymbol_keeps _ _ h
  | vlcSet index bits base =>
    simp only [toolkit, vlcSet]
    split
    · trivial
    · next hc =>
      simp only [Bool.or_eq_true, decide_eq_true_eq, not_or, Nat.not_le, Nat.not_lt] at hc
      intro h
      obtain ⟨h1,h2,h3,h4,h5,h6,h7⟩ := h.tables
      refine ⟨⟨h.reader, h.slice, h.output, ⟨h1,h2,h3,⟨Memory.wf_set h4.1 _ _, fun c hcm => ?_⟩,
         ⟨Memory.wf_set h5.1 _ _, fun c hcm => ?_⟩, ?_, h7⟩⟩, Nat.le_refl _⟩
      · rcases Memory.mem_set hcm with rfl | hcm
        · exact hc.1
        · exact h4.2 c hcm
      · rcases Memory.mem_set hcm with rfl | hcm
        · exact hc
        · exact h5.2 c hcm
      · rcases h6 with h6 | ⟨h6, h6'⟩
        · exact .inl h6
        · refine .inr ⟨h6, fun i hi => ?_⟩
          have := h6' i hi
          simp only [Memory.get_set]
          constructor <;> split <;> simp_all
  | vlcSetn n =>
    simp only [toolkit, vlcSetn]
    split
    · trivial
    · next hc =>
      split
      · trivial
      · next hc2 =>
        intro h
        obtain ⟨h1,h2,h3,h4,h5,h6,h7⟩ := h.tables
        refine ⟨⟨h.reader, h.slice, h.output, ⟨h1,h2,h3,h4,h5,?_, h7⟩⟩, Nat.le_refl _⟩
        have hn : n.toNat < 64 := by simpa using hc
        have he : (BitVec.ofNat 7 n.toNat).toNat = n.toNat := by
          rw [BitVec.toNat_ofNat, Nat.mod_eq_of_lt (by omega)]
        refine .inr ⟨?_, fun i hi => ?_⟩
        · show (BitVec.ofNat 7 n.toNat).toNat < 64
          omega
        · have hi : i < n.toNat + 1 := by
            have := List.mem_range.1 hi
            change i < (BitVec.ofNat 7 n.toNat).toNat + 1 at this
            omega
          simp only [Bool.or_eq_true, Option.isNone_iff_eq_none, not_or] at hc2
          obtain ⟨a, ha⟩ := Option.ne_none_iff_exists'.1 hc2.1
          obtain ⟨b, hb⟩ := Option.ne_none_iff_exists'.1 hc2.2
          obtain ⟨la, ga⟩ := Memory.prefixOf_eq_some ha
          obtain ⟨lb, gb⟩ := Memory.prefixOf_eq_some hb
          exact ⟨by rw [ga i (by omega)]; rfl, by rw [gb i (by omega)]; rfl⟩
  | vlcDecode =>
    simp only [toolkit, vlcDecode]
    split
    · trivial
    · split
      · exact Keeps.refl _
      · split
        · refine Keeps.of_read h (readBits_keeps _ h.reader) fun v u hu => ?_
          split
          · exact Keeps.refl _
          · exact Keeps.of_res _ _
        · trivial
  | outWritebyte b =>
    simp only [toolkit, outWritebyte]
    split
    · trivial
    · split
      · exact Keeps.refl _
      · next hv he =>
        intro h
        have hne : s.produced ≠ s.rawSize.toNat := by simpa [Inst.eof] using he
        have hle : s.produced ≤ s.rawSize.toNat := by
          have := h.output.1
          simp only [Inst.produced]; split <;> omega
        have hlt : s.produced < s.rawSize.toNat := by omega
        refine ⟨⟨by simpa [State.ReaderInv] using h.reader, by simpa [State.SliceInv] using h.slice,
            put_keeps h.output hlt b, by simpa [State.TablesInv] using h.tables⟩, ?_⟩
        rw [put_produced hlt h.output.1]; omega
  | outCopy distance count =>
    simp only [toolkit, outCopy]
    split
    · trivial
    · split
      · exact Keeps.refl _
      · split
        · exact Keeps.refl _
        · split
          · exact Keeps.refl _
          · split
            · exact Keeps.refl _
            · next hc =>
              intro h
              have hc : s.produced + count.toNat ≤ s.rawSize.toNat := (sumLe_word s.rawSize).1 (by simpa using hc)
              have := copy_keeps (distance := distance.toNat) h.output hc
              refine ⟨⟨?_, ?_, this.1, ?_⟩, by omega⟩
              · rw [copy_frame]; exact h.reader
              · rw [copy_frame]; exact h.slice
              · rw [copy_frame]; exact h.tables
  | outEof =>
    simp only [toolkit, outEof]
    split
    · trivial
    · exact Keeps.of_res _ _
  | reset | status | outInit | outRd8 | decCreate | decGetrawsize | decDecompress | decNextchunk | dispDetect => trivial

/-- So does every activity of the format sequencer, whatever the descriptor. -/
theorem Script.run_keeps {α} (x : Script α) (s : State) : (x.run s).Ends (Keeps s) := by
  refine Script.run_ends Keeps.refl Keeps.trans ?_ ?_ x s
  · intro s v h; exact ⟨⟨h.reader, h.slice, h.output, h.tables⟩, Nat.le_refl _⟩
  · intro i s _
    by_cases h : ToolkitInv s
    · exact toolkit_keeps i s h
    · cases hr : toolkit i s with
      | ok a t => exact fun hc => absurd hc h
      | raised a t => exact fun hc => absurd hc h
      | illegal => trivial
      | stuck => trivial

theorem accepts_sequencer {k : Kind} {f : Fsm} (h : accepts .sequencer k f = true) :
   f = .unvalidated ∨ f = .decoding := by
  cases k <;> cases f <;> simp_all [accepts]

theorem State.Inv.of_parts {s : State} (h1 : s.setup.ok) (h2 : ToolkitInv s) (h3 : s.SequenceInv) : s.Inv :=
  ⟨h1, h2.reader, h2.slice, h2.output, h2.tables, h3⟩

theorem State.Inv.parts {s : State} (h : s.Inv) : s.setup.ok ∧ ToolkitInv s ∧ s.SequenceInv := by
  obtain ⟨h1,h2,h3,h4,h5,h6⟩ := h
  exact ⟨h1,⟨h2,h3,h4,h5⟩,h6⟩

theorem answered_inv {s : State} (v) (h : s.Inv) : (s.answered v).Inv := h

theorem refused_inv {s : State} (h : s.Inv) : (s.refusedIllegal).Inv := h

theorem category_cases {c : Cause} {f : Fsm} : c.category f = c.category .unvalidated ∨ c.category f = c.category .decoding := by
  cases c <;> cases f <;> simp [Cause.category]

/-- A failure keeps the invariant (60_exceptions.md R263). -/
theorem failed_inv {s : State} {c : Cause} (hc : c ≠ .noCause) (h : s.Inv) : (s.failed c).Inv := by
  by_cases hd : s.fsm = .done
  · rw [State.failed_of_done hd]; exact h
  · rw [State.failed_of_not_done hd]
    obtain ⟨h1,h2,h3⟩ := State.Inv.parts h
    refine State.Inv.of_parts h1 ⟨h2.reader, h2.slice, h2.output, h2.tables⟩ ⟨?_, ?_, ?_, ?_⟩
    · simp
    · intro _; exact ⟨hc, category_cases⟩
    · simp
    · simp

/-- What holds of the cause, where a run fails. -/
def Run.Causes {α} (P : Cause → Prop) : Run α → Prop
  | .raised c _ => P c
  | _ => True

theorem Run.Causes.andThen {α β} {P} {r : Run α} {k : α → State → Run β} (h : r.Causes P) (hk : ∀ a t,
    (k a t).Causes P) :
   (r.andThen k).Causes P := by
  cases r with
  | ok a t => exact hk a t
  | raised c t => exact h
  | illegal => trivial
  | stuck => trivial

/-- A failure reports a cause (60_exceptions.md R262). -/
abbrev Reports : Cause → Prop := fun c => c ≠ .noCause

theorem readBits_causes (n s) : (readBits n s).Causes Reports := by
  rcases readBits_ends n s with ⟨v,t,h⟩ | ⟨t,h⟩ <;> rw [h]
  · trivial
  · exact Cause.noConfusion

theorem lookup_causes (t b w l) : ∀ k i s, (lookup t b w l k i s).Causes Reports := by
  induction l with
  | zero => intro k i s; simp only [lookup]; split <;> trivial
  | succ l ih =>
    intro k i s; simp only [lookup]; split
    · trivial
    · exact (readBits_causes _ _).andThen fun b u => ih _ _ _

theorem adaptiveSymbol_causes (sh n) : ∀ b s, (adaptiveSymbol sh n b s).Causes Reports := by
  induction n with
  | zero => intro b s; exact Cause.noConfusion
  | succ l ih =>
    intro k s; simp only [adaptiveSymbol]; split
    · trivial
    · exact (readBits_causes _ _).andThen fun b u => ih _ _

theorem placeInSub_reports {c w o b sw es e} (h : placeInSub c w o b sw es = .error e) : e ≠ .noCause := by
  simp only [placeInSub] at h
  split at h <;> cases h
  exact Cause.noConfusion

theorem placeCode_reports {all w o c es e} (h : placeCode all w o c es = .error e) : e ≠ .noCause := by
  unfold placeCode at h
  split at h
  · split at h <;> cases h; exact Cause.noConfusion
  · dsimp only at h
    generalize subWidth all w (c.code / 2 ^ (c.length - w)) = sw at h
    generalize (slots (c.code / 2 ^ (c.length - w)) w w o).headD 0 = pidx at h
    cases hp : es[pidx]? with
    | none => rw [hp] at h; cases h; exact Cause.noConfusion
    | some e =>
      rw [hp] at h
      cases e with
      | leaf => cases h; exact Cause.noConfusion
      | link base sw => exact placeInSub_reports h
      | unmapped =>
        dsimp only at h
        by_cases hcap : Config.tblCap < es.length + 2 ^ sw
        · rw [if_pos hcap] at h; cases h; exact Cause.noConfusion
        · rw [if_neg hcap] at h
          exact placeInSub_reports h

theorem placeCodes_reports {all w o cs} : ∀ {es e}, (placeCodes all w o cs es = .error e) → e ≠ .noCause := by
  induction cs with
  | nil => intro es e h; cases h
  | cons c cs ih =>
    intro es e h
    simp only [placeCodes] at h
    split at h
    · exact ih h
    · next hp => cases h; exact placeCode_reports hp

theorem build_reports {cs w o ok e} (h : build cs w o ok = .error e) : e ≠ .noCause := by
  simp only [build] at h
  split at h
  · next hp => cases h; exact placeCodes_reports hp
  · split at h
    · cases h; exact Cause.noConfusion
    · split at h <;> cases h; exact Cause.noConfusion

theorem makeTable_causes (t m ok w cs s) : (makeTable t m ok w cs s).Causes Reports := by
  simp only [makeTable]
  split
  · next h => exact build_reports h
  · trivial

/-- No toolkit command fails without a cause. -/
theorem toolkit_causes (i : Instr) (s : State) : (toolkit i s).Causes Reports := by
  cases i with
  | hufMake =>
    simp only [toolkit, hufMake]
    repeat' split
    all_goals first | trivial | exact Cause.noConfusion | exact makeTable_causes _ _ _ _ _ _
  | hufFixed =>
    simp only [toolkit, hufFixed]
    repeat' split
    all_goals first | trivial | exact Cause.noConfusion | exact makeTable_causes _ _ _ _ _ _
  | brRead =>
    simp only [toolkit, brRead]
    split
    · trivial
    · exact (readBits_causes _ _).andThen fun _ _ => trivial
  | vlcDecode =>
    simp only [toolkit, vlcDecode]
    split
    · trivial
    · split
      · exact Cause.noConfusion
      · split
        · refine (readBits_causes _ _).andThen fun _ _ => ?_
          split
          · exact Cause.noConfusion
          · trivial
        · trivial
  | hufDecode =>
    simp only [toolkit, hufDecode]
    split
    · trivial
    · split
      · trivial
      · split
        · trivial
        · split
          · simp only [decodeAdaptive]
            split
            · trivial
            · exact (adaptiveSymbol_causes _ _ _ _).andThen fun _ _ => trivial
          · refine (lookup_causes _ _ _ _ _ _ _).andThen fun l u => ?_
            split
            · trivial
            · refine (lookup_causes _ _ _ _ _ _ _).andThen fun l u => ?_
              split
              · trivial
              · exact Cause.noConfusion
            · exact Cause.noConfusion
  | _ =>
    simp only [toolkit, bufSize, bufRead, bufGetdata, bufSlrd8, ovfSum, brInit, brReset, brAnchor, rotb, hufSetlen,
        hufSettri, hufAdapt, vlcSet, vlcSetn, outWritebyte, outCopy, outEof]
    repeat' split
    all_goals first | trivial | exact Cause.noConfusion

theorem Script.run_causes {α} (x : Script α) : ∀ s, (x.run s).Causes Reports := by
  induction x with
  | ret a => exact fun s => trivial
  | look next ih => exact fun s => ih (s.toInst.showing 0) s
  | setChk v next ih => exact fun s => ih _
  | issue i next ih =>
    intro s
    simp only [Script.run, sequencerCommand]
    by_cases ha : accepts .sequencer (kindOf i) s.fsm = true
    · simp only [ha, ↓reduceIte]
      have hc := toolkit_causes i s
      cases hr : toolkit i s with
      | ok v t => exact ih true (t.toInst.showing (v.getD 0)) t
      | illegal => exact ih false (s.toInst.showing 0) s
      | raised c t => rw [hr] at hc; exact hc
      | stuck => trivial
    · simp only [ha]
      exact ih false (s.toInst.showing 0) s

theorem stepCause_reports (e : StepFailure) : e.cause ≠ .noCause := by cases e <;> exact Cause.noConfusion

theorem initCause_reports (e : InitFailure) : e.cause ≠ .noCause := stepCause_reports _

theorem verifyCause_reports (e : VerifyFailure) : e.cause ≠ .noCause := by cases e <;> exact Cause.noConfusion

theorem runChecked_causes {ε} (f : ε → Cause) (hf : ∀ e, f e ≠ .noCause) (x) (s) :
    (runChecked f x s).Causes Reports := by
  refine (Script.run_causes _ _).andThen fun r u => ?_
  split
  · trivial
  · exact hf _

theorem produced_le {s : State} (h : s.OutputInv) : s.produced ≤ s.rawSize.toNat := by
  have := h.1
  simp only [Inst.produced]; split <;> omega

/-- The state machine's part of the invariant, across a run that leaves its registers alone. -/
theorem sequence_of_frame {s t : State} (hf : ToolkitFrame s { t with chk := s.chk }) (hk : s.produced ≤ t.produced) (
    ho : t.OutputInv) (h : s.SequenceInv) : t.SequenceInv := by
  obtain ⟨h1,h2,h3,h4⟩ := h
  have e1 : t.fsm = s.fsm := hf.fsm
  have e2 : t.err = s.err := hf.err
  have e3 : t.errInfo = s.errInfo := hf.errInfo
  have e4 : t.outValid = s.outValid := hf.outValid
  have e5 : t.rawSize = s.rawSize := hf.rawSize
  refine ⟨by rw [e1,e2,e3]; exact h1, by rw [e1,e2,e3]; exact h2, by rw [e1,e4]; exact h3, ?_⟩
  rw [e1]; intro hd
  have a := h4 hd
  have b := produced_le ho
  rw [e5] at *
  omega

theorem ToolkitFrame.but_chk {s t : State} (h : ToolkitFrame s t) :
    ToolkitFrame s { t with chk := s.chk } := { h with chk := rfl }

/-- The whole invariant, from what a toolkit run leaves alone and what it keeps. -/
theorem State.Inv.of_frame {s t : State} (h : s.Inv) (hf : ToolkitFrame s { t with chk := s.chk }) (hk : Keeps s t) :
    t.Inv := by
  obtain ⟨h1,h2,h3⟩ := State.Inv.parts h
  have := hk h2
  refine State.Inv.of_parts ?_ this.1 (sequence_of_frame hf this.2 this.1.output h3)
  have e : t.setup = s.setup := hf.setup
  rw [e]; exact h1

theorem Run.Ends.and {α} {r : Run α} {P Q} (h1 : r.Ends P) (h2 : r.Ends Q) : r.Ends (fun t => P t ∧ Q t) := by
  cases r
  all_goals first | exact ⟨h1, h2⟩ | trivial

theorem toolkit_inv (i : Instr) {s : State} (h : s.Inv) : (toolkit i s).Ends State.Inv :=
  (Run.Ends.and (toolkit_frame i s) (
      toolkit_keeps i s (State.Inv.parts h).2.1)).imp fun _ ht => State.Inv.of_frame h (ToolkitFrame.but_chk ht.1) ht.2

/-- What a run of the format sequencer leaves alone and keeps. -/
structure SequencerMoved (s t : State) : Prop where
  frame : ToolkitFrame s { t with chk := s.chk }
  keeps : Keeps s t

theorem SequencerMoved.refl (s) : SequencerMoved s s := ⟨ToolkitFrame.refl s, Keeps.refl s⟩

theorem SequencerMoved.trans {s t u} (h1 : SequencerMoved s t) (h2 : SequencerMoved t u) : SequencerMoved s u := ⟨
  ⟨h2.frame.setup.trans h1.frame.setup, h2.frame.pending.trans h1.frame.pending, h2.frame.rsp.trans h1.frame.rsp,
      h2.frame.fsm.trans h1.frame.fsm,
      h2.frame.err.trans h1.frame.err, h2.frame.errInfo.trans h1.frame.errInfo, h2.frame.fmt.trans h1.frame.fmt,
          h2.frame.packedSize.trans h1.frame.packedSize,
      h2.frame.gen.trans h1.frame.gen, h2.frame.ctrl.trans h1.frame.ctrl, rfl,
          h2.frame.chunkIdx.trans h1.frame.chunkIdx, h2.frame.chunkLo.trans h1.frame.chunkLo,
      h2.frame.outValid.trans h1.frame.outValid, h2.frame.outDir.trans h1.frame.outDir,
          h2.frame.outWin.trans h1.frame.outWin,
      h2.frame.rawSize.trans h1.frame.rawSize⟩, Keeps.trans h1.keeps h2.keeps⟩

theorem SequencerMoved.chk (s : State) (v) : SequencerMoved s { s with chk := v } :=
  ⟨by constructor <;> rfl, fun h => ⟨⟨h.reader, h.slice, h.output, h.tables⟩, Nat.le_refl _⟩⟩

theorem SequencerMoved.inv {s t} (h : SequencerMoved s t) (hi : s.Inv) : t.Inv := State.Inv.of_frame hi h.frame h.keeps

/-- Every activity of the sequencer moves the instance so. -/
theorem Script.run_moved {α} (x : Script α) (s) : (x.run s).Ends (SequencerMoved s) :=
  (Run.Ends.and (Script.run_frame x s) (Script.run_keeps x s)).imp fun _ h => ⟨h.1, h.2⟩

theorem runChecked_moved {ε} (f : ε → Cause) (x) (s) : (runChecked f x s).Ends (SequencerMoved s) := by
  refine (Script.run_moved x s).andThen fun r u hu => ?_
  split <;> exact hu

theorem interpret_moved (d i v s) : (interpret d i v s).Ends (SequencerMoved s) := by
  refine (Script.run_moved _ s).andThen fun r u hu => ?_
  dsimp only
  split
  · exact hu
  · refine ((Script.run_moved _ u).imp fun t ht => hu.trans ht).andThen fun r w hw => ?_
    split <;> exact hw

theorem interpret_causes (d i v s) : (interpret d i v s).Causes Reports := by
  refine (Script.run_causes _ s).andThen fun r u => ?_
  dsimp only
  split
  · next h =>
    simp only [sizeFailure] at h
    repeat' split at h
    all_goals cases h; try exact Cause.noConfusion
  · refine ((Script.run_causes _ u)).andThen fun r w => ?_
    split
    · trivial
    · exact Cause.noConfusion

/-- `parse` moves the instance as a sequencer does (45_decompressor.md R198). -/
theorem parse_moved (d v s) : (parse d v s).Ends (SequencerMoved s) := by
  unfold parse
  split
  · exact SequencerMoved.refl s
  · split
    · exact SequencerMoved.refl s
    · have := interpret_moved d (d.first s.window) v s
      split
      · next h _ => rw [h] at this; exact (interpret_moved d _ v _).imp fun t ht => SequencerMoved.trans this ht
      · exact this

theorem parse_causes (d v s) : (parse d v s).Causes Reports := by
  unfold parse
  split
  · exact Cause.noConfusion
  · split
    · exact Cause.noConfusion
    · split
      · exact interpret_causes _ _ _ _
      · exact interpret_causes _ _ _ _

theorem ctrlEntries_ok (l : List (Nat × Word)) : Memory.wf (ctrlEntries l) ∧ ∀ c ∈ ctrlEntries l,
    c.1 < Config.ctrlWords := by
  have : ∀ m : List (Nat × Word), (Memory.wf m ∧ ∀ c ∈ m, c.1 < Config.ctrlWords) →
     Memory.wf (l.foldl (fun m c => if c.1 < Config.ctrlWords then Memory.set m c.1 c.2 else m) m) ∧
      ∀ c ∈ (l.foldl (fun m c => if c.1 < Config.ctrlWords then Memory.set m c.1 c.2 else m) m),
          c.1 < Config.ctrlWords := by
    induction l with
    | nil => intro m h; exact h
    | cons a l ih =>
      intro m h
      apply ih
      dsimp only
      split
      · next ha =>
        refine ⟨Memory.wf_set h.1 _ _, fun c hc => ?_⟩
        rcases Memory.mem_set hc with rfl | hc
        · exact ha
        · exact h.2 c hc
      · exact h
  exact this [] ⟨List.Pairwise.nil, by simp⟩

theorem cleared_inv {s : State} (h : s.Inv) : s.toolkitCleared.Inv := by
  obtain ⟨h1,h2,h3⟩ := State.Inv.parts h
  refine State.Inv.of_parts h1 ⟨by simp [State.ReaderInv, State.toolkitCleared, ReaderConfig.reset],
      by simp [State.SliceInv, State.toolkitCleared], h2.output, ?_⟩ h3
  refine ⟨by simp [State.toolkitCleared], by simp [State.toolkitCleared], by simp [State.toolkitCleared],
      by simp [State.toolkitCleared], by simp [State.toolkitCleared], .inl rfl, h2.tables.2.2.2.2.2.2⟩

theorem outInit_inv (dir rs w) {s : State} (h : s.Inv) (hf : s.fsm = .unvalidated) :
    (outInit dir rs w s).Ends (fun t => t.Inv ∧ t.fsm = .unvalidated) := by
  simp only [outInit]
  split
  · trivial
  · split
    · exact ⟨h, hf⟩
    · split
      · exact ⟨h, hf⟩
      · next h1 h2 h3 =>
        refine ⟨?_, hf⟩
        obtain ⟨i1,i2,i3⟩ := State.Inv.parts h
        have : rs.toNat ≠ 0 := fun he => h2 (BitVec.eq_of_toNat_eq (by simpa using he))
        refine State.Inv.of_parts i1 ⟨i2.reader, i2.slice, ?_, i2.tables⟩ ?_
        · refine ⟨?_, ?_, by simp, fun _ => ⟨by show 1 ≤ rs.toNat; omega, Nat.not_lt.1 h3⟩⟩
          · cases dir <;> simp
          · cases dir <;> simp [Inst.writtenIndices]
        · refine ⟨i3.1, i3.2.1, fun _ => rfl, ?_⟩
          intro hc; exact absurd (hf.symm.trans hc) (by decide)

theorem outInit_ok_valid {dir rs w s v t} (h : outInit dir rs w s = .ok v t) : t.outValid = true := by
  simp only [outInit, complete] at h
  repeat' split at h
  all_goals first | cases h; rfl | cases h

theorem outInit_causes (dir rs w s) : (outInit dir rs w s).Causes Reports := by
  simp only [outInit]
  repeat' split
  all_goals first | trivial | exact Cause.noConfusion

/-- Moving on to another state of the state machine. -/
theorem fsm_inv {s : State} {f : Fsm} (h : s.Inv) (hv : s.outValid = true) (hf : s.fsm ≠ .failed) (hf2 : f ≠ .failed)
   (hd : f = .done → s.produced = s.rawSize.toNat) : ({ s with fsm := f } : State).Inv := by
  obtain ⟨i1,i2,i3⟩ := State.Inv.parts h
  refine State.Inv.of_parts i1 ⟨i2.reader, i2.slice, i2.output, i2.tables⟩ ⟨fun _ => i3.1 hf,
      fun hc => absurd hc hf2, fun _ => hv, hd⟩

/-- `DEC.CREATE`'s body keeps the invariant (45_decompressor.md R197). -/
theorem create_inv (d f v) {s : State} (h : s.Inv) (hf : s.fsm = .unvalidated) : (create d f v s).Ends State.Inv := by
  unfold create
  have hp := parse_moved d v s.toolkitCleared
  cases hr : parse d v s.toolkitCleared with
  | illegal => trivial
  | stuck => trivial
  | raised c t => rw [hr] at hp; exact hp.inv (cleared_inv h)
  | ok hd t =>
    rw [hr] at hp
    have ht := hp.inv (cleared_inv h)
    have hfsm : t.fsm = .unvalidated := hp.frame.fsm.trans hf
    simp only [Run.ok_andThen]
    obtain ⟨i1,i2,i3⟩ := State.Inv.parts ht
    have hu : ({ t with
        fmt := f, packedSize := hd.packedSize, gen := hd.gen, ctrl := ctrlEntries hd.ctrl, chk := 0 } : State).Inv :=
      State.Inv.of_parts i1 ⟨i2.reader, i2.slice, i2.output, ⟨i2.tables.1, i2.tables.2.1, i2.tables.2.2.1,
        i2.tables.2.2.2.1, i2.tables.2.2.2.2.1, i2.tables.2.2.2.2.2.1, ctrlEntries_ok _⟩⟩ i3
    have ho := outInit_inv hd.outDir hd.rawSize hd.outWindow hu hfsm
    generalize ({ t with
      fmt := f, packedSize := hd.packedSize, gen := hd.gen, ctrl := ctrlEntries hd.ctrl, chk := 0 } : State) = t0 at *
    cases hr2 : outInit hd.outDir hd.rawSize hd.outWindow t0 with
    | illegal => trivial
    | stuck => trivial
    | raised c w => rw [hr2] at ho; exact ho.1
    | ok a w =>
      rw [hr2] at ho
      have : ({ w with fsm := Fsm.headerParsed } : State).Inv :=
        fsm_inv ho.1 (outInit_ok_valid hr2) (by rw [ho.2]; decide) (by decide) (by intro hc; cases hc)
      exact this

theorem create_causes (d f v s) : (create d f v s).Causes Reports :=
  (parse_causes _ _ _).andThen fun _ _ => (outInit_causes _ _ _ _).andThen fun _ _ => trivial

theorem decodeStep_moved (d s) : (decodeStep d s).Ends (SequencerMoved s) :=
  (runChecked_moved _ _ s).andThen fun _ t ht => ht.trans (SequencerMoved.chk t _)

theorem decodeLoop_moved (d n) : ∀ s, (decodeLoop d n s).Ends (SequencerMoved s) := by
  induction n with
  | zero => intro s; simp only [decodeLoop]; split; trivial; exact SequencerMoved.refl s
  | succ n ih =>
    intro s; simp only [decodeLoop]
    split
    · exact (decodeStep_moved d s).andThen fun _ t ht => (ih t).imp fun u hu => ht.trans hu
    · exact SequencerMoved.refl s

/-- The decode loop goes on to its end only at `Eof` (45_decompressor.md R202). -/
theorem decodeLoop_done (d n) : ∀ s a t, decodeLoop d n s = .ok a t → t.rawSize.toNat ≤ t.produced := by
  induction n with
  | zero => intro s a t h; simp only [decodeLoop] at h; split at h; cases h; cases h; omega
  | succ n ih =>
    intro s a t h; simp only [decodeLoop] at h
    split at h
    · obtain ⟨b, u, h1, h2⟩ := Run.andThen_ok.1 h
      exact ih _ _ _ h2
    · cases h; omega

theorem decodeStep_causes (d s) :
    (decodeStep d s).Causes Reports := (runChecked_causes _ stepCause_reports _ _).andThen fun _ _ => trivial

theorem decodeLoop_causes (d n) : ∀ s, (decodeLoop d n s).Causes Reports := by
  induction n with
  | zero => intro s; simp only [decodeLoop]; split <;> trivial
  | succ n ih =>
    intro s; simp only [decodeLoop]
    split
    · exact (decodeStep_causes d s).andThen fun _ t => ih t
    · trivial

theorem moved_done {s t : State} (h : SequencerMoved s t) (hi : s.Inv) (hp : s.rawSize.toNat ≤ s.produced) :
    t.produced = t.rawSize.toNat := by
  have ht := h.inv hi
  have := produced_le ht.2.2.2.1
  have k := (h.keeps (State.Inv.parts hi).2.1).2
  have e : t.rawSize.toNat = s.rawSize.toNat := congrArg BitVec.toNat h.frame.rawSize
  omega

/-- The invariant in state Decoding. -/
def DecodingInv (s : State) : Prop := s.Inv ∧ s.fsm = .decoding

theorem SequencerMoved.di {s t} (h : SequencerMoved s t) (hi : DecodingInv s) : DecodingInv t := ⟨h.inv hi.1,
    h.frame.fsm.trans hi.2⟩

theorem DecodingInv.valid {s} (h : DecodingInv s) : s.outValid = true := h.1.2.2.2.2.2.2.2.1 (.inr (.inl h.2))

/-- An activity of the sequencer sees one window from its begin to its end. -/
theorem SequencerMoved.window {s t} (h : SequencerMoved s t) : t.window = s.window := by
  have : t.setup = s.setup := h.frame.setup
  simp [State.window, State.inByte, this]

/-- A reader can give at most its live bits and those of the window (70_reset_and_hazards.md R306). -/
theorem bitStream_length_le {u : State} (h : u.ReaderInv) :
    u.bitStream.length ≤ 32 + 8 * u.setup.bufSize.toNat := by
  obtain ⟨h1, -, -, h4, h5, h6⟩ := h
  have whole (a n : Nat) : a / n * (8 * n) ≤ 8 * a := by have := Nat.div_mul_le_self a n; nlinarith
  have hw : u.wordsToCome.length * (8 * refillBytes u.brCfg.rw) ≤ 8 * u.isHi.toNat := by
    unfold State.wordsToCome
    dsimp only
    split <;> simp only [List.length_map, List.length_range]
    · have := whole (u.isHi.toNat - u.isPos.toNat) (refillBytes u.brCfg.rw); omega
    · have := whole (u.isPos.toNat - u.isLo.toNat) (refillBytes u.brCfg.rw); omega
  rw [bitStream_length]
  omega

/-- The loop of a sub-decompressor that makes progress does not use up turns for each byte missing and each bit to come. -/
theorem streamLoop_ends {d : StreamDecoder} (hd : d.StepsProgress) (goal n) : ∀ u, DecodingInv u →
    (goal - u.produced) + u.bitStream.length ≤ n → ∀ t, (streamLoop d u.window goal n).run u ≠ .ok .noProgress t := by
  induction n with
  | zero =>
    intro u hu hn t h
    simp only [streamLoop, Script.run] at h
    rw [if_pos (show goal ≤ (u.toInst.showing 0).produced from (by omega : goal ≤ u.produced))] at h
    cases h
  | succ n ih =>
    intro u hu hn t h
    simp only [streamLoop, Script.run] at h
    by_cases hg : goal ≤ u.produced
    · rw [if_pos (show goal ≤ (u.toInst.showing 0).produced from hg)] at h; cases h
    · rw [if_neg (show ¬ goal ≤ (u.toInst.showing 0).produced from hg), Script.run_bind] at h
      obtain ⟨r, v, h1, h2⟩ := Run.andThen_ok.1 h
      cases r with
      | some e => cases h2
      | none =>
        have hm := Script.run_moved (d.step u.window) u
        rw [h1] at hm
        have hp := hd u v hu.1 hu.2 (by simp [runChecked, h1])
        have hpr : u.produced ≤ v.produced := (hm.keeps (State.Inv.parts hu.1).2.1).2
        rw [← hm.window] at h2
        exact ih v (hm.di hu) (by rcases hp with ⟨hb, hp | hp⟩ <;> omega) t h2

/-- Everything the body of `DEC.NEXTCHUNK` can end in (45_decompressor.md R206). -/
theorem chunkBody_spec (d) {s : State} (h : s.Inv) (hf : s.fsm = .headerParsed ∨ s.fsm = .decoding) :
    match chunkBody d s with
    | .ok .chunk t => DecodingInv t
    | .ok .finished t => t.Inv ∧ t.fsm = .done
    | .raised c t => DecodingInv t ∧ c ≠ .noCause
    | _ => True := by
  have hs : DecodingInv ({ s with fsm := .decoding, chunkLo := word s.produced } : State) := by
    refine ⟨?_, rfl⟩
    have hv : s.outValid = true := h.2.2.2.2.2.2.2.1 (by rcases hf with hf | hf <;> simp [hf])
    have := fsm_inv (f := .decoding) h hv (by rcases hf with hf | hf <;> simp [hf]) (by decide) (by intro hc; cases hc)
    exact this
  unfold chunkBody
  dsimp only
  generalize ({ s with fsm := .decoding, chunkLo := word s.produced } : State) = s0 at *
  have hr := Script.run_moved (d.nextChunk s0.window) s0
  have hc := Script.run_causes (d.nextChunk s0.window) s0
  cases hrun : (d.nextChunk s0.window).run s0 with
  | illegal => trivial
  | stuck => trivial
  | raised c t => rw [hrun] at hr hc; exact ⟨hr.di hs, hc⟩
  | ok r t =>
    rw [hrun] at hr
    have ht := hr.di hs
    simp only [Run.ok_andThen]
    cases r with
    | failed e => exact ⟨ht, stepCause_reports e⟩
    | noProgress => trivial
    | chunk => exact ht
    | finished =>
      dsimp only
      by_cases hp : t.produced = t.rawSize.toNat
      · rw [if_pos hp]
        have hv := runChecked_moved VerifyFailure.cause (d.verify t.window) t
        have hvc := runChecked_causes VerifyFailure.cause verifyCause_reports (d.verify t.window) t
        cases hrv : runChecked VerifyFailure.cause (d.verify t.window) t with
        | illegal => trivial
        | stuck => trivial
        | raised c u => rw [hrv] at hv hvc; exact ⟨hv.di ht, hvc⟩
        | ok a u =>
          rw [hrv] at hv
          have hu := hv.di ht
          refine ⟨fsm_inv hu.1 hu.valid (by rw [hu.2]; decide) (by decide) fun _ => moved_done hv ht.1 (by omega), rfl⟩
      · rw [if_neg hp]; exact ⟨ht, by decide⟩

/-- Everything the loop over the chunks can end in (45_decompressor.md R201). -/
theorem chunkLoop_spec (d) (n) : ∀ {s : State}, DecodingInv s →
    match chunkLoop d n s with
    | .ok _ t => t.Inv ∧ t.fsm = .done
    | .raised c t => DecodingInv t ∧ c ≠ .noCause
    | _ => True := by
  induction n with
  | zero => intro s h; trivial
  | succ n ih =>
    intro s h
    have hb := chunkBody_spec d h.1 (.inr h.2)
    simp only [chunkLoop]
    cases hr : chunkBody d s with
    | illegal => trivial
    | stuck => trivial
    | raised c t => rw [hr] at hb; exact hb
    | ok r t =>
      rw [hr] at hb
      cases r with
      | chunk => exact ih hb
      | finished => exact hb

/-- A command that keeps the invariant however it ends. -/
theorem outcome_inv {s : State} {r : Run (Option Word)} (hs : s.Inv) (h1 : r.Ends State.Inv) (h2 : r.Causes Reports) {t}
   (h : s.outcome r = .next t) : t.Inv := by
  rcases outcome_next h with ⟨v, u, rfl, rfl⟩ | ⟨c, u, rfl, rfl⟩ | ⟨rfl, rfl⟩
  · exact h1
  · exact failed_inv h2 h1
  · exact hs

/-- A host's command that keeps the invariant where it is legal. -/
theorem host_inv {k op} {s : State} (hs : s.Inv) (h1 : accepts .host k s.fsm = true → (op s).Ends State.Inv) (
    h2 : (op s).Causes Reports) {t}
   (h : hostCommand k op s = .next t) : t.Inv := by
  by_cases ha : accepts .host k s.fsm = true
  · rw [hostCommand_of_accepted ha] at h; exact outcome_inv hs (h1 ha) h2 h
  · rw [hostCommand_of_refused (by simpa using ha)] at h; cases h; exact hs

/-- `DEC.DECOMPRESS`'s body keeps the invariant and fails with a cause (45_decompressor.md R201). -/
theorem decompress_spec (d) {s : State} (h : s.Inv) (hf : s.fsm = .headerParsed) :
   (decompress d s).Ends State.Inv ∧ (decompress d s).Causes Reports := by
  have hs : DecodingInv ({ s with fsm := .decoding } : State) := by
    refine ⟨?_, rfl⟩
    have hv : s.outValid = true := h.2.2.2.2.2.2.2.1 (by simp [hf])
    exact fsm_inv (f := .decoding) h hv (by simp [hf]) (by decide) (by intro hc; cases hc)
  unfold decompress
  dsimp only
  generalize ({ s with fsm := .decoding } : State) = s0 at *
  by_cases hch : d.chunked = true
  · rw [if_pos hch]
    have := chunkLoop_spec d (stepBound d s0) hs
    cases hr : chunkLoop d (stepBound d s0) s0 with
    | illegal => exact ⟨trivial, trivial⟩
    | stuck => exact ⟨trivial, trivial⟩
    | raised c t => rw [hr] at this; exact ⟨this.1.1, this.2⟩
    | ok a t =>
      rw [hr] at this
      obtain ⟨hi, hd⟩ := this
      refine ⟨?_, trivial⟩
      have e : ({ t with fsm := Fsm.done } : State) = t := by rw [← hd]
      show ({ ({ t with fsm := Fsm.done } : State) with res := t.rawSize } : State).Inv
      rw [e]
      exact hi
  · rw [if_neg hch]
    have h1 := runChecked_moved InitFailure.cause (d.init s0.window) s0
    have c1 := runChecked_causes InitFailure.cause initCause_reports (d.init s0.window) s0
    cases hr1 : runChecked InitFailure.cause (d.init s0.window) s0 with
    | illegal => exact ⟨trivial, trivial⟩
    | stuck => exact ⟨trivial, trivial⟩
    | raised c t => rw [hr1] at h1 c1; exact ⟨h1.inv hs.1, c1⟩
    | ok a t =>
      rw [hr1] at h1
      have ht := h1.di hs
      simp only [Run.ok_andThen]
      have h2 := decodeLoop_moved d (stepBound d t) t
      have c2 := decodeLoop_causes d (stepBound d t) t
      cases hr2 : decodeLoop d (stepBound d t) t with
      | illegal => exact ⟨trivial, trivial⟩
      | stuck => exact ⟨trivial, trivial⟩
      | raised c u => rw [hr2] at h2 c2; exact ⟨h2.inv ht.1, c2⟩
      | ok a u =>
        rw [hr2] at h2
        have hu := h2.di ht
        have hdn := decodeLoop_done _ _ _ _ _ hr2
        simp only [Run.ok_andThen]
        have h3 := runChecked_moved VerifyFailure.cause (d.verify u.window) u
        have c3 := runChecked_causes VerifyFailure.cause verifyCause_reports (d.verify u.window) u
        cases hr3 : runChecked VerifyFailure.cause (d.verify u.window) u with
        | illegal => exact ⟨trivial, trivial⟩
        | stuck => exact ⟨trivial, trivial⟩
        | raised c w => rw [hr3] at h3 c3; exact ⟨h3.inv hu.1, c3⟩
        | ok a w =>
          rw [hr3] at h3
          have hw := h3.di hu
          refine ⟨?_, trivial⟩
          have : ({ w with fsm := Fsm.done } : State).Inv := fsm_inv hw.1 hw.valid (by rw [hw.2]; decide) (
              by decide) fun _ => moved_done h3 hu.1 hdn
          exact this

end Sys2Proof.Machine
end

