-- ==== Sys2Proof/Laws/PerInstr.lean ====
section
/-!
SUPPORT. Each command's word has the bits that the mask and the match of its row of spec/opcode_table.json ask for, one
lemma for each constructor of `Instr` (30_encoding.md R61, R65).
-/
namespace Sys2Proof

theorem append_and {n m : Nat} (x x' : BitVec n) (y y' : BitVec m) :
    (x ++ y) &&& (x' ++ y') = (x &&& x') ++ (y &&& y') := BitVec.and_append

/-- Two fields that a mask finds clear are clear together. -/
theorem append_clear {n m : Nat} {x x' : BitVec n} {y y' : BitVec m} (hx : x &&& x' = 0#n) (hy : y &&& y' = 0#m) :
    (x ++ y) &&& (x' ++ y') = 0#(n + m) := by
  rw [append_and, hx, hy]
  simp

theorem commandWord_and (op op' : BitVec 8) (f f' : BitVec 24) (a a' b b' : Word) :
    commandWord op f a b &&& commandWord op' f' a' b' = commandWord (op &&& op') (f &&& f') (a &&& a') (b &&& b') := by
  unfold commandWord
  exact (append_and (op ++ f ++ a) (op' ++ f' ++ a') b b').trans (congrArg (· ++ (b &&& b'))
    ((append_and (op ++ f) (op' ++ f') a a').trans (congrArg (· ++ (a &&& a')) (append_and op op' f f'))))

/-- A word whose fields a mask finds clear keeps its opcode alone. -/
theorem of_fields {op : BitVec 8} {f fm : BitVec 24} {a am b bm : Word} (hf : f &&& fm = 0) (ha : a &&& am = 0)
    (hb : b &&& bm = 0) : commandWord op f a b &&& commandWord 0xFF fm am bm = commandWord op 0 0 0 := by
  rw [commandWord_and, hf, ha, hb]
  congr 1
  exact BitVec.and_allOnes

namespace Laws.EncodesInItsRow

/-- The word that spells the command agrees with the mask and the match of its row (30_encoding.md R65). -/
def Statement (i : Instr) : Prop := encode i &&& i.row.mask = i.row.pattern

theorem reset : Statement .reset :=
  of_fields (fm := 0xFFFFFF) (am := 0xFFFFFFFF) (bm := 0xFFFFFFFF) (by decide) (by decide) (by decide)

theorem status : Statement .status :=
  of_fields (fm := 0xFFFFFF) (am := 0xFFFFFFFF) (bm := 0xFFFFFFFF) (by decide) (by decide) (by decide)

theorem bufSize : Statement .bufSize :=
  of_fields (fm := 0xFFFFFF) (am := 0xFFFFFFFF) (bm := 0xFFFFFFFF) (by decide) (by decide) (by decide)

theorem bufRd8 (off : Word) : Statement (.bufRd8 off) :=
  of_fields (fm := 0xFFFFFF) (am := 0) (bm := 0xFFFFFFFF) (by decide) BitVec.and_zero (by decide)

theorem bufRdbe16 (off : Word) : Statement (.bufRdbe16 off) :=
  of_fields (fm := 0xFFFFFF) (am := 0) (bm := 0xFFFFFFFF) (by decide) BitVec.and_zero (by decide)

theorem bufRdbe32 (off : Word) : Statement (.bufRdbe32 off) :=
  of_fields (fm := 0xFFFFFF) (am := 0) (bm := 0xFFFFFFFF) (by decide) BitVec.and_zero (by decide)

theorem bufRdle16 (off : Word) : Statement (.bufRdle16 off) :=
  of_fields (fm := 0xFFFFFF) (am := 0) (bm := 0xFFFFFFFF) (by decide) BitVec.and_zero (by decide)

theorem bufRdle32 (off : Word) : Statement (.bufRdle32 off) :=
  of_fields (fm := 0xFFFFFF) (am := 0) (bm := 0xFFFFFFFF) (by decide) BitVec.and_zero (by decide)

theorem bufGetdata (off len : Word) : Statement (.bufGetdata off len) :=
  of_fields (fm := 0xFFFFFF) (am := 0) (bm := 0) (by decide) BitVec.and_zero BitVec.and_zero

theorem bufSlrd8 (i : Word) : Statement (.bufSlrd8 i) :=
  of_fields (fm := 0xFFFFFF) (am := 0) (bm := 0xFFFFFFFF) (by decide) BitVec.and_zero (by decide)

theorem ovfSum (chain : Bool) (a b : Word) : Statement (.ovfSum chain a b) :=
  of_fields (fm := 0x7fffff#23 ++ 0#1) (am := 0) (bm := 0)
    (append_clear (by decide) BitVec.and_zero) BitVec.and_zero BitVec.and_zero

theorem brInit (order : BitOrder) (dir : Direction) (rw : BitVec 2) (wend : ByteOrder) (rot : Bool) (lo hi : Word) :
    Statement (.brInit order dir rw wend rot lo hi) :=
  of_fields (fm := 0x3ffff#18 ++ 0#1 ++ 0#1 ++ 0#2 ++ 0#1 ++ 0#1) (am := 0) (bm := 0)
    (append_clear (append_clear (append_clear (append_clear (append_clear (by decide) BitVec.and_zero)
      BitVec.and_zero) BitVec.and_zero) BitVec.and_zero) BitVec.and_zero)
    BitVec.and_zero BitVec.and_zero

theorem brReset (live : BitVec 6) (value : Word) : Statement (.brReset live value) :=
  of_fields (fm := 0x3ffff#18 ++ 0#6) (am := 0) (bm := 0xFFFFFFFF)
    (append_clear (by decide) BitVec.and_zero) BitVec.and_zero (by decide)

theorem brAnchor (word : Word) : Statement (.brAnchor word) :=
  of_fields (fm := 0xFFFFFF) (am := 0) (bm := 0xFFFFFFFF) (by decide) BitVec.and_zero (by decide)

theorem brRead (count : BitVec 6) : Statement (.brRead count) :=
  of_fields (fm := 0x3ffff#18 ++ 0#6) (am := 0xFFFFFFFF) (bm := 0xFFFFFFFF)
    (append_clear (by decide) BitVec.and_zero) (by decide) (by decide)

theorem rotb (count : BitVec 6) (value : Word) : Statement (.rotb count value) :=
  of_fields (fm := 0x3ffff#18 ++ 0#6) (am := 0) (bm := 0xFFFFFFFF)
    (append_clear (by decide) BitVec.and_zero) BitVec.and_zero (by decide)

theorem hufSetlen (index : BitVec 16) (len : BitVec 6) : Statement (.hufSetlen index len) :=
  of_fields (fm := 0xff#8 ++ 0#16) (am := 0x3ffffff#26 ++ 0#6) (bm := 0xFFFFFFFF)
    (append_clear (by decide) BitVec.and_zero) (append_clear (by decide) BitVec.and_zero) (by decide)

theorem hufSettri (index : BitVec 16) (length : BitVec 6) (code : Word) (value : BitVec 16) :
    Statement (.hufSettri index length code value) :=
  of_fields (fm := 0#16 ++ 0x3#2 ++ 0#6) (am := 0) (bm := 0xffff#16 ++ 0#16)
    (append_clear (append_clear BitVec.and_zero (by decide)) BitVec.and_zero)
    BitVec.and_zero (append_clear (by decide) BitVec.and_zero)

theorem hufMake (t : Byte) (incompleteOk : Bool) (tableWidth : BitVec 5) (numSymbols : Word) :
    Statement (.hufMake t incompleteOk tableWidth numSymbols) :=
  of_fields (fm := 0#8 ++ 0x7f#7 ++ 0#1 ++ 0x7#3 ++ 0#5) (am := 0) (bm := 0xFFFFFFFF)
    (append_clear (append_clear (append_clear (append_clear BitVec.and_zero (by decide)) BitVec.and_zero) (by
      decide)) BitVec.and_zero)
    BitVec.and_zero (by decide)

theorem hufFixed (t : Byte) (incompleteOk : Bool) (tableWidth : BitVec 5) (numTriples : Word) :
    Statement (.hufFixed t incompleteOk tableWidth numTriples) :=
  of_fields (fm := 0#8 ++ 0x7f#7 ++ 0#1 ++ 0x7#3 ++ 0#5) (am := 0) (bm := 0xFFFFFFFF)
    (append_clear (append_clear (append_clear (append_clear BitVec.and_zero (by decide)) BitVec.and_zero) (by
      decide)) BitVec.and_zero)
    BitVec.and_zero (by decide)

theorem hufAdapt (t : Byte) : Statement (.hufAdapt t) :=
  of_fields (fm := 0#8 ++ 0xffff#16) (am := 0xFFFFFFFF) (bm := 0xFFFFFFFF)
    (append_clear BitVec.and_zero (by decide)) (by decide) (by decide)

theorem hufDecode (t : Byte) : Statement (.hufDecode t) :=
  of_fields (fm := 0#8 ++ 0xffff#16) (am := 0xFFFFFFFF) (bm := 0xFFFFFFFF)
    (append_clear BitVec.and_zero (by decide)) (by decide) (by decide)

theorem vlcSet (index : Byte) (bits : BitVec 6) (base : Word) : Statement (.vlcSet index bits base) :=
  of_fields (fm := 0xff#8 ++ 0#8 ++ 0x3#2 ++ 0#6) (am := 0) (bm := 0xFFFFFFFF)
    (append_clear (append_clear (append_clear (by decide) BitVec.and_zero) (by decide)) BitVec.and_zero)
    BitVec.and_zero (by decide)

theorem vlcSetn (n : Byte) : Statement (.vlcSetn n) :=
  of_fields (fm := 0xffff#16 ++ 0#8) (am := 0xFFFFFFFF) (bm := 0xFFFFFFFF)
    (append_clear (by decide) BitVec.and_zero) (by decide) (by decide)

theorem vlcDecode (index : Word) : Statement (.vlcDecode index) :=
  of_fields (fm := 0xFFFFFF) (am := 0) (bm := 0xFFFFFFFF) (by decide) BitVec.and_zero (by decide)

theorem outInit (dir : Direction) (rawSize window : Word) : Statement (.outInit dir rawSize window) :=
  of_fields (fm := 0x7fffff#23 ++ 0#1) (am := 0) (bm := 0)
    (append_clear (by decide) BitVec.and_zero) BitVec.and_zero BitVec.and_zero

theorem outWritebyte (b : Byte) : Statement (.outWritebyte b) :=
  of_fields (fm := 0xFFFFFF) (am := 0xffffff#24 ++ 0#8) (bm := 0xFFFFFFFF)
    (by decide) (append_clear (by decide) BitVec.and_zero) (by decide)

theorem outCopy (distance count : Word) : Statement (.outCopy distance count) :=
  of_fields (fm := 0xFFFFFF) (am := 0) (bm := 0) (by decide) BitVec.and_zero BitVec.and_zero

theorem outEof : Statement .outEof :=
  of_fields (fm := 0xFFFFFF) (am := 0xFFFFFFFF) (bm := 0xFFFFFFFF) (by decide) (by decide) (by decide)

theorem outRd8 (index : Word) : Statement (.outRd8 index) :=
  of_fields (fm := 0xFFFFFF) (am := 0) (bm := 0xFFFFFFFF) (by decide) BitVec.and_zero (by decide)

theorem decCreate (fmt : Byte) (declared : Word) : Statement (.decCreate fmt declared) :=
  of_fields (fm := 0xffff#16 ++ 0#8) (am := 0) (bm := 0xFFFFFFFF)
    (append_clear (by decide) BitVec.and_zero) BitVec.and_zero (by decide)

theorem decGetrawsize : Statement .decGetrawsize :=
  of_fields (fm := 0xFFFFFF) (am := 0xFFFFFFFF) (bm := 0xFFFFFFFF) (by decide) (by decide) (by decide)

theorem decDecompress : Statement .decDecompress :=
  of_fields (fm := 0xFFFFFF) (am := 0xFFFFFFFF) (bm := 0xFFFFFFFF) (by decide) (by decide) (by decide)

theorem decNextchunk : Statement .decNextchunk :=
  of_fields (fm := 0xFFFFFF) (am := 0xFFFFFFFF) (bm := 0xFFFFFFFF) (by decide) (by decide) (by decide)

theorem dispDetect : Statement .dispDetect :=
  of_fields (fm := 0xFFFFFF) (am := 0xFFFFFFFF) (bm := 0xFFFFFFFF) (by decide) (by decide) (by decide)

end Laws.EncodesInItsRow

end Sys2Proof
end

