-- ==== Sys2Proof/Laws/Toolkit.lean ====
section
/-!
SUPPORT. A toolkit command does the same in every state of the state machine, so it does for the format sequencer what it
does for the host (45_decompressor.md R192).
-/
namespace Sys2Proof.Machine

variable {α β : Type}

/-- A run with the state it ends in put into another state of the state machine. -/
def Run.withFsm (r : Run α) (f : Fsm) : Run α :=
  match r with
  | .ok a s => .ok a (s.withFsm f)
  | .raised c s => .raised c (s.withFsm f)
  | .illegal => .illegal
  | .stuck => .stuck

/-- Parts that do not look at the state machine make a whole that does not. -/
theorem Run.withFsm_andThen (r : Run α) (k : α → State → Run β) (f : Fsm)
    (h : ∀ a s, k a (s.withFsm f) = (k a s).withFsm f) : (r.withFsm f).andThen k = (r.andThen k).withFsm f := by
  cases r <;> first | rfl | exact h _ _

theorem ite_withFsm {p : Prop} [Decidable p] {a b c d : Run α} {f : Fsm} (h1 : a = c.withFsm f) (h2 : b = d.withFsm f) :
    (if p then a else b) = (if p then c else d).withFsm f := by split <;> assumption

theorem refill_withFsm (s : State) (f) : refill (s.withFsm f) = (refill s).withFsm f := by
  unfold refill
  simp only [State.withFsm_brCfg]
  cases s.brCfg.dir <;> exact ite_withFsm rfl rfl

theorem refillIfEmpty_withFsm (s : State) (f) : refillIfEmpty (s.withFsm f) = (refillIfEmpty s).withFsm f := by
  unfold refillIfEmpty
  show (if s.brLive = 0 then _ else _) = _
  split
  · exact refill_withFsm s f
  · rfl

theorem readMsb_withFsm (f) (turns) : ∀ rem ret (s : State), readMsb turns rem ret (s.withFsm f) = (readMsb turns rem ret s).withFsm f := by
  induction turns with
  | zero => intros; rfl
  | succ n ih =>
    intro rem ret s
    simp only [readMsb]
    split
    · rfl
    · rw [refillIfEmpty_withFsm]
      exact Run.withFsm_andThen _ _ f fun _ t => ih _ _ { t with
        brAcc := word (t.brAcc.toNat % 2 ^ (t.brLive.toNat - min rem t.brLive.toNat))
        brLive := BitVec.ofNat 6 (t.brLive.toNat - min rem t.brLive.toNat) }

theorem readLsb_withFsm (f) (turns) : ∀ rem pos ret (s : State), readLsb turns rem pos ret (s.withFsm f) = (readLsb turns rem pos ret s).withFsm f := by
  induction turns with
  | zero => intros; rfl
  | succ n ih =>
    intro rem pos ret s
    simp only [readLsb]
    split
    · rfl
    · rw [refillIfEmpty_withFsm]
      exact Run.withFsm_andThen _ _ f fun _ t => ih _ _ _ { t with
        brAcc := word (t.brAcc.toNat / 2 ^ min rem t.brLive.toNat)
        brLive := BitVec.ofNat 6 (t.brLive.toNat - min rem t.brLive.toNat) }

theorem readBits_withFsm (n) (s : State) (f) : readBits n (s.withFsm f) = (readBits n s).withFsm f := by
  unfold readBits
  show (match s.brCfg.order with | .msbFirst => _ | .lsbFirst => _) = _
  cases s.brCfg.order
  · exact readMsb_withFsm f _ _ _ s
  · exact readLsb_withFsm f _ _ _ _ s

theorem lookup_withFsm (t : Table) (base width) (f) (left) : ∀ k idx (s : State),
    lookup t base width left k idx (s.withFsm f) = (lookup t base width left k idx s).withFsm f := by
  induction left with
  | zero => intro k idx s; simp only [lookup]; split <;> rfl
  | succ n ih =>
    intro k idx s
    simp only [lookup]
    split
    · rfl
    · rw [readBits_withFsm]; exact Run.withFsm_andThen _ _ f fun _ t => ih _ _ _

theorem decodeSymbol_withFsm (t : Table) (s : State) (f) : decodeSymbol t (s.withFsm f) = (decodeSymbol t s).withFsm f := by
  unfold decodeSymbol
  rw [lookup_withFsm]
  refine Run.withFsm_andThen _ _ f fun l u => ?_
  split
  · rfl
  · rw [lookup_withFsm]
    refine Run.withFsm_andThen _ _ f fun l u => ?_
    split <;> rfl
  · rfl

theorem adaptiveSymbol_withFsm (shape) (f) (turns) : ∀ bits (s : State),
    adaptiveSymbol shape turns bits (s.withFsm f) = (adaptiveSymbol shape turns bits s).withFsm f := by
  induction turns with
  | zero => intros; rfl
  | succ n ih =>
    intro bits s
    simp only [adaptiveSymbol]
    split
    · rfl
    · rw [readBits_withFsm]; exact Run.withFsm_andThen _ _ f fun _ t => ih _ _

theorem put_withFsm (s : State) (b : Byte) (f : Fsm) : (s.withFsm f).put b = (s.put b).withFsm f := by
  unfold State.put
  simp only [State.withFsm_outDir]
  split <;> rfl

theorem copy_withFsm (d) (f) (n) : ∀ s : State, State.copy d n (s.withFsm f) = (State.copy d n s).withFsm f := by
  induction n with
  | zero => intro s; rfl
  | succ n ih =>
    intro s
    have h : (s.withFsm f).copySource d = s.copySource d := rfl
    simp only [State.copy, h, put_withFsm]
    exact ih _

theorem makeTable_withFsm (t m ok w cs) (s : State) (f : Fsm) :
    makeTable t m ok w cs (s.withFsm f) = (makeTable t m ok w cs s).withFsm f := by
  simp only [makeTable, State.withFsm_brCfg]
  cases build cs w.toNat s.brCfg.order ok <;> rfl

/-- A toolkit command does not look at the state machine: who may issue it when is for the legality table alone
(45_decompressor.md R192), and what it does is the same in every state. -/
theorem toolkit_withFsm (i : Instr) (s : State) (f : Fsm) : toolkit i (s.withFsm f) = (toolkit i s).withFsm f := by
  cases i with
  | bufSize => rfl
  | bufRd8 off => exact ite_withFsm rfl rfl
  | bufRdbe16 off => exact ite_withFsm rfl rfl
  | bufRdbe32 off => exact ite_withFsm rfl rfl
  | bufRdle16 off => exact ite_withFsm rfl rfl
  | bufRdle32 off => exact ite_withFsm rfl rfl
  | bufGetdata off len => exact ite_withFsm rfl rfl
  | bufSlrd8 i => exact ite_withFsm rfl (ite_withFsm rfl rfl)
  | ovfSum c a b => exact ite_withFsm rfl rfl
  | brInit o d r w t l h => exact ite_withFsm rfl (ite_withFsm rfl rfl)
  | brReset l v => exact ite_withFsm rfl rfl
  | brAnchor w => exact ite_withFsm rfl (ite_withFsm rfl rfl)
  | brRead n => exact ite_withFsm rfl (by rw [readBits_withFsm]; exact Run.withFsm_andThen _ _ f fun _ _ => rfl)
  | rotb c v => exact ite_withFsm rfl rfl
  | hufSetlen i l => exact ite_withFsm rfl rfl
  | hufSettri i l c v => exact ite_withFsm rfl (ite_withFsm rfl rfl)
  | hufMake t ok w n =>
    refine ite_withFsm rfl ?_
    simp only [State.withFsm_len]
    cases Memory.prefixOf s.len n.toNat with
    | none => rfl
    | some lens =>
      dsimp only
      cases canonicalCodes (lens.map (·.toNat)) with
      | none => rfl
      | some cs => exact makeTable_withFsm _ _ _ _ _ s f
  | hufFixed t ok w n =>
    refine ite_withFsm rfl ?_
    simp only [State.withFsm_tri]
    cases Memory.prefixOf s.tri n.toNat with
    | none => rfl
    | some ts => exact makeTable_withFsm _ _ _ _ _ s f
  | hufAdapt t =>
    refine ite_withFsm rfl ?_
    simp only [State.withFsm_ht]
    cases Memory.get s.ht t.toNat <;> rfl
  | hufDecode t =>
    refine ite_withFsm rfl ?_
    simp only [State.withFsm_ht]
    cases Memory.get s.ht t.toNat with
    | none => rfl
    | some table =>
      refine ite_withFsm rfl (ite_withFsm ?_ (decodeSymbol_withFsm _ s f))
      refine ite_withFsm rfl ?_
      show ((adaptiveSymbol _ (bitsLeft s + 2) [] (s.withFsm f)).andThen _) = _
      rw [adaptiveSymbol_withFsm]
      exact Run.withFsm_andThen _ _ f fun _ _ => rfl
  | vlcSet i b v => exact ite_withFsm rfl rfl
  | vlcSetn n => exact ite_withFsm rfl (ite_withFsm rfl rfl)
  | vlcDecode i =>
    refine ite_withFsm rfl (ite_withFsm rfl ?_)
    simp only [State.withFsm_vlcBase, State.withFsm_vlcBits]
    cases Memory.get s.vlcBase i.toNat <;> cases Memory.get s.vlcBits i.toNat <;> try rfl
    dsimp only
    rw [readBits_withFsm]
    exact Run.withFsm_andThen _ _ f fun _ _ => ite_withFsm rfl rfl
  | outWritebyte b =>
    refine ite_withFsm rfl (ite_withFsm rfl ?_)
    rw [put_withFsm]; rfl
  | outCopy d n =>
    refine ite_withFsm rfl (ite_withFsm rfl (ite_withFsm rfl (ite_withFsm rfl (ite_withFsm rfl ?_))))
    rw [copy_withFsm]; rfl
  | outEof => exact ite_withFsm rfl rfl
  | reset | status | outInit | outRd8 | decCreate | decGetrawsize | decDecompress | decNextchunk | dispDetect => rfl
end Sys2Proof.Machine
end

