-- ==== Sys2Proof/Tests/Slice0.lean ====
section
/-!
SUPPORT. Tests: the well-formedness check refuses what it should, every command's decoding on a word written out from
spec/opcode_table.source.json, the worked examples of the rules, and for each statement with hypotheses a state and
operands that meet them.
-/
namespace Sys2Proof.Tests

open Sys2Proof.Machine

-- One test after another: each of these waits for the kernel, and waiting side by side they use up the threads.
set_option Elab.async false

/-! ## Helpers -/

/-- Whether an outcome is a next state. -/
def isNext : Host.Outcome State Fault Refusal → Bool
  | .next _ => true
  | _ => false

/-- The state a command leads to; where it leads to none, the state it began in. -/
def after (i : Instr) (s : State) : State :=
  match exec i s with
  | .next t => t
  | _ => s

theorem exec_after {i : Instr} {s : State} (h : isNext (exec i s) = true) : exec i s = .next (after i s) := by
  unfold after
  cases hr : exec i s with
  | next t => rfl
  | fault r => rw [hr] at h; cases h
  | refused r => rw [hr] at h; cases h

/-- The state a part of a command leads to. -/
def endOf {α : Type} (s : State) : Run α → State
  | .ok _ t => t
  | .raised _ t => t
  | _ => s

/-- A machine whose window is the first `size` of the bytes placed. -/
def window (size : Nat) (bytes : List Byte) : State :=
  { State.reset with setup := { Setup.reset with
      und := Memory.ofBytes bytes 0, undSize := BitVec.ofNat 32 bytes.length, bufSize := BitVec.ofNat 32 size } }

/-- The window of the examples of 40_buffer.md, with one byte of `UND` past it. -/
def input : State := window 4 [0xA5, 0x3C, 0xF0, 0x0F, 0x77]

/-- A fresh forward byte reader over a window. -/
def State.reading (s : State) (order : BitOrder) : State :=
  { s with
    brCfg := { order := order, dir := .forward, rw := 0, wend := .bigEndian, rot := false, valid := true }
    isHi := s.setup.bufSize }

/-- The reader of the examples of 41_bitreader.md. -/
def reader (order : BitOrder) : State := State.reading input order

/-- An output of `RAW_SIZE = 14` with `A B C D` written (44_output.md R174). -/
def written : State :=
  { input with outValid := true, rawSize := 14, outCur := 4, out := [(0, 0x41), (1, 0x42), (2, 0x43), (3, 0x44)] }

/-- A backward output of `RAW_SIZE = 6` with one byte written (44_output.md R175). -/
def writtenBack : State :=
  { input with outValid := true, outDir := .backward, rawSize := 6, outCur := 5, out := [(5, 0x58)] }

/-- The table of 42_huffman.md section 7, for an MSB-first reader. -/
def workedTable : Table where
  mode := .canonical
  order := .msbFirst
  w := 2
  entries := [.leaf 1 1, .leaf 1 1, .leaf 2 0, .link 4 1, .leaf 1 2, .leaf 1 3]
  shape := []

/-- An MSB-first reader over the given bytes, with a table at number 7, lengths and triples loaded. -/
def tabled (table : Table) (bytes : List Byte) : State :=
  { State.reading (window bytes.length bytes) .msbFirst with
    ht := [(7, table)]
    len := [(0, 2), (1, 1), (2, 3), (3, 3)]
    tri := [(0, { length := 1, code := 0, value := 0x41 }), (1, { length := 2, code := 2, value := 0x42 }),
      (2, { length := 2, code := 3, value := 0x43 })] }

/-- A reader with the VLC entries of the example of 43_vlc.md R163. -/
def vlcLoaded : State :=
  { reader .msbFirst with
    vlcBase := [(0, 1), (1, 2), (2, 4), (3, 8)], vlcBits := [(0, 0), (1, 1), (2, 2), (3, 3)], vlcN := 3 }

/-- An input of the test-only descriptor: one literal `A`, and its checksum byte (95_test_vectors.md section 10). -/
def toyInput (checksum : Byte) (data : List Byte) : State :=
  let s := window 15 ([0x54, 0x4F, 0x59, 0x31, 0, 0, 0, 1, 0, 0, 0, 2] ++ data ++ [checksum])
  { s with setup := { s.setup with heldFormats := [0x7F] } }

/-- The same after `DEC.CREATE`. -/
def toyCreated (checksum : Byte) (data : List Byte) : State :=
  { toyInput checksum data with
    fsm := .headerParsed, fmt := 0x7F, packedSize := 2, rawSize := 1, outValid := true }

/-- An input of the XPK fixture: a checksum byte of the header, the first decompressed byte it stores, its chunks (the
scenario of 95_test_vectors.md S9 is a raw chunk of two bytes and the terminator). -/
def xpkInput (checksum first : Byte) (chunks : List Byte) : State :=
  let s := window (29 + chunks.length) ([0x58, 0x50, 0x4B, 0x46, 0, 0, 0, 2, 0, 0, 0, 8, first, 0x3C, 0, 0, 0, 0, 0, 0, 0, 0,
    0, 0, 0, 0, 0, 0, checksum] ++ chunks)
  { s with setup := { s.setup with heldFormats := [0x7D] } }

/-- The chunks of S9. -/
def rawAndTerminator : List Byte := [0, 2, 0x99, 0xA5, 0x3C, 15, 0, 0]

/-- The same after `DEC.CREATE`. -/
def xpkOpened (checksum first : Byte) (chunks : List Byte) : State :=
  { xpkInput checksum first chunks with
    fsm := .headerParsed, fmt := 0x7D, packedSize := 8, rawSize := 2, outValid := true }

/-- The same after the raw chunk. -/
def xpkCopied (checksum first : Byte) (chunks : List Byte) : State :=
  { xpkOpened checksum first chunks with
    fsm := .decoding, res := 2, chk := 0x99, chunkIdx := 1, outCur := 2, out := [(0, 0xA5), (1, 0x3C)]
    brCfg := { ReaderConfig.reset with valid := true }, isLo := 34, isPos := 34, isHi := 37
    rsp := some { status := .ok, ovf := false, res := 2 } }

/-- An XPK decode of two bytes with its first chunk to come. -/
def xpkCreated : State :=
  { input with fsm := .headerParsed, fmt := 1, packedSize := 4, rawSize := 2, outValid := true }

/-! ## Well-formedness -/

/-- 30_encoding.md R67: the reserved width is the one operand that has no encoding. -/
theorem test_wellFormed_refuses_reserved_width :
    (Instr.brInit .msbFirst .forward 3 .bigEndian false 0 4).wellFormed = false := by decide

theorem test_wellFormed_takes_the_other_widths :
    ∀ rw : BitVec 2, rw ≠ 3 → (Instr.brInit .lsbFirst .backward rw .littleEndian true 0 4).wellFormed = true := by decide

/-! ## Decoding: one word for each row of the opcode table -/

theorem test_decode_reset : decode 0x010000000000000000000000 = .ok .reset := by decide +kernel

theorem test_decode_status : decode 0x020000000000000000000000 = .ok .status := by decide +kernel

theorem test_decode_bufSize : decode 0x100000000000000000000000 = .ok .bufSize := by decide +kernel

theorem test_decode_bufRd8 : decode 0x110000008123456700000000 = .ok (.bufRd8 0x81234567) := by decide +kernel

theorem test_decode_bufRdbe16 : decode 0x120000008123456700000000 = .ok (.bufRdbe16 0x81234567) := by decide +kernel

theorem test_decode_bufRdbe32 : decode 0x130000008123456700000000 = .ok (.bufRdbe32 0x81234567) := by decide +kernel

theorem test_decode_bufRdle16 : decode 0x140000008123456700000000 = .ok (.bufRdle16 0x81234567) := by decide +kernel

theorem test_decode_bufRdle32 : decode 0x150000008123456700000000 = .ok (.bufRdle32 0x81234567) := by decide +kernel

theorem test_decode_bufGetdata :
    decode 0x160000008123456789ABCDE1 = .ok (.bufGetdata 0x81234567 0x89abcde1) := by decide +kernel

theorem test_decode_bufSlrd8 : decode 0x170000008123456700000000 = .ok (.bufSlrd8 0x81234567) := by decide +kernel

theorem test_decode_ovfSum :
    decode 0x1800000189ABCDE181234567 = .ok (.ovfSum true 0x89abcde1 0x81234567) := by decide +kernel

theorem test_decode_brInit :
    decode 0x2000002989ABCDE181234567 = .ok (.brInit .lsbFirst .forward 2 .bigEndian true 0x89abcde1 0x81234567) :=
        by decide +kernel

theorem test_decode_brReset : decode 0x2100002189ABCDE100000000 = .ok (.brReset 0x21 0x89abcde1) := by decide +kernel

theorem test_decode_brAnchor : decode 0x220000008123456700000000 = .ok (.brAnchor 0x81234567) := by decide +kernel

theorem test_decode_brRead : decode 0x230000210000000000000000 = .ok (.brRead 0x21) := by decide +kernel

theorem test_decode_rotb : decode 0x2400002189ABCDE100000000 = .ok (.rotb 0x21 0x89abcde1) := by decide +kernel

theorem test_decode_hufSetlen : decode 0x30008A010000002D00000000 = .ok (.hufSetlen 0x8a01 0x2d) := by decide +kernel

theorem test_decode_hufSettri :
    decode 0x318A012D8123456700009B03 = .ok (.hufSettri 0x8a01 0x2d 0x81234567 0x9b03) := by decide +kernel

theorem test_decode_hufMake :
    decode 0x3283001389ABCDE100000000 = .ok (.hufMake 0x83 false 0x13 0x89abcde1) := by decide +kernel

theorem test_decode_hufFixed :
    decode 0x3383001389ABCDE100000000 = .ok (.hufFixed 0x83 false 0x13 0x89abcde1) := by decide +kernel

theorem test_decode_hufAdapt : decode 0x348300000000000000000000 = .ok (.hufAdapt 0x83) := by decide +kernel

theorem test_decode_hufDecode : decode 0x358300000000000000000000 = .ok (.hufDecode 0x83) := by decide +kernel

theorem test_decode_vlcSet :
    decode 0x3800832D8123456700000000 = .ok (.vlcSet 0x83 0x2d 0x81234567) := by decide +kernel

theorem test_decode_vlcSetn : decode 0x390000830000000000000000 = .ok (.vlcSetn 0x83) := by decide +kernel

theorem test_decode_vlcDecode : decode 0x3A0000008123456700000000 = .ok (.vlcDecode 0x81234567) := by decide +kernel

theorem test_decode_outInit :
    decode 0x4000000189ABCDE181234567 = .ok (.outInit .backward 0x89abcde1 0x81234567) := by decide +kernel

theorem test_decode_outWritebyte : decode 0x410000000000008300000000 = .ok (.outWritebyte 0x83) := by decide +kernel

theorem test_decode_outCopy :
    decode 0x420000008123456789ABCDE1 = .ok (.outCopy 0x81234567 0x89abcde1) := by decide +kernel

theorem test_decode_outEof : decode 0x430000000000000000000000 = .ok .outEof := by decide +kernel

theorem test_decode_outRd8 : decode 0x440000008123456700000000 = .ok (.outRd8 0x81234567) := by decide +kernel

theorem test_decode_decCreate :
    decode 0x5000008389ABCDE100000000 = .ok (.decCreate 0x83 0x89abcde1) := by decide +kernel

theorem test_decode_decGetrawsize : decode 0x510000000000000000000000 = .ok .decGetrawsize := by decide +kernel

theorem test_decode_decDecompress : decode 0x520000000000000000000000 = .ok .decDecompress := by decide +kernel

theorem test_decode_decNextchunk : decode 0x530000000000000000000000 = .ok .decNextchunk := by decide +kernel

theorem test_decode_dispDetect : decode 0x580000000000000000000000 = .ok .dispDetect := by decide +kernel

/-! ## The worked examples of the rules -/

/-- 70_reset_and_hazards.md R290: in Failed with `ERR = 2`, `RESET` leaves a `STATUS` of 0. -/
theorem test_reset : after .status (after .reset { written with fsm := .failed, err := .decompression }) =
    { input with rsp := some { status := .ok, ovf := false, res := 0 } } := by decide +kernel

/-- 45_decompressor.md R193. -/
theorem test_status :
    (after .status { input with fsm := .failed, err := .decompression, errInfo := .copyDistance }).res = 0x0B24 := by
  decide +kernel

/-- 40_buffer.md R80. -/
theorem test_bufSize : (after .bufSize input).res = 4 := by decide +kernel

/-- 40_buffer.md R81. -/
theorem test_bufRd8 : (after (.bufRd8 2) input).res = 0xF0 ∧ (after (.bufRd8 4) input).errInfo = .range := by
  decide +kernel

/-- 40_buffer.md R81: no wrapping. -/
theorem test_bufRd8_does_not_wrap : (after (.bufRd8 0xFFFFFFFF) input).err = .invalidFormat := by decide +kernel

/-- 40_buffer.md R82. -/
theorem test_bufRdbe16 : (after (.bufRdbe16 1) input).res = 0x3CF0 := by decide +kernel

/-- 40_buffer.md R83. -/
theorem test_bufRdbe32 : (after (.bufRdbe32 0) input).res = 0xA53CF00F ∧ (after (.bufRdbe32 1) input).fsm = .failed := by
  decide +kernel

/-- 40_buffer.md R84. -/
theorem test_bufRdle16 : (after (.bufRdle16 1) input).res = 0xF03C := by decide +kernel

/-- 40_buffer.md R85. -/
theorem test_bufRdle32 : (after (.bufRdle32 0) input).res = 0x0FF03CA5 := by decide +kernel

/-- 40_buffer.md R86. -/
theorem test_bufGetdata : (after (.bufGetdata 1 3) input).slLen = 3 ∧ (after (.bufGetdata 2 3) input).errInfo = .range
    ∧ (after (.bufGetdata 0xFFFFFFFF 2) input).errInfo = .range := by decide +kernel

/-- 40_buffer.md R87. -/
theorem test_bufSlrd8 : (after (.bufSlrd8 2) { input with slOff := 1, slLen := 3, slValid := true }).res = 0x0F
    ∧ (after (.bufSlrd8 3) { input with slOff := 1, slLen := 3, slValid := true }).errInfo = .range := by decide +kernel

/-- 40_buffer.md R88. -/
theorem test_ovfSum : (after (.ovfSum false 0xFFFFFFF0 0x20) input).res = 0xFFFFFFFF
    ∧ (after (.ovfSum false 0xFFFFFFF0 0x20) input).ovf = true ∧ (after (.ovfSum false 3 4) input).res = 7 := by
  decide +kernel

/-- 41_bitreader.md R101. -/
theorem test_brInit : (after (.brInit .msbFirst .backward 0 .bigEndian true 0 4) input).isPos = 4 := by decide +kernel

/-- 41_bitreader.md R107: 5 preloaded bits, then 3 of the first byte. -/
theorem test_brReset : (after (.brReset 5 0x16) (reader .msbFirst)).brAcc = 0x16
    ∧ (after (.brRead 8) { reader .msbFirst with brAcc := 0x16, brLive := 5 }).res = 0xB5
    ∧ (after (.brRead 8) { reader .lsbFirst with brAcc := 0x16, brLive := 5 }).res = 0xB6 := by decide +kernel

/-- 41_bitreader.md R108. -/
theorem test_brAnchor : (after (.brAnchor 0x16) (reader .msbFirst)).brAcc = 6
    ∧ (after (.brAnchor 0x16) (reader .msbFirst)).res = 4
    ∧ (after (.brAnchor 0x80000000) (reader .msbFirst)).brLive = 31 := by decide +kernel

/-- 41_bitreader.md R105: 3, 7 and 6 bits are 5, 0x14 and 0x3C, so 16 bits are 0xA53C. -/
theorem test_brRead_msb : (after (.brRead 3) (reader .msbFirst)).res = 5
    ∧ (after (.brRead 16) (reader .msbFirst)).res = 0xA53C := by decide +kernel

/-- 41_bitreader.md R106: 3, 7 and 6 bits are 5, 0x14 and 0x0F, so 16 bits are 0x3CA5. -/
theorem test_brRead_lsb : (after (.brRead 3) (reader .lsbFirst)).res = 5
    ∧ (after (.brRead 16) (reader .lsbFirst)).res = 0x3CA5 := by decide +kernel

/-- 41_bitreader.md R109. -/
theorem test_rotb : (after (.rotb 3 6) input).res = 3 ∧ (after (.rotb 8 0x0F) input).res = 0xF0
    ∧ (after (.rotb 32 1) input).res = 0x80000000 := by decide +kernel

/-- 42_huffman.md R131. -/
theorem test_hufSetlen : Memory.get (after (.hufSetlen 2 3) input).len 2 = some 3 := by decide +kernel

/-- 42_huffman.md R132. -/
theorem test_hufSettri : Memory.get (after (.hufSettri 1 2 2 0x42) input).tri 1
    = some { length := 2, code := 2, value := 0x42 } := by decide +kernel

/-- 42_huffman.md section 7: the MSB-first table, and the number of its entries. -/
theorem test_hufMake : (after (.hufMake 7 false 2 4) (tabled workedTable [])).ht = [(7, workedTable)]
    ∧ (after (.hufMake 7 false 2 4) (tabled workedTable [])).res = 6 := by decide +kernel

/-- 42_huffman.md R140: the MSB-first table of its example. -/
theorem test_hufFixed : ((after (.hufFixed 3 false 2 3) (tabled workedTable [])).ht.map fun c => c.2.entries).head?
    = some [.leaf 1 0x41, .leaf 1 0x41, .leaf 2 0x42, .leaf 2 0x43] := by decide +kernel

/-- 42_huffman.md R147: without `ADAPT` refused. -/
theorem test_hufAdapt : (after (.hufAdapt 0) input).rsp
    = some { status := .illegalCommand, ovf := false, res := 0 } := by decide +kernel

/-- 42_huffman.md section 7: the sequence's first symbol is 1, after 1 bit; from its 4th bit on it is 2,
    after 3 bits. -/
theorem test_hufDecode : (after (.hufDecode 7) (tabled workedTable [0x5B, 0x80])).res = 1
    ∧ (after (.hufDecode 7) (tabled workedTable [0xDC])).res = 2
    ∧ (after (.hufDecode 7) (tabled workedTable [0xDC])).brLive = 5 := by decide +kernel

/-- 43_vlc.md R161. -/
theorem test_vlcSet : (after (.vlcSet 2 3 8) input).vlcBase = [(2, 8)] ∧
    (after (.vlcSet 2 3 8) input).vlcBits = [(2, 3)] := by
  decide +kernel

/-- 43_vlc.md R162. -/
theorem test_vlcSetn : (after (.vlcSetn 3) { vlcLoaded with vlcN := vlcNone }).vlcN = 3
    ∧ (after (.vlcSetn 4) vlcLoaded).rsp
      = some { status := .illegalCommand, ovf := false, res := 0 } := by decide +kernel

/-- 43_vlc.md R163: the first bits of 0xA5 are 1, 0, 1. -/
theorem test_vlcDecode : (after (.vlcDecode 3) vlcLoaded).res = 13 ∧ (after (.vlcDecode 0) vlcLoaded).brLive = 0
    ∧ (after (.vlcDecode 4) vlcLoaded).errInfo = .vlcIndex := by decide +kernel

/-- 44_output.md R171. -/
theorem test_outInit : (after (.outInit .forward 14 0) input).rawSize = 14
    ∧ (after (.outInit .backward 6 0) input).outCur = 6 ∧ (after (.outInit .forward 0 0) input).errInfo = .zeroSize := by
  decide +kernel

/-- 44_output.md R172. -/
theorem test_outWritebyte :
    (after (.outWritebyte 0x44) { written with outCur := 3, out := [(0, 0x41), (1, 0x42), (2, 0x43)]
        }).out = written.out
      ∧ (after (.outWritebyte 0x58) { writtenBack with outCur := 6, out := [] }).out = [(5, 0x58)] := by decide +kernel

/-- 44_output.md R174: A B C D A B C D A B C D A B. -/
theorem test_outCopy_forward : (after (.outCopy 4 10) written).out.map Prod.snd
    = [0x41, 0x42, 0x43, 0x44, 0x41, 0x42, 0x43, 0x44, 0x41, 0x42, 0x43, 0x44, 0x41, 0x42] := by decide +kernel

/-- 44_output.md R175. -/
theorem test_outCopy_backward : (after (.outCopy 1 5) writtenBack).out.map Prod.snd
    = [0x58, 0x58, 0x58, 0x58, 0x58, 0x58] ∧ (after (.outCopy 1 5) writtenBack).outCur = 0 := by decide +kernel

/-- 44_output.md R177. -/
theorem test_outEof : (after .outEof written).res = 0 ∧ (after .outEof { written with outCur := 14 }).res = 1 := by
  decide +kernel

/-- 44_output.md R178. -/
theorem test_outRd8 : (after (.outRd8 1) { written with fsm := .done }).res = 0x42
    ∧ (after (.outRd8 14) { written with fsm := .done }).rsp
      = some { status := .illegalCommand, ovf := false, res := 0 } := by decide +kernel

/-- 45_decompressor.md R197, R198 check 3, on the descriptor of 95_test_vectors.md section 10. -/
theorem test_decCreate : after (.decCreate 0x7F 0) (toyInput 0x41 [0x20, 0x80])
    = State.returned (toyCreated 0x41 [0x20, 0x80]) 1 := by decide +kernel

/-- 45_decompressor.md R200. -/
theorem test_decGetrawsize : (after .decGetrawsize (toyCreated 0x41 [0x20, 0x80])).res = 1 := by decide +kernel

/-- 45_decompressor.md R201: the literal, and Done. -/
theorem test_decDecompress : (after .decDecompress (toyCreated 0x41 [0x20, 0x80])).out = [(0, 0x41)]
    ∧ (after .decDecompress (toyCreated 0x41 [0x20, 0x80])).fsm = .done := by decide +kernel

/-- 45_decompressor.md R204: a wrong checksum byte is a Verification failure. -/
theorem test_decDecompress_verifies : (after .decDecompress (toyCreated 0x42 [0x20, 0x80])).err = .verification := by
  decide +kernel

/-- 45_decompressor.md R206: refused for a format that is not chunked. -/
theorem test_decNextchunk : (after .decNextchunk (toyCreated 0x41 [0x20, 0x80])).rsp
    = some { status := .illegalCommand, ovf := false, res := 0 } := by decide +kernel

/-- 45_decompressor.md R206, 95_test_vectors.md S9: the raw chunk, then the terminator and Done. -/
theorem test_decNextchunk_delivers :
    after .decNextchunk (xpkOpened 0x0A 0xA5 rawAndTerminator) = xpkCopied 0x0A 0xA5 rawAndTerminator
      ∧ (after .decNextchunk (xpkCopied 0x0A 0xA5 rawAndTerminator)).fsm = .done
      ∧ (after .decNextchunk (xpkCopied 0x0A 0xA5 rawAndTerminator)).rsp
        = some { status := .ok, ovf := false, res := 0 } := by decide +kernel

/-- 46_formats.md R223, R224, R226: the header's checksum, the chunk's, its type, and the first bytes. -/
theorem test_xpk_failures :
    (after .decNextchunk (xpkOpened 0x0B 0xA5 rawAndTerminator)).errInfo = .checksumMismatch
      ∧ (after .decNextchunk (xpkOpened 0x0A 0xA5 [0, 2, 0x98, 0xA5, 0x3C, 15, 0, 0])).errInfo = .checksumMismatch
      ∧ (after .decNextchunk (xpkOpened 0x0A 0xA5 [1, 2, 0x99, 0xA5, 0x3C, 15, 0, 0])).errInfo = .formatSpecific
      ∧ (after .decNextchunk (xpkOpened 0x0A 0xA5 [15, 0, 0, 0, 0, 0, 0, 0])).errInfo = .endOfInput
      ∧ (after .decDecompress (xpkOpened 0x0A 0xA4 rawAndTerminator)).errInfo = .first16Mismatch := by decide +kernel

/-- 45_decompressor.md R201: a chunked decode whole, from `DEC.CREATE` on. -/
theorem test_decDecompress_chunked :
    let t := after .decDecompress (after (.decCreate 0x7D 0) (xpkInput 0x0A 0xA5 rawAndTerminator))
    t.fsm = .done ∧ t.out = [(0, 0xA5), (1, 0x3C)] ∧ t.res = 2 := by decide +kernel

/-- 47_dispatcher.md R250, R252. -/
theorem test_dispDetect : (after .dispDetect (window 4 [0x58, 0x50, 0x4B, 0x46])).res = 1
    ∧ (after .dispDetect (window 4 [0x7A, 0x69, 0x52, 0x43])).res = 0
    ∧ (after .dispDetect (window 8 [0x7A, 0x69, 0x52, 0x43, 0x4F, 0x4E, 0x69, 0x61])).res = 5 := by decide +kernel

/-- A word placed by `withFetchWord` is the first command run after reset. -/
theorem test_withFetchWord : step (State.reset.withFetchWord 96 0x100000000000000000000000) = exec .bufSize State.reset := by
  rfl

/-! ## Witnesses: states and operands that meet the hypotheses of each statement -/

/-- A machine with one command presented, and a configuration with it or not. -/
def presented (s : State) (w : Command) (c : Option Setup) : State := { s with pending := [{ word := w, setup := c }] }

/-- The machine after a failure. -/
def failedState : State := { written with fsm := .failed, err := .decompression, errInfo := .copyDistance }

/-- A decode that is complete. -/
def doneState : State := { toyCreated 0x41 [0x20, 0x80] with fsm := .done, outCur := 1, out := [(0, 0x41)] }

/-- A reader with these bits live and no word to come. -/
def State.lastBits (s : State) (n : BitVec 6) (acc : Word) : State :=
  { s with isHi := s.isPos, brLive := n, brAcc := acc }

/-- A machine with the adaptive mode at hand, and an adaptive table at number 7. -/
def adaptive : State :=
  let s := tabled { workedTable with mode := .adaptive } [0xA5]
  { s with setup := { s.setup with adaptHeld := true } }

/-- The parts of the XPK fixture with a sub-decompressor for the chunks of type 1: TOY's codes in the chunk's bytes. -/
def xpkCompressing : XpkParts :=
  { fixtureParts with
    subFormat := fun _ => some .rake
    isCompressed := fun n => n == 1
    sub := fun _ =>
      { start := fun lo hi _ =>
          .issue (.brInit .msbFirst .forward 0 .bigEndian false lo hi) fun _ _ => .ret none
        step := fun _ => toyStep
        extraSteps := fun _ => 0 } }

/-- The same with a sub-decompressor whose step does nothing. -/
def xpkIdling : XpkParts :=
  { xpkCompressing with
    sub := fun _ => { start := fun _ _ _ => .ret none, step := fun _ => .ret none, extraSteps := fun _ => 0 } }

/-- Parts of CrunchMania in the non-LZH mode: every turn is a copy, the length code first. -/
def crunchParts : CrunchParts where
  minHeader := 4
  matchMore := fun _ => true
  reading := default
  lzh := fun _ => false
  prepare := fun w => .issue (.brInit .msbFirst .forward 0 .bigEndian false 0 (word w.size)) fun _ _ => .ret none
  lengths := { table := 0, incompleteOk := false, width := 1,
               triples := [{ length := 1, code := 0, value := 3 }, { length := 1, code := 1, value := 4 }] }
  distances := { table := 1, incompleteOk := false, width := 1,
                 triples := [{ length := 1, code := 0, value := 1 }, { length := 1, code := 1, value := 2 }] }
  turn := fun _ => .ret (.copy false)
  copyOf := fun length distance _ => .ret (.ok (distance, length))
  lzhTables := fun _ => .ret (.ok [])
  lzhTurn := fun _ => .ret none
  chkUpdate := fun chk _ => chk
  verify := fun _ => .ret none
  extraSteps := fun _ => 0

/-- Parts of MMCMP with one block of one byte, its bytes in the window from 0 on; its checksum is that byte. -/
def mmcmpParts (size : Word) (checksum : Byte) : MmcmpParts where
  minHeader := 8
  matchMore := fun _ => true
  reading := { header := fun _ _ => .ret default, fieldsLegal := fun _ _ => .ret true }
  blocks := fun _ => [{ addr := 0, size := size, rawStart := 0, rawSize := 1 }]
  prepare := fun _ => .ret none
  begins := fun _ _ => true
  reader := fun _ => { order := .msbFirst, dir := .forward, rw := 0, wend := .bigEndian, rot := false }
  turn := fun _ _ => .issue (.brRead 8) fun _ b => .issue (.outWritebyte (b.res.setWidth 8)) fun _ _ => .ret none
  blockChecksumHolds := fun _ bytes _ => .ret (bytes == [checksum])
  chkUpdate := fun chk _ => chk
  verify := fun _ => .ret none
  extraSteps := fun _ => 0

/-- An input of the test-only descriptor with these sizes in its header, in a window of this many bytes. -/
def toyHeader (size : Nat) (magic raw packed : Byte) : State :=
  let s := window size [0x54, 0x4F, 0x59, magic, 0, 0, 0, raw, 0, 0, 0, packed, 0, 0, 0]
  { s with setup := { s.setup with heldFormats := [0x7F], undSize := 32 } }

/-- Parts of XPK whose every chunk is this one. -/
def xpkParts (c : XpkChunk) : XpkParts where
  minHeader := 4
  matchMore := fun _ => true
  header := { header := fun _ _ => .ret default, fieldsLegal := fun _ _ => .ret true }
  chkUpdate := fun chk _ => chk + 1
  subFormat := fun _ => none
  headerChecksumHolds := fun _ => .ret true
  chunkHeader := fun _ => .ret c
  isCompressed := fun _ => false
  sub := fun _ => default
  chunkChecksumHolds := fun _ _ => .ret true
  storedFirst16 := fun _ => .ret [0xA5, 0x3C]
  extraSteps := fun _ => 0

/-- Parts of StoneCracker whose step reads a byte and then copies, whose magic `S300` is ambiguous while the others select
generation 6, and whose second generation takes these headers. -/
def stoneParts (count : Word) (legal : Bool) : StoneParts where
  minHeader := 4
  matchMore := fun _ => true
  selects := fun magic => if magic = 0x53333030 then .twoOrOne else .generation .gen6
  reading := fun g =>
    { header := fun _ _ => .ret { (default : HeaderInfo) with rawSize := if g = .gen2 then 1 else 2, packedSize := 1 },
      fieldsLegal := fun _ _ => .ret (g != .gen2 || legal) }
  init := fun _ _ => .ret none
  step := fun _ _ => .issue (.brRead 8) fun _ _ => .issue (.outCopy 1 count) fun _ _ => .ret none
  chkUpdate := fun chk _ => chk
  verify := fun _ _ => .ret none
  extraSteps := fun _ => 0

/-- The states of a decode of the formats of which the spec fixes a part. -/
def decodingOf (bytes : List Byte) : State :=
  { State.reading (window bytes.length bytes) .msbFirst with
    fsm := .decoding, outValid := true, rawSize := 6, outCur := 1, out := [(0, 0x41)] }

/-- 46_formats.md R227, R224: a compressed chunk of three bytes, TOY's literal A and a copy of one byte twice. -/
theorem test_xpk_compressed_chunk :
    (endOf input (nextChunk (xpkDescriptor xpkCompressing)
      { xpkOpened 0x0A 0x41 [1, 3, 0, 0x20, 0xC0, 0x40] with rawSize := 3, packedSize := 7 })).out.map Prod.snd
      = [0x41, 0x41, 0x41] := by decide +kernel

/-- 70_reset_and_hazards.md R306: a sub-decompressor that does nothing uses up its bound, which is no failure. -/
theorem test_xpk_chunk_without_progress :
    nextChunk (xpkDescriptor xpkIdling) (xpkOpened 0x0A 0x41 [1, 3, 0, 0x20, 0xC0, 0x40]) = .stuck := by
  decide +kernel

/-- 46_formats.md R233: the codes 1 and 0 through the fixed tables copy 4 bytes from a distance of 1. -/
theorem test_crunch_copies_through_fixed_tables :
    let s := endOf input ((crunchInit crunchParts (decodingOf [0x80]).window).run (decodingOf [0x80]))
    (endOf s ((crunchStep crunchParts s.window).run s)).out.map Prod.snd = [0x41, 0x41, 0x41, 0x41, 0x41]
      ∧ (s.ht.map fun c => c.2.mode) = [.fixed, .fixed] := by decide +kernel

/-- 46_formats.md R234: a block's checksum as it completes, and its end past the window. -/
theorem test_mmcmp_verifies_its_blocks :
    let s : State := { decodingOf [0xA5] with outCur := 0, out := [] }
    let run (checksum : Byte) := runChecked StepFailure.cause (mmcmpStep (mmcmpParts 1 checksum) s.window) s
    run 0xA5 = .ok () (endOf s (run 0xA5)) ∧ run 0xA6 = .raised .checksumMismatch (endOf s (run 0xA6))
      ∧ (endOf s (run 0xA5)).out = [(0, 0xA5)]
      ∧ ((mmcmpReading (mmcmpParts 2 0)).fieldsLegal default s.window).run s
        = .ok false { s with res := 2, sumr := 2 } := by decide +kernel

/-- 46_formats.md R234: a block of no bytes at the start of the output is verified with the first byte, and a block that the
end of the output leaves incomplete at the end of the decode. -/
theorem test_mmcmp_verifies_each_block :
    let s : State := { decodingOf [0xA5] with outCur := 0, out := [] }
    let one : MmcmpBlock := { addr := 0, size := 1, rawStart := 0, rawSize := 1 }
    let x (b : MmcmpBlock) : MmcmpParts := { mmcmpParts 1 0xA5 with blocks := fun _ => [one, b] }
    let empty := runChecked StepFailure.cause (mmcmpStep (x { one with rawSize := 0 }) s.window) s
    let t := endOf s (runChecked StepFailure.cause (mmcmpStep (mmcmpParts 1 0xA5) s.window) s)
    let last (n : Nat) := runChecked VerifyFailure.cause (mmcmpVerify (x { one with rawStart := n, rawSize := 9 }) t.window) t
    empty = .raised .checksumMismatch (endOf s empty)
      ∧ last 1 = .raised .checksumMismatch t ∧ last 0 = .ok () t := by decide +kernel

/-- 46_formats.md R227: a sub-decompressor that is not held shuts a container out, and no other window. -/
theorem test_xpk_covers_containers :
    (xpkDescriptor xpkCompressing).covers [] (xpkInput 0 0 []).window = false
      ∧ (xpkDescriptor xpkCompressing).covers [.rake] (xpkInput 0 0 []).window = true
      ∧ (xpkDescriptor xpkCompressing).covers [] input.window = true := by decide +kernel

theorem input_inv : input.Inv :=
  ⟨by decide +kernel, by decide, by decide, by decide, by decide +kernel, by decide⟩

theorem written_inv : written.Inv :=
  ⟨by decide +kernel, by decide, by decide, by decide, by decide +kernel, by decide⟩

theorem toyCreated_inv : (toyCreated 0x41 [0x20, 0x80]).Inv :=
  ⟨by decide +kernel, by decide, by decide, by decide, by decide +kernel, by decide⟩

theorem xpkOpened_inv : (xpkOpened 0x0A 0xA5 rawAndTerminator).Inv :=
  ⟨by decide +kernel, by decide +kernel, by decide, by decide, by decide +kernel, by decide⟩

theorem xpkCopied_inv : (xpkCopied 0x0A 0xA5 rawAndTerminator).Inv :=
  ⟨by decide +kernel, by decide +kernel, by decide, by decide, by decide +kernel, by decide⟩

theorem xpkCreated_inv : xpkCreated.Inv :=
  ⟨by decide +kernel, by decide, by decide, by decide, by decide +kernel, by decide⟩

theorem witness_DecodeOfEncode :
    (Instr.brInit .lsbFirst .backward 2 .littleEndian true 0xFFFFFFFF 0).wellFormed = true := by decide

theorem witness_EncodeOfDecode : decode 0x330701100000040000000000 = .ok (.hufFixed 7 true 16 1024) := by
  decide +kernel

theorem witness_DecodingMatchesOneRow :
    (decode 0x020000000000000000000000 = .ok .status
        ∧ (0x020000000000000000000000 : Command) &&& Instr.status.row.mask = Instr.status.row.pattern)
      ∧ decode 0x590000000000000000000000 = .error .unassignedOp
      ∧ decode 0x200000FC0000000000000000 = .error .unassignedBits
      ∧ decode 0x2000003C0000000000000000 = .error .reservedWidth := by decide +kernel

theorem witness_StepRunsTheDecodedCommand :
    (Request.admissible (presented input 0x100000000000000000000000 none)
          { word := 0x100000000000000000000000, setup := none } = true
        ∧ decode 0x100000000000000000000000 = .ok .bufSize)
      ∧ (Request.admissible (presented failedState 0x010000000000000000000000 (some Setup.reset))
          { word := 0x010000000000000000000000, setup := some Setup.reset } = true
        ∧ decode 0x010000000000000000000000 = .ok .reset)
      ∧ decodeTableWord 96 0x100000000000000000000000 = some .bufSize := by decide +kernel

theorem row_of_encode (i : Instr) : encode i &&& i.row.mask = i.row.pattern := by
  cases i
  case reset => exact Laws.EncodesInItsRow.reset
  case status => exact Laws.EncodesInItsRow.status
  case bufSize => exact Laws.EncodesInItsRow.bufSize
  case bufRd8 off => exact Laws.EncodesInItsRow.bufRd8 off
  case bufRdbe16 off => exact Laws.EncodesInItsRow.bufRdbe16 off
  case bufRdbe32 off => exact Laws.EncodesInItsRow.bufRdbe32 off
  case bufRdle16 off => exact Laws.EncodesInItsRow.bufRdle16 off
  case bufRdle32 off => exact Laws.EncodesInItsRow.bufRdle32 off
  case bufGetdata off len => exact Laws.EncodesInItsRow.bufGetdata off len
  case bufSlrd8 k => exact Laws.EncodesInItsRow.bufSlrd8 k
  case ovfSum chain a b => exact Laws.EncodesInItsRow.ovfSum chain a b
  case brInit order dir rw wend rot lo hi => exact Laws.EncodesInItsRow.brInit order dir rw wend rot lo hi
  case brReset live value => exact Laws.EncodesInItsRow.brReset live value
  case brAnchor w => exact Laws.EncodesInItsRow.brAnchor w
  case brRead count => exact Laws.EncodesInItsRow.brRead count
  case rotb count value => exact Laws.EncodesInItsRow.rotb count value
  case hufSetlen index len => exact Laws.EncodesInItsRow.hufSetlen index len
  case hufSettri index len code value => exact Laws.EncodesInItsRow.hufSettri index len code value
  case hufMake t ok width n => exact Laws.EncodesInItsRow.hufMake t ok width n
  case hufFixed t ok width n => exact Laws.EncodesInItsRow.hufFixed t ok width n
  case hufAdapt t => exact Laws.EncodesInItsRow.hufAdapt t
  case hufDecode t => exact Laws.EncodesInItsRow.hufDecode t
  case vlcSet index bits base => exact Laws.EncodesInItsRow.vlcSet index bits base
  case vlcSetn n => exact Laws.EncodesInItsRow.vlcSetn n
  case vlcDecode index => exact Laws.EncodesInItsRow.vlcDecode index
  case outInit dir size window => exact Laws.EncodesInItsRow.outInit dir size window
  case outWritebyte b => exact Laws.EncodesInItsRow.outWritebyte b
  case outCopy distance count => exact Laws.EncodesInItsRow.outCopy distance count
  case outEof => exact Laws.EncodesInItsRow.outEof
  case outRd8 index => exact Laws.EncodesInItsRow.outRd8 index
  case decCreate fmt declared => exact Laws.EncodesInItsRow.decCreate fmt declared
  case decGetrawsize => exact Laws.EncodesInItsRow.decGetrawsize
  case decDecompress => exact Laws.EncodesInItsRow.decDecompress
  case decNextchunk => exact Laws.EncodesInItsRow.decNextchunk
  case dispDetect => exact Laws.EncodesInItsRow.dispDetect

theorem witness_IllegalWordIsTurnedAway (i : Instr) : i.wellFormed = true → encode i ≠ 0x590000000000000000000000 := by
  intro _ h
  have hr := row_of_encode i
  rw [h] at hr
  cases i <;> (simp only [Instr.row] at hr; revert hr; decide)

theorem witness_IdleKeepsEverything : State.reset.pending = [] := rfl

/-- With `RESET`, even after a failure; with new bytes alone, and with them a word that spells no command; and a window
past the input, or one changed in Unvalidated. -/
theorem witness_HostChangesItsInputOnlyWhereItMay :
    (input.setup.ok ∧ (0x010000000000000000000000 : Command) = encode .reset)
      ∧ (({ doneState.setup with und := [(0, 1)] } : Setup).ok ∧ doneState.fsm = .done ∧ failedState.fsm = .failed
        ∧ ∀ i : Instr, i.wellFormed = true → encode i ≠ 0x590000000000000000000000)
      ∧ ¬ ({ input.setup with bufBase := 2 } : Setup).ok
      ∧ ((0x100000000000000000000000 : Command) ≠ encode .reset ∧ input.fsm ≠ .done ∧ input.fsm ≠ .failed)
      ∧ { doneState.setup with bufSize := 1 }
          ≠ { doneState.setup with und := ({ doneState.setup with bufSize := 1 } : Setup).und } :=
  ⟨by decide +kernel, ⟨by decide +kernel, by decide +kernel, by decide +kernel, witness_IllegalWordIsTurnedAway⟩,
    by decide +kernel, by decide +kernel, by decide +kernel⟩

theorem witness_StepKeepsTheInvariant : (presented input 0x100000000000000000000000 none).Inv
    ∧ isNext (step (presented input 0x100000000000000000000000 none)) = true := ⟨input_inv, by decide +kernel⟩

theorem witness_EveryCommandEnds : Instr.reset ≠ .decDecompress := by decide

/-- Success, refusal, a failure outside Done and in Done, and success of `STATUS` in Failed. -/
theorem witness_ResponseSaysHowACommandEnded :
    exec .bufSize input = .next (after .bufSize input)
      ∧ exec .decDecompress input = .next (after .decDecompress input)
      ∧ exec (.bufRd8 4) input = .next (after (.bufRd8 4) input)
      ∧ exec (.bufRd8 15) doneState = .next (after (.bufRd8 15) doneState)
      ∧ exec .status failedState = .next (after .status failedState)
      ∧ (after .decDecompress input).rsp.map (·.status) = some .illegalCommand
      ∧ (after (.bufRd8 4) input).rsp.map (·.status) = some Category.invalidFormat.status
      ∧ (after (.bufRd8 15) doneState).rsp.map (·.status) = some Category.decompression.status
      ∧ (after .status failedState).rsp.map (·.status) = some .ok ∧ (after .status failedState).fsm = .failed := by
  refine ⟨?_, ?_, ?_, ?_, ?_, ?_⟩
  all_goals first | exact exec_after (by decide +kernel) | decide +kernel

theorem witness_TransitionsOfTheStateMachine :
    (exec .reset failedState = .next (after .reset failedState) ∧ (after .reset failedState).fsm ≠ failedState.fsm)
      ∧ (exec (.decCreate 0x7F 0) (toyInput 0x41 [0x20, 0x80])
          = .next (after (.decCreate 0x7F 0) (toyInput 0x41 [0x20, 0x80]))
        ∧ (after (.decCreate 0x7F 0) (toyInput 0x41 [0x20, 0x80])).fsm = .headerParsed)
      ∧ (exec (.bufRd8 4) xpkCreated = .next (after (.bufRd8 4) xpkCreated)
        ∧ (after (.bufRd8 4) xpkCreated).fsm = .failed)
      ∧ exec .decDecompress (toyCreated 0x41 [0x20, 0x80])
          = .next (after .decDecompress (toyCreated 0x41 [0x20, 0x80]))
        ∧ (after .decDecompress (toyCreated 0x41 [0x20, 0x80])).fsm = .done :=
  ⟨⟨exec_after (by decide +kernel), by decide +kernel⟩, ⟨exec_after (by decide +kernel), by decide +kernel⟩,
    ⟨exec_after (by decide +kernel), by decide +kernel⟩, exec_after (by decide +kernel), by decide +kernel⟩

/-- Commands the table does not admit; and of those it admits to the sequencer one with a value, one without, one that
fails and one that is refused. -/
theorem witness_IllegalInThisStateIsTurnedAway :
    let s := decodingOf [0xA5]
    let run (i : Instr) := sequencerCommand i s
    (kindOf .decDecompress ∉ input.fsm.openToHost ∧ kindOf (.brRead 1) ∉ xpkCreated.fsm.openToHost
        ∧ kindOf .bufSize ∉ failedState.fsm.openToHost ∧ kindOf (.outRd8 0) ∉ Fsm.decoding.openToSequencer)
      ∧ (kindOf (.brRead 8) ∈ s.fsm.openToSequencer ∧ run (.brRead 8) = .ok (some 0xA5) (endOf s (run (.brRead 8))))
      ∧ (kindOf (.outCopy 1 2) ∈ s.fsm.openToSequencer ∧ run (.outCopy 1 2) = .ok none (endOf s (run (.outCopy 1 2))))
      ∧ (kindOf (.bufRd8 1) ∈ s.fsm.openToSequencer ∧ run (.bufRd8 1) = .raised .range s)
      ∧ (kindOf (.hufDecode 0) ∈ s.fsm.openToSequencer ∧ run (.hufDecode 0) = .illegal)
      ∧ (kindOf (.bufRd8 4) ∈ input.fsm.openToSequencer ∧ sequencerCommand (.bufRd8 4) input = .raised .range input) := by
  decide +kernel

theorem witness_InputIsNeverWritten : exec (.bufGetdata 1 3) input = .next (after (.bufGetdata 1 3) input) :=
  exec_after (by decide +kernel)

theorem witness_WrittenOutputStays : written.Inv ∧ Instr.outCopy 4 10 ≠ .reset
    ∧ exec (.outCopy 4 10) written = .next (after (.outCopy 4 10) written) ∧ Memory.get written.out 3 = some 0x44 :=
  ⟨written_inv, by decide, exec_after (by decide +kernel), rfl⟩

/-- The byte past the window changed. -/
theorem witness_NothingOutsideTheWindowIsRead : input.Inv
    ∧ (∀ k < input.setup.bufSize.toNat,
        (input.withInput (Memory.ofBytes [0xA5, 0x3C, 0xF0, 0x0F, 0x78] 0)).inByte k = input.inByte k)
    ∧ (input.withInput (Memory.ofBytes [0xA5, 0x3C, 0xF0, 0x0F, 0x78] 0)).inByte 4 ≠ input.inByte 4 :=
  ⟨input_inv, by decide +kernel, by decide +kernel⟩

theorem witness_ResetResult : exec .reset failedState = .next (after .reset failedState) :=
    exec_after (by decide +kernel)

theorem witness_StatusResult : failedState.fsm = .failed ∧ failedState.err = .decompression
    ∧ failedState.errInfo = .copyDistance := by decide

theorem witness_SizeAndEofResults : input.fsm ≠ .failed ∧ input.outValid = false ∧ written.outValid = true
    ∧ (toyCreated 0x41 []).fsm = .headerParsed ∧ doneState.fsm = .done ∧ failedState.fsm = .failed := by decide +kernel

/-- In the window up to its last byte, and one past it, at each width. -/
theorem witness_BufferReadResults : input.fsm ≠ .failed ∧ input.setup.bufSize.toNat = 4
    ∧ (3 + 1 ≤ input.setup.bufSize.toNat ∧ input.setup.bufSize.toNat < 4 + 1)
    ∧ (2 + 2 ≤ input.setup.bufSize.toNat ∧ input.setup.bufSize.toNat < 3 + 2)
    ∧ (0 + 4 ≤ input.setup.bufSize.toNat ∧ input.setup.bufSize.toNat < 1 + 4) := by decide

theorem witness_SliceResults : input.fsm ≠ .failed ∧ 1 + 3 ≤ input.setup.bufSize.toNat
    ∧ input.setup.bufSize.toNat < 2 + 3 ∧ input.slValid = false
    ∧ (after (.bufGetdata 1 3) input).slValid = true ∧ (2 : Word).toNat < (after (.bufGetdata 1 3) input).slLen.toNat
    ∧ (after (.bufGetdata 1 3) input).slLen.toNat ≤ (3 : Word).toNat := by decide +kernel

theorem witness_OverflowCheckedSum : input.fsm ≠ .failed ∧ (1 : Word) ≠ 0
    ∧ exec (.ovfSum false 0xFFFFFFFF 1) input = .next (after (.ovfSum false 0xFFFFFFFF 1) input)
    ∧ exec (.ovfSum true 0 0) (after (.ovfSum false 0xFFFFFFFF 1) input)
        = .next (after (.ovfSum true 0 0) (after (.ovfSum false 0xFFFFFFFF 1) input)) :=
  ⟨by decide, by decide, exec_after (by decide +kernel), exec_after (by decide +kernel)⟩

theorem witness_ReaderInitResult : input.fsm = .unvalidated ∧ (2 : BitVec 2) ≠ 3
    ∧ ((4 : Word).toNat ≤ (4 : Word).toNat ∧ (4 : Word).toNat ≤ input.setup.bufSize.toNat)
    ∧ (3 : Word).toNat < (4 : Word).toNat ∧ input.setup.bufSize.toNat < (5 : Word).toNat ∧ (3 : BitVec 2) = 3 := by decide

theorem witness_ReaderPreloadResults : (reader .msbFirst).fsm = .unvalidated ∧ (reader .msbFirst).brCfg.valid = true
    ∧ (32 : BitVec 6).toNat ≤ 32 ∧ 32 < (33 : BitVec 6).toNat ∧ input.brCfg.valid = false
    ∧ (2 ^ 31 ≤ (0xFFFFFFFF : Word).toNat ∧ (0xFFFFFFFF : Word).toNat < 2 ^ (31 + 1))
    ∧ (2 ^ 0 ≤ (1 : Word).toNat ∧ (1 : Word).toNat < 2 ^ (0 + 1)) := by decide +kernel

theorem witness_PreloadedBitsAreReadNext : (reader .lsbFirst).fsm = .unvalidated ∧ (reader .lsbFirst).brCfg.valid = true
    ∧ (32 : BitVec 6).toNat ≤ 32 := by decide

/-- All the bits there are, and one more than there are. -/
theorem witness_ReaderReadResult : (reader .msbFirst).fsm = .unvalidated ∧ (reader .msbFirst).brCfg.valid = true
    ∧ ((32 : BitVec 6).toNat ≤ 32 ∧ (32 : BitVec 6).toNat ≤ (reader .msbFirst).bitStream.length)
    ∧ (State.lastBits (reader .lsbFirst) 5 0x16).bitStream.length < (6 : BitVec 6).toNat
    ∧ 32 < (33 : BitVec 6).toNat ∧ input.brCfg.valid = false := by decide +kernel

theorem witness_ReadsSplit : (reader .lsbFirst).fsm = .unvalidated ∧ (reader .lsbFirst).brCfg.valid = true
    ∧ (21 : BitVec 6).toNat + (11 : BitVec 6).toNat ≤ 32
    ∧ (21 : BitVec 6).toNat + (11 : BitVec 6).toNat ≤ (reader .lsbFirst).bitStream.length
    ∧ (reader .msbFirst).brCfg.order = .msbFirst ∧ (reader .lsbFirst).brCfg.order = .lsbFirst := by decide +kernel

theorem witness_RotationReversesTheStream : input.fsm = .unvalidated ∧ (2 : BitVec 2) ≠ 3 ∧ (1 : BitVec 2) ≠ 3
    ∧ (0 : Word).toNat ≤ (4 : Word).toNat ∧ (4 : Word).toNat ≤ input.setup.bufSize.toNat
    ∧ refillBytes 2 ∣ (4 : Word).toNat - (0 : Word).toNat ∧ refillBytes 1 ∣ (4 : Word).toNat - (0 : Word).toNat := by
  decide

theorem witness_RotateBitsResult : input.fsm = .unvalidated ∧ (32 : BitVec 6).toNat ≤ 32 ∧ 32 < (33 : BitVec 6).toNat := by
  decide

theorem witness_TableLoadResults : input.fsm = .unvalidated
    ∧ ((1023 : BitVec 16).toNat < 1024 ∧ 1024 ≤ (1024 : BitVec 16).toNat)
    ∧ ((32 : BitVec 6).toNat ≤ 32 ∧ 32 < (33 : BitVec 6).toNat ∧ (0 : BitVec 6).toNat = 0 ∧ 1 ≤ (1 : BitVec 6).toNat)
    ∧ ((1 : Word).toNat < 2 ^ (1 : BitVec 6).toNat ∧ 2 ^ (1 : BitVec 6).toNat ≤ (2 : Word).toNat)
    ∧ ((63 : Byte).toNat < 64 ∧ 64 ≤ (64 : Byte).toNat) := by decide

/-- The lengths of 42_huffman.md section 7, and lengths that are over-subscribed. -/
theorem witness_CanonicalCodesAreTheCanonicalOnes : (∀ l ∈ [2, 1, 3, 3], l ≤ 32)
    ∧ canonicalCodes [2, 1, 3, 3] = some [{ length := 1, code := 0, value := 1 },
        { length := 2, code := 2, value := 0 },
        { length := 3, code := 6, value := 2 }, { length := 3, code := 7, value := 3 }]
    ∧ canonicalCodes [1, 1, 32] = none := by decide +kernel

/-- The operands at their bounds, an entry never loaded, the table of 42_huffman.md section 7, over-subscribed lengths,
an incomplete tree, triples that collide. -/
theorem witness_TableConstructionResults : (tabled workedTable []).fsm = .unvalidated
    ∧ (8 ≤ (8 : Byte).toNat ∧ (0 : BitVec 5).toNat = 0 ∧ 16 < (17 : BitVec 5).toNat ∧ 1024 < (1025 : Word).toNat
        ∧ input.brCfg.valid = false)
    ∧ (Memory.prefixOf (tabled workedTable []).len 5 = none ∧ Memory.prefixOf (tabled workedTable []).tri 4 = none)
    ∧ ((7 : Byte).toNat < 8 ∧ 1 ≤ (1 : BitVec 5).toNat ∧ (16 : BitVec 5).toNat ≤ 16
        ∧ (tabled workedTable []).brCfg.valid = true)
    ∧ (Memory.prefixOf [(0, (1 : BitVec 6)), (1, 1), (2, 1)] 3 = some [1, 1, 1] ∧ canonicalCodes [1, 1, 1] = none)
    ∧ (Memory.prefixOf (tabled workedTable []).len 4 = some [2, 1, 3, 3]
        ∧ canonicalCodes ([2, 1, 3, 3].map (BitVec.toNat (w := 6)))
          = some [{ length := 1, code := 0, value := 1 }, { length := 2, code := 2, value := 0 },
            { length := 3, code := 6, value := 2 }, { length := 3, code := 7, value := 3 }]
        ∧ build [{ length := 1, code := 0, value := 1 }, { length := 2, code := 2, value := 0 },
            { length := 3, code := 6, value := 2 }, { length := 3, code := 7, value := 3 }] 2 .msbFirst false
          = .ok workedTable.entries)
    ∧ (Memory.prefixOf (tabled workedTable []).tri 3).isSome = true
    ∧ build [{ length := 1, code := 0, value := 1 }] 2 .lsbFirst false = .error .huffUnder
    ∧ build [{ length := 1, code := 0, value := 1 }, { length := 2, code := 1, value := 2 }] 2 .msbFirst true
        = .error .huffOver := by decide +kernel

/-- A full tree with lengths up to the width, and with lengths above it; one that is over-subscribed by the least there is,
one that lacks the least there is; and a code whose sub-table does not fit beside a primary table of all the entries. -/
theorem witness_LengthsMakeATableByKraft : (tabled workedTable []).fsm = .unvalidated
    ∧ (tabled workedTable []).brCfg.valid = true ∧ (7 : Byte).toNat < 8 ∧ (3 : BitVec 5).toNat ≤ 16
    ∧ Memory.prefixOf (tabled workedTable []).len (4 : Word).toNat = some [2, 1, 3, 3]
    ∧ (∀ l ∈ ([2, 1, 3, 3] : List (BitVec 6)), l.toNat ≤ 32)
    ∧ (([2, 1, 3, 3].filter (fun l : BitVec 6 => l.toNat ≠ 0)).map fun l => 2 ^ (32 - l.toNat)).sum = 2 ^ 32
    ∧ (2 ^ (2 : BitVec 5).toNat + (([2, 1, 3, 3].filter (fun l : BitVec 6 => (2 : BitVec 5).toNat < l.toNat)).map
        fun l => 2 ^ (l.toNat - (2 : BitVec 5).toNat)).sum = 8 ∧ workedTable.entries.length = 6)
    ∧ 2 ^ 32 < (([1, 1, 32].filter (fun l : BitVec 6 => l.toNat ≠ 0)).map fun l => 2 ^ (32 - l.toNat)).sum
    ∧ (([2, 1, 3].filter (fun l : BitVec 6 => l.toNat ≠ 0)).map fun l => 2 ^ (32 - l.toNat)).sum < 2 ^ 32
    ∧ 65536 < 2 ^ (16 : BitVec 5).toNat + (([17].filter (fun l : BitVec 6 => (16 : BitVec 5).toNat < l.toNat)).map
        fun l => 2 ^ (l.toNat - (16 : BitVec 5).toNat)).sum := by
  decide +kernel

/-- One code in the primary table and two in a sub-table. -/
theorem witness_BuiltTableFindsItsCodes :
    let cs : List Code := [{ length := 1, code := 0, value := 0xFFFF }, { length := 2, code := 2, value := 0 },
      { length := 2, code := 3, value := 3 }]
    (∀ c ∈ cs, 1 ≤ c.length ∧ c.length ≤ 32 ∧ c.code < 2 ^ c.length ∧ c.value < 2 ^ 16)
      ∧ build cs (1 : BitVec 5).toNat .lsbFirst false
        = .ok [.leaf 1 0xFFFF, .link 2 1, .leaf 1 0, .leaf 1 3] := by decide +kernel

/-- A code of the primary table, one of the sub-table, unmapped slots and ends of the input at both levels. -/
theorem witness_SymbolDecodeResult :
    ((tabled workedTable []).fsm = .unvalidated ∧ (7 : Byte).toNat < 8
        ∧ Memory.get (tabled workedTable []).ht (7 : Byte).toNat = some workedTable
        ∧ workedTable.order = (tabled workedTable []).brCfg.order ∧ workedTable.mode ≠ .adaptive
        ∧ (tabled workedTable []).brCfg.valid = true)
      ∧ (8 ≤ (8 : Byte).toNat ∧ Memory.get (tabled workedTable []).ht 6 = none ∧ input.brCfg.valid = false
        ∧ { workedTable with order := .lsbFirst }.order ≠ (tabled workedTable []).brCfg.order)
      ∧ workedTable.Decodes (tabled workedTable [0x5B, 0x80]).bitStream 1 1
      ∧ workedTable.Decodes (tabled workedTable [0xDC]).bitStream 3 2
      ∧ { workedTable with entries := [.leaf 1 1, .leaf 1 1, .leaf 2 0, .unmapped] }.Exhausts 0 2
          (tabled workedTable [0xDC]).bitStream .unmapped
      ∧ ({ workedTable with entries := [.leaf 1 1, .leaf 1 1, .leaf 2 0, .link 4 1] }.Exhausts 0 2
            (tabled workedTable [0xDC]).bitStream (.link 4 1)
          ∧ { workedTable with entries := [.leaf 1 1, .leaf 1 1, .leaf 2 0, .link 4 1] }.Exhausts 4 1
            ((tabled workedTable [0xDC]).bitStream.drop 2) .unmapped)
      ∧ ((State.lastBits (tabled workedTable []) 1 1).bitStream.length < workedTable.w.toNat
          ∧ workedTable.Passes 0 workedTable.w.toNat (State.lastBits (tabled workedTable []) 1 1).bitStream 2)
      ∧ (workedTable.Exhausts 0 2 (State.lastBits (tabled workedTable []) 2 3).bitStream (.link 4 1)
          ∧ (State.lastBits (tabled workedTable []) 2 3).bitStream.length - 2 < 1
          ∧ workedTable.Passes 4 1 ((State.lastBits (tabled workedTable []) 2 3).bitStream.drop 2) 1) := by
  refine ⟨by decide +kernel, by decide +kernel, .inl (by decide +kernel), .inr ⟨4, 1, by decide +kernel⟩, ?_⟩
  decide +kernel

/-- Right after `HUF.MAKE` a code of the list comes next; right after `HUF.FIXED` no code of the list does. -/
theorem witness_DecodeFindsTheCodesOfItsList :
    let s := tabled workedTable [0xDC]
    let u := after (.hufMake 7 false 2 4) s
    let s' := tabled workedTable [0xFF, 0xFF, 0xFF, 0xFF, 0xFF, 0xFF]
    let u' := after (.hufFixed 3 true 2 1) s'
    (s.fsm = .unvalidated ∧ u.rsp.map (·.status) = some .ok ∧ exec (.hufMake 7 false 2 4) s = .next u
        ∧ Memory.prefixOf s.len (4 : Word).toNat = some [2, 1, 3, 3]
        ∧ canonicalCodes ([2, 1, 3, 3].map (BitVec.toNat (w := 6)))
          = some [{ length := 1, code := 0, value := 1 }, { length := 2, code := 2, value := 0 },
            { length := 3, code := 6, value := 2 }, { length := 3, code := 7, value := 3 }]
        ∧ Code.bits { length := 3, code := 6, value := 2 } <+: u.bitStream)
      ∧ (u'.rsp.map (·.status) = some .ok ∧ exec (.hufFixed 3 true 2 1) s' = .next u'
        ∧ Memory.prefixOf s'.tri (1 : Word).toNat = some [{ length := 1, code := 0, value := 0x41 }]
        ∧ 48 ≤ u'.bitStream.length ∧ ¬ Code.bits { length := 1, code := 0, value := 0x41 } <+: u'.bitStream) :=
  ⟨⟨by decide +kernel, by decide +kernel, exec_after (by decide +kernel), by decide +kernel⟩, by decide +kernel,
    exec_after (by decide +kernel), by decide +kernel⟩

theorem witness_AdaptiveTableResults :
    (input.fsm = .unvalidated ∧ input.setup.adaptHeld = false ∧ 8 ≤ (8 : Byte).toNat)
      ∧ (adaptive.fsm = .unvalidated ∧ adaptive.setup.adaptHeld = true ∧ (7 : Byte).toNat < 8
        ∧ Memory.get adaptive.ht 7 = some { workedTable with mode := .adaptive } ∧ Memory.get adaptive.ht 0 = none
        ∧ adaptive.brCfg.valid = true ∧ workedTable.order = adaptive.brCfg.order)
      ∧ (tabled { workedTable with mode := .adaptive } []).setup.adaptHeld = false := by decide +kernel

/-- The last index of the range, the last entry of the arrays, a base at the largest value, an input that ends. -/
theorem witness_VlcResults : vlcLoaded.fsm = .unvalidated
    ∧ ((63 : Byte).toNat < 64
        ∧ ∀ i ≤ (63 : Byte).toNat, (Memory.get ((List.range 64).map fun k => (k, (1 : Word))) i).isSome = true)
    ∧ (64 ≤ (64 : Byte).toNat ∧ Memory.get vlcLoaded.vlcBase 4 = none)
    ∧ (input.vlcN = 127 ∧ vlcLoaded.vlcN ≠ 127 ∧ vlcLoaded.brCfg.valid = true
        ∧ vlcLoaded.vlcN.toNat < (4 : Word).toNat ∧ (3 : Word).toNat ≤ vlcLoaded.vlcN.toNat)
    ∧ (Memory.get vlcLoaded.vlcBase 3 = some 8 ∧ Memory.get vlcLoaded.vlcBits 3 = some 3
        ∧ 3 ≤ vlcLoaded.bitStream.length ∧ 8 + numberOf .msbFirst (vlcLoaded.bitStream.take 3) < 2 ^ 32)
    ∧ 2 ^ 32 ≤ (0xFFFFFFFF : Word).toNat + numberOf .msbFirst (vlcLoaded.bitStream.take 1)
    ∧ (State.lastBits vlcLoaded 2 0).bitStream.length < 3 := by decide +kernel

theorem witness_OutputAllocationResult : input.fsm = .unvalidated ∧ written.outValid = true ∧ input.outValid = false
    ∧ input.setup.maxRawSize.toNat < (0x100001 : Word).toNat ∧ (0x100000 : Word).toNat ≤ input.setup.maxRawSize.toNat
    ∧ (0x100000 : Word) ≠ 0 := by decide

theorem witness_WriteByteResult : input.fsm = .unvalidated ∧ input.outValid = false
    ∧ ({ written with outCur := 14 }.outValid = true ∧ { written with outCur := 14 }.produced = written.rawSize.toNat)
    ∧ ({ written with outCur := 13 }.outCur.toNat ≤ written.rawSize.toNat
        ∧ { written with outCur := 13 }.produced < written.rawSize.toNat) := by decide +kernel

/-- A distance one past the bytes produced, one past the window, a copy one byte longer than the room. -/
theorem witness_CopyChecks : written.fsm = .unvalidated ∧ written.outValid = true ∧ input.outValid = false
    ∧ (written.outWin = 0 ∧ written.produced < (5 : Word).toNat ∧ ¬ written.produced < (4 : Word).toNat)
    ∧ ({ written with outWin := 8 }.outWin ≠ 0 ∧ { written with outWin := 8 }.outWin.toNat < (9 : Word).toNat)
    ∧ written.rawSize.toNat < written.produced + (11 : Word).toNat := by decide +kernel

/-- Forward with the whole room used, with a window wider than what is produced, and backward down to entry 0. -/
theorem witness_CopyRepeatsWithItsDistance :
    (written.fsm = .unvalidated ∧ written.outValid = true ∧ written.OutputInv ∧ written.outWin = 0
        ∧ (4 : Word).toNat ≤ written.produced ∧ written.produced + (10 : Word).toNat ≤ written.rawSize.toNat
        ∧ written.outDir = .forward)
      ∧ (State.OutputInv { written with outWin := 8 } ∧ { written with outWin := 8 }.outWin ≠ 0
        ∧ (8 : Word).toNat ≤ { written with outWin := 8 }.outWin.toNat)
      ∧ (writtenBack.OutputInv ∧ (1 : Word).toNat ≤ writtenBack.produced
        ∧ writtenBack.produced + (5 : Word).toNat ≤ writtenBack.rawSize.toNat ∧ writtenBack.outDir = .backward) := by
  decide +kernel

/-- The last written entry and the first that is not, the last index and one past it, in each of the three states, and a
decode that is not chunked under way. -/
theorem witness_OutputReadResult : (written.fsm = .unvalidated ∧ written.outValid = true
        ∧ (3 : Word).toNat < written.rawSize.toNat ∧ Memory.get written.out 3 = some 0x44
        ∧ Memory.get written.out 4 = none ∧ written.rawSize.toNat ≤ (14 : Word).toNat)
      ∧ (doneState.fsm = .done ∧ Memory.get doneState.out 0 = some 0x41)
      ∧ ((xpkCopied 0x0A 0xA5 rawAndTerminator).fsm = .decoding
        ∧ (format (xpkCopied 0x0A 0xA5 rawAndTerminator).fmt).chunked = true)
      ∧ input.outValid = false
      ∧ ({ doneState with fsm := .decoding }.fsm = .decoding ∧ (format doneState.fmt).chunked = false) :=
  ⟨by decide +kernel, by decide +kernel, ⟨rfl, rfl⟩, rfl, rfl, rfl⟩

theorem witness_CreateResult : let s := toyInput 0x41 [0x20, 0x80]
    s.fsm = .unvalidated ∧ s.outValid = false ∧ s.holds 0x7F = true
      ∧ (format 0x7F).covers s.setup.heldSubFormats s.window = true
      ∧ parse (format 0x7F) 0 s.toolkitCleared
        = .ok { rawSize := 1, packedSize := 2, packedOffset := 12, gen := 0, ctrl := []
                outDir := .forward, outWindow := 0 }
            (endOf s (parse (format 0x7F) 0 s.toolkitCleared)) := by decide +kernel

theorem witness_CreateOutcomes : let s := toyInput 0x41 [0x20, 0x80]
    s.fsm = .unvalidated ∧ (s.outValid = false ∧ s.holds 0x7F = true
        ∧ (format 0x7F).covers s.setup.heldSubFormats s.window = true)
      ∧ written.outValid = true ∧ s.holds 0x7E = false ∧ ((1 : Word) ≠ 0 ∧ (format 0x7F).needsDeclared = false) := by
  decide +kernel

/-- Each check in turn, at its boundary: the header one byte short, another magic, no raw size, the packed data one byte
short, a raw size past the buffer where that is asked for, a raw size and a packed size past the maximum, the checksum byte
missing; and all of it there. -/
theorem witness_CreateChecksInOrder :
    ((toyInput 0x41 [0x20, 0x80]).fsm = .unvalidated ∧ (toyInput 0x41 [0x20, 0x80]).outValid = false
        ∧ (0x7F : Byte) ∈ (toyInput 0x41 [0x20, 0x80]).setup.heldFormats)
      ∧ (toyHeader 11 0x31 1 2).setup.bufSize.toNat < 12
      ∧ ((toyHeader 12 0x32 1 2).inWord 0 ≠ 0x544F5931 ∧ (toyHeader 12 0x31 1 2).inWord 0 = 0x544F5931)
      ∧ (toyHeader 14 0x31 0 2).inWord 4 = 0
      ∧ (toyHeader 13 0x31 1 2).setup.bufSize.toNat < 12 + ((toyHeader 13 0x31 1 2).inWord 8).toNat
      ∧ (let s := toyHeader 14 0x31 15 2
        let asking : State := { s with setup := { s.setup with checkRawAgainstBuffer := true } }
        asking.setup.checkRawAgainstBuffer = true ∧ asking.setup.bufSize.toNat < (asking.inWord 4).toNat
          ∧ ¬ asking.setup.bufSize.toNat < 12 + (asking.inWord 8).toNat)
      ∧ (let s := toyHeader 15 0x31 2 2
        let small : State := { s with setup := { s.setup with maxRawSize := 1 } }
        let packed : State := { s with setup := { s.setup with maxPackedSize := 1 } }
        small.setup.maxRawSize.toNat < (small.inWord 4).toNat
          ∧ packed.setup.maxPackedSize.toNat < (packed.inWord 8).toNat
          ∧ packed.setup.checkRawAgainstBuffer = false
          ∧ (after (.decCreate 0x7F 0) small).errInfo = .sizeExceedsMax
          ∧ (after (.decCreate 0x7F 0) packed).errInfo = .sizeExceedsMax)
      ∧ (toyHeader 14 0x31 1 2).setup.bufSize.toNat < 12 + ((toyHeader 14 0x31 1 2).inWord 8).toNat + 1
      ∧ ¬ (toyHeader 15 0x31 1 2).setup.bufSize.toNat < 12 + ((toyHeader 15 0x31 1 2).inWord 8).toNat + 1 := by
  decide +kernel

/-- The states of a decode: before its loop, after one step, after the verification. -/
def toyStart (checksum : Byte) (data : List Byte) : State :=
  let s := toyCreated checksum data
  endOf s (runChecked InitFailure.cause ((format s.fmt).init s.window) { s with fsm := .decoding })

def toyNext (checksum : Byte) (data : List Byte) : State :=
  let s := toyStart checksum data
  endOf s (decodeStep (format 0x7F) s)

/-- One literal to the end, with the checksum byte right and wrong; and a copy that has nothing to copy. -/
theorem witness_DecompressRunsItsLoop :
    let d := format 0x7F
    let f (checksum : Byte) (k : Nat) := if k = 0 then toyStart checksum [0x20, 0x80] else toyNext checksum [0x20, 0x80]
    let u (checksum : Byte) := endOf (f checksum 1) (runChecked VerifyFailure.cause (d.verify (f checksum 1).window) (
        f checksum 1))
    let s := toyCreated 0x41 [0x20, 0x80]
    let b := toyStart 0x41 [0x80, 0x00]
    (s.fsm = .headerParsed ∧ s.fmt = 0x7F ∧ d.chunked = false
        ∧ runChecked InitFailure.cause (d.init s.window) { s with fsm := .decoding } = .ok () (f 0x41 0)
        ∧ (∀ i < 1, (f 0x41 i).produced < (f 0x41 i).rawSize.toNat ∧ decodeStep d (f 0x41 i) = .ok () (f 0x41 (i + 1)))
        ∧ 1 ≤ stepBound d (f 0x41 0) ∧ (f 0x41 1).rawSize.toNat ≤ (f 0x41 1).produced
        ∧ runChecked VerifyFailure.cause (d.verify (f 0x41 1).window) (f 0x41 1) = .ok () (u 0x41))
      ∧ runChecked VerifyFailure.cause (d.verify (f 0x42 1).window) (f 0x42 1) = .raised .checksumMismatch (u 0x42)
      ∧ (0 < stepBound d b ∧ b.produced < b.rawSize.toNat
        ∧ decodeStep d b = .raised .copyDistance (endOf b (decodeStep d b))) := by decide +kernel

/-- An `init` that fails, its stream past the window; a chunked decode of a raw chunk and the terminator, to its end and
over a header whose checksum does not hold. -/
theorem witness_DecompressRunsItsLoop_more :
    let s : State := { toyCreated 0x41 [0x20, 0x80] with packedSize := 100 }
    let init := runChecked InitFailure.cause ((format s.fmt).init s.window) { s with fsm := .decoding }
    let d := format 0x7D
    let f (checksum : Byte) (k : Nat) : State :=
      if k = 0 then { xpkOpened checksum 0xA5 rawAndTerminator with fsm := .decoding }
      else { xpkCopied checksum 0xA5 rawAndTerminator with rsp := none }
    (s.fsm = .headerParsed ∧ (format s.fmt).chunked = false ∧ init = .raised .range (endOf s init))
      ∧ (d.chunked = true ∧ 1 < stepBound d (f 0x0A 0) ∧ (∀ i < 1, chunkBody d (f 0x0A i) = .ok .chunk (f 0x0A (i + 1)))
        ∧ chunkBody d (f 0x0A 1) = .ok .finished (endOf (f 0x0A 1) (chunkBody d (f 0x0A 1))))
      ∧ chunkBody d (f 0x0B 0) = .raised .checksumMismatch (endOf (f 0x0B 0) (chunkBody d (f 0x0B 0))) := by
  decide +kernel

theorem witness_DecompressEndsDoneOrFailed : (toyCreated 0x41 [0x20, 0x80]).Inv
    ∧ (toyCreated 0x41 [0x20, 0x80]).fsm = .headerParsed
    ∧ exec .decDecompress (toyCreated 0x41 [0x20, 0x80]) = .next (after .decDecompress (toyCreated 0x41 [0x20,
        0x80])) :=
  ⟨toyCreated_inv, rfl, exec_after (by decide +kernel)⟩

/-- TOY; a container with a sub-decompressor that makes progress; the fixture, which has none. -/
theorem witness_DecodeThatReadsAlwaysEnds : ((toyCreated 0x41 [0x20, 0x80]).Inv
      ∧ (toyCreated 0x41 [0x20, 0x80]).fsm = .headerParsed ∧ (toyCreated 0x41 [0x20, 0x80]).fmt = 0x7F
      ∧ (format 0x7F).chunked = false ∧ (format 0x7F).StepsProgress)
    ∧ ((xpkOpened 0x0A 0xA5 rawAndTerminator).Inv ∧ (xpkOpened 0x0A 0xA5 rawAndTerminator).fsm = .headerParsed)
    ∧ (xpkCompressing.subFormat (xpkOpened 0x0A 0xA5 rawAndTerminator).window = some .rake
      ∧ ∀ name, xpkCompressing.subFormat (xpkOpened 0x0A 0xA5 rawAndTerminator).window = some name →
        (xpkSub xpkCompressing name).StepsProgress)
    ∧ (fixtureParts.subFormat (xpkOpened 0x0A 0xA5 rawAndTerminator).window = none
      ∧ format (xpkOpened 0x0A 0xA5 rawAndTerminator).fmt = xpkDescriptor fixtureParts) :=
  ⟨⟨toyCreated_inv, rfl, rfl, rfl, toy_stepsProgress _⟩, ⟨xpkOpened_inv, rfl⟩,
    ⟨rfl, fun name h => by cases h; exact toy_streamProgress fun _ => rfl⟩, rfl, rfl⟩

/-- A format that is not chunked; a chunk that is delivered; the end with its verification passed; a sub-decompressor that
does nothing. -/
theorem witness_NextChunkOutcomes :
    let d := format 0x7D
    let s := xpkOpened 0x0A 0xA5 rawAndTerminator
    let s' := xpkCopied 0x0A 0xA5 rawAndTerminator
    let u := endOf s ((d.nextChunk s.window).run s.atChunk)
    let u' := endOf s' ((d.nextChunk s'.window).run s'.atChunk)
    ((toyCreated 0x41 []).fsm = .headerParsed ∧ (format (toyCreated 0x41 []).fmt).chunked = false)
      ∧ (s.fsm = .headerParsed ∧ s.fmt = 0x7D ∧ s.Inv ∧ d.chunked = true
        ∧ (d.nextChunk s.window).run s.atChunk = .ok .chunk u)
      ∧ (s'.fsm = .decoding ∧ s'.fmt = 0x7D ∧ s'.Inv ∧ (d.nextChunk s'.window).run s'.atChunk = .ok .finished u'
        ∧ u'.produced = u'.rawSize.toNat
        ∧ runChecked VerifyFailure.cause (d.verify s'.window) u'
          = .ok () (endOf u' (runChecked VerifyFailure.cause (d.verify s'.window) u')))
      ∧ (let e := xpkOpened 0x0A 0xA5 [1, 3, 0, 0x20, 0xC0, 0x40]
        e.fsm = .headerParsed ∧ (xpkDescriptor xpkIdling).chunked = true
          ∧ ((xpkDescriptor xpkIdling).nextChunk e.window).run e.atChunk
            = .ok .noProgress (endOf e (((xpkDescriptor xpkIdling).nextChunk e.window).run e.atChunk))) :=
  ⟨⟨rfl, rfl⟩, ⟨rfl, rfl, xpkOpened_inv, rfl, by decide +kernel⟩, ⟨rfl, rfl, xpkCopied_inv, by decide +kernel,
    by decide +kernel, by decide +kernel⟩, rfl, rfl, by decide +kernel⟩

/-- The raw chunk of S9, that fills the output, with its checksum right and wrong. -/
theorem witness_XpkRawChunkIsCopied :
    let x := fixtureParts
    let c : XpkChunk := { type := 0, off := 32, size := 2, rawSize := 2 }
    let s := xpkOpened 0x0A 0xA5 rawAndTerminator
    let t := endOf s ((x.headerChecksumHolds s.window).run s.atChunk)
    let u := endOf s ((x.chunkHeader s.window).run t)
    let v : State := { u with out := [(0, 0xA5), (1, 0x3C)], outCur := 2, res := 0x3C, chk := 0x99 }
    (s.Inv ∧ s.fsm = .headerParsed ∧ s.outDir = .forward ∧ x.Opens s c u
        ∧ c.off.toNat + c.size.toNat ≤ s.setup.bufSize.toNat
        ∧ u.produced + c.size.toNat ≤ u.rawSize.toNat ∧ format s.fmt = xpkDescriptor x)
      ∧ (x.chunkChecksumHolds c s.window).run v
        = .ok true (endOf s ((x.chunkChecksumHolds c s.window).run v))
      ∧ (x.chunkChecksumHolds c s.window).run { v with chk := 0x98 }
        = .ok false (endOf s ((x.chunkChecksumHolds c s.window).run { v with chk := 0x98 })) :=
  ⟨⟨xpkOpened_inv, rfl, rfl, ⟨(xpkOpened 0x0A 0xA5 rawAndTerminator).atChunk, by decide +kernel, by decide +kernel⟩, by decide +kernel,
      by decide +kernel, rfl⟩,
    by decide +kernel, by decide +kernel⟩

/-- A header checksum that does not hold, a chunk of type 1, a terminator too early, and one at the end over the stored
bytes and over others. -/
theorem witness_XpkTerminatorTypesAndHeaderChecksum :
    let x := fixtureParts
    let header (s : State) := (x.headerChecksumHolds s.window).run s.atChunk
    let chunk (s : State) := (x.chunkHeader s.window).run (endOf s (header s))
    let s := xpkOpened 0x0B 0xA5 rawAndTerminator
    let odd := xpkOpened 0x0A 0xA5 [1, 2, 0x99, 0xA5, 0x3C, 15, 0, 0]
    let early := xpkOpened 0x0A 0xA5 [15, 0, 0, 0, 0, 0, 0, 0]
    let last (first : Byte) := xpkCopied 0x0A first rawAndTerminator
    let u (first : Byte) := endOf (last first) ((x.chunkHeader (last first).window).run (last first).atChunk)
    let stored (first : Byte) : List Byte := [first, 0x3C, 0, 0, 0, 0, 0, 0, 0, 0, 0, 0, 0, 0, 0, 0]
    (s.fsm = .headerParsed ∧ s.chunkIdx = 0 ∧ header s = .ok false (endOf s (header s))
        ∧ format s.fmt = xpkDescriptor x)
      ∧ (x.Opens odd { type := 1, off := 32, size := 2, rawSize := 2 } (endOf odd (chunk odd))
        ∧ x.isCompressed 1 = false)
      ∧ (x.Opens early { type := 15, off := 32, size := 0, rawSize := 0 } (endOf early (chunk early))
        ∧ (endOf early (chunk early)).produced ≠ (endOf early (chunk early)).rawSize.toNat)
      ∧ ((last 0xA5).fsm = .decoding ∧ x.Opens (last 0xA5) { type := 15, off := 37, size := 0, rawSize := 0 } (u 0xA5)
        ∧ (u 0xA5).produced = (u 0xA5).rawSize.toNat
        ∧ (x.storedFirst16 (last 0xA5).window).run (u 0xA5) = .ok (stored 0xA5) (u 0xA5)
        ∧ ∀ i < min 16 (u 0xA5).rawSize.toNat, (stored 0xA5)[i]? = some ((Memory.get (u 0xA5).out i).getD 0))
      ∧ (x.Opens (last 0xA4) { type := 15, off := 37, size := 0, rawSize := 0 } (u 0xA4)
        ∧ (x.storedFirst16 (last 0xA4).window).run (u 0xA4) = .ok (stored 0xA4) (u 0xA4)
        ∧ ¬ ∀ i < min 16 (u 0xA4).rawSize.toNat, (stored 0xA4)[i]? = some ((Memory.get (u 0xA4).out i).getD 0)) :=
  ⟨⟨rfl, rfl, by decide +kernel, rfl⟩,
    ⟨⟨(xpkOpened 0x0A 0xA5 [1, 2, 0x99, 0xA5, 0x3C, 15, 0, 0]).atChunk, by decide +kernel, by decide +kernel⟩, rfl⟩,
    ⟨⟨(xpkOpened 0x0A 0xA5 [15, 0, 0, 0, 0, 0, 0, 0]).atChunk, by decide +kernel, by decide +kernel⟩, by decide +kernel⟩,
    ⟨rfl, ⟨(xpkCopied 0x0A 0xA5 rawAndTerminator).atChunk, by decide +kernel, by decide +kernel⟩, by decide +kernel,
      by decide +kernel, by decide +kernel⟩,
    ⟨(xpkCopied 0x0A 0xA4 rawAndTerminator).atChunk, by decide +kernel, by decide +kernel⟩, by decide +kernel,
    by decide +kernel⟩

/-- A copy after a read in generation 6, of the largest count that can be corrected and of the one that cannot; another
generation; a magic that selects a generation; an ambiguous one over a header that is of generation 2, and over one that is
not. -/
theorem witness_StoneCrackerQuirks :
    let s := window 4 [0x53, 0x33, 0x30, 0x30]
    let s' := window 4 [0x53, 0x33, 0x31, 0x30]
    let b : State := { decodingOf [0x80] with gen := 6 }
    let b' : State := { decodingOf [0x80] with gen := 5 }
    let step (s : State) := runChecked StepFailure.cause ((stoneDescriptor (stoneParts 1 true)).step s.window) s
    (b.gen.toNat = 6 ∧ (endOf b (step b)).out.map Prod.snd = [0x41, 0x41, 0x41]
        ∧ b'.gen.toNat ≠ 6 ∧ (endOf b' (step b')).out.map Prod.snd = [0x41, 0x41]
        ∧ ((stoneParts 0xFFFFFFFF true).step 6 b.window).runAs countCorrected b
          = .raised .valueOverflow (endOf b (((stoneParts 0xFFFFFFFF true).step 6 b.window).runAs countCorrected b))
        ∧ ((stoneParts 0xFFFFFFFE true).step 6 b.window).runAs countCorrected b
          = .raised .outputOverrun (endOf b (((stoneParts 0xFFFFFFFE true).step 6 b.window).runAs countCorrected b)))
      ∧ ((stoneParts 0 true).minHeader ≤ s.setup.bufSize.toNat ∧ bareMagic 3 s.window = true
        ∧ (stoneParts 0 true).matchMore s.window = true ∧ (stoneParts 0 true).selects (s.inWord 0).toNat = .twoOrOne)
      ∧ ((stoneParts 0 true).minHeader ≤ s'.setup.bufSize.toNat ∧ bareMagic 3 s'.window = true
        ∧ (stoneParts 0 true).matchMore s'.window = true
        ∧ (stoneParts 0 true).selects (s'.inWord 0).toNat = .generation .gen6
        ∧ parse (stoneDescriptor (stoneParts 0 true)) 0 s'
          = .ok { (default : HeaderInfo) with rawSize := 2, packedSize := 1, gen := 6 } s')
      ∧ (interpret (stoneDescriptor (stoneParts 0 true)) ((stoneParts 0 true).readingOf .gen2) 0 s
          = .ok { (default : HeaderInfo) with rawSize := 1, packedSize := 1, gen := 2 } s)
      ∧ (interpret (stoneDescriptor (stoneParts 0 false)) ((stoneParts 0 false).readingOf .gen2) 0 s
          = .raised .badHeaderField s)
      ∧ parse (stoneDescriptor (stoneParts 0 false)) 0 s
          = .ok { (default : HeaderInfo) with rawSize := 2, packedSize := 1, gen := 1 } s :=
  ⟨by decide +kernel, ⟨by decide, by decide, rfl, by decide⟩, ⟨by decide, by decide, rfl, by decide, by decide +kernel⟩,
    by decide +kernel, by decide +kernel, by decide +kernel⟩

/-- A magic, a window one byte short of one, the secondary tag there and missing; a descriptor that is held. -/
theorem witness_DetectResult : (let s := window 4 [0x58, 0x50, 0x4B, 0x46]
      let held : State := { s with setup := { s.setup with heldFormats := [1] } }
      held.fsm = .unvalidated ∧ held.holds 1 = true ∧ held.holds 2 = false)
    ∧ (window 4 [0x58, 0x50, 0x4B, 0x46]).fsm = .unvalidated
    ∧ (window 4 [0x58, 0x50, 0x4B, 0x46]).setup.heldFormats = []
    ∧ (window 4 [0x58, 0x50, 0x4B, 0x46]).inWord 0 = 0x58504B46
    ∧ (window 3 [0x58, 0x50, 0x4B, 0x46]).setup.bufSize.toNat < 4
    ∧ (window 7 [0x7A, 0x69, 0x52, 0x43, 0x4F, 0x4E, 0x69, 0x61]).inWord 0 = 0x7A695243
    ∧ (window 8 [0x7A, 0x69, 0x52, 0x43, 0x4F, 0x4E, 0x69, 0x61]).inWord 4 = 0x4F4E6961 := by decide +kernel

theorem witness_FrameOfValueCommands : exec (.bufRdle16 2) input = .next (after (.bufRdle16 2) input)
    ∧ exec (.bufRd8 4) input = .next (after (.bufRd8 4) input)
    ∧ exec (.bufGetdata 0 4) input = .next (after (.bufGetdata 0 4) input)
    ∧ exec (.ovfSum true 1 0) input = .next (after (.ovfSum true 1 0) input) := by
  refine ⟨?_, ?_, ?_, ?_⟩ <;> exact exec_after (by decide +kernel)

theorem witness_FrameOfReaderCommands :
    exec (.brInit .msbFirst .backward 0 .bigEndian true 0 4) input
        = .next (after (.brInit .msbFirst .backward 0 .bigEndian true 0 4) input)
      ∧ exec (.brReset 32 1) (reader .msbFirst) = .next (after (.brReset 32 1) (reader .msbFirst))
      ∧ exec (.brAnchor 1) (reader .msbFirst) = .next (after (.brAnchor 1) (reader .msbFirst))
      ∧ exec (.brRead 32) (reader .msbFirst) = .next (after (.brRead 32) (reader .msbFirst))
      ∧ exec (.vlcDecode 3) vlcLoaded = .next (after (.vlcDecode 3) vlcLoaded) := by
  refine ⟨?_, ?_, ?_, ?_, ?_⟩ <;> exact exec_after (by decide +kernel)

theorem witness_FrameOfTableCommands : exec (.hufSetlen 1023 32) input = .next (after (.hufSetlen 1023 32) input)
    ∧ exec (.hufSettri 0 1 1 0) input = .next (after (.hufSettri 0 1 1 0) input)
    ∧ exec (.vlcSet 63 32 0) input = .next (after (.vlcSet 63 32 0) input)
    ∧ exec (.vlcSetn 3) vlcLoaded = .next (after (.vlcSetn 3) vlcLoaded)
    ∧ exec (.hufMake 7 false 2 4) (tabled workedTable []) = .next (after (.hufMake 7 false 2 4) (tabled workedTable []))
    ∧ exec (.hufFixed 3 false 2 3) (tabled workedTable []) = .next (after (.hufFixed 3 false 2 3) (
        tabled workedTable []))
    ∧ exec (.hufAdapt 7) adaptive = .next (after (.hufAdapt 7) adaptive)
    ∧ exec (.hufDecode 7) (tabled workedTable [0xDC]) = .next (after (.hufDecode 7) (tabled workedTable [0xDC]))
    ∧ (∀ table, Memory.get (tabled workedTable [0xDC]).ht 7 = some table → table.mode ≠ .adaptive) :=
  ⟨exec_after (by decide +kernel), exec_after (by decide +kernel), exec_after (by decide +kernel),
    exec_after (by decide +kernel), exec_after (by decide +kernel), exec_after (by decide +kernel), exec_after (by rfl),
    exec_after (by decide +kernel), fun _ h => by cases h; decide⟩

theorem witness_FrameOfOutputCommands : written.OutputInv ∧ writtenBack.OutputInv ∧ input.OutputInv
    ∧ exec (.outInit .backward 6 0) input = .next (after (.outInit .backward 6 0) input)
    ∧ exec (.outWritebyte 1) written = .next (after (.outWritebyte 1) written)
    ∧ exec (.outCopy 4 10) written = .next (after (.outCopy 4 10) written)
    ∧ exec (.outCopy 1 5) writtenBack = .next (after (.outCopy 1 5) writtenBack) :=
  ⟨by decide +kernel, by decide +kernel, by decide +kernel, exec_after (by decide +kernel),
    exec_after (by decide +kernel), exec_after (by decide +kernel), exec_after (by decide +kernel)⟩

theorem witness_FrameOfDecompressorCommands :
    exec (.decCreate 0x7F 0) (toyInput 0x41 [0x20, 0x80]) = .next (after (.decCreate 0x7F 0) (toyInput 0x41 [0x20,
        0x80]))
      ∧ exec .decDecompress (toyCreated 0x41 [0x20, 0x80])
        = .next (after .decDecompress (toyCreated 0x41 [0x20, 0x80]))
      ∧ (format (toyCreated 0x41 [0x20, 0x80]).fmt).chunked = false
      ∧ exec .decNextchunk (toyCreated 0x41 []) = .next (after .decNextchunk (toyCreated 0x41 [])) :=
  ⟨exec_after (by decide +kernel), exec_after (by decide +kernel), rfl, exec_after (by decide +kernel)⟩

end Sys2Proof.Tests
end

section
/-!
The word and its fields, what `decode` answers on a word of a row, and the statements on encoding (30_encoding.md R60
to R68).
-/
namespace Sys2Proof

/-! ## A word and its fields -/

/-- Two neighbouring fields of a word, put side by side. -/
theorem append_of_adjacent {n s t k m : Nat} {x : BitVec n} {hi : BitVec m} {lo : BitVec k}
    (hhi : hi = x.extractLsb' t m) (hlo : lo = x.extractLsb' s k) (h : t = s + k := by rfl) :
    hi ++ lo = x.extractLsb' s (m + k) := by
  rw [hhi, hlo, BitVec.extractLsb'_append_extractLsb'_eq_extractLsb' h]

/-- The four fields cover the word (30_encoding.md R60). -/
theorem commandWord_fields (w : Command) : commandWord w.op w.f w.a w.b = w :=
  (append_of_adjacent (append_of_adjacent (append_of_adjacent (x := w) rfl rfl) rfl) rfl).trans
    BitVec.extractLsb'_eq_self

theorem commandWord_eq {w : Command} {op : BitVec 8} {f : BitVec 24} {a b : Word} (hop : op = w.op) (hf : f = w.f)
    (ha : a = w.a) (hb : b = w.b) : commandWord op f a b = w := by
  rw [hop, hf, ha, hb, commandWord_fields]

theorem Command.op_of_toNat {w : Command} {n : Nat} (h : w.op.toNat = n) : BitVec.ofNat 8 n = w.op := by
  rw [← h, BitVec.ofNat_toNat, BitVec.setWidth_eq]

/-- A part of `F` by its place in the whole word. -/
theorem Command.f_extract (w : Command) {s l : Nat} (h : s + l ≤ 24) :
    w.f.extractLsb' s l = w.extractLsb' (64 + s) l := by
  ext i hi
  simp [Command.f, show s + i < 24 by omega, Nat.add_assoc]

theorem Command.op_and (w v : Command) : (w &&& v).op = w.op &&& v.op := BitVec.extractLsb'_and
theorem Command.f_and (w v : Command) : (w &&& v).f = w.f &&& v.f := BitVec.extractLsb'_and
theorem Command.a_and (w v : Command) : (w &&& v).a = w.a &&& v.a := BitVec.extractLsb'_and
theorem Command.b_and (w v : Command) : (w &&& v).b = w.b &&& v.b := BitVec.extractLsb'_and

@[simp] theorem BitOrder.bit_ofBit (b : Bool) : (BitOrder.ofBit b).bit = b := by cases b <;> rfl
@[simp] theorem Direction.bit_ofBit (b : Bool) : (Direction.ofBit b).bit = b := by cases b <;> rfl
@[simp] theorem ByteOrder.bit_ofBit (b : Bool) : (ByteOrder.ofBit b).bit = b := by cases b <;> rfl

theorem bitField_getLsbD {n : Nat} (x : BitVec n) (k : Nat) : bitField (x.getLsbD k) = x.extractLsb' k 1 := by
  ext i hi
  simp [bitField, show i = 0 by omega]

/-! ## A field put together again from the operands read from it -/

theorem clear_append_low {m k : Nat} {x : BitVec (m + k)} (h : x.extractLsb' k m = 0) :
    0#m ++ x.extractLsb' 0 k = x :=
  (append_of_adjacent h.symm rfl k.zero_add.symm).trans BitVec.extractLsb'_eq_self

theorem high_append_clear {m k : Nat} {x : BitVec (m + k)} (h : x.extractLsb' 0 k = 0) :
    x.extractLsb' k m ++ 0#k = x :=
  (append_of_adjacent rfl h.symm k.zero_add.symm).trans BitVec.extractLsb'_eq_self

theorem clear_append_bit {f : BitVec 24} (h : f.extractLsb' 1 23 = 0) : 0#23 ++ bitField (f.getLsbD 0) = f :=
  (append_of_adjacent h.symm (bitField_getLsbD f 0)).trans BitVec.extractLsb'_eq_self

theorem makeField_fields {f : BitVec 24} (h : f.extractLsb' 9 7 = 0) (h' : f.extractLsb' 5 3 = 0) :
    makeField (f.extractLsb' 16 8) (f.getLsbD 8) (f.extractLsb' 0 5) = f :=
  (append_of_adjacent (append_of_adjacent (append_of_adjacent (append_of_adjacent (x := f) rfl h.symm)
    (bitField_getLsbD f 8)) h'.symm) rfl).trans BitVec.extractLsb'_eq_self

/-- The `F` field of `HUF.SETTRI`. -/
theorem tripleField_fields {f : BitVec 24} (h : f.extractLsb' 6 2 = 0) :
    f.extractLsb' 8 16 ++ 0#2 ++ f.extractLsb' 0 6 = f :=
  (append_of_adjacent (append_of_adjacent (x := f) rfl h.symm) rfl).trans BitVec.extractLsb'_eq_self

/-- The `F` field of `VLC.SET`. -/
theorem vlcField_fields {f : BitVec 24} (h : f.extractLsb' 16 8 = 0) (h' : f.extractLsb' 6 2 = 0) :
    0#8 ++ f.extractLsb' 8 8 ++ 0#2 ++ f.extractLsb' 0 6 = f :=
  (append_of_adjacent (append_of_adjacent (append_of_adjacent (x := f) h.symm rfl) h'.symm) rfl).trans
    BitVec.extractLsb'_eq_self

/-- The `F` field of `BR.INIT`. -/
theorem readerField_fields {f : BitVec 24} (h : f.extractLsb' 6 18 = 0) :
    0#18 ++ bitField (f.getLsbD 5) ++ bitField (f.getLsbD 4) ++ f.extractLsb' 2 2 ++ bitField (f.getLsbD 1)
      ++ bitField (f.getLsbD 0) = f :=
  (append_of_adjacent (append_of_adjacent (append_of_adjacent (append_of_adjacent (append_of_adjacent h.symm
    (bitField_getLsbD f 5)) (bitField_getLsbD f 4)) rfl) (bitField_getLsbD f 1)) (bitField_getLsbD f 0)).trans
    BitVec.extractLsb'_eq_self

/-! ## What `decode` answers -/

theorem whenClear_eq_ok_iff {c : Bool} {i j : Instr} : whenClear c i = .ok j ↔ c = true ∧ i = j := by
  cases c <;> simp [whenClear]

theorem whenClear_ne_reservedWidth (c : Bool) (i : Instr) : whenClear c i ≠ .error .reservedWidth := by
  cases c <;> simp [whenClear]

/-- The one row whose refusal has two reasons (30_encoding.md R61, R67). -/
theorem decode_of_op_brInit {w : Command} (h : w.op = 0x20) :
    decode w =
      if w.f.extractLsb' 6 18 ≠ 0 then .error .unassignedBits
      else if w.f.extractLsb' 2 2 = 3 then .error .reservedWidth
      else .ok (.brInit (.ofBit (w.f.getLsbD 0)) (.ofBit (w.f.getLsbD 1)) (w.f.extractLsb' 2 2)
        (.ofBit (w.f.getLsbD 4)) (w.f.getLsbD 5) w.a w.b) := by
  simp [decode, h, refillWidthLegal]

/-- A command that was read is well formed and is spelled by the word it was read from: the unassigned bits are clear
(30_encoding.md R61), so the operands and the opcode make up the word. The cases stand together by where their operands
lie. -/
theorem encode_of_decode {w : Command} {i : Instr} (h : decode w = .ok i) : i.wellFormed = true ∧ encode i = w := by
  by_cases hinit : w.op = 0x20
  · rw [decode_of_op_brInit hinit] at h
    split_ifs at h with hclear hwidth
    cases h
    refine ⟨by simpa [Instr.wellFormed, refillWidthLegal] using hwidth, commandWord_eq hinit.symm ?_ rfl rfl⟩
    simpa using readerField_fields (not_not.1 hclear)
  · unfold decode at h
    extract_lets f a b fNone aNone bNone at h
    split at h
    case h_12 hop => exact absurd (w.op_of_toNat hop).symm hinit
    case h_36 => cases h
    all_goals
      rename_i hop
      replace hop := w.op_of_toNat hop
      obtain ⟨hclear, rfl⟩ := whenClear_eq_ok_iff.1 h
      simp only [fNone, aNone, bNone, Bool.and_eq_true, beq_iff_eq] at hclear
      refine ⟨rfl, ?_⟩
    -- no operand
    case h_1 | h_2 | h_3 | h_29 | h_32 | h_33 | h_34 | h_35 =>
      obtain ⟨⟨hf, ha⟩, hb⟩ := hclear
      exact commandWord_eq hop hf.symm ha.symm hb.symm
    -- the operand is `A`
    case h_4 | h_5 | h_6 | h_7 | h_8 | h_10 | h_14 | h_25 | h_30 =>
      obtain ⟨hf, hb⟩ := hclear
      exact commandWord_eq hop hf.symm rfl hb.symm
    -- the operands are `A` and `B`
    case h_9 | h_28 => exact commandWord_eq hop hclear.symm rfl rfl
    -- `OVF.SUM`, `OUT.INIT`: a bit of `F`, then `A` and `B`
    case h_11 => exact commandWord_eq hop (clear_append_bit hclear) rfl rfl
    case h_26 => exact commandWord_eq hop (by simpa using clear_append_bit hclear) rfl rfl
    -- the low bits of `F`, then `A`
    case h_13 | h_16 | h_31 =>
      obtain ⟨hf, hb⟩ := hclear
      exact commandWord_eq hop (clear_append_low hf) rfl hb.symm
    -- the low bits of `F` alone
    case h_15 | h_24 =>
      obtain ⟨⟨hf, ha⟩, hb⟩ := hclear
      exact commandWord_eq hop (clear_append_low hf) ha.symm hb.symm
    -- `HUF.SETLEN`
    case h_17 =>
      obtain ⟨⟨hf, ha⟩, hb⟩ := hclear
      exact commandWord_eq hop (clear_append_low hf) (clear_append_low ha) hb.symm
    -- `HUF.SETTRI`
    case h_18 =>
      obtain ⟨hf, hb⟩ := hclear
      exact commandWord_eq hop (tripleField_fields hf) rfl (clear_append_low hb)
    -- `HUF.MAKE`, `HUF.FIXED`
    case h_19 | h_20 =>
      obtain ⟨⟨hf, hf'⟩, hb⟩ := hclear
      exact commandWord_eq hop (makeField_fields hf hf') rfl hb.symm
    -- the high bits of `F` alone
    case h_21 | h_22 =>
      obtain ⟨⟨hf, ha⟩, hb⟩ := hclear
      exact commandWord_eq hop (high_append_clear hf) ha.symm hb.symm
    -- `VLC.SET`
    case h_23 =>
      obtain ⟨⟨hf, hf'⟩, hb⟩ := hclear
      exact commandWord_eq hop (vlcField_fields hf hf') rfl hb.symm
    -- `OUT.WRITEBYTE`
    case h_27 =>
      obtain ⟨⟨hf, ha⟩, hb⟩ := hclear
      exact commandWord_eq hop hf.symm (clear_append_low ha) hb.symm

/-- The reserved width is named as the reason just where it is the only one (30_encoding.md R67). -/
theorem decode_eq_reservedWidth_iff {w : Command} :
    decode w = .error .reservedWidth ↔ w.op = 0x20 ∧ w.f.extractLsb' 2 2 = 3 ∧ w.f.extractLsb' 6 18 = 0 := by
  by_cases hinit : w.op = 0x20
  · rw [decode_of_op_brInit hinit]
    split_ifs <;> simp_all
  · refine iff_of_false (fun h => ?_) fun h => hinit h.1
    unfold decode at h
    extract_lets at h
    split at h
    case h_12 hop => exact hinit (w.op_of_toNat hop).symm
    case h_36 => cases h
    all_goals exact whenClear_ne_reservedWidth _ _ h

/-! ## The rows of the opcode table -/

/-- Bits that a mask covers and finds clear are clear. -/
theorem extract_of_mask {n : Nat} {x m : BitVec n} (h : x &&& m = 0#n) {s l : Nat}
    (hm : m.extractLsb' s l = BitVec.allOnes l) : x.extractLsb' s l = 0#l := by
  have hx := congrArg (BitVec.extractLsb' s l) h
  rwa [BitVec.extractLsb'_and, hm, BitVec.and_allOnes, BitVec.extractLsb'_zero] at hx

theorem eq_zero_of_mask {n : Nat} {x m : BitVec n} (h : x &&& m = 0#n) (hm : m = BitVec.allOnes n) : x = 0#n := by
  rwa [hm, BitVec.and_allOnes] at h

/-- Every mask covers the opcode, and every match asks for an opcode and clear bits (30_encoding.md R65). -/
theorem row_covers_op (i : Instr) : i.row.mask.op = BitVec.allOnes 8
    ∧ i.row.pattern.f = 0 ∧ i.row.pattern.a = 0 ∧ i.row.pattern.b = 0 := by
  cases i <;> (rw [Instr.row]; decide)

/-- A word of a row has the row's opcode, and its fields are clear under the row's mask (30_encoding.md R65). -/
theorem fields_of_match {w : Command} {i : Instr} (h : w &&& i.row.mask = i.row.pattern) :
    w.op = i.row.pattern.op ∧ w.f &&& i.row.mask.f = 0 ∧ w.a &&& i.row.mask.a = 0 ∧ w.b &&& i.row.mask.b = 0 := by
  obtain ⟨hop, hf, ha, hb⟩ := row_covers_op i
  refine ⟨?_, ?_, ?_, ?_⟩
  · rw [← h, Command.op_and, hop, BitVec.and_allOnes]
  · rw [← Command.f_and, h, hf]
  · rw [← Command.a_and, h, ha]
  · rw [← Command.b_and, h, hb]

/-- The match of a row is itself a word of a command of that row. -/
theorem decode_pattern (i : Instr) : (decode i.row.pattern).map Instr.row = .ok i.row := by
  cases i <;> (rw [Instr.row]; decide)

/-- Two rows with one opcode are one row. -/
theorem row_eq_of_op_eq {i j : Instr} (h : i.row.pattern.op = j.row.pattern.op) : i.row = j.row := by
  have hpattern : i.row.pattern = j.row.pattern := by
    obtain ⟨-, hf, ha, hb⟩ := row_covers_op i
    obtain ⟨-, hf', ha', hb'⟩ := row_covers_op j
    rw [← commandWord_fields i.row.pattern, ← commandWord_fields j.row.pattern, h, hf, ha, hb, hf', ha', hb']
  have hrow := decode_pattern i
  rw [hpattern, decode_pattern j] at hrow
  exact (Except.ok.inj hrow).symm

/-- A word of a row is a command or, in the row of `BR.INIT`, has the reserved width: the mask covers every bit that
`decode` wants clear. -/
theorem decode_of_match {w : Command} {j : Instr} (h : w &&& j.row.mask = j.row.pattern) :
    (∃ i, decode w = .ok i) ∨ decode w = .error .reservedWidth := by
  obtain ⟨hop, hf, ha, hb⟩ := fields_of_match h
  cases j <;> simp only [Instr.row] at hop hf ha hb
  case brInit =>
    have hclear : w.f.extractLsb' 6 18 = 0 := extract_of_mask hf (by decide)
    rw [decode_of_op_brInit (hop.trans (by decide)), if_neg (not_not.2 hclear)]
    split_ifs
    · exact .inr rfl
    · exact .inl ⟨_, rfl⟩
  all_goals
    simp only [Command.op, Command.f, Command.a, Command.b] at hop hf ha hb
    simp [decode, Command.op, Command.f, Command.a, Command.b, hop, whenClear, extract_of_mask hf, extract_of_mask ha,
      extract_of_mask hb, eq_zero_of_mask hf, eq_zero_of_mask ha, eq_zero_of_mask hb]

open Laws.EncodesInItsRow in
/-- The word of a command is a word of its row: the lemmas of each constructor together (30_encoding.md R65). -/
theorem encode_matches_row (i : Instr) : encode i &&& i.row.mask = i.row.pattern := by
  change Statement i
  cases i <;> simp only [reset, status, bufSize, bufRd8, bufRdbe16, bufRdbe32, bufRdle16, bufRdle32, bufGetdata,
    bufSlrd8, ovfSum, brInit, brReset, brAnchor, brRead, rotb, hufSetlen, hufSettri, hufMake, hufFixed, hufAdapt,
    hufDecode, vlcSet, vlcSetn, vlcDecode, outInit, outWritebyte, outCopy, outEof, outRd8, decCreate, decGetrawsize,
    decDecompress, decNextchunk, dispDetect]

/-! ## The statements -/

/-- Settles O4: a decoded word is the word of its command, so it lies in that command's row, and rows are told apart by
their opcode; a word of a row is refused for its width alone. -/
theorem decodingMatchesOneRow : Obligations.DecodingMatchesOneRow := by
  refine ⟨fun w i h => ?_, fun w e h he j hj => ?_, fun w => ?_⟩
  · obtain ⟨-, rfl⟩ := encode_of_decode h
    have hi := encode_matches_row i
    exact ⟨hi, fun j hj => row_eq_of_op_eq ((fields_of_match hj).1.symm.trans (fields_of_match hi).1)⟩
  · obtain ⟨i, hok⟩ | hwidth := decode_of_match hj
    · cases h.symm.trans hok
    · cases h.symm.trans hwidth
      exact he rfl
  · rw [decode_eq_reservedWidth_iff, w.f_extract (by decide), w.f_extract (by decide)]
    rfl

/-- A word that decodes to no command is taken and turned away (30_encoding.md R68). -/
theorem Machine.step_of_decode_error {s : Machine.State} {w : Command} {rest : List Machine.Request} {e : DecodeError}
    (hpending : s.pending = { word := w, setup := none } :: rest) (h : decode w = .error e) :
    Machine.step s = .next (Machine.State.turnedAway { s with pending := rest }) := by
  simp only [Machine.step, hpending, h]
  rfl

/-- Settles O6: such a word cannot decode, for it would be the word of the well-formed command it decodes to. -/
theorem illegalWordIsTurnedAway : Obligations.IllegalWordIsTurnedAway := by
  intro s w rest hpending hnone
  cases h : decode w with
  | ok i =>
    obtain ⟨hwf, hword⟩ := encode_of_decode h
    exact absurd hword (hnone i hwf)
  | error e => exact Machine.step_of_decode_error hpending h

end Sys2Proof
end

section
/-!
What the commands that answer a value come to: the answers of a host's command, the Buffer's reads, the slice and the
overflow-checked sum (40_buffer.md R80 to R88), `OUT.EOF`, `DEC.GETRAWSIZE`, and what all of them leave alone.
-/
namespace Sys2Proof

/-! ## The fields of a word put together (30_encoding.md R60) -/

section
variable (op : BitVec 8) (f : BitVec 24) (a b : Word)

@[simp] theorem commandWord_op : (commandWord op f a b).op = op :=
  calc (op ++ f ++ a ++ b).extractLsb' 88 8
    _ = (op ++ f ++ a).extractLsb' 56 8 := BitVec.extractLsb'_append_eq_of_le (by decide)
    _ = (op ++ f).extractLsb' 24 8 := BitVec.extractLsb'_append_eq_of_le (by decide)
    _ = op := BitVec.extractLsb'_append_eq_left

@[simp] theorem commandWord_f : (commandWord op f a b).f = f :=
  calc (op ++ f ++ a ++ b).extractLsb' 64 24
    _ = (op ++ f ++ a).extractLsb' 32 24 := BitVec.extractLsb'_append_eq_of_le (by decide)
    _ = (op ++ f).extractLsb' 0 24 := BitVec.extractLsb'_append_eq_of_le (by decide)
    _ = f := BitVec.extractLsb'_append_eq_right

@[simp] theorem commandWord_a : (commandWord op f a b).a = a :=
  calc (op ++ f ++ a ++ b).extractLsb' 32 32
    _ = (op ++ f ++ a).extractLsb' 0 32 := BitVec.extractLsb'_append_eq_of_le (by decide)
    _ = a := BitVec.extractLsb'_append_eq_right

@[simp] theorem commandWord_b : (commandWord op f a b).b = b := BitVec.extractLsb'_append_eq_right

end

namespace Machine

/-! ## How a host's command answers -/

section
variable {k : Kind} {op : State → Run (Option Word)} {s t : State}

theorem accepts_buffer {fsm : Fsm} (h : fsm ≠ .failed) : accepts .host .buffer fsm = true := by
  cases fsm
  case failed => exact absurd rfl h
  all_goals rfl

theorem accepts_outEof {fsm : Fsm} (h : fsm ≠ .failed) : accepts .host .outEof fsm = true := by
  cases fsm
  case failed => exact absurd rfl h
  all_goals rfl

/-- A legal command that ends with a result answers it (30_encoding.md R63). -/
theorem hostCommand_of_result {v : Word} (ha : accepts .host k s.fsm = true) (h : op s = result v t) :
    hostCommand k op s = .next (t.returned v) := by
  rw [hostCommand_of_accepted ha, h]; rfl

/-- A command that refuses is turned away, whether it was legal or not (60_exceptions.md R267). -/
theorem hostCommand_of_illegal (h : op s = .illegal) : hostCommand k op s = .next s.turnedAway := by
  cases ha : accepts .host k s.fsm
  · exact hostCommand_of_refused ha op
  · rw [hostCommand_of_accepted ha, h]; rfl

/-- The category of a range failure is decided by the state (60_exceptions.md R270). -/
theorem State.failed_range (hs : s.fsm ≠ .failed) : s.failed .range = s.rangeFaulted := by
  unfold State.rangeFaulted
  split
  case h_1 h => simp [State.failed_of_not_done, h, Cause.category]
  case h_2 h | h_3 h => simp [State.failed_of_not_done, h, Cause.category]
  case h_4 h => simp [State.failed_of_done, h, Cause.category, Category.status]
  case h_5 h => exact absurd h hs

/-- A legal command that raises `Range` where it began is the range fault of its state (60_exceptions.md R270). -/
theorem hostCommand_of_range (hs : s.fsm ≠ .failed) (ha : accepts .host k s.fsm = true) (h : op s = .raised .range s) :
    hostCommand k op s = .next s.rangeFaulted := by
  rw [hostCommand_of_accepted ha, h, outcome_raised, State.failed_range hs]

end

/-! ## Bytes side by side (20_memory.md R45) -/

/-- The number of a bit vector put into a register. -/
theorem word_of_toNat {n : Nat} (x : BitVec n) : word x.toNat = x.setWidth 32 := BitVec.ofNat_toNat 32 x

/-- One more byte on the least significant side. -/
theorem append_byte_toNat {n : Nat} (x : BitVec n) (b : Byte) : (x ++ b).toNat = x.toNat * 256 + b.toNat := by
  rw [BitVec.toNat_append, ← Nat.shiftLeft_add_eq_or_of_lt b.isLt, Nat.shiftLeft_eq]

theorem littleEndian_eq_bigEndian_reverse (bs : List Byte) : littleEndian bs = bigEndian bs.reverse := by
  simp only [littleEndian, bigEndian, List.foldl_reverse, Nat.mul_comm, Nat.add_comm]

theorem bigEndian_one (a : Byte) : bigEndian [a] = a.toNat := by simp [bigEndian]

theorem bigEndian_two (a b : Byte) : bigEndian [a, b] = (a ++ b).toNat := by simp [bigEndian, append_byte_toNat]

theorem bigEndian_four (a b c d : Byte) : bigEndian [a, b, c, d] = (a ++ b ++ c ++ d).toNat := by
  simp [bigEndian, append_byte_toNat]

theorem littleEndian_two (a b : Byte) : littleEndian [a, b] = (b ++ a).toNat := by
  rw [littleEndian_eq_bigEndian_reverse]; exact bigEndian_two b a

theorem littleEndian_four (a b c d : Byte) : littleEndian [a, b, c, d] = (d ++ c ++ b ++ a).toNat := by
  rw [littleEndian_eq_bigEndian_reverse]; exact bigEndian_four d c b a

section
variable (s : State) (a : Nat)

theorem memRead_one : s.memRead a 1 = [s.inByte a] := rfl

theorem memRead_two : s.memRead a 2 = [s.inByte a, s.inByte (a + 1)] := rfl

theorem memRead_four : s.memRead a 4 = [s.inByte a, s.inByte (a + 1), s.inByte (a + 2), s.inByte (a + 3)] := rfl

theorem word_memRead_8 : word (combine .bigEndian (s.memRead a 1)) = (s.inByte a).setWidth 32 := by
  rw [combine, memRead_one, bigEndian_one, word_of_toNat]

theorem word_memRead_be16 :
    word (combine .bigEndian (s.memRead a 2)) = (s.inByte a ++ s.inByte (a + 1)).setWidth 32 := by
  rw [combine, memRead_two, bigEndian_two, word_of_toNat]

theorem word_memRead_le16 :
    word (combine .littleEndian (s.memRead a 2)) = (s.inByte (a + 1) ++ s.inByte a).setWidth 32 := by
  rw [combine, memRead_two, littleEndian_two, word_of_toNat]

theorem word_memRead_be32 : word (combine .bigEndian (s.memRead a 4))
    = s.inByte a ++ s.inByte (a + 1) ++ s.inByte (a + 2) ++ s.inByte (a + 3) := by
  rw [combine, memRead_four, bigEndian_four, word_of_toNat, BitVec.setWidth_eq]

theorem word_memRead_le32 : word (combine .littleEndian (s.memRead a 4))
    = s.inByte (a + 3) ++ s.inByte (a + 2) ++ s.inByte (a + 1) ++ s.inByte a := by
  rw [combine, memRead_four, littleEndian_four, word_of_toNat, BitVec.setWidth_eq]

end

/-! ## The Buffer family (40_buffer.md R81 to R88) -/

/-- The range check compares the true sum: an offset does not wrap (20_memory.md R43). -/
theorem State.inWindow_iff {s : State} {a n : Nat} : s.inWindow a n = true ↔ a + n ≤ s.setup.bufSize.toNat :=
  sumLe_word _

section
variable {s : State}

/-- A read inside the window answers the value its bytes combine to (40_buffer.md R81 to R85). -/
theorem bufRead_in_window {n : Nat} {order : ByteOrder} {off v : Word} (hs : s.fsm ≠ .failed)
    (h : off.toNat + n ≤ s.setup.bufSize.toNat) (hv : word (combine order (s.memRead off.toNat n)) = v) :
    hostCommand .buffer (bufRead n order off) s = .next (s.returned v) :=
  hv ▸ hostCommand_of_result (accepts_buffer hs) (if_pos (State.inWindow_iff.2 h))

theorem bufRead_past_window {n : Nat} {order : ByteOrder} {off : Word} (hs : s.fsm ≠ .failed)
    (h : s.setup.bufSize.toNat < off.toNat + n) :
    hostCommand .buffer (bufRead n order off) s = .next s.rangeFaulted :=
  hostCommand_of_range hs (accepts_buffer hs) (if_neg (by rw [State.inWindow_iff]; omega))

/-- A slice that lies in the window is granted (40_buffer.md R86). -/
theorem bufGetdata_in_window {off len : Word} (h : off.toNat + len.toNat ≤ s.setup.bufSize.toNat) :
    bufGetdata off len s = result len { s with slOff := off, slLen := len, slValid := true } :=
  if_pos (State.inWindow_iff.2 h)

theorem bufGetdata_past_window {off len : Word} (h : s.setup.bufSize.toNat < off.toNat + len.toNat) :
    bufGetdata off len s = .raised .range s := if_neg (by rw [State.inWindow_iff]; omega)

/-- A byte of the slice, counted from its start (40_buffer.md R87). -/
theorem bufSlrd8_in_slice {i : Word} (hv : s.slValid = true) (h : i.toNat < s.slLen.toNat) :
    bufSlrd8 i s = result ((s.inByte (s.slOff.toNat + i.toNat)).setWidth 32) s := by
  simp [bufSlrd8, hv, Nat.not_le.2 h]

theorem bufSlrd8_past_slice {i : Word} (hv : s.slValid = true) (h : s.slLen.toNat ≤ i.toNat) :
    bufSlrd8 i s = .raised .range s := by
  simp [bufSlrd8, hv, h]

theorem bufSlrd8_without_slice (i : Word) (hv : s.slValid = false) : bufSlrd8 i s = .illegal := if_pos hv

/-- A sum that starts anew writes the flag (40_buffer.md R88). -/
theorem exec_ovfSum_start (a b : Word) (hs : s.fsm ≠ .failed) : exec (.ovfSum false a b) s = .next
    (State.returned { s with sumr := word (sum a.toNat b.toNat).1, ovf := (sum a.toNat b.toNat).2 }
      (word (sum a.toNat b.toNat).1)) :=
  hostCommand_of_result (accepts_buffer hs) rfl

/-- A sum in a chain goes on from `SUMR` and keeps a flag that was set (40_buffer.md R88). -/
theorem exec_ovfSum_chain (a : Word) (hs : s.fsm ≠ .failed) : exec (.ovfSum true a 0) s = .next
    (State.returned { s with sumr := word (sum s.sumr.toNat a.toNat).1, ovf := s.ovf || (sum s.sumr.toNat a.toNat).2 }
      (word (sum s.sumr.toNat a.toNat).1)) :=
  hostCommand_of_result (accepts_buffer hs) rfl

/-- A chain takes no second operand (40_buffer.md R88). -/
theorem ovfSum_chain_operand {a b : Word} (h : b ≠ 0) : ovfSum true a b s = .illegal :=
  if_pos (by simpa using h)

end

/-- Two saturating sums in a row are the saturated sum of three, and one of the two overflows exactly where the true sum
does not fit (30_encoding.md R71). -/
theorem sum_sum (a b c : Nat) : (sum (sum a b).1 c).1 = min (a + b + c) Config.sizeMax
    ∧ ((sum a b).2 || (sum (sum a b).1 c).2) = decide (Config.sizeMax < a + b + c) := by
  refine ⟨?_, ?_⟩
  · simp only [sum]; omega
  · rw [Bool.eq_iff_iff, Bool.or_eq_true, sum_snd, sum_snd, decide_eq_true_iff]
    simp only [sum, Config.sizeMax]; omega

/-! ## The statements on values -/

/-- Settles O20: each of the three is a command that ends with its value in every state it is legal in. -/
theorem sizeAndEofResults : Obligations.SizeAndEofResults := by
  refine ⟨by simp [decode, whenClear], fun s => ⟨fun hs => ?_, fun hs hvalid => ?_, fun hvalid => ?_, fun hs => ?_,
    fun hs => ?_⟩⟩
  · exact hostCommand_of_result (accepts_buffer hs) rfl
  · exact hostCommand_of_result (accepts_outEof hs) (by simp [outEof, hvalid, Inst.eof])
  · exact hostCommand_of_illegal (if_pos hvalid)
  · exact hostCommand_of_result (by rcases hs with h | h | h <;> rw [h] <;> rfl) rfl
  · exact hostCommand_of_refused (by rcases hs with h | h <;> rw [h] <;> rfl) _

/-- Settles O21: one read at three widths and in two byte orders, whose range check compares the true sum. -/
theorem bufferReadResults : Obligations.BufferReadResults := by
  refine ⟨fun off => by simp [decode, whenClear], fun s off hs => ?_⟩
  refine ⟨fun h => ?rd8, fun h => ?past8, fun h => ⟨?be16, ?le16⟩, fun h => ⟨?pastBe16, ?pastLe16⟩,
    fun h => ⟨?be32, ?le32⟩, fun h => ⟨?pastBe32, ?pastLe32⟩⟩
  case rd8 => exact bufRead_in_window hs h (word_memRead_8 s _)
  case be16 => exact bufRead_in_window hs h (word_memRead_be16 s _)
  case le16 => exact bufRead_in_window hs h (word_memRead_le16 s _)
  case be32 => exact bufRead_in_window hs h (word_memRead_be32 s _)
  case le32 => exact bufRead_in_window hs h (word_memRead_le32 s _)
  case past8 | pastBe16 | pastLe16 | pastBe32 | pastLe32 => exact bufRead_past_window hs h

/-- Settles O22: the grant is checked against the window, the read of a slice against the slice. -/
theorem sliceResults : Obligations.SliceResults := by
  refine ⟨fun off len => by simp [decode, whenClear], fun s hs => ?_⟩
  have ha := accepts_buffer hs
  refine ⟨fun off len => ⟨fun h => ?_, fun h => ?_⟩, fun i => ⟨fun hv => ?_, fun hv h => ?_, fun hv h => ?_⟩⟩
  · exact hostCommand_of_result ha (bufGetdata_in_window h)
  · exact hostCommand_of_range hs ha (bufGetdata_past_window h)
  · exact hostCommand_of_illegal (bufSlrd8_without_slice i hv)
  · exact hostCommand_of_range hs ha (bufSlrd8_past_slice hv h)
  · exact hostCommand_of_result ha (bufSlrd8_in_slice hv h)

/-- Settles O23: the second sum starts from the saturated first one, and the flag it keeps is the first one's. -/
theorem overflowCheckedSum : Obligations.OverflowCheckedSum := by
  refine ⟨fun s a b hs => ⟨exec_ovfSum_start a b hs, exec_ovfSum_chain a hs, fun hb => ?_⟩,
    fun s t u a b c hs ht hu => ?_⟩
  · exact hostCommand_of_illegal (ovfSum_chain_operand hb)
  · obtain rfl := Host.Outcome.next.inj ((exec_ovfSum_start a b hs).symm.trans ht)
    obtain rfl := Host.Outcome.next.inj ((exec_ovfSum_chain c (by simpa using hs)).symm.trans hu)
    obtain ⟨hvalue, hflag⟩ := sum_sum a.toNat b.toNat c.toNat
    simp only [State.returned_res, State.returned_ovf, State.returned_sumr, word_toNat_of_lt (sum_fst_lt _ _)]
    exact ⟨hvalue, hflag⟩

/-! ## What the commands that answer a value leave alone -/

section
variable {k : Kind} {op : State → Run (Option Word)} {s t : State}

/-- The answer of a command is all that ends it: a property that does not speak of the answer, and that holds where the
command begins and of the state its body ends in, holds of the next state. -/
theorem hostCommand_keeps {P : State → Prop} (hop : (op s).Ends P) (h : hostCommand k op s = .next t) (hs : P s)
    (hP : ∀ u x, P u → P (u.answeredAs x)) : P t := by
  rcases hostCommand_next h with rfl | ⟨-, ⟨v, u, hu, rfl⟩ | ⟨c, u, hu, rfl⟩⟩
  · exact hP s s.refusedIllegal hs
  · rw [hu] at hop
    exact hP u (u.answered v) hop
  · rw [hu] at hop
    have hfailed : u.failed c = u.answeredAs (u.failed c) := by unfold State.failed; split <;> rfl
    exact hfailed ▸ hP u (u.failed c) hop

/-- A state known by a whole record reads as `s` where the record has the output and the host's input of `s`. -/
theorem frame_with_memory {x : State} (h : t = x) (hout : x.out = s.out) (hsetup : x.setup = s.setup) :
    t = x ∧ ∀ i, Memory.get t.out i = Memory.get s.out i ∧ t.inByte i = s.inByte i := by
  have hout' : t.out = s.out := h ▸ hout
  have hsetup' : t.setup = s.setup := h ▸ hsetup
  exact ⟨h, fun i => ⟨by rw [hout'], by rw [State.inByte, hsetup', State.inByte]⟩⟩

/-- A command whose body writes `RES` alone changes nothing but the answer. -/
theorem answer_frame (hop : (op s).Ends fun u => u = s.answeredAs u) (h : hostCommand k op s = .next t) :
    t = s.answeredAs t ∧ ∀ i, Memory.get t.out i = Memory.get s.out i ∧ t.inByte i = s.inByte i :=
  have ht := hostCommand_keeps hop h rfl fun _ x hu => congrArg (·.answeredAs x) hu
  frame_with_memory ht rfl rfl

end

/-! Whether they complete or fail, the bodies write `RES` and what is named beside. -/

section
variable (s : State)

theorem bufRead_writes_res (n : Nat) (order : ByteOrder) (off : Word) :
    (bufRead n order off s).Ends fun u => u = s.answeredAs u := by
  unfold bufRead
  split <;> rfl

theorem bufSlrd8_writes_res (i : Word) : (bufSlrd8 i s).Ends fun u => u = s.answeredAs u := by
  unfold bufSlrd8
  split
  · trivial
  · split <;> rfl

theorem rotb_writes_res (count : BitVec 6) (value : Word) : (rotb count value s).Ends fun u => u = s.answeredAs u := by
  unfold rotb
  split
  · trivial
  · rfl

theorem outEof_writes_res : (outEof s).Ends fun u => u = s.answeredAs u := by
  unfold outEof
  split
  · trivial
  · rfl

/-- After its three checks `OUT.RD8` reads a written byte or is refused (44_output.md R178). -/
theorem outRd8_writes_res (index : Word) : (outRd8 index s).Ends fun u => u = s.answeredAs u := by
  unfold outRd8
  split_ifs
  case neg =>
    split
    · rfl
    · trivial
  all_goals trivial

theorem bufGetdata_writes_slice (off len : Word) : (bufGetdata off len s).Ends fun u =>
    u = { s.answeredAs u with slOff := u.slOff, slLen := u.slLen, slValid := u.slValid } := by
  unfold bufGetdata
  split <;> rfl

theorem ovfSum_writes_sum (chain : Bool) (a b : Word) : (ovfSum chain a b s).Ends fun u =>
    u = { s.answeredAs u with sumr := u.sumr, ovf := u.ovf } := by
  unfold ovfSum
  split
  · trivial
  · rfl

end

/-- Settles O56: the body of each command writes its result alone, that of `BUF.GETDATA` the slice and that of `OVF.SUM`
the sum beside, and the end of a command writes the answer alone. -/
theorem frameOfValueCommands : Obligations.FrameOfValueCommands := by
  intro i s t h
  cases i
  case status =>
    exact answer_frame (k := .system) (op := fun s => result (statusWord s.fsm s.err s.errInfo) s) rfl h
  case bufSize | decGetrawsize | dispDetect => exact answer_frame (by rfl) h
  case bufRd8 | bufRdbe16 | bufRdbe32 | bufRdle16 | bufRdle32 => exact answer_frame (bufRead_writes_res s _ _ _) h
  case bufSlrd8 i => exact answer_frame (bufSlrd8_writes_res s i) h
  case rotb count value => exact answer_frame (rotb_writes_res s count value) h
  case outEof => exact answer_frame (outEof_writes_res s) h
  case outRd8 index => exact answer_frame (outRd8_writes_res s index) h
  case bufGetdata off len =>
    have ht := hostCommand_keeps (bufGetdata_writes_slice s off len) h rfl fun _ x hu => congrArg (·.answeredAs x) hu
    exact frame_with_memory ht rfl rfl
  case ovfSum chain a b =>
    have ht := hostCommand_keeps (ovfSum_writes_sum s chain a b) h rfl fun _ x hu => congrArg (·.answeredAs x) hu
    exact frame_with_memory ht rfl rfl
  all_goals trivial

end Machine

end Sys2Proof
end

section
/-!
`ROTB` (41_bitreader.md R109): the word that spells it, and its answer bit by bit.
-/
namespace Sys2Proof

/-! ## An operand widened to its field -/

section
variable {m n : Nat} (x : BitVec m)

theorem extractLsb'_setWidth_low (h : m ≤ n) : (x.setWidth n).extractLsb' 0 m = x :=
  (BitVec.extractLsb'_setWidth_of_le (by omega)).trans BitVec.extractLsb'_eq_self

theorem extractLsb'_setWidth_above (l : Nat) : (x.setWidth n).extractLsb' m l = 0 := by
  ext i hi
  simp

end

/-- The row of `ROTB`: the count in the low bits of `F`, the value in `A` (30_encoding.md section 3). -/
theorem decode_of_op_rotb {w : Command} (h : w.op = 0x24) :
    decode w = whenClear (w.f.extractLsb' 6 18 == 0 && w.b == 0) (.rotb (w.f.extractLsb' 0 6) w.a) := by
  simp [decode, h]

/-- `ROTB` is read back with its operands: the count fills its field and leaves the bits above it clear (R61). -/
theorem decode_rotb (count : BitVec 6) (value : Word) :
    decode (commandWord 0x24 (count.setWidth 24) value 0) = .ok (.rotb count value) := by
  rw [decode_of_op_rotb (commandWord_op ..), commandWord_f, commandWord_a, commandWord_b,
    extractLsb'_setWidth_low count (by decide), extractLsb'_setWidth_above count]
  rfl

namespace Machine

/-! ## `ROTB` (41_bitreader.md R109) -/

/-- A register keeps the low 32 bits of a reversal; the bits from the reversed width up are clear. -/
theorem word_rev_getLsbD {n k : Nat} (v : Nat) (hk : k < 32) :
    (word (rev n v)).getLsbD k = (decide (k < n) && v.testBit (n - 1 - k)) := by
  rw [word, BitVec.getLsbD_ofNat, decide_eq_true hk, Bool.true_and, rev_testBit]

section
variable {s : State} {count : BitVec 6} (value : Word)

theorem rotb_in_word (h : count.toNat ≤ 32) :
    rotb count value s = result (word (rev count.toNat value.toNat)) s := if_neg (Nat.not_lt.2 h)

theorem rotb_past_word (h : 32 < count.toNat) : rotb count value s = .illegal := if_pos h

end

/-- Settles O30: the answer is the reversal, whose bits are known one by one; `ROTB` does not ask for a reader. -/
theorem rotateBitsResult : Obligations.RotateBitsResult := by
  refine ⟨decode_rotb, fun s count value hs => ⟨fun hcount => ?_, fun hcount => ?_⟩⟩
  · have ha : accepts .host .tool s.fsm = true := by rw [hs]; rfl
    exact ⟨word (rev count.toNat value.toNat), hostCommand_of_result ha (rotb_in_word value hcount),
      fun k hk => word_rev_getLsbD value.toNat hk⟩
  · exact hostCommand_of_illegal (rotb_past_word value hcount)

end Machine

end Sys2Proof
end

section
/-!
The commands that load lengths, triples and variable-length codes (42_huffman.md R131, R132, 43_vlc.md R161, R162) and
`VLC.DECODE` (R163): the words that spell the loads, and what each command answers.
-/
namespace Sys2Proof

/-! ## The words of the loads (30_encoding.md section 3) -/

/-- The row of `HUF.SETLEN`: the index in the low bits of `F`, the length in the low bits of `A`. -/
theorem decode_of_op_hufSetlen {w : Command} (h : w.op = 0x30) :
    decode w = whenClear (w.f.extractLsb' 16 8 == 0 && w.a.extractLsb' 6 26 == 0 && w.b == 0)
      (.hufSetlen (w.f.extractLsb' 0 16) (w.a.extractLsb' 0 6)) := by
  simp [decode, h]

/-- The row of `HUF.SETTRI`: index and length in `F`, the code in `A`, the value in the low bits of `B`. -/
theorem decode_of_op_hufSettri {w : Command} (h : w.op = 0x31) :
    decode w = whenClear (w.f.extractLsb' 6 2 == 0 && w.b.extractLsb' 16 16 == 0)
      (.hufSettri (w.f.extractLsb' 8 16) (w.f.extractLsb' 0 6) w.a (w.b.extractLsb' 0 16)) := by
  simp [decode, h]

/-- The row of `VLC.SET`: index and bit count in `F`, the base in `A`. -/
theorem decode_of_op_vlcSet {w : Command} (h : w.op = 0x38) :
    decode w = whenClear (w.f.extractLsb' 16 8 == 0 && w.f.extractLsb' 6 2 == 0 && w.b == 0)
      (.vlcSet (w.f.extractLsb' 8 8) (w.f.extractLsb' 0 6) w.a) := by
  simp [decode, h]

theorem decode_hufSetlen (index : BitVec 16) (l : BitVec 6) :
    decode (commandWord 0x30 (index.setWidth 24) (l.setWidth 32) 0) = .ok (.hufSetlen index l) := by
  rw [decode_of_op_hufSetlen (commandWord_op ..), commandWord_f, commandWord_a, commandWord_b,
    extractLsb'_setWidth_low index (by decide), extractLsb'_setWidth_above index,
    extractLsb'_setWidth_low l (by decide), extractLsb'_setWidth_above l]
  rfl

theorem decode_hufSettri (index : BitVec 16) (l : BitVec 6) (code : Word) (value : BitVec 16) :
    decode (commandWord 0x31 (index ++ 0#2 ++ l) code (value.setWidth 32)) = .ok (.hufSettri index l code value) := by
  have hindex : (index ++ 0#2 ++ l).extractLsb' 8 16 = index :=
    (BitVec.extractLsb'_append_eq_of_le (by decide)).trans BitVec.extractLsb'_append_eq_left
  have hclear : (index ++ 0#2 ++ l).extractLsb' 6 2 = 0 :=
    (BitVec.extractLsb'_append_eq_of_le (by decide)).trans BitVec.extractLsb'_append_eq_right
  have hlen : (index ++ 0#2 ++ l).extractLsb' 0 6 = l := BitVec.extractLsb'_append_eq_right
  rw [decode_of_op_hufSettri (commandWord_op ..), commandWord_f, commandWord_a, commandWord_b, hindex, hclear, hlen,
    extractLsb'_setWidth_low value (by decide), extractLsb'_setWidth_above value]
  rfl

theorem decode_vlcSet (n : Byte) (bits : BitVec 6) (base : Word) :
    decode (commandWord 0x38 (0#8 ++ n ++ 0#2 ++ bits) base 0) = .ok (.vlcSet n bits base) := by
  have hhigh : (0#8 ++ n ++ 0#2 ++ bits).extractLsb' 16 8 = 0 :=
    (BitVec.extractLsb'_append_eq_of_le (by decide)).trans <|
      (BitVec.extractLsb'_append_eq_of_le (by decide)).trans BitVec.extractLsb'_append_eq_left
  have hindex : (0#8 ++ n ++ 0#2 ++ bits).extractLsb' 8 8 = n :=
    (BitVec.extractLsb'_append_eq_of_le (by decide)).trans <|
      (BitVec.extractLsb'_append_eq_of_le (by decide)).trans BitVec.extractLsb'_append_eq_right
  have hclear : (0#8 ++ n ++ 0#2 ++ bits).extractLsb' 6 2 = 0 :=
    (BitVec.extractLsb'_append_eq_of_le (by decide)).trans BitVec.extractLsb'_append_eq_right
  have hbits : (0#8 ++ n ++ 0#2 ++ bits).extractLsb' 0 6 = bits := BitVec.extractLsb'_append_eq_right
  rw [decode_of_op_vlcSet (commandWord_op ..), commandWord_f, commandWord_a, commandWord_b, hhigh, hindex, hclear,
    hbits]
  rfl

namespace Machine

/-! ## How a command without a result, and one that fails, answer -/

section
variable {k : Kind} {op : State → Run (Option Word)} {s t u : State}

theorem accepts_tool_of_unvalidated (h : s.fsm = .unvalidated) : accepts .host .tool s.fsm = true := by rw [h]; rfl

/-- A legal command that completes answers without a result (30_encoding.md R63; log entry 3). -/
theorem hostCommand_of_complete (ha : accepts .host k s.fsm = true) (h : op s = complete t) :
    hostCommand k op s = .next t.finished := by
  rw [hostCommand_of_accepted ha, h]; rfl

/-- A toolkit command of the host that fails latches its cause, under its category in Unvalidated
(60_exceptions.md R263). -/
theorem hostCommand_of_raised {c : Cause} (hs : s.fsm = .unvalidated) (h : op s = .raised c t) (ht : t.fsm = s.fsm) :
    hostCommand .tool op s = .next (t.latched (c.category .unvalidated) c) := by
  have ht' : t.fsm = .unvalidated := ht.trans hs
  rw [hostCommand_of_accepted (accepts_tool_of_unvalidated hs), h, outcome_raised,
    State.failed_of_not_done (by simp [ht']), ht']

/-- A command that is refused or completes answers in one of two ways. -/
theorem hostCommand_next_of_complete (hop : op s = .illegal ∨ op s = complete u) (h : hostCommand k op s = .next t) :
    t = s.turnedAway ∨ t = u.finished := by
  rcases hostCommand_next h with rfl | ⟨-, ⟨v, x, hx, rfl⟩ | ⟨c, x, hx, rfl⟩⟩
  · exact .inl rfl
  · rcases hop with hop | hop <;> cases hop.symm.trans hx
    exact .inr rfl
  · rcases hop with hop | hop <;> cases hop.symm.trans hx

/-- The end of a command leaves `RES` to its body (10_state.md R17). -/
theorem hostCommand_keeps_res (hop : (op s).Ends fun u => u.res = s.res) (h : hostCommand k op s = .next t) :
    t.res = s.res := by
  rcases hostCommand_next h with rfl | ⟨-, ⟨v, u, hu, rfl⟩ | ⟨c, u, hu, rfl⟩⟩
  · rfl
  · rwa [hu] at hop
  · rw [hu] at hop
    exact (State.failed_res u c).trans hop

end

/-! ## The entries up to a number (43_vlc.md R162) -/

section
variable {α : Type}

theorem mapM_eq_none_iff {β : Type} {f : β → Option α} {xs : List β} :
    xs.mapM f = none ↔ ∃ x ∈ xs, f x = none := by
  induction xs with
  | nil => simp
  | cons x xs ih =>
    simp only [List.mem_cons, exists_eq_or_imp, ← ih, List.mapM_cons]
    cases f x <;> cases xs.mapM f <;> simp

theorem Memory.prefixOf_isNone_iff {m : List (Nat × α)} {n : Nat} :
    (Memory.prefixOf m n).isNone = true ↔ ∃ i < n, Memory.get m i = none := by
  simp only [Memory.prefixOf, Option.isNone_iff_eq_none, mapM_eq_none_iff, List.mem_range]

end

/-! ## The loads: their entry where the operands are in range, refused elsewhere -/

section
variable {s : State}

theorem hufSetlen_in_range {index : BitVec 16} {l : BitVec 6} (hi : index.toNat < 1024) (hl : l.toNat ≤ 32) :
    hufSetlen index l s = complete { s with len := Memory.set s.len index.toNat l } :=
  if_neg (by simpa using ⟨hi, hl⟩)

theorem hufSetlen_out_of_range {index : BitVec 16} {l : BitVec 6} (h : 1024 ≤ index.toNat ∨ 32 < l.toNat) :
    hufSetlen index l s = .illegal := if_pos (by simpa using h)

theorem hufSettri_in_range {index : BitVec 16} {l : BitVec 6} {code : Word} (value : BitVec 16)
    (hi : index.toNat < 1024) (hl0 : 1 ≤ l.toNat) (hl : l.toNat ≤ 32) (hc : code.toNat < 2 ^ l.toNat) :
    hufSettri index l code value s
      = complete { s with tri := Memory.set s.tri index.toNat { length := l, code := code, value := value } } := by
  have hne : l ≠ 0#6 := by rintro rfl; exact absurd hl0 (by decide)
  rw [hufSettri, if_neg (by simpa using ⟨⟨hi, hne⟩, hl⟩), if_neg (Nat.not_le.2 hc)]

theorem hufSettri_out_of_range {index : BitVec 16} {l : BitVec 6} {code : Word} (value : BitVec 16)
    (h : 1024 ≤ index.toNat ∨ l.toNat = 0 ∨ 32 < l.toNat ∨ 2 ^ l.toNat ≤ code.toNat) :
    hufSettri index l code value s = .illegal := by
  unfold hufSettri
  rcases h with hi | hl0 | hl | hc
  · exact if_pos (by simp [hi])
  · exact if_pos (by simp [BitVec.eq_of_toNat_eq (y := 0#6) hl0])
  · exact if_pos (by simp [hl])
  · rw [if_pos hc, ite_self]

theorem vlcSet_in_range {n : Byte} {bits : BitVec 6} (base : Word) (hn : n.toNat < 64) (hb : bits.toNat ≤ 32) :
    vlcSet n bits base s = complete { s with
      vlcBase := Memory.set s.vlcBase n.toNat base
      vlcBits := Memory.set s.vlcBits n.toNat bits } := if_neg (by simpa using ⟨hn, hb⟩)

theorem vlcSet_out_of_range {n : Byte} {bits : BitVec 6} (base : Word) (h : 64 ≤ n.toNat ∨ 32 < bits.toNat) :
    vlcSet n bits base s = .illegal := if_pos (by simpa using h)

/-- The test of `VLC.SETN` finds an entry up to the number that one of the arrays lacks (43_vlc.md R162). -/
theorem vlcSetn_test_iff {n : Byte} : ((Memory.prefixOf s.vlcBase (n.toNat + 1)).isNone
      || (Memory.prefixOf s.vlcBits (n.toNat + 1)).isNone) = true
    ↔ ∃ i ≤ n.toNat, Memory.get s.vlcBase i = none ∨ Memory.get s.vlcBits i = none := by
  simp only [Bool.or_eq_true, Memory.prefixOf_isNone_iff, Nat.lt_succ_iff, and_or_left, exists_or]

theorem vlcSetn_loaded {n : Byte} (hn : n.toNat < 64)
    (h : ¬ ∃ i ≤ n.toNat, Memory.get s.vlcBase i = none ∨ Memory.get s.vlcBits i = none) :
    vlcSetn n s = complete { s with vlcN := n.setWidth 7 } := by
  rw [vlcSetn, if_neg (Nat.not_le.2 hn), if_neg (vlcSetn_test_iff.not.2 h), BitVec.ofNat_toNat]

theorem vlcSetn_refused {n : Byte}
    (h : 64 ≤ n.toNat ∨ ∃ i ≤ n.toNat, Memory.get s.vlcBase i = none ∨ Memory.get s.vlcBits i = none) :
    vlcSetn n s = .illegal := by
  unfold vlcSetn
  rcases h with hn | hgap
  · exact if_pos hn
  · rw [if_pos (vlcSetn_test_iff.2 hgap), ite_self]

end

/-- Settles O31: a load with its operands in range completes with one entry written, and any other is refused. -/
theorem tableLoadResults : Obligations.TableLoadResults := by
  refine ⟨fun index l a v n => ⟨decode_hufSetlen index l, decode_hufSettri index l a v, decode_vlcSet n l a⟩,
    fun s hs => ?_⟩
  have ha := accepts_tool_of_unvalidated hs
  refine ⟨fun index l => ⟨fun hi hl => ?_, fun h => ?_⟩,
    fun index l code v => ⟨fun hi hl0 hl hc => ?_, fun h => ?_⟩,
    fun n bits base => ⟨fun hn hb => ?_, fun h => ?_⟩⟩
  · exact ⟨_, hostCommand_of_complete ha (hufSetlen_in_range hi hl), fun k => by simp only [Memory.get_set, eq_comm]⟩
  · exact hostCommand_of_illegal (hufSetlen_out_of_range h)
  · exact ⟨_, hostCommand_of_complete ha (hufSettri_in_range v hi hl0 hl hc),
      fun k => by simp only [Memory.get_set, eq_comm]⟩
  · exact hostCommand_of_illegal (hufSettri_out_of_range v h)
  · exact ⟨_, _, hostCommand_of_complete ha (vlcSet_in_range base hn hb),
      fun k => by simp only [Memory.get_set, eq_comm], fun k => by simp only [Memory.get_set, eq_comm]⟩
  · exact hostCommand_of_illegal (vlcSet_out_of_range base h)

/-! ## `VLC.DECODE` (43_vlc.md R163) -/

section
variable {s : State} {index : Word}

theorem vlcDecode_without_range_or_reader (h : s.vlcN = vlcNone ∨ s.brCfg.valid = false) :
    vlcDecode index s = .illegal := if_pos (by simpa using h)

theorem vlcDecode_past_range (hn : s.vlcN ≠ vlcNone) (hv : s.brCfg.valid = true) (h : s.vlcN.toNat < index.toNat) :
    vlcDecode index s = .raised .vlcIndex s := by
  rw [vlcDecode, if_neg (by simp [hn, hv]), if_pos h]

/-- With a range, a reader and an index in range the entry's extra bits are read and added to its base. -/
theorem vlcDecode_in_range {base : Word} {bits : BitVec 6} (hn : s.vlcN ≠ vlcNone) (hv : s.brCfg.valid = true)
    (h : index.toNat ≤ s.vlcN.toNat) (hbase : Memory.get s.vlcBase index.toNat = some base)
    (hbits : Memory.get s.vlcBits index.toNat = some bits) :
    vlcDecode index s = (readBits bits.toNat s).andThen fun x u =>
      if (sum base.toNat x).2 then .raised .valueOverflow u else result (word (sum base.toNat x).1) u := by
  rw [vlcDecode, if_neg (by simp [hn, hv]), if_neg (Nat.not_lt.2 h), hbase, hbits]

end

theorem word_sum_of_fits {base : Word} {x : Nat} (h : base.toNat + x < 2 ^ 32) :
    word (sum base.toNat x).1 = base + BitVec.ofNat 32 x := by
  rw [sum_fst_of_fits h, word, BitVec.ofNat_add, BitVec.ofNat_toNat, BitVec.setWidth_eq]

/-- Settles O39: `VLC.SETN` asks for every entry up to its number; `VLC.DECODE` is a read of the entry's bits and one
checked sum, each of which ends it in its own way. -/
theorem vlcResults : Obligations.VlcResults := by
  intro s hs
  have ha := accepts_tool_of_unvalidated hs
  refine ⟨fun n => ⟨fun hn h => ?_, fun h => ?_⟩, fun index => ⟨fun h => ?_, fun hn hv => ⟨fun h => ?_, ?_⟩⟩⟩
  · refine hostCommand_of_complete ha (vlcSetn_loaded hn ?_)
    rintro ⟨i, hi, hnone | hnone⟩
    · simpa [hnone] using (h i hi).1
    · simpa [hnone] using (h i hi).2
  · exact hostCommand_of_illegal (vlcSetn_refused h)
  · exact hostCommand_of_illegal (vlcDecode_without_range_or_reader h)
  · exact hostCommand_of_raised hs (vlcDecode_past_range hn hv h) rfl
  · intro base bits h hbase hbits x
    have hrun := vlcDecode_in_range hn hv h hbase hbits
    obtain ⟨henough, hshort⟩ := readBits_spec bits.toNat s
    refine ⟨fun hlen hfits => ?fits, fun hlen hover => ?overflows, fun hlen => ?ends⟩
    case fits =>
      obtain ⟨u, hread, hu, hrest, -⟩ := henough hlen
      have hsum : ¬ (sum base.toNat x).2 = true := by rw [sum_snd]; omega
      rw [hread, Run.ok_andThen, if_neg hsum, word_sum_of_fits hfits] at hrun
      exact ⟨u, hu ▸ hostCommand_of_result ha hrun, hu ▸ hrest⟩
    case overflows =>
      obtain ⟨u, hread, hu, -⟩ := henough hlen
      rw [hread, Run.ok_andThen, if_pos ((sum_snd _ _).2 hover)] at hrun
      exact ⟨u, hu ▸ hostCommand_of_raised hs hrun (congrArg (·.fsm) hu)⟩
    case ends =>
      obtain ⟨u, hread, hu⟩ := hshort hlen
      rw [hread, Run.raised_andThen] at hrun
      exact ⟨u, hu ▸ hostCommand_of_raised hs hrun (congrArg (·.fsm) hu)⟩

end Machine

end Sys2Proof
end

section
/-!
What the commands of the bit reader, of the decode tables and of the variable-length codes leave alone: the body of each
command as a change of what it names, the answer beside it (41_bitreader.md sections 2 to 4, 42_huffman.md sections 2 to
6, 43_vlc.md R161 to R163).
-/
namespace Sys2Proof.Machine

/-! ## Changes of the state -/

/-- From `s` to `t` bits were read and an answer given, and nothing else happened. -/
def ReadAndAnswered (s t : State) : Prop := t = (s.answeredAs t).withReader t

/-- From `s` to `t` the decode table of number `n` was written and an answer given, and nothing else happened. -/
def TableWritten (n : Byte) (s t : State) : Prop :=
  t = { s.answeredAs t with ht := t.ht } ∧ ∀ k, k ≠ n.toNat → Memory.get t.ht k = Memory.get s.ht k

/-- From `s` to `t` a symbol of table `n` was read, which writes the table only where it is adaptive
(42_huffman.md R147), and an answer given. -/
def SymbolRead (n : Byte) (s t : State) : Prop :=
  t = { (s.answeredAs t).withReader t with ht := t.ht }
    ∧ (∀ k, k ≠ n.toNat → Memory.get t.ht k = Memory.get s.ht k)
    ∧ ((∀ table, Memory.get s.ht n.toNat = some table → table.mode ≠ .adaptive) → t.ht = s.ht)

section
variable {s t u : State}

theorem ReadAndAnswered.refl (s : State) : ReadAndAnswered s s := rfl

theorem ReadAndAnswered.trans (h1 : ReadAndAnswered s t) (h2 : ReadAndAnswered t u) : ReadAndAnswered s u := by
  unfold ReadAndAnswered at *
  rw [h2, h1]; rfl

theorem ReadAndAnswered.of_reader (h : t = s.withReader t) : ReadAndAnswered s t := by
  unfold ReadAndAnswered
  rw [h]; rfl

theorem ReadAndAnswered.of_result (s : State) (v : Word) : ReadAndAnswered s { s with res := v } := rfl

theorem ReadAndAnswered.answeredAs (h : ReadAndAnswered s t) (x : State) : ReadAndAnswered s (t.answeredAs x) :=
  h.trans rfl

theorem TableWritten.refl (n : Byte) (s : State) : TableWritten n s s := ⟨rfl, fun _ _ => rfl⟩

theorem TableWritten.of_erase (n : Byte) (s : State) : TableWritten n s { s with ht := Memory.erase s.ht n.toNat } :=
  ⟨rfl, fun k hk => by simp [Memory.get_erase, hk.symm]⟩

theorem TableWritten.of_set (n : Byte) (s : State) (table : Table) (v : Word) :
    TableWritten n s { s with ht := Memory.set s.ht n.toNat table, res := v } :=
  ⟨rfl, fun _ hk => Memory.get_set_other _ _ hk.symm⟩

theorem TableWritten.answeredAs {n : Byte} (h : TableWritten n s t) (x : State) : TableWritten n s (t.answeredAs x) :=
  ⟨congrArg (·.answeredAs x) h.1, h.2⟩

theorem SymbolRead.of_read (n : Byte) (h : ReadAndAnswered s t) : SymbolRead n s t := by
  have hht : t.ht = s.ht := congrArg (·.ht) h
  refine ⟨?_, fun k _ => by rw [hht], fun _ => hht⟩
  rw [hht]
  exact h

/-- The reshaped table takes the place of the adaptive one it came from (42_huffman.md R147). -/
theorem SymbolRead.reshaped {n : Byte} {table : Table} (h : SymbolRead n s t)
    (hget : Memory.get s.ht n.toNat = some table) (hmode : table.mode = .adaptive) (table' : Table) (v : Word) :
    SymbolRead n s { t with ht := Memory.set t.ht n.toNat table', res := v } := by
  obtain ⟨hframe, hother, -⟩ := h
  refine ⟨by rw [hframe]; rfl, fun k hk => ?_, fun hnot => absurd hmode (hnot table hget)⟩
  exact (Memory.get_set_other _ _ hk.symm).trans (hother k hk)

theorem SymbolRead.answeredAs {n : Byte} (h : SymbolRead n s t) (x : State) : SymbolRead n s (t.answeredAs x) :=
  ⟨congrArg (·.answeredAs x) h.1, h.2⟩

end

/-! ## The bodies of the reader's commands (41_bitreader.md R101, R105 to R108, 43_vlc.md R163) -/

section
variable (s : State)

theorem brInit_keeps_res (order : BitOrder) (dir : Direction) (rw : BitVec 2) (wend : ByteOrder) (rot : Bool)
    (lo hi : Word) : (brInit order dir rw wend rot lo hi s).Ends fun u => u.res = s.res := by
  unfold brInit
  split
  · trivial
  · split <;> rfl

theorem brInit_writes_reader (order : BitOrder) (dir : Direction) (rw : BitVec 2) (wend : ByteOrder) (rot : Bool)
    (lo hi : Word) : (brInit order dir rw wend rot lo hi s).Ends fun u => u = { s.answeredAs u with
      brCfg := u.brCfg, isLo := u.isLo, isHi := u.isHi, isPos := u.isPos, brAcc := u.brAcc, brLive := u.brLive } := by
  unfold brInit
  split
  · trivial
  · split <;> rfl

theorem brReset_keeps_res (live : BitVec 6) (value : Word) : (brReset live value s).Ends fun u => u.res = s.res := by
  unfold brReset
  split
  · trivial
  · rfl

theorem brReset_writes_accumulator (live : BitVec 6) (value : Word) :
    (brReset live value s).Ends fun u => u = { s.answeredAs u with brAcc := u.brAcc, brLive := u.brLive } := by
  unfold brReset
  split
  · trivial
  · rfl

theorem brAnchor_writes_accumulator (w : Word) :
    (brAnchor w s).Ends fun u => u = { s.answeredAs u with brAcc := u.brAcc, brLive := u.brLive } := by
  unfold brAnchor
  split
  · trivial
  · split <;> rfl

theorem readBits_reads (count : Nat) : (readBits count s).Ends (ReadAndAnswered s) :=
  (readBits_frame count s).imp fun _ => .of_reader

theorem brRead_reads (count : BitVec 6) : (brRead count s).Ends (ReadAndAnswered s) := by
  unfold brRead
  split
  · trivial
  · exact (readBits_reads s _).andThen fun v u hu => hu.trans (.of_result u _)

theorem vlcDecode_reads (index : Word) : (vlcDecode index s).Ends (ReadAndAnswered s) := by
  unfold vlcDecode
  split
  · trivial
  · split
    · exact .refl s
    · split
      · refine (readBits_reads s _).andThen fun x u hu => ?_
        extract_lets
        split
        · exact hu
        · exact hu.trans (.of_result u _)
      · trivial

end

/-- Settles O57: each body changes the part of the reader it names, and the end of a command writes the answer alone. -/
theorem frameOfReaderCommands : Obligations.FrameOfReaderCommands := by
  intro i s t h
  cases i
  case brInit order dir rw wend rot lo hi =>
    have hres := hostCommand_keeps_res (brInit_keeps_res s order dir rw wend rot lo hi) h
    have ht := hostCommand_keeps (brInit_writes_reader s order dir rw wend rot lo hi) h rfl
      fun _ x hu => congrArg (·.answeredAs x) hu
    exact frame_with_memory (by rw [← hres]; exact ht) rfl rfl
  case brReset live value =>
    have hres := hostCommand_keeps_res (brReset_keeps_res s live value) h
    have ht := hostCommand_keeps (brReset_writes_accumulator s live value) h rfl
      fun _ x hu => congrArg (·.answeredAs x) hu
    exact frame_with_memory (by rw [← hres]; exact ht) rfl rfl
  case brAnchor w =>
    have ht := hostCommand_keeps (brAnchor_writes_accumulator s w) h rfl fun _ x hu => congrArg (·.answeredAs x) hu
    exact frame_with_memory ht rfl rfl
  case brRead count =>
    have ht := hostCommand_keeps (brRead_reads s count) h (.refl s) fun _ x hu => hu.answeredAs x
    exact frame_with_memory ht rfl rfl
  case vlcDecode index =>
    have ht := hostCommand_keeps (vlcDecode_reads s index) h (.refl s) fun _ x hu => hu.answeredAs x
    exact frame_with_memory ht rfl rfl
  all_goals trivial

/-! ## The bodies of the commands on tables (42_huffman.md R131 to R142, R147, 43_vlc.md R161, R162) -/

section
variable (s : State)

theorem hufSetlen_cases (index : BitVec 16) (l : BitVec 6) : hufSetlen index l s = .illegal
    ∨ hufSetlen index l s = complete { s with len := Memory.set s.len index.toNat l } := by
  unfold hufSetlen
  split
  · exact .inl rfl
  · exact .inr rfl

theorem hufSettri_cases (index : BitVec 16) (l : BitVec 6) (code : Word) (value : BitVec 16) :
    hufSettri index l code value s = .illegal ∨ hufSettri index l code value s
      = complete { s with tri := Memory.set s.tri index.toNat { length := l, code := code, value := value } } := by
  unfold hufSettri
  split
  · exact .inl rfl
  · split
    · exact .inl rfl
    · exact .inr rfl

theorem vlcSet_cases (n : Byte) (bits : BitVec 6) (base : Word) : vlcSet n bits base s = .illegal
    ∨ vlcSet n bits base s = complete { s with
        vlcBase := Memory.set s.vlcBase n.toNat base
        vlcBits := Memory.set s.vlcBits n.toNat bits } := by
  unfold vlcSet
  split
  · exact .inl rfl
  · exact .inr rfl

theorem vlcSetn_cases (n : Byte) :
    vlcSetn n s = .illegal ∨ vlcSetn n s = complete { s with vlcN := BitVec.ofNat 7 n.toNat } := by
  unfold vlcSetn
  split
  · exact .inl rfl
  · split
    · exact .inl rfl
    · exact .inr rfl

/-- `HUF.ADAPT` writes its table and may draw a free value (42_huffman.md R147; log entry 16). -/
theorem hufAdapt_cases (n : Byte) : ∃ table count, hufAdapt n s = .illegal
    ∨ hufAdapt n s = complete { s with ht := Memory.set s.ht n.toNat table, freeCount := count } := by
  unfold hufAdapt
  split
  · exact ⟨default, 0, .inl rfl⟩
  · split
    · exact ⟨_, s.freeCount, .inr rfl⟩
    · exact ⟨_, _, .inr rfl⟩

theorem makeTable_writes_table (n : Byte) (m : TableMode) (ok : Bool) (w : BitVec 5) (cs : List Code) :
    (makeTable n m ok w cs s).Ends (TableWritten n s) := by
  unfold makeTable
  extract_lets
  split
  · exact .of_erase n s
  · exact .of_set n s _ _

theorem hufMake_writes_table (n : Byte) (ok : Bool) (w : BitVec 5) (num : Word) :
    (hufMake n ok w num s).Ends (TableWritten n s) := by
  unfold hufMake
  split
  · trivial
  · split
    · trivial
    · split
      · exact .of_erase n s
      · exact makeTable_writes_table ..

theorem hufFixed_writes_table (n : Byte) (ok : Bool) (w : BitVec 5) (num : Word) :
    (hufFixed n ok w num s).Ends (TableWritten n s) := by
  unfold hufFixed
  split
  · trivial
  · split
    · trivial
    · exact makeTable_writes_table ..

theorem lookup_reads (t : Table) (base width left k idx : Nat) :
    (lookup t base width left k idx s).Ends (ReadAndAnswered s) :=
  (lookup_frame t base width left k idx s).imp fun _ => .of_reader

/-- A built table is read at one level or at two, and stays as it is (42_huffman.md R142). -/
theorem decodeSymbol_reads (t : Table) : (decodeSymbol t s).Ends (ReadAndAnswered s) := by
  refine (lookup_reads s t ..).andThen fun l u hu => ?_
  split
  · exact hu.trans (.of_result u _)
  · refine ((lookup_reads u t ..).imp fun v => hu.trans).andThen fun l v hv => ?_
    split
    · exact hv.trans (.of_result v _)
    · exact hv
  · exact hu

theorem decodeAdaptive_reads_symbol {n : Byte} {table : Table} (hget : Memory.get s.ht n.toNat = some table)
    (hmode : table.mode = .adaptive) : (decodeAdaptive n table s).Ends (SymbolRead n s) := by
  unfold decodeAdaptive
  split
  · trivial
  · exact ((adaptiveSymbol_frame _ _ _ s).imp fun u hu => SymbolRead.of_read n (.of_reader hu)).andThen fun v u hu =>
      hu.reshaped hget hmode _ v

theorem hufDecode_reads_symbol (n : Byte) : (hufDecode n s).Ends (SymbolRead n s) := by
  unfold hufDecode
  split
  · trivial
  · split
    · trivial
    case h_2 table hget =>
      split
      · trivial
      · split
        case isTrue hmode => exact decodeAdaptive_reads_symbol s hget hmode
        case isFalse => exact (decodeSymbol_reads s table).imp fun _ => SymbolRead.of_read n

end

/-- Settles O58: a load completes with its entry written or is refused; the commands that build a table, and the decode
of a symbol, may fail beside and leave every table but their own. -/
theorem frameOfTableCommands : Obligations.FrameOfTableCommands := by
  intro i s t h
  cases i
  case hufSetlen index l =>
    obtain rfl | rfl := hostCommand_next_of_complete (hufSetlen_cases s index l) h
    · exact ⟨⟨rfl, fun _ _ => rfl⟩, fun _ => ⟨rfl, rfl⟩⟩
    · exact ⟨⟨rfl, fun _ hk => Memory.get_set_other _ _ hk.symm⟩, fun _ => ⟨rfl, rfl⟩⟩
  case hufSettri index l code value =>
    obtain rfl | rfl := hostCommand_next_of_complete (hufSettri_cases s index l code value) h
    · exact ⟨⟨rfl, fun _ _ => rfl⟩, fun _ => ⟨rfl, rfl⟩⟩
    · exact ⟨⟨rfl, fun _ hk => Memory.get_set_other _ _ hk.symm⟩, fun _ => ⟨rfl, rfl⟩⟩
  case vlcSet n bits base =>
    obtain rfl | rfl := hostCommand_next_of_complete (vlcSet_cases s n bits base) h
    · exact ⟨⟨rfl, fun _ _ => ⟨rfl, rfl⟩⟩, fun _ => ⟨rfl, rfl⟩⟩
    · exact ⟨⟨rfl, fun _ hk => ⟨Memory.get_set_other _ _ hk.symm, Memory.get_set_other _ _ hk.symm⟩⟩,
        fun _ => ⟨rfl, rfl⟩⟩
  case vlcSetn n =>
    obtain rfl | rfl := hostCommand_next_of_complete (vlcSetn_cases s n) h
    · exact ⟨rfl, fun _ => ⟨rfl, rfl⟩⟩
    · exact ⟨rfl, fun _ => ⟨rfl, rfl⟩⟩
  case hufAdapt n =>
    obtain ⟨table, count, hop⟩ := hufAdapt_cases s n
    obtain rfl | rfl := hostCommand_next_of_complete hop h
    · exact ⟨⟨rfl, fun _ _ => rfl⟩, fun _ => ⟨rfl, rfl⟩⟩
    · exact ⟨⟨rfl, fun _ hk => Memory.get_set_other _ _ hk.symm⟩, fun _ => ⟨rfl, rfl⟩⟩
  case hufMake n ok w num =>
    have ht := hostCommand_keeps (hufMake_writes_table s n ok w num) h (.refl n s) fun _ x hu => hu.answeredAs x
    exact ⟨ht, (frame_with_memory ht.1 rfl rfl).2⟩
  case hufFixed n ok w num =>
    have ht := hostCommand_keeps (hufFixed_writes_table s n ok w num) h (.refl n s) fun _ x hu => hu.answeredAs x
    exact ⟨ht, (frame_with_memory ht.1 rfl rfl).2⟩
  case hufDecode n =>
    have ht := hostCommand_keeps (hufDecode_reads_symbol s n) h (.of_read n (.refl s)) fun _ x hu => hu.answeredAs x
    exact ⟨ht, (frame_with_memory ht.1 rfl rfl).2⟩
  all_goals exact ⟨trivial, trivial⟩

end Sys2Proof.Machine
end

section
/-!
Every step keeps the invariant: the host's move first, then the command, whose body is known by the lemmas of
Laws/Invariant.lean (10_state.md sections 3 to 7, 60_exceptions.md section 1).
-/
namespace Sys2Proof.Machine

/-! ## The body of each command -/

/-- What each command runs where it is legal (45_decompressor.md R192). -/
def commandBody (i : Instr) : State → Run (Option Word) :=
  match i with
  | .reset => fun s => complete s.restarted
  | .status => fun s => result (statusWord s.fsm s.err s.errInfo) s
  | .outInit dir rawSize window => outInit dir rawSize window
  | .outRd8 index => outRd8 index
  | .decCreate fmt declared => decCreate fmt declared
  | .decGetrawsize => fun s => result s.rawSize s
  | .decDecompress => fun s => decompress (format s.fmt) s
  | .decNextchunk => fun s => nextChunk (format s.fmt) s
  | .dispDetect => fun s => result ((detect s).setWidth 32) s
  | i => toolkit i

/-- Every command of the host is its body under the legality table. -/
theorem exec_eq_hostCommand (i : Instr) (s : State) : exec i s = hostCommand (kindOf i) (commandBody i) s := by
  cases i <;> rfl

theorem exec_reset (s : State) : exec .reset s = .next s.restarted.finished := rfl

section
variable {s : State}

theorem unvalidated_of_accepts_outInit (h : accepts .host .outInit s.fsm = true) : s.fsm = .unvalidated := by
  cases hf : s.fsm
  case unvalidated => rfl
  all_goals rw [hf] at h; cases h

theorem unvalidated_of_accepts_create (h : accepts .host .create s.fsm = true) : s.fsm = .unvalidated := by
  cases hf : s.fsm
  case unvalidated => rfl
  all_goals rw [hf] at h; cases h

theorem headerParsed_of_accepts_decompress (h : accepts .host .decompress s.fsm = true) : s.fsm = .headerParsed := by
  cases hf : s.fsm
  case headerParsed => rfl
  all_goals rw [hf] at h; cases h

theorem fsm_of_accepts_nextChunk (h : accepts .host .nextChunk s.fsm = true) :
    s.fsm = .headerParsed ∨ s.fsm = .decoding := by
  cases hf : s.fsm
  case headerParsed => exact .inl rfl
  case decoding => exact .inr rfl
  all_goals rw [hf] at h; cases h

/-! ## What a body keeps -/

/-- However a run ends it keeps the invariant, and where it fails it names a cause. -/
abbrev Run.Sound (r : Run (Option Word)) : Prop := r.Ends State.Inv ∧ r.Causes Reports

theorem outRd8_sound (index : Word) (h : s.Inv) : (outRd8 index s).Sound := by
  unfold outRd8
  split_ifs
  case neg =>
    split
    · exact ⟨h, trivial⟩
    · exact ⟨trivial, trivial⟩
  all_goals exact ⟨trivial, trivial⟩

theorem decCreate_sound (fmt : Byte) (declared : Word) (h : s.Inv) (hs : s.fsm = .unvalidated) :
    (decCreate fmt declared s).Sound := by
  unfold decCreate
  split_ifs
  case neg => exact ⟨create_inv _ fmt declared h hs, create_causes _ fmt declared s⟩
  all_goals exact ⟨trivial, trivial⟩

/-- `DEC.NEXTCHUNK`'s body adds the answer alone to the chunk's body (45_decompressor.md R206). -/
theorem nextChunk_sound (d : Descriptor) (h : s.Inv) (hs : s.fsm = .headerParsed ∨ s.fsm = .decoding) :
    (nextChunk d s).Sound := by
  unfold nextChunk
  split_ifs
  case pos => exact ⟨trivial, trivial⟩
  case neg =>
    have hbody := chunkBody_spec d h hs
    cases hrun : chunkBody d s with
    | ok r t =>
      rw [hrun] at hbody
      cases r with
      | chunk => exact ⟨hbody.1, trivial⟩
      | finished => exact ⟨hbody.1, trivial⟩
    | raised c t =>
      rw [hrun] at hbody
      exact ⟨hbody.1.1, hbody.2⟩
    | illegal => exact ⟨trivial, trivial⟩
    | stuck => exact ⟨trivial, trivial⟩

/-- Where it is legal, every command but `RESET` keeps the invariant from state to state. -/
theorem commandBody_sound {i : Instr} (h : s.Inv) (hi : i ≠ .reset) (ha : accepts .host (kindOf i) s.fsm = true) :
    (commandBody i s).Sound := by
  have ofToolkit (hb : commandBody i s = toolkit i s) : (commandBody i s).Sound :=
    hb ▸ ⟨toolkit_inv i h, toolkit_causes i s⟩
  cases i
  case reset => exact absurd rfl hi
  case status | decGetrawsize | dispDetect => exact ⟨h, trivial⟩
  case outInit dir size window =>
    exact ⟨(outInit_inv dir size window h (unvalidated_of_accepts_outInit ha)).imp fun _ => And.left,
      outInit_causes dir size window s⟩
  case outRd8 index => exact outRd8_sound index h
  case decCreate fmt declared => exact decCreate_sound fmt declared h (unvalidated_of_accepts_create ha)
  case decDecompress => exact decompress_spec _ h (headerParsed_of_accepts_decompress ha)
  case decNextchunk => exact nextChunk_sound _ h (fsm_of_accepts_nextChunk ha)
  all_goals exact ofToolkit rfl

/-! ## Commands and the host's moves -/

/-- `RESET` establishes the invariant from any state with an admissible configuration (70_reset_and_hazards.md R290). -/
theorem restarted_inv (h : s.setup.ok) : s.restarted.Inv := by
  refine .of_parts h ⟨?reader, ?slice, ?output, ?tables⟩ ?sequence
  case reader => simp [State.ReaderInv, State.restarted, Inst.reset, ReaderConfig.reset]
  case slice => simp [State.SliceInv, State.restarted, Inst.reset]
  case output => simp [State.OutputInv, State.restarted, Inst.reset, Inst.writtenIndices]
  case tables => simp [State.TablesInv, State.restarted, Inst.reset]
  case sequence => simp [State.SequenceInv, State.restarted, Inst.reset]

/-- Every command keeps the invariant. -/
theorem exec_inv {i : Instr} {t : State} (h : s.Inv) (ht : exec i s = .next t) : t.Inv := by
  by_cases hi : i = .reset
  · subst hi
    obtain rfl := Host.Outcome.next.inj ((exec_reset s).symm.trans ht)
    exact restarted_inv h.1
  · rw [exec_eq_hostCommand] at ht
    cases ha : accepts .host (kindOf i) s.fsm with
    | true =>
      obtain ⟨hends, hcauses⟩ := commandBody_sound h hi ha
      rw [hostCommand_of_accepted ha] at ht
      exact outcome_inv h hends hcauses ht
    | false =>
      obtain rfl := Host.Outcome.next.inj ((hostCommand_of_refused ha _).symm.trans ht)
      exact refused_inv h

/-- What the host may present beside a word: nothing, an admissible configuration with `RESET`, or other bytes of `UND`
(70_reset_and_hazards.md R292, R305). -/
theorem Request.admissible_cases {r : Request} (h : r.admissible s = true) :
    r.setup = none ∨ ∃ c, r.setup = some c ∧ c.ok ∧ (r.word = resetWord ∨ c = { s.setup with und := c.und }) := by
  unfold Request.admissible at h
  split at h
  case h_1 hnone => exact .inl hnone
  case h_2 c hc =>
    simp only [Bool.and_eq_true, Bool.or_eq_true, decide_eq_true_eq, beq_iff_eq] at h
    exact .inr ⟨c, hc, h.1, h.2.imp_right And.right⟩

/-- After the host's move the configuration is admissible (10_state.md R13, R14, R34). -/
theorem taking_setup_ok {r : Request} (rest : List Request) (h : s.setup.ok) (hr : r.admissible s = true) :
    (s.taking r rest).setup.ok := by
  obtain hnone | ⟨c, hc, hok, -⟩ := Request.admissible_cases hr
  · rw [State.taking_setup, hnone]
    exact h
  · rw [State.taking_setup, hc]
    exact hok

/-- Without `RESET` the host's move leaves the window and the limits, and so the whole invariant, as they are. -/
theorem taking_inv {r : Request} (rest : List Request) (h : s.Inv) (hr : r.admissible s = true)
    (hw : r.word ≠ resetWord) : (s.taking r rest).Inv := by
  have hsize : (s.taking r rest).setup.bufSize = s.setup.bufSize
      ∧ (s.taking r rest).setup.maxRawSize = s.setup.maxRawSize := by
    obtain hnone | ⟨c, hc, -, hreset | hund⟩ := Request.admissible_cases hr
    · rw [State.taking_setup, hnone]
      exact ⟨rfl, rfl⟩
    · exact absurd hreset hw
    · rw [State.taking_setup, hc, Option.getD_some, hund]
      exact ⟨rfl, rfl⟩
  obtain ⟨hok, htoolkit, hsequence⟩ := h.parts
  obtain ⟨hreader, hslice, houtput, htables⟩ := htoolkit
  refine .of_parts (taking_setup_ok rest hok hr) ⟨?_, ?_, ?_, htables⟩ hsequence
  · rw [State.ReaderInv, hsize.1]
    exact hreader
  · rw [State.SliceInv, hsize.1]
    exact hslice
  · rw [State.OutputInv, hsize.2]
    exact houtput

end

theorem decode_resetWord : decode resetWord = .ok .reset := by decide

/-- Settles O10: with the word of `RESET` an admissible configuration is all that is asked for; any other word leaves
the invariant to its command. -/
theorem stepKeepsTheInvariant : Obligations.StepKeepsTheInvariant := by
  intro s t h ht
  unfold step at ht
  split at ht
  case h_1 => exact Host.Outcome.next.inj ht ▸ h
  case h_2 r rest _ =>
    by_cases hr : r.admissible s = true
    · rw [if_pos hr] at ht
      by_cases hw : r.word = resetWord
      · rw [hw, decode_resetWord] at ht
        obtain rfl := Host.Outcome.next.inj ((exec_reset _).symm.trans ht)
        exact restarted_inv (taking_setup_ok rest h.1 hr)
      · have htaking := taking_inv rest h hr hw
        cases hd : decode r.word with
        | ok i =>
          rw [hd] at ht
          exact exec_inv htaking ht
        | error e =>
          rw [hd] at ht
          exact Host.Outcome.next.inj ht ▸ refused_inv htaking
    · rw [if_neg hr] at ht
      cases ht

end Sys2Proof.Machine
end

section
/-!
The output stream (44_output.md R171 to R178): its bytes in the order they are produced, and what each of its commands
answers and leaves alone.
-/
namespace Sys2Proof.Machine

/-! ## The bytes in the order they are produced (10_state.md R29) -/

/-- The index of `OUT` where byte number `n` of the output stands: counted from the end of a backward stream. -/
def Inst.indexOf (s : Inst) (n : Nat) : Nat :=
  match s.outDir with
  | .forward => n
  | .backward => s.rawSize.toNat - 1 - n

/-- Byte number `n` of the output, where it has been produced. -/
def Inst.producedByte (s : Inst) (n : Nat) : Option Byte := Memory.get s.out (s.indexOf n)

section
variable {s : State}

/-- The writes to come go to the next bytes in that order. -/
theorem wpAfter_eq_indexOf (h : s.outCur.toNat ≤ s.rawSize.toNat) (j : Nat) :
    s.wpAfter j = s.indexOf (s.produced + j) := by
  cases hd : s.outDir <;> simp only [Inst.wpAfter, Inst.indexOf, Inst.produced, hd]
  omega

theorem wp_eq_indexOf (h : s.outCur.toNat ≤ s.rawSize.toNat) : s.wp = s.indexOf s.produced := by
  rw [← Nat.add_zero s.produced, ← wpAfter_eq_indexOf h]
  cases hd : s.outDir <;> simp [Inst.wp, Inst.wpAfter, hd]

theorem indexOf_inj {m n : Nat} (hm : m < s.rawSize.toNat) (hn : n < s.rawSize.toNat) :
    s.indexOf m = s.indexOf n ↔ m = n := by
  cases hd : s.outDir <;> simp only [Inst.indexOf, hd]
  omega

/-- Of the bytes there is room for exactly those produced are written. -/
theorem producedByte_isSome (h : s.OutputInv) {n : Nat} (hn : n < s.rawSize.toNat) :
    (s.producedByte n).isSome = true ↔ n < s.produced := by
  have hcur := h.1
  rw [Inst.producedByte, h.get_isSome, Inst.mem_writtenIndices]
  cases hd : s.outDir <;> simp only [Inst.indexOf, Inst.produced, hd]
  omega

/-- A write adds the next byte to those produced (44_output.md R172). -/
theorem put_producedByte (h : s.outCur.toNat ≤ s.rawSize.toNat) (hp : s.produced < s.rawSize.toNat) (b : Byte) {n : Nat}
    (hn : n < s.rawSize.toNat) : (s.put b).producedByte n = if n = s.produced then some b else s.producedByte n := by
  have hindex : (s.put b).indexOf n = s.indexOf n := by
    simp only [Inst.indexOf, State.put_outDir, State.put_rawSize]
  simp only [Inst.producedByte, hindex, put_get, wp_eq_indexOf h, indexOf_inj hp hn, eq_comm]

/-- A copy reads the byte `distance` before the next one, or `OUT_FILL` before the first (44_output.md R174 to R176). -/
theorem copySource_eq (h : s.OutputInv) (hp : s.produced < s.rawSize.toNat) {d : Nat} (hd : 1 ≤ d) :
    some (s.copySource d) = if d ≤ s.produced then s.producedByte (s.produced - d) else some s.setup.outFill := by
  have hcur := h.1
  have hsource : s.copySource d
      = if d ≤ s.produced then (s.producedByte (s.produced - d)).getD s.setup.outFill else s.setup.outFill := by
    cases hdir : s.outDir with
    | forward => simp only [State.copySource, Inst.producedByte, Inst.indexOf, Inst.produced, hdir]
    | backward =>
      simp only [Inst.produced, hdir] at hp
      have hroom : s.outCur.toNat - 1 + d < s.rawSize.toNat ↔ d ≤ s.rawSize.toNat - s.outCur.toNat := by omega
      simp only [State.copySource, Inst.producedByte, Inst.indexOf, Inst.produced, hdir, hroom]
      split
      · rw [show s.rawSize.toNat - 1 - (s.rawSize.toNat - s.outCur.toNat - d) = s.outCur.toNat - 1 + d by omega]
      · rfl
  rw [hsource]
  split
  · have hwritten : (s.producedByte (s.produced - d)).isSome = true :=
      (producedByte_isSome h (by omega)).2 (by omega)
    obtain ⟨b, hb⟩ := Option.isSome_iff_exists.1 hwritten
    rw [hb, Option.getD_some]
  · rfl

/-! ## A copy, byte by byte -/

/-- A longer copy writes one byte more after the shorter one. -/
theorem copy_succ (d n : Nat) : ∀ s : State,
    State.copy d (n + 1) s = (State.copy d n s).put ((State.copy d n s).copySource d) := by
  induction n with
  | zero => exact fun s => rfl
  | succ n ih => exact fun s => ih (s.put (s.copySource d))

theorem copy_indexOf (d n k : Nat) (s : State) : (State.copy d n s).indexOf k = s.indexOf k := by
  rw [copy_frame]; rfl

/-- The bytes a copy finds produced stay (44_output.md R179). -/
theorem copy_producedByte_before (h : s.OutputInv) {d n k : Nat} (hp : s.produced + n ≤ s.rawSize.toNat)
    (hk : k < s.produced) : (State.copy d n s).producedByte k = s.producedByte k := by
  rw [Inst.producedByte, copy_indexOf]
  refine copy_get_other h.1 hp fun j hj => ?_
  rw [wpAfter_eq_indexOf h.1, Ne, indexOf_inj (by omega) (by omega)]
  omega

/-- Byte `j` of a copy is byte `j mod d` of the `d` before it, or `OUT_FILL` (44_output.md R174 to R176). -/
theorem copy_producedByte (h : s.OutputInv) {d : Nat} (hd : 1 ≤ d) (n : Nat) (hp : s.produced + n ≤ s.rawSize.toNat) :
    ∀ j < n, (State.copy d n s).producedByte (s.produced + j)
      = if d ≤ s.produced + j % d then s.producedByte (s.produced + j % d - d) else some s.setup.outFill := by
  induction n with
  | zero => exact fun j hj => absurd hj (Nat.not_lt_zero j)
  | succ n ih =>
    intro j hj
    have hbefore := ih (by omega)
    obtain ⟨hinv, hproduced⟩ := copy_keeps (distance := d) (count := n) h (by omega)
    have hraw : (State.copy d n s).rawSize = s.rawSize := by rw [copy_frame]
    have hfill : (State.copy d n s).setup = s.setup := by rw [copy_frame]
    have hnext := put_producedByte hinv.1 (by rw [hproduced, hraw]; omega) ((State.copy d n s).copySource d)
      (n := s.produced + j) (by rw [hraw]; omega)
    rw [copySource_eq hinv (by rw [hproduced, hraw]; omega) hd, hproduced, hfill] at hnext
    rw [copy_succ, hnext]
    by_cases hjn : j = n
    case neg => rw [if_neg (by omega), hbefore j (by omega)]
    case pos =>
      subst hjn
      rw [if_pos rfl]
      by_cases hdj : d ≤ j
      · have hmod : (j - d) % d = j % d := (Nat.mod_eq_sub_mod hdj).symm
        rw [if_pos (by omega), Nat.add_sub_assoc hdj, hbefore (j - d) (by omega), hmod]
      · rw [Nat.mod_eq_of_lt (Nat.lt_of_not_le hdj)]
        by_cases hfirst : d ≤ s.produced + j
        · rw [if_pos hfirst, if_pos hfirst, copy_producedByte_before h (by omega) (by omega)]
        · rw [if_neg hfirst, if_neg hfirst]

end

/-- The cursor ends past the last byte of the copy, in the stream's direction. -/
theorem copy_outCur {s : State} (h : s.OutputInv) (d : Nat) {count : Word}
    (hp : s.produced + count.toNat ≤ s.rawSize.toNat) : (State.copy d count.toNat s).outCur
      = if s.outDir = .forward then s.outCur + count else s.outCur - count := by
  obtain ⟨⟨hcur, -⟩, hproduced⟩ := copy_keeps (distance := d) h hp
  have hdir : (State.copy d count.toNat s).outDir = s.outDir := by rw [copy_frame]
  have hraw : (State.copy d count.toNat s).rawSize = s.rawSize := by rw [copy_frame]
  have hfits := h.1
  simp only [Inst.produced, hdir] at hproduced hp
  rw [hraw] at hcur hproduced
  cases hd : s.outDir <;> simp only [hd, reduceCtorEq, ↓reduceIte] at hproduced hp ⊢ <;> bv_omega

/-! ## `OUT.INIT` (44_output.md R171) -/

section
variable {k : Kind} {op : State → Run (Option Word)} {s : State}

/-- A legal command that fails where it began latches its cause, under its category in Unvalidated
(60_exceptions.md R263). -/
theorem hostCommand_of_raised_here {c : Cause} (ha : accepts .host k s.fsm = true) (hs : s.fsm = .unvalidated)
    (h : op s = .raised c s) : hostCommand k op s = .next (s.latched (c.category .unvalidated) c) := by
  rw [hostCommand_of_accepted ha, h, outcome_raised, State.failed_of_not_done (by simp [hs]), hs]

theorem accepts_outInit_of_unvalidated (h : s.fsm = .unvalidated) : accepts .host .outInit s.fsm = true := by
  rw [h]; rfl

theorem accepts_outWrite_of_unvalidated (h : s.fsm = .unvalidated) : accepts .host .outWrite s.fsm = true := by
  rw [h]; rfl

variable (dir : Direction) (size window : Word)

theorem outInit_allocated (hv : s.outValid = true) : outInit dir size window s = .illegal := if_pos hv

theorem outInit_zero (hv : s.outValid = false) : outInit dir 0 window s = .raised .zeroSize s := by
  simp [outInit, hv]

theorem outInit_past_limit {size : Word} (hv : s.outValid = false) (h0 : size ≠ 0)
    (h : s.setup.maxRawSize.toNat < size.toNat) : outInit dir size window s = .raised .sizeExceedsMax s := by
  unfold outInit
  rw [if_neg (by simp [hv]), if_neg h0, if_pos h]

theorem outInit_in_limit {size : Word} (hv : s.outValid = false) (h0 : size ≠ 0)
    (h : size.toNat ≤ s.setup.maxRawSize.toNat) : outInit dir size window s = complete
      { s with rawSize := size, outDir := dir, outWin := window, out := []
               outCur := if dir = .forward then 0 else size, outValid := true } := by
  unfold outInit
  rw [if_neg (by simp [hv]), if_neg h0, if_neg (Nat.not_lt.2 h)]
  cases dir <;> rfl

end

/-- Settles O40: the three checks come one after the other, and past them nothing stands in the way. -/
theorem outputAllocationResult : Obligations.OutputAllocationResult := by
  intro s dir size window hs
  have ha := accepts_outInit_of_unvalidated hs
  refine ⟨fun hv => ?_, fun hv h0 => ?_, fun hv h0 h => ?_, fun hv h0 h => ⟨[], ?_, fun k => rfl⟩⟩
  · exact hostCommand_of_illegal (outInit_allocated dir size window hv)
  · subst h0
    exact hostCommand_of_raised_here ha hs (outInit_zero dir window hv)
  · exact hostCommand_of_raised_here ha hs (outInit_past_limit dir window hv h0 h)
  · exact hostCommand_of_complete ha (outInit_in_limit dir window hv h0 h)

/-! ## `OUT.WRITEBYTE` (44_output.md R172) -/

section
variable {s : State} (b : Byte)

/-- A write with room changes its byte and the cursor, which moves by one without a wrap. -/
theorem put_eq (h : s.outCur.toNat ≤ s.rawSize.toNat) (hp : s.produced < s.rawSize.toNat) : s.put b
    = { s with out := Memory.set s.out s.wp b
               outCur := if s.outDir = .forward then s.outCur + 1 else s.outCur - 1 } := by
  cases hd : s.outDir with
  | forward =>
    have hcur : word (s.outCur.toNat + 1) = s.outCur + 1 := by unfold word; bv_omega
    simp [State.put, Inst.wp, hd, hcur]
  | backward =>
    simp only [Inst.produced, hd] at hp
    have hcur : word (s.outCur.toNat - 1) = s.outCur - 1 := by unfold word; bv_omega
    simp [State.put, Inst.wp, hd, hcur]

theorem wp_eq_ite (s : State) :
    s.wp = if s.outDir = .forward then s.outCur.toNat else s.outCur.toNat - 1 := by
  cases hd : s.outDir <;> simp [Inst.wp, hd]

theorem outWritebyte_unallocated (hv : s.outValid = false) : outWritebyte b s = .illegal := if_pos hv

theorem outWritebyte_at_eof (hv : s.outValid = true) (h : s.produced = s.rawSize.toNat) :
    outWritebyte b s = .raised .outputOverrun s := by simp [outWritebyte, hv, Inst.eof, h]

theorem outWritebyte_with_room (hv : s.outValid = true) (h : s.produced < s.rawSize.toNat) :
    outWritebyte b s = complete (s.put b) := by simp [outWritebyte, hv, Inst.eof, Nat.ne_of_lt h]

end

/-- Settles O41: with room the write is one write of the array, at the write position. -/
theorem writeByteResult : Obligations.WriteByteResult := by
  intro s b hs
  have ha := accepts_outWrite_of_unvalidated hs
  refine ⟨fun hv => ?_, fun hv h => ?_, fun hv hcur h => ⟨Memory.set s.out s.wp b, ?_, fun k => ?_⟩⟩
  · exact hostCommand_of_illegal (outWritebyte_unallocated b hv)
  · exact hostCommand_of_raised_here ha hs (outWritebyte_at_eof b hv h)
  · rw [← put_eq b hcur h]
    exact hostCommand_of_complete ha (outWritebyte_with_room b hv h)
  · rw [Memory.get_set, wp_eq_ite]
    simp only [eq_comm]

/-! ## `OUT.COPY` (44_output.md R173 to R176) -/

/-- The distances that R173 refuses with CopyDistance. -/
abbrev Inst.TooFar (s : Inst) (d : Nat) : Prop :=
  d = 0 ∨ (s.outWin = 0 ∧ s.produced < d) ∨ (s.outWin ≠ 0 ∧ s.outWin.toNat < d)

section
variable {s : State} {distance : Word} (count : Word)

theorem outCopy_unallocated (distance : Word) (hv : s.outValid = false) : outCopy distance count s = .illegal :=
  if_pos hv

/-- The distance is checked before the room (44_output.md R173). -/
theorem outCopy_too_far (hv : s.outValid = true) (h : s.TooFar distance.toNat) :
    outCopy distance count s = .raised .copyDistance s := by
  rw [outCopy, if_neg (by simp [hv])]
  obtain h0 | ⟨hwin, hfar⟩ | ⟨hwin, hfar⟩ := h
  · rw [if_pos (BitVec.eq_of_toNat_eq h0)]
  · rw [if_pos (c := (s.outWin = 0 && _) = true) (by simp [hwin, hfar]), ite_self]
  · rw [if_pos (c := (s.outWin != 0 && _) = true) (by simpa using ⟨hwin, hfar⟩), ite_self, ite_self]

/-- An admissible distance leaves the room to be checked (44_output.md R173). -/
theorem outCopy_near (hv : s.outValid = true) (h : ¬ s.TooFar distance.toNat) : outCopy distance count s
    = if s.produced + count.toNat ≤ s.rawSize.toNat then complete (State.copy distance.toNat count.toNat s)
      else .raised .outputOverrun s := by
  obtain ⟨h0, hproduced, hwindow⟩ := by simpa only [Inst.TooFar, not_or, not_and, Nat.not_lt] using h
  have hd : distance ≠ 0 := fun he => h0 (congrArg BitVec.toNat he)
  rw [outCopy, if_neg (by simp [hv]), if_neg hd, if_neg (by simpa using hproduced), if_neg (by simpa using hwindow)]
  by_cases hroom : s.produced + count.toNat ≤ s.rawSize.toNat
  · rw [if_pos hroom, (sumLe_word s.rawSize).2 hroom]; rfl
  · rw [if_neg hroom, Bool.eq_false_iff.2 ((sumLe_word s.rawSize).not.2 hroom)]; rfl

end

/-- Settles O42: the checks are those of the body, read in its order. -/
theorem copyChecks : Obligations.CopyChecks := by
  intro s distance count hs
  have ha := accepts_outWrite_of_unvalidated hs
  refine ⟨fun hv => ?_, fun hv h => ?_, fun hv h hroom => ?_⟩
  · exact hostCommand_of_illegal (outCopy_unallocated count distance hv)
  · exact hostCommand_of_raised_here ha hs (outCopy_too_far count hv h)
  · exact hostCommand_of_raised_here ha hs ((outCopy_near count hv h).trans (if_neg (Nat.not_le.2 hroom)))

/-- Settles O43: the copy's bytes in the order of production, read at the indices of either direction. -/
theorem copyRepeatsWithItsDistance : Obligations.CopyRepeatsWithItsDistance := by
  intro s distance count hs hv h hd hnowin hwin hp d cur
  have hnear : ¬ s.TooFar distance.toNat := by
    rintro (h0 | ⟨hw, hfar⟩ | ⟨hw, hfar⟩)
    · omega
    · exact absurd (hnowin hw) (Nat.not_le.2 hfar)
    · exact absurd (hwin hw) (Nat.not_le.2 hfar)
  have hexec : exec (.outCopy distance count) s = .next (State.finished (State.copy d count.toNat s)) :=
    hostCommand_of_complete (accepts_outWrite_of_unvalidated hs) ((outCopy_near count hv hnear).trans (if_pos hp))
  have hcur := copy_outCur h d hp
  have hbytes := copy_producedByte h hd count.toNat hp
  have hother := fun k => copy_get_other (distance := d) (i := k) h.1 hp
  have hle := h.1
  rw [copy_frame] at hexec
  simp only [Inst.producedByte, copy_indexOf] at hbytes
  refine ⟨fun hdir => ⟨(State.copy d count.toNat s).out, ?_, fun j hj => ?_, fun k hk => ?_⟩,
    fun hdir => ⟨(State.copy d count.toNat s).out, ?_, fun j hj => ?_, fun k hk => ?_⟩⟩
  case refine_1 | refine_4 => rw [hexec, hcur, hdir]; rfl
  case refine_2 => simpa only [Inst.indexOf, Inst.produced, hdir] using hbytes j hj
  case refine_3 | refine_6 =>
    refine hother k fun j hj => ?_
    simp only [Inst.produced, Inst.wpAfter, hdir] at hp ⊢
    omega
  case refine_5 =>
    have hmod : j % d ≤ j := Nat.mod_le j d
    have hbyte := hbytes j hj
    simp only [Inst.indexOf, Inst.produced, hdir] at hbyte hp
    have hindex : s.rawSize.toNat - 1 - (s.rawSize.toNat - cur + j) = cur - 1 - j := by omega
    have hroom : d ≤ s.rawSize.toNat - cur + j % d ↔ cur - 1 - j % d + d < s.rawSize.toNat := by omega
    rw [hindex, if_congr hroom rfl rfl] at hbyte
    rw [hbyte]
    split
    · rw [show s.rawSize.toNat - 1 - (s.rawSize.toNat - cur + j % d - d) = cur - 1 - j % d + d by omega]
    · rfl

/-! ## `OUT.RD8` (44_output.md R178) -/

section
variable {s : State} {index : Word}

/-- In Decoding of a format that is not chunked nothing is read (44_output.md R178). -/
theorem outRd8_while_decoding (hs : s.fsm = .decoding) (hc : (format s.fmt).chunked = false) :
    outRd8 index s = .illegal := by
  unfold outRd8
  rw [if_pos (c := (decide (s.fsm = .decoding) && !(format s.fmt).chunked) = true) (by simp [hs, hc]), ite_self]

theorem outRd8_unwritten
    (h : s.outValid = false ∨ s.rawSize.toNat ≤ index.toNat ∨ Memory.get s.out index.toNat = none) :
    outRd8 index s = .illegal := by
  unfold outRd8
  obtain hv | hpast | hnone := h
  · exact if_pos hv
  · rw [if_pos hpast, ite_self, ite_self]
  · rw [hnone, ite_self, ite_self, ite_self]

theorem outRd8_written {b : Byte} (hs : s.fsm = .decoding → (format s.fmt).chunked = true) (hv : s.outValid = true)
    (hi : index.toNat < s.rawSize.toNat) (hb : Memory.get s.out index.toNat = some b) :
    outRd8 index s = result (b.setWidth 32) s := by
  unfold outRd8
  rw [if_neg (by simp [hv]), if_neg (by simpa using hs), if_neg (Nat.not_le.2 hi), hb]

end

/-- Settles O44: the states that show the output accept the read, and Decoding of a format that is not chunked accepts
it for the body to refuse. -/
theorem outputReadResult : Obligations.OutputReadResult := by
  intro s index
  refine ⟨fun hs => ⟨fun b hv hi hb => ?_, fun h => ?_⟩, fun hs hc => ?_⟩
  · have ha : accepts .host .outRead s.fsm = true := by rcases hs with h | h | ⟨h, -⟩ <;> rw [h] <;> rfl
    have hchunked (hd : s.fsm = .decoding) : (format s.fmt).chunked = true := by simpa [hd] using hs
    exact hostCommand_of_result ha (outRd8_written hchunked hv hi hb)
  · exact hostCommand_of_illegal (outRd8_unwritten h)
  · exact hostCommand_of_illegal (outRd8_while_decoding hs hc)

/-! ## What the writers leave alone -/

section
variable {P : State → Prop} {s : State}

/-- Everything `OUT.INIT` can come to. -/
theorem outInit_ends (dir : Direction) (size window : Word) (hs : P s) (hinit : P
      { s with rawSize := size, outDir := dir, outWin := window, out := []
               outCur := if dir = .forward then 0 else size, outValid := true }) :
    (outInit dir size window s).Ends P := by
  cases hv : s.outValid
  case true => rw [outInit_allocated dir size window hv]; trivial
  case false =>
    by_cases h0 : size = 0
    · rw [h0, outInit_zero dir window hv]
      exact hs
    · by_cases hlimit : size.toNat ≤ s.setup.maxRawSize.toNat
      · rw [outInit_in_limit dir window hv h0 hlimit]
        exact hinit
      · rw [outInit_past_limit dir window hv h0 (Nat.lt_of_not_le hlimit)]
        exact hs

/-- Everything `OUT.WRITEBYTE` can come to where the cursor is in its range. -/
theorem outWritebyte_ends (b : Byte) (h : s.OutputInv) (hs : P s) (hput : s.produced < s.rawSize.toNat → P (s.put b)) :
    (outWritebyte b s).Ends P := by
  cases hv : s.outValid
  case false => rw [outWritebyte_unallocated b hv]; trivial
  case true =>
    obtain hroom | heof := Nat.lt_or_eq_of_le (produced_le h)
    · rw [outWritebyte_with_room b hv hroom]
      exact hput hroom
    · rw [outWritebyte_at_eof b hv heof]
      exact hs

/-- Everything `OUT.COPY` can come to. -/
theorem outCopy_ends (distance count : Word) (hs : P s) (hcopy : s.produced + count.toNat ≤ s.rawSize.toNat →
      P (State.copy distance.toNat count.toNat s)) : (outCopy distance count s).Ends P := by
  cases hv : s.outValid
  case false => rw [outCopy_unallocated count distance hv]; trivial
  case true =>
    by_cases hfar : s.TooFar distance.toNat
    · rw [outCopy_too_far count hv hfar]
      exact hs
    · rw [outCopy_near count hv hfar]
      split
      case isTrue hroom => exact hcopy hroom
      case isFalse => exact hs

end

/-- From `s` to `t` the cursor and the bytes of the output at the indices in `W` were written and an answer given, and
nothing else happened. -/
def OutputWritten (W : Nat → Prop) (s t : State) : Prop :=
  t = { s.answeredAs t with out := t.out, outCur := t.outCur }
    ∧ ∀ k, ¬ W k → Memory.get t.out k = Memory.get s.out k

section
variable {W : Nat → Prop} {s t : State}

theorem OutputWritten.refl (W : Nat → Prop) (s : State) : OutputWritten W s s := ⟨rfl, fun _ _ => rfl⟩

theorem OutputWritten.answeredAs (h : OutputWritten W s t) (x : State) : OutputWritten W s (t.answeredAs x) :=
  ⟨congrArg (·.answeredAs x) h.1, h.2⟩

theorem OutputWritten.put (h : s.OutputInv) (hp : s.produced < s.rawSize.toNat) (b : Byte) :
    OutputWritten (· = s.wp) s (s.put b) := by
  refine ⟨?_, fun k hk => by rw [put_get, if_neg (Ne.symm hk)]⟩
  rw [put_eq b h.1 hp]; rfl

theorem OutputWritten.copy (h : s.OutputInv) (d : Nat) {count : Nat} (hp : s.produced + count ≤ s.rawSize.toNat) :
    OutputWritten (fun k => ∃ j < count, k = s.wpAfter j) s (State.copy d count s) :=
  ⟨by rw [copy_frame]; rfl, fun _ hk => copy_get_other h.1 hp fun j hj he => hk ⟨j, hj, he⟩⟩

/-- A writer's command is its body and the answer, which leaves `RES` as the body does (10_state.md R17). -/
theorem OutputWritten.of_hostCommand {k : Kind} {op : State → Run (Option Word)}
    (hop : (op s).Ends fun u => u.res = s.res ∧ OutputWritten W s u) (h : hostCommand k op s = .next t) :
    t = { s.answeredAs t with res := s.res, out := t.out, outCur := t.outCur }
      ∧ ∀ k, ¬ W k → Memory.get t.out k = Memory.get s.out k := by
  have hres := hostCommand_keeps_res (hop.imp fun _ => And.left) h
  obtain ⟨hframe, hother⟩ :=
    hostCommand_keeps (hop.imp fun _ => And.right) h (.refl W s) fun _ x hu => hu.answeredAs x
  exact ⟨by rw [← hres]; exact hframe, hother⟩

/-- `OUT.INIT`'s body changes the registers and the array of the output alone. -/
theorem outInit_writes_output (s : State) (dir : Direction) (size window : Word) :
    (outInit dir size window s).Ends fun u => u.res = s.res ∧ u = { s.answeredAs u with
      rawSize := u.rawSize, outDir := u.outDir, outWin := u.outWin, out := u.out, outCur := u.outCur
      outValid := u.outValid } :=
  outInit_ends dir size window ⟨rfl, rfl⟩ ⟨rfl, rfl⟩

end

/-- Settles O59: the body of each writer comes to its one write, or leaves the state to what a failure latches. -/
theorem frameOfOutputCommands : Obligations.FrameOfOutputCommands := by
  intro i s t hinv h
  cases i
  case outInit dir size window =>
    have hbody := outInit_writes_output s dir size window
    have hres := hostCommand_keeps_res (hbody.imp fun _ => And.left) h
    have hframe := hostCommand_keeps (hbody.imp fun _ => And.right) h rfl fun _ x hu => congrArg (·.answeredAs x) hu
    dsimp only
    rw [← hres]
    exact hframe
  case outWritebyte b =>
    exact OutputWritten.of_hostCommand (outWritebyte_ends b hinv ⟨rfl, .refl _ s⟩
      fun hp => ⟨State.put_res s b, .put hinv hp b⟩) h
  case outCopy distance count =>
    obtain ⟨hframe, hother⟩ := OutputWritten.of_hostCommand (outCopy_ends distance count ⟨rfl, .refl _ s⟩
      fun hp => ⟨by rw [copy_frame], .copy hinv distance.toNat hp⟩) h
    refine ⟨hframe, fun k hk => hother k ?_⟩
    rintro ⟨j, hj, rfl⟩
    refine hk j hj ?_
    cases hd : s.outDir <;> simp [Inst.wpAfter, hd]
  all_goals trivial

end Sys2Proof.Machine
end

section
/-!
Written output stays (44_output.md R179): no command of the toolkit, no activity of the format sequencer and so no
command of the host but `RESET` rewrites a byte or moves the cursor back.
-/
namespace Sys2Proof.Machine

/-! ## Nothing written is lost -/

/-- From `s` to `t` no byte of the output was rewritten and the cursor did not move back. -/
def OutputStays (s t : State) : Prop :=
  s.produced ≤ t.produced ∧ ∀ (k : Nat) (b : Byte), Memory.get s.out k = some b → Memory.get t.out k = some b

/-- The same of an output that the invariant holds of, which it goes on to hold of. -/
def OutputGrows (s t : State) : Prop := s.OutputInv → t.OutputInv ∧ OutputStays s t

/-- The output, its registers and its limit are in `t` what they are in `s`. -/
structure SameOutput (s t : State) : Prop where
  out : t.out = s.out
  outCur : t.outCur = s.outCur
  outDir : t.outDir = s.outDir
  rawSize : t.rawSize = s.rawSize
  outValid : t.outValid = s.outValid
  setup : t.setup = s.setup

section
variable {s t u : State}

theorem OutputStays.refl (s : State) : OutputStays s s := ⟨Nat.le_refl _, fun _ _ hb => hb⟩

theorem OutputStays.trans (h1 : OutputStays s t) (h2 : OutputStays t u) : OutputStays s u :=
  ⟨Nat.le_trans h1.1 h2.1, fun k b hb => h2.2 k b (h1.2 k b hb)⟩

/-- Before the output is allocated nothing of it is written (10_state.md R15). -/
theorem OutputStays.of_unallocated (h : s.OutputInv) (hv : s.outValid = false) (t : State) : OutputStays s t := by
  have hraw : s.rawSize.toNat = 0 := congrArg BitVec.toNat (h.2.2.1 hv)
  have hproduced := produced_le h
  refine ⟨by omega, fun k b hb => ?_⟩
  have hwritten := (h.get_isSome k).1 (by rw [hb]; rfl)
  have hcur := h.1
  rw [Inst.mem_writtenIndices] at hwritten
  cases hd : s.outDir <;> simp only [hd] at hwritten <;> omega

theorem OutputGrows.refl (s : State) : OutputGrows s s := fun h => ⟨h, .refl s⟩

theorem OutputGrows.trans (h1 : OutputGrows s t) (h2 : OutputGrows t u) : OutputGrows s u := fun h =>
  have ⟨ht, hst⟩ := h1 h
  have ⟨hu, htu⟩ := h2 ht
  ⟨hu, hst.trans htu⟩

theorem OutputGrows.of_same (h : SameOutput s t) : OutputGrows s t := by
  intro hinv
  have hproduced : t.produced = s.produced := by simp only [Inst.produced, h.outDir, h.outCur, h.rawSize]
  refine ⟨?_, hproduced.ge, fun k b hb => by rw [h.out, hb]⟩
  simpa only [State.OutputInv, Inst.writtenIndices, h.out, h.outCur, h.outDir, h.rawSize, h.outValid, h.setup]
    using hinv

/-- The bytes to come go to indices no write has reached (44_output.md R179). -/
theorem ne_indexOf_of_written (h : s.OutputInv) {k n : Nat} {b : Byte} (hb : Memory.get s.out k = some b)
    (hn : s.produced ≤ n) (hroom : n < s.rawSize.toNat) : k ≠ s.indexOf n := by
  rintro rfl
  have hwritten := (producedByte_isSome h hroom).1 (by rw [Inst.producedByte, hb]; rfl)
  omega

theorem OutputGrows.put (hp : s.produced < s.rawSize.toNat) (b : Byte) : OutputGrows s (s.put b) := by
  intro h
  refine ⟨put_keeps h hp b, by rw [put_produced hp h.1]; omega, fun k c hc => ?_⟩
  rw [put_get, wp_eq_indexOf h.1, if_neg (ne_indexOf_of_written h hc (Nat.le_refl _) hp).symm, hc]

theorem OutputGrows.copy (d : Nat) {count : Nat} (hp : s.produced + count ≤ s.rawSize.toNat) :
    OutputGrows s (State.copy d count s) := by
  intro h
  obtain ⟨hinv, hproduced⟩ := copy_keeps (distance := d) h hp
  refine ⟨hinv, by omega, fun k b hb => (copy_get_other h.1 hp fun j hj => ?_).trans hb⟩
  rw [wpAfter_eq_indexOf h.1]
  exact ne_indexOf_of_written h hb (by omega) (by omega)

end

/-! ## The toolkit -/

/-- The array and the cursor of the output are in `t` what they are in `s`. -/
def OutputKept (s t : State) : Prop := t.out = s.out ∧ t.outCur = s.outCur

section
variable {s t : State}

theorem OutputKept.of_eq {x : State} (h : t = x) (hx : OutputKept s x) : OutputKept s t := h ▸ hx

theorem Run.ends_of_complete {P : State → Prop} {r : Run (Option Word)} (h : r = .illegal ∨ r = complete t) (ht : P t) :
    r.Ends P := by
  obtain rfl | rfl := h
  · trivial
  · exact ht

theorem Run.ends_of_forall {α : Type} {P : State → Prop} (r : Run α) (h : ∀ t, P t) : r.Ends P := by
  cases r
  case ok _ t | raised _ t => exact h t
  all_goals trivial

/-- The toolkit's commands but the two writers leave the array and the cursor of the output alone. -/
theorem toolkit_keeps_output (i : Instr) (s : State) (hkind : kindOf i ≠ .outWrite) :
    (toolkit i s).Ends (OutputKept s) := by
  have kept : OutputKept s s := ⟨rfl, rfl⟩
  cases i
  case outWritebyte | outCopy => exact absurd rfl hkind
  case bufSize => exact kept
  case bufRd8 | bufRdbe16 | bufRdbe32 | bufRdle16 | bufRdle32 =>
    exact (bufRead_writes_res s _ _ _).imp fun _ hu => .of_eq hu kept
  case bufGetdata off len => exact (bufGetdata_writes_slice s off len).imp fun _ hu => .of_eq hu kept
  case bufSlrd8 i => exact (bufSlrd8_writes_res s i).imp fun _ hu => .of_eq hu kept
  case ovfSum chain a b => exact (ovfSum_writes_sum s chain a b).imp fun _ hu => .of_eq hu kept
  case brInit order dir rw wend rot lo hi =>
    exact (brInit_writes_reader s order dir rw wend rot lo hi).imp fun _ hu => .of_eq hu kept
  case brReset live value => exact (brReset_writes_accumulator s live value).imp fun _ hu => .of_eq hu kept
  case brAnchor w => exact (brAnchor_writes_accumulator s w).imp fun _ hu => .of_eq hu kept
  case brRead count => exact (brRead_reads s count).imp fun _ hu => .of_eq hu kept
  case rotb count value => exact (rotb_writes_res s count value).imp fun _ hu => .of_eq hu kept
  case hufSetlen index l => exact Run.ends_of_complete (hufSetlen_cases s index l) kept
  case hufSettri index l code value => exact Run.ends_of_complete (hufSettri_cases s index l code value) kept
  case hufMake n ok w num => exact (hufMake_writes_table s n ok w num).imp fun _ hu => .of_eq hu.1 kept
  case hufFixed n ok w num => exact (hufFixed_writes_table s n ok w num).imp fun _ hu => .of_eq hu.1 kept
  case hufAdapt n =>
    obtain ⟨table, count, hop⟩ := hufAdapt_cases s n
    exact Run.ends_of_complete hop kept
  case hufDecode n => exact (hufDecode_reads_symbol s n).imp fun _ hu => .of_eq hu.1 kept
  case vlcSet n bits base => exact Run.ends_of_complete (vlcSet_cases s n bits base) kept
  case vlcSetn n => exact Run.ends_of_complete (vlcSetn_cases s n) kept
  case vlcDecode index => exact (vlcDecode_reads s index).imp fun _ hu => .of_eq hu kept
  case outEof => exact (outEof_writes_res s).imp fun _ hu => .of_eq hu kept
  all_goals trivial

theorem OutputGrows.of_kept (hf : ToolkitFrame s t) (h : OutputKept s t) : OutputGrows s t :=
  .of_same ⟨h.1, h.2, hf.outDir, hf.rawSize, hf.outValid, hf.setup⟩

/-- A property that asks for the output's invariant may be proved under it. -/
theorem Run.ends_grows_of_inv {α : Type} {r : Run α} (h : s.OutputInv → r.Ends (OutputGrows s)) :
    r.Ends (OutputGrows s) := by
  by_cases hinv : s.OutputInv
  · exact h hinv
  · exact r.ends_of_forall fun _ hc => absurd hc hinv

theorem toolkit_grows (i : Instr) (s : State) : (toolkit i s).Ends (OutputGrows s) := by
  by_cases hkind : kindOf i = .outWrite
  case neg =>
    exact ((toolkit_frame i s).and (toolkit_keeps_output i s hkind)).imp fun _ h => .of_kept h.1 h.2
  case pos =>
    cases i
    case outWritebyte b =>
      exact Run.ends_grows_of_inv fun hinv => outWritebyte_ends b hinv (.refl s) fun hp => .put hp b
    case outCopy distance count =>
      exact outCopy_ends distance count (.refl s) fun hp => .copy distance.toNat hp
    all_goals cases hkind

end

/-! ## The format sequencer -/

section
variable {α : Type}

theorem Script.run_grows (x : Script α) (s : State) : (x.run s).Ends (OutputGrows s) :=
  Script.run_ends OutputGrows.refl OutputGrows.trans (fun _ _ => .of_same (by constructor <;> rfl))
    (fun i s _ => toolkit_grows i s) x s

theorem runChecked_grows {ε : Type} (cause : ε → Cause) (x : Script (Option ε)) (s : State) :
    (runChecked cause x s).Ends (OutputGrows s) := by
  refine (Script.run_grows x s).andThen fun r t ht => ?_
  cases r <;> exact ht

theorem decodeStep_grows (d : Descriptor) (s : State) : (decodeStep d s).Ends (OutputGrows s) :=
  (runChecked_grows _ _ s).andThen fun _ _ ht => ht.trans (.of_same (by constructor <;> rfl))

theorem decodeLoop_grows (d : Descriptor) (n : Nat) : ∀ s, (decodeLoop d n s).Ends (OutputGrows s) := by
  induction n with
  | zero =>
    intro s
    unfold decodeLoop
    split
    · trivial
    · exact .refl s
  | succ n ih =>
    intro s
    unfold decodeLoop
    split
    · exact (decodeStep_grows d s).andThen fun _ t ht => (ih t).imp fun _ hu => ht.trans hu
    · exact .refl s

theorem chunkBody_grows (d : Descriptor) (s : State) : (chunkBody d s).Ends (OutputGrows s) := by
  have hstart : OutputGrows s { s with fsm := .decoding, chunkLo := word s.produced } :=
    .of_same (by constructor <;> rfl)
  refine ((Script.run_grows _ _).imp fun _ ht => hstart.trans ht).andThen fun r t ht => ?_
  cases r with
  | chunk => exact ht.trans (.of_same (by constructor <;> rfl))
  | failed e => exact ht
  | noProgress => trivial
  | finished =>
    dsimp only
    split
    · exact ((runChecked_grows _ _ t).imp fun _ hu => ht.trans hu).andThen fun _ _ hu =>
        hu.trans (.of_same (by constructor <;> rfl))
    · exact ht

theorem chunkLoop_grows (d : Descriptor) (n : Nat) : ∀ s, (chunkLoop d n s).Ends (OutputGrows s) := by
  induction n with
  | zero => exact fun _ => trivial
  | succ n ih =>
    intro s
    refine (chunkBody_grows d s).andThen fun r t ht => ?_
    cases r with
    | chunk => exact (ih t).imp fun _ hu => ht.trans hu
    | finished => exact ht

/-- A whole decode, chunked or not (45_decompressor.md R201). -/
theorem decompress_grows (d : Descriptor) (s : State) : (decompress d s).Ends (OutputGrows s) := by
  have hstart : OutputGrows s { s with fsm := .decoding } := .of_same (by constructor <;> rfl)
  refine Run.Ends.andThen (P := OutputGrows s) ?_ fun _ _ ht => ht.trans (.of_same (by constructor <;> rfl))
  split
  · exact (chunkLoop_grows d _ _).imp fun _ ht => hstart.trans ht
  · refine ((runChecked_grows _ _ _).imp fun _ ht => hstart.trans ht).andThen fun _ t ht => ?_
    refine ((decodeLoop_grows d _ t).imp fun _ hu => ht.trans hu).andThen fun _ u hu => ?_
    exact (runChecked_grows _ _ u).imp fun _ hv => hu.trans hv

theorem nextChunk_grows (d : Descriptor) (s : State) : (nextChunk d s).Ends (OutputGrows s) := by
  unfold nextChunk
  split
  · trivial
  · exact (chunkBody_grows d s).andThen fun _ _ ht => ht.trans (.of_same (by constructor <;> rfl))

end

/-! ## Every command but `RESET` -/

theorem outInit_stays {s : State} (dir : Direction) (size window : Word) (h : s.OutputInv) :
    (outInit dir size window s).Ends (OutputStays s) := by
  cases hv : s.outValid
  case true => rw [outInit_allocated dir size window hv]; trivial
  case false => exact Run.ends_of_forall _ (.of_unallocated h hv)

theorem decCreate_stays {s : State} (fmt : Byte) (declared : Word) (h : s.OutputInv) :
    (decCreate fmt declared s).Ends (OutputStays s) := by
  cases hv : s.outValid
  case true => rw [decCreate, if_pos (by rw [hv]; rfl)]; trivial
  case false => exact Run.ends_of_forall _ (.of_unallocated h hv)

theorem commandBody_stays {i : Instr} {s : State} (h : s.OutputInv) (hi : i ≠ .reset) :
    (commandBody i s).Ends (OutputStays s) := by
  have ofGrows {r : Run (Option Word)} (hr : r.Ends (OutputGrows s)) : r.Ends (OutputStays s) :=
    hr.imp fun _ hg => (hg h).2
  have ofToolkit (hb : commandBody i s = toolkit i s) : (commandBody i s).Ends (OutputStays s) :=
    hb ▸ ofGrows (toolkit_grows i s)
  cases i
  case reset => exact absurd rfl hi
  case status | decGetrawsize | dispDetect => exact .refl s
  case outInit dir size window => exact outInit_stays dir size window h
  case outRd8 index =>
    exact (outRd8_writes_res s index).imp fun u hu => by rw [hu]; exact .refl s
  case decCreate fmt declared => exact decCreate_stays fmt declared h
  case decDecompress => exact ofGrows (decompress_grows _ s)
  case decNextchunk => exact ofGrows (nextChunk_grows _ s)
  all_goals exact ofToolkit rfl

/-- Settles O16: what the body of a command keeps of the output its answer leaves alone. -/
theorem writtenOutputStays : Obligations.WrittenOutputStays := by
  intro i s t h hi ht
  obtain ⟨-, htoolkit, -⟩ := h.parts
  rw [exec_eq_hostCommand] at ht
  exact hostCommand_keeps (commandBody_stays htoolkit.output hi) ht (.refl s) fun _ _ hu => hu

end Sys2Proof.Machine
end

section
/-!
The system family: what `STATUS` answers (45_decompressor.md R193).
-/
namespace Sys2Proof.Machine

/-- The parts of a word put together are the digits of its number. -/
theorem append_toNat {m n : Nat} (x : BitVec m) (y : BitVec n) : (x ++ y).toNat = x.toNat * 2 ^ n + y.toNat := by
  rw [BitVec.toNat_append, ← Nat.shiftLeft_add_eq_or_of_lt y.isLt, Nat.shiftLeft_eq]

/-- The bit fields of the result do not overlap (45_decompressor.md R193). -/
theorem statusWord_toNat (fsm : Fsm) (err : Category) (info : Cause) :
    (statusWord fsm err info).toNat = fsm.code.toNat + 16 * err.code.toNat + 256 * info.code.toNat := by
  rw [statusWord, BitVec.toNat_setWidth_of_le (by decide)]
  simp only [append_toNat, BitVec.toNat_ofNat]
  omega

/-- `STATUS` is legal in every state and answers its result (45_decompressor.md R192, R193). -/
theorem exec_status (s : State) : exec .status s = .next (s.returned (statusWord s.fsm s.err s.errInfo)) :=
  hostCommand_of_result (k := .system) rfl rfl

/-- Settles O19: the answer is one word of bit fields, whose number is the sum of the fields at their places. -/
theorem statusResult : Obligations.StatusResult := by
  refine ⟨by simp [decode, whenClear], fun s => ⟨_, exec_status s, statusWord_toNat ..⟩, fun s hfsm herr hinfo => ?_⟩
  have hword : statusWord .failed .decompression .copyDistance = 0x0B24 := rfl
  rw [exec_status, hfsm, herr, hinfo, hword]

end Sys2Proof.Machine
end

section
/-!
Nothing outside the window is read (20_memory.md R42 to R44, 47_dispatcher.md R252): every part of a command does with
another input that agrees on the window what it does with its own. Each part is proved to commute with the change of the
input, and parts joined by `andThen` commute because the first keeps what the second asks of the state.
-/
namespace Sys2Proof.Machine

/-! ## Two inputs that agree on the window -/

/-- What makes another input look the same to a command: its bytes of the window are those of the state's own, and every
read of the toolkit lies in the window (20_memory.md R42 to R44). -/
structure State.Sees (s : State) (und : List Host.Cell) : Prop where
  bytes : ∀ k < s.setup.bufSize.toNat, (s.withInput und).inByte k = s.inByte k
  toolkit : ToolkitInv s

section
variable {s t : State} {und : List Host.Cell}

theorem State.Sees.of_setup (h : s.Sees und) (hs : t.setup = s.setup) (ht : ToolkitInv t) : t.Sees und := by
  refine ⟨fun k hk => ?_, ht⟩
  have hbyte := h.bytes k (hs ▸ hk)
  simpa only [State.inByte, State.withInput_setup, hs] using hbyte

theorem State.Sees.moved (h : s.Sees und) (hm : ReaderMoved s t) : t.Sees und :=
  h.of_setup (by rw [hm.1]; rfl) (Keeps.of_moved hm h.toolkit).1

theorem State.Sees.sequencer (h : s.Sees und) (hm : SequencerMoved s t) : t.Sees und :=
  h.of_setup hm.frame.setup (hm.keeps h.toolkit).1

theorem memRead_withInput (h : s.Sees und) {a n : Nat} (hn : a + n ≤ s.setup.bufSize.toNat) :
    (s.withInput und).memRead a n = s.memRead a n :=
  List.map_congr_left fun i hi => h.bytes (a + i) (by have := List.mem_range.1 hi; omega)

/-- A descriptor sees one window (45_decompressor.md R196). -/
theorem window_withInput (h : s.Sees und) : (s.withInput und).window = s.window := by
  simp only [State.window, State.withInput_setup, Window.mk.injEq, true_and]
  funext i
  exact ite_congr rfl (fun hi => congrArg some (h.bytes i hi)) fun _ => rfl

end

/-! ## Parts of a command -/

section
variable {α β : Type} {und : List Host.Cell}

/-- A run with the state it ends in given another input. -/
def Run.withInput (r : Run α) (und : List Host.Cell) : Run α :=
  match r with
  | .ok a s => .ok a (s.withInput und)
  | .raised c s => .raised c (s.withInput und)
  | .illegal => .illegal
  | .stuck => .stuck

/-- The second part may ask of the state what the first ends with. -/
theorem Run.andThen_withInput_of_ends {P : State → Prop} {r r' : Run α} {k k' : α → State → Run β} (hends : r.Ends P)
    (hr : r' = r.withInput und) (hk : ∀ a t, P t → k' a (t.withInput und) = (k a t).withInput und) :
    r'.andThen k' = (r.andThen k).withInput und := by
  subst hr
  cases r with
  | ok a t => exact hk a t hends
  | raised | illegal | stuck => rfl

/-- A second part that asks nothing of the state. -/
theorem Run.andThen_withInput {r r' : Run α} {k k' : α → State → Run β} (hr : r' = r.withInput und)
    (hk : ∀ a t, k' a (t.withInput und) = (k a t).withInput und) : r'.andThen k' = (r.andThen k).withInput und :=
  Run.andThen_withInput_of_ends (r.ends_of_forall (P := fun _ => True) fun _ => trivial) hr fun a t _ => hk a t

theorem ite_withInput {p : Prop} [Decidable p] {a b c d : Run α} (h1 : a = c.withInput und) (h2 : b = d.withInput und) :
    (if p then a else b) = (if p then c else d).withInput und := by
  split
  · exact h1
  · exact h2

/-- A test that lets the command go on may be what its reads need. -/
theorem ite_withInput_under {p : Prop} [Decidable p] {a b c d : Run α} (h1 : p → a = c.withInput und)
    (h2 : ¬ p → b = d.withInput und) : (if p then a else b) = (if p then c else d).withInput und := by
  split
  · next h => exact h1 h
  · next h => exact h2 h

end

/-! ## The bit reader -/

section
variable {s t : State} {und : List Host.Cell}

/-- The refill loads bytes between the ends of the stream, which lie in the window (41_bitreader.md R103). -/
theorem refill_withInput (h : s.Sees und) : refill (s.withInput und) = (refill s).withInput und := by
  obtain ⟨-, -, -, -, hpos, hhi⟩ := h.toolkit.reader
  unfold refill
  simp only [State.withInput_toInst]
  cases s.brCfg.dir with
  | forward =>
    refine ite_withInput_under (fun hfit => ?_) fun _ => rfl
    rw [sumLe_word] at hfit
    rw [memRead_withInput h (by omega)]
    rfl
  | backward =>
    refine ite_withInput_under (fun _ => rfl) fun hfit => ?_
    rw [memRead_withInput h (by omega)]
    rfl

theorem refillIfEmpty_withInput (h : s.Sees und) :
    refillIfEmpty (s.withInput und) = (refillIfEmpty s).withInput und :=
  ite_withInput (refill_withInput h) rfl

/-- The state in which a turn of the MSB-first loop leaves the reader. -/
theorem consumed_of_msbFirst {u : State} (ho : u.brCfg.order = .msbFirst) (k : Nat) : u.consumed k = { u with
    brAcc := word (u.brAcc.toNat % 2 ^ (u.brLive.toNat - k)), brLive := BitVec.ofNat 6 (u.brLive.toNat - k) } := by
  simp only [State.consumed, ho]

/-- The state in which a turn of the LSB-first loop leaves the reader. -/
theorem consumed_of_lsbFirst {u : State} (ho : u.brCfg.order = .lsbFirst) (k : Nat) : u.consumed k = { u with
    brAcc := word (u.brAcc.toNat / 2 ^ k), brLive := BitVec.ofNat 6 (u.brLive.toNat - k) } := by
  simp only [State.consumed, ho]

theorem ReaderMoved.order {o : BitOrder} (h : ReaderMoved s t) (ho : s.brCfg.order = o) :
    t.brCfg.order = o := by rw [h.1]; exact ho

theorem readMsb_withInput (turns : Nat) : ∀ (rem ret : Nat) (s : State), s.Sees und → s.brCfg.order = .msbFirst →
    readMsb turns rem ret (s.withInput und) = (readMsb turns rem ret s).withInput und := by
  induction turns with
  | zero => exact fun _ _ _ _ _ => rfl
  | succ turns ih =>
    intro rem ret s h ho
    refine ite_withInput rfl ?_
    refine Run.andThen_withInput_of_ends (refillIfEmpty_keeps h.toolkit.reader) (refillIfEmpty_withInput h)
      fun _ u hu => ?_
    have hturn := consumed_keeps (k := min rem u.brLive.toNat) hu.2 (Nat.min_le_right ..)
    rw [consumed_of_msbFirst (hu.order ho)] at hturn
    exact ih _ _ _ ((h.moved hu).moved hturn) (hu.order ho)

theorem readLsb_withInput (turns : Nat) : ∀ (rem pos ret : Nat) (s : State), s.Sees und →
    s.brCfg.order = .lsbFirst →
    readLsb turns rem pos ret (s.withInput und) = (readLsb turns rem pos ret s).withInput und := by
  induction turns with
  | zero => exact fun _ _ _ _ _ _ => rfl
  | succ turns ih =>
    intro rem pos ret s h ho
    refine ite_withInput rfl ?_
    refine Run.andThen_withInput_of_ends (refillIfEmpty_keeps h.toolkit.reader) (refillIfEmpty_withInput h)
      fun _ u hu => ?_
    have hturn := consumed_keeps (k := min rem u.brLive.toNat) hu.2 (Nat.min_le_right ..)
    rw [consumed_of_lsbFirst (hu.order ho)] at hturn
    exact ih _ _ _ _ ((h.moved hu).moved hturn) (hu.order ho)

theorem readBits_withInput (count : Nat) (h : s.Sees und) :
    readBits count (s.withInput und) = (readBits count s).withInput und := by
  unfold readBits
  simp only [State.withInput_toInst]
  cases ho : s.brCfg.order with
  | msbFirst => exact readMsb_withInput count count 0 s h ho
  | lsbFirst => exact readLsb_withInput count count 0 0 s h ho

/-! ## Decoding a symbol -/

theorem lookup_withInput (t : Table) (base width left : Nat) : ∀ (k idx : Nat) (s : State), s.Sees und →
    lookup t base width left k idx (s.withInput und) = (lookup t base width left k idx s).withInput und := by
  induction left with
  | zero =>
    intro k idx s _
    simp only [lookup]
    split <;> rfl
  | succ left ih =>
    intro k idx s h
    simp only [lookup]
    split
    · rfl
    · exact Run.andThen_withInput_of_ends (readBits_keeps 1 h.toolkit.reader) (readBits_withInput 1 h) fun _ u hu =>
        ih _ _ u (h.moved hu)

theorem decodeSymbol_withInput (t : Table) (h : s.Sees und) :
    decodeSymbol t (s.withInput und) = (decodeSymbol t s).withInput und := by
  refine Run.andThen_withInput_of_ends (lookup_keeps t _ _ _ _ _ s h.toolkit.reader) (lookup_withInput t _ _ _ _ _ s h)
    fun l u hu => ?_
  split
  · rfl
  · refine Run.andThen_withInput (lookup_withInput t _ _ _ _ _ u (h.moved hu)) fun l v => ?_
    split <;> rfl
  · rfl

theorem adaptiveSymbol_withInput (shape : AdaptShape) (turns : Nat) : ∀ (bits : List Bool) (s : State), s.Sees und →
    adaptiveSymbol shape turns bits (s.withInput und) = (adaptiveSymbol shape turns bits s).withInput und := by
  induction turns with
  | zero => exact fun _ _ _ => rfl
  | succ turns ih =>
    intro bits s h
    simp only [adaptiveSymbol]
    split
    · rfl
    · exact Run.andThen_withInput_of_ends (readBits_keeps 1 h.toolkit.reader) (readBits_withInput 1 h) fun _ u hu =>
        ih _ u (h.moved hu)

theorem hufDecode_withInput (n : Byte) (h : s.Sees und) :
    hufDecode n (s.withInput und) = (hufDecode n s).withInput und := by
  refine ite_withInput rfl ?_
  simp only [State.withInput_toInst]
  cases Memory.get s.ht n.toNat with
  | none => rfl
  | some table =>
    refine ite_withInput rfl (ite_withInput ?_ (decodeSymbol_withInput table h))
    exact ite_withInput rfl
      (Run.andThen_withInput (adaptiveSymbol_withInput table.shape _ [] s h) fun _ _ => rfl)

/-! ## The toolkit -/

/-- A range-checked read is of bytes in the window (20_memory.md R43, 40_buffer.md R81 to R85). -/
theorem bufRead_withInput (n : Nat) (order : ByteOrder) (off : Word) (h : s.Sees und) :
    bufRead n order off (s.withInput und) = (bufRead n order off s).withInput und := by
  refine ite_withInput_under (fun hin => ?_) fun _ => rfl
  rw [memRead_withInput h (State.inWindow_iff.1 hin)]
  rfl

/-- A granted slice lies in the window (40_buffer.md R86, R87). -/
theorem bufSlrd8_withInput (i : Word) (h : s.Sees und) :
    bufSlrd8 i (s.withInput und) = (bufSlrd8 i s).withInput und := by
  refine ite_withInput_under (fun _ => rfl) fun hv => ite_withInput_under (fun _ => rfl) fun hi => ?_
  have hslice : s.slOff.toNat + s.slLen.toNat ≤ s.setup.bufSize.toNat := h.toolkit.slice (by simpa using hv)
  have hi : i.toNat < s.slLen.toNat := Nat.not_le.1 hi
  rw [State.withInput_toInst, h.bytes _ (by omega)]
  rfl

theorem put_withInput (s : State) (b : Byte) : (s.withInput und).put b = (s.put b).withInput und := by
  unfold State.put
  simp only [State.withInput_toInst]
  cases s.outDir <;> rfl

theorem copy_withInput (distance count : Nat) : ∀ s : State,
    State.copy distance count (s.withInput und) = (State.copy distance count s).withInput und := by
  induction count with
  | zero => exact fun _ => rfl
  | succ count ih =>
    intro s
    have hsource : (s.withInput und).copySource distance = s.copySource distance := rfl
    simp only [State.copy, hsource, put_withInput, ih]

theorem makeTable_withInput (n : Byte) (m : TableMode) (ok : Bool) (w : BitVec 5) (cs : List Code) (s : State) :
    makeTable n m ok w cs (s.withInput und) = (makeTable n m ok w cs s).withInput und := by
  simp only [makeTable, State.withInput_toInst]
  cases build cs w.toNat s.brCfg.order ok <;> rfl

/-- A toolkit command reads nothing outside the window. Those that read the input at all are the range-checked reads,
the read of a slice and the commands that read bits. -/
theorem toolkit_withInput (i : Instr) (h : s.Sees und) : toolkit i (s.withInput und) = (toolkit i s).withInput und := by
  cases i with
  | bufRd8 off | bufRdbe16 off | bufRdbe32 off | bufRdle16 off | bufRdle32 off => exact bufRead_withInput _ _ off h
  | bufSlrd8 i => exact bufSlrd8_withInput i h
  | brRead count =>
    exact ite_withInput rfl (Run.andThen_withInput (readBits_withInput count.toNat h) fun _ _ => rfl)
  | hufDecode n => exact hufDecode_withInput n h
  | vlcDecode index =>
    refine ite_withInput rfl (ite_withInput rfl ?_)
    simp only [State.withInput_toInst]
    cases Memory.get s.vlcBase index.toNat with
    | none => rfl
    | some base =>
      cases Memory.get s.vlcBits index.toNat with
      | none => rfl
      | some bits => exact Run.andThen_withInput (readBits_withInput bits.toNat h) fun _ _ => ite_withInput rfl rfl
  | hufMake n ok w num =>
    refine ite_withInput rfl ?_
    simp only [State.withInput_toInst]
    cases Memory.prefixOf s.len num.toNat with
    | none => rfl
    | some lens =>
      dsimp only
      cases canonicalCodes (lens.map (·.toNat)) with
      | none => rfl
      | some cs => exact makeTable_withInput n _ ok w cs s
  | hufFixed n ok w num =>
    refine ite_withInput rfl ?_
    simp only [State.withInput_toInst]
    cases Memory.prefixOf s.tri num.toNat with
    | none => rfl
    | some ts => exact makeTable_withInput n _ ok w _ s
  | hufAdapt n =>
    refine ite_withInput rfl ?_
    simp only [State.withInput_toInst]
    cases Memory.get s.ht n.toNat <;> rfl
  | outWritebyte b => exact ite_withInput rfl (ite_withInput rfl (congrArg complete (put_withInput s b)))
  | outCopy distance count =>
    have hcopy := congrArg complete (copy_withInput (und := und) distance.toNat count.toNat s)
    exact ite_withInput rfl (ite_withInput rfl (ite_withInput rfl (ite_withInput rfl (ite_withInput rfl hcopy))))
  | bufGetdata | ovfSum | brReset | rotb | hufSetlen | vlcSet | outEof => exact ite_withInput rfl rfl
  | brInit | brAnchor | hufSettri | vlcSetn => exact ite_withInput rfl (ite_withInput rfl rfl)
  | bufSize => rfl
  | reset | status | outInit | outRd8 | decCreate | decGetrawsize | decDecompress | decNextchunk | dispDetect => rfl

theorem toolkit_sees (i : Instr) (h : s.Sees und) : (toolkit i s).Ends (State.Sees · und) :=
  ((toolkit_frame i s).and (toolkit_keeps i s h.toolkit)).imp fun _ ht =>
    h.of_setup ht.1.setup (ht.2 h.toolkit).1

/-! ## The format sequencer -/

section
variable {α : Type}

/-- Whatever the descriptor, an activity reads the input by its toolkit commands alone (45_decompressor.md R196). -/
theorem Script.run_withInput (x : Script α) : ∀ s : State, s.Sees und →
    x.run (s.withInput und) = (x.run s).withInput und := by
  induction x with
  | ret a => exact fun _ _ => rfl
  | look next ih => exact fun s h => ih (s.toInst.showing 0) s h
  | setChk v next ih => exact fun s h => ih _ (h.sequencer (.chk s v))
  | issue i next ih =>
    intro s h
    have hcmd : sequencerCommand i (s.withInput und) = (sequencerCommand i s).withInput und :=
      ite_withInput (toolkit_withInput i h) rfl
    have hends : (sequencerCommand i s).Ends (State.Sees · und) := by
      unfold sequencerCommand
      split
      · exact toolkit_sees i h
      · trivial
    simp only [Script.run, hcmd]
    cases hrun : sequencerCommand i s with
    | ok v t => exact ih true (t.toInst.showing (v.getD 0)) t (by rw [hrun] at hends; exact hends)
    | illegal => exact ih false (s.toInst.showing 0) s h
    | raised c t => rfl
    | stuck => rfl

theorem State.Sees.ends {r : Run α} (h : s.Sees und) (hr : r.Ends (SequencerMoved s)) :
    r.Ends (State.Sees · und) := hr.imp fun _ ht => h.sequencer ht

theorem Script.run_sees (x : Script α) (h : s.Sees und) : (x.run s).Ends (State.Sees · und) :=
  h.ends (x.run_moved s)

end

theorem runChecked_withInput {ε : Type} (cause : ε → Cause) (x : Script (Option ε)) (h : s.Sees und) :
    runChecked cause x (s.withInput und) = (runChecked cause x s).withInput und := by
  refine Run.andThen_withInput (x.run_withInput s h) fun r t => ?_
  cases r <;> rfl

theorem runChecked_sees {ε : Type} (cause : ε → Cause) (x : Script (Option ε)) (h : s.Sees und) :
    (runChecked cause x s).Ends (State.Sees · und) := h.ends (runChecked_moved cause x s)

/-! ## Create -/

theorem interpret_withInput (d : Descriptor) (i : Interpretation) (declared : Word) (h : s.Sees und) :
    interpret d i declared (s.withInput und) = (interpret d i declared s).withInput und := by
  unfold interpret
  rw [window_withInput h]
  refine Run.andThen_withInput_of_ends (Script.run_sees _ h) (Script.run_withInput _ s h) fun raw t ht => ?_
  dsimp only
  rw [window_withInput ht]
  have hsizes : declaredSizes d declared (t.withInput und).setup raw = declaredSizes d declared t.setup raw := rfl
  have hfailure (hd : HeaderInfo) : sizeFailure hd (t.withInput und).setup = sizeFailure hd t.setup := rfl
  rw [hsizes, hfailure]
  cases sizeFailure (declaredSizes d declared t.setup raw) t.setup with
  | some c => rfl
  | none =>
    refine Run.andThen_withInput (Script.run_withInput _ t ht) fun legal u => ?_
    cases legal <;> rfl

/-- Both readings of a header, and the choice between them (45_decompressor.md R198). -/
theorem parse_withInput (d : Descriptor) (declared : Word) (h : s.Sees und) :
    parse d declared (s.withInput und) = (parse d declared s).withInput und := by
  unfold parse
  rw [window_withInput h]
  refine ite_withInput rfl (ite_withInput rfl ?_)
  have hmoved := interpret_moved d (d.first s.window) declared s
  rw [interpret_withInput d _ declared h]
  cases hrun : interpret d (d.first s.window) declared s with
  | raised c t =>
    rw [hrun] at hmoved
    cases d.second s.window with
    | none => rfl
    | some again => exact interpret_withInput d again declared (h.sequencer hmoved)
  | ok | illegal | stuck => rfl

theorem toolkitCleared_sees (h : s.Sees und) (hi : s.Inv) : s.toolkitCleared.Sees und := by
  obtain ⟨-, htoolkit, -⟩ := (cleared_inv hi).parts
  exact h.of_setup rfl htoolkit

theorem outInit_withInput (dir : Direction) (size window : Word) (ht : t = s.withInput und) :
    outInit dir size window t = (outInit dir size window s).withInput und := by
  subst ht
  exact ite_withInput rfl (ite_withInput rfl (ite_withInput rfl rfl))

/-- Past `parse` no input is read (45_decompressor.md R197). -/
theorem create_withInput (d : Descriptor) (fmt : Byte) (declared : Word) (h : s.Sees und) (hi : s.Inv) :
    create d fmt declared (s.withInput und) = (create d fmt declared s).withInput und :=
  Run.andThen_withInput (parse_withInput d declared (toolkitCleared_sees h hi)) fun _ _ =>
    Run.andThen_withInput (outInit_withInput _ _ _ rfl) fun _ _ => rfl

theorem decCreate_withInput (fmt : Byte) (declared : Word) (h : s.Sees und) (hi : s.Inv) :
    decCreate fmt declared (s.withInput und) = (decCreate fmt declared s).withInput und := by
  unfold decCreate
  rw [window_withInput h]
  exact ite_withInput rfl (ite_withInput rfl (ite_withInput rfl (create_withInput _ fmt declared h hi)))

/-! ## Decompress -/

theorem decodeStep_withInput (d : Descriptor) (h : s.Sees und) :
    decodeStep d (s.withInput und) = (decodeStep d s).withInput und := by
  unfold decodeStep
  rw [window_withInput h]
  exact Run.andThen_withInput (runChecked_withInput _ _ h) fun _ _ => rfl

theorem decodeLoop_withInput (d : Descriptor) (n : Nat) : ∀ s : State, s.Sees und →
    decodeLoop d n (s.withInput und) = (decodeLoop d n s).withInput und := by
  induction n with
  | zero => exact fun _ _ => ite_withInput rfl rfl
  | succ n ih =>
    intro s h
    refine ite_withInput ?_ rfl
    exact Run.andThen_withInput_of_ends (h.ends (decodeStep_moved d s)) (decodeStep_withInput d h) fun _ => ih

/-- What `DEC.*` writes outside the toolkit leaves the window as it is. -/
theorem State.Sees.decoded (h : s.Sees und) (f : Fsm) (lo idx v : Word) :
    State.Sees { s with fsm := f, chunkLo := lo, chunkIdx := idx, res := v } und :=
  h.of_setup rfl ⟨h.toolkit.reader, h.toolkit.slice, h.toolkit.output, h.toolkit.tables⟩

theorem chunkBody_withInput (d : Descriptor) (h : s.Sees und) :
    chunkBody d (s.withInput und) = (chunkBody d s).withInput und := by
  have hs := h.decoded .decoding (word s.produced) s.chunkIdx s.res
  have hwindow := window_withInput hs
  unfold chunkBody
  refine Run.andThen_withInput_of_ends (Script.run_sees _ hs) ?_ fun r t ht => ?_
  · rw [← Script.run_withInput _ _ hs, ← hwindow]
    rfl
  · cases r with
    | chunk | failed | noProgress => rfl
    | finished =>
      refine ite_withInput ?_ rfl
      rw [window_withInput ht]
      exact Run.andThen_withInput (runChecked_withInput _ _ ht) fun _ _ => rfl

theorem chunkBody_sees (d : Descriptor) (h : s.Sees und) : (chunkBody d s).Ends (State.Sees · und) := by
  refine (Script.run_sees _ (h.decoded .decoding (word s.produced) s.chunkIdx s.res)).andThen fun r t ht => ?_
  cases r with
  | chunk => exact ht.decoded _ _ _ _
  | failed e => exact ht
  | noProgress => trivial
  | finished =>
    dsimp only
    split
    · exact (runChecked_sees _ _ ht).andThen fun _ u hu => hu.decoded _ _ _ _
    · exact ht

theorem chunkLoop_withInput (d : Descriptor) (n : Nat) : ∀ s : State, s.Sees und →
    chunkLoop d n (s.withInput und) = (chunkLoop d n s).withInput und := by
  induction n with
  | zero => exact fun _ _ => rfl
  | succ n ih =>
    intro s h
    refine Run.andThen_withInput_of_ends (chunkBody_sees d h) (chunkBody_withInput d h) fun r t ht => ?_
    cases r with
    | chunk => exact ih t ht
    | finished => rfl

/-- A whole decode, chunked or not, under one bound on its steps (45_decompressor.md R201, 70_reset_and_hazards.md
R306). -/
theorem decompress_withInput (d : Descriptor) (h : s.Sees und) :
    decompress d (s.withInput und) = (decompress d s).withInput und := by
  have hs := h.decoded .decoding s.chunkLo s.chunkIdx s.res
  have hwindow := window_withInput hs
  refine Run.andThen_withInput ?_ fun _ _ => rfl
  refine ite_withInput (chunkLoop_withInput d _ _ hs) ?_
  refine Run.andThen_withInput_of_ends (runChecked_sees _ _ hs) ?_ fun _ t ht => ?_
  · rw [← runChecked_withInput _ _ hs, ← hwindow]
    rfl
  · refine Run.andThen_withInput_of_ends (ht.ends (decodeLoop_moved d _ t))
      (decodeLoop_withInput d _ t ht) fun _ u hu => ?_
    rw [window_withInput hu]
    exact runChecked_withInput _ _ hu

theorem nextChunk_withInput (d : Descriptor) (h : s.Sees und) :
    nextChunk d (s.withInput und) = (nextChunk d s).withInput und :=
  ite_withInput rfl (Run.andThen_withInput (chunkBody_withInput d h) fun _ _ => rfl)

/-! ## Every command -/

theorem outRd8_withInput (index : Word) (s : State) :
    outRd8 index (s.withInput und) = (outRd8 index s).withInput und := by
  refine ite_withInput rfl (ite_withInput rfl (ite_withInput rfl ?_))
  simp only [State.withInput_toInst]
  cases Memory.get s.out index.toNat <;> rfl

/-- The dispatcher asks for the window alone, its length before its bytes (47_dispatcher.md R250, R252). -/
theorem detect_withInput (h : s.Sees und) : detect (s.withInput und) = detect s := by
  have hpred (t : Byte) : predicate (s.withInput und) t = predicate s t := by
    simp only [predicate, matchFormat, window_withInput h]
    rfl
  simp only [detect, hpred]

theorem commandBody_withInput (i : Instr) (h : s.Sees und) (hi : s.Inv) :
    commandBody i (s.withInput und) = (commandBody i s).withInput und := by
  have ofToolkit (hb : commandBody i = toolkit i) :
      commandBody i (s.withInput und) = (commandBody i s).withInput und := hb ▸ toolkit_withInput i h
  cases i
  case reset | status | decGetrawsize => rfl
  case outInit dir size window => exact outInit_withInput dir size window rfl
  case outRd8 index => exact outRd8_withInput index s
  case decCreate fmt declared => exact decCreate_withInput fmt declared h hi
  case decDecompress => exact decompress_withInput _ h
  case decNextchunk => exact nextChunk_withInput _ h
  case dispDetect => exact congrArg (fun v : Byte => result (v.setWidth 32) (s.withInput und)) (detect_withInput h)
  all_goals exact ofToolkit rfl

theorem failed_withInput (s : State) (c : Cause) : (s.withInput und).failed c = (s.failed c).withInput und := by
  by_cases hd : s.fsm = .done
  · rw [State.failed_of_done hd, State.failed_of_done (s := s.withInput und) hd]; rfl
  · rw [State.failed_of_not_done hd, State.failed_of_not_done (s := s.withInput und) hd]; rfl

theorem outcome_withInput (s : State) (r : Run (Option Word)) :
    (s.withInput und).outcome (r.withInput und) = mapNext (fun t => t.withInput und) (s.outcome r) := by
  cases r with
  | raised c t => exact congrArg Host.Outcome.next (failed_withInput t c)
  | ok | illegal | stuck => rfl

/-- The answer of a command says nothing of the input but what its body found. -/
theorem hostCommand_withInput {k : Kind} {op : State → Run (Option Word)}
    (hop : op (s.withInput und) = (op s).withInput und) :
    hostCommand k op (s.withInput und) = mapNext (fun t => t.withInput und) (hostCommand k op s) := by
  cases ha : accepts .host k s.fsm with
  | true =>
    rw [hostCommand_of_accepted ha, hostCommand_of_accepted (s := s.withInput und) ha, hop, outcome_withInput]
  | false =>
    rw [hostCommand_of_refused ha, hostCommand_of_refused (s := s.withInput und) ha]
    rfl

end

/-- Settles O17: the body of every command commutes with a change of the input that the window does not show. -/
theorem nothingOutsideTheWindowIsRead : Obligations.NothingOutsideTheWindowIsRead := by
  intro i s und hi hbytes
  rw [exec_eq_hostCommand, exec_eq_hostCommand]
  obtain ⟨-, htoolkit, -⟩ := hi.parts
  exact hostCommand_withInput (commandBody_withInput i ⟨hbytes, htoolkit⟩ hi)

end Sys2Proof.Machine
end

section
/-!
The dispatcher family: which magics stand in the window, and which tag `DISP.DETECT` answers (47_dispatcher.md R250 to
R252, 46_formats.md R220, R221).
-/
namespace Sys2Proof.Machine

/-! ## Magics in the window -/

section
variable (s : State) {off n : Nat}

theorem window_bytes_inside (h : off + n ≤ s.setup.bufSize.toNat) :
    s.window.bytes off n = some (s.memRead off n) := by
  have byte : ∀ i ∈ List.range n, s.window.byte (off + i) = some (s.inByte (off + i)) := fun i hi =>
    if_pos (by have := List.mem_range.1 hi; omega)
  cases hbytes : s.window.bytes off n with
  | none =>
    obtain ⟨i, hi, hnone⟩ := mapM_eq_none_iff.1 hbytes
    exact absurd ((byte i hi).symm.trans hnone) (Option.some_ne_none _)
  | some l =>
    have hmap : l.map some = (s.memRead off n).map some := by
      rw [← mapM_some hbytes, State.memRead, List.map_map]
      exact List.map_congr_left byte
    rw [List.map_injective_iff.2 (Option.some_injective _) hmap]

theorem window_bytes_past_end (hn : 0 < n) (h : s.setup.bufSize.toNat < off + n) : s.window.bytes off n = none :=
  mapM_eq_none_iff.2 ⟨n - 1, List.mem_range.2 (by omega), if_neg (by omega)⟩

/-- `ReadBe32` of the window (20_memory.md R45). -/
theorem window_be32_eq_some {m : Nat} :
    s.window.be32 off = some m ↔ off + 4 ≤ s.setup.bufSize.toNat ∧ (s.inWord off).toNat = m := by
  unfold Window.be32
  by_cases h : off + 4 ≤ s.setup.bufSize.toNat
  · rw [window_bytes_inside s h, memRead_four, Option.map_some, bigEndian_four]
    simp [h, State.inWord]
  · rw [window_bytes_past_end s (by omega) (by omega)]
    simp [h]

end

/-- The words that are primary magics of a tag (46_formats.md R220). -/
def magicWords (t : Byte) : List Word := (magics t.toNat).map word

/-- The magic of a tag from 1 to 5 stands at the start of the window, MMCMP's secondary tag after it (46_formats.md
R220, R221). -/
def State.HasMagic (s : State) (t : Byte) : Prop :=
  4 ≤ s.setup.bufSize.toNat ∧ s.inWord 0 ∈ magicWords t
    ∧ (t = 5 → 8 ≤ s.setup.bufSize.toNat ∧ s.inWord 4 = word secondaryTag)

/-- The tags that `DISP.DETECT` tries, in its order (47_dispatcher.md R251). -/
abbrev detectedTags : List Byte := [1, 2, 3, 4, 5]

section
variable {s : State} {t : Byte}

theorem mem_detectedTags : t ∈ detectedTags ↔ 1 ≤ t.toNat ∧ t.toNat ≤ 5 := by
  simp only [List.mem_cons, List.not_mem_nil, or_false]
  bv_omega

/-- A number that fits a register is a magic exactly where the register's word is. -/
theorem mem_magicWords (w : Word) (ht : t ∈ detectedTags) : w ∈ magicWords t ↔ w.toNat ∈ magics t.toNat := by
  have small : ∀ t ∈ detectedTags, ∀ m ∈ magics t.toNat, m < 2 ^ 32 := by decide
  simp only [magicWords, List.mem_map]
  constructor
  · rintro ⟨m, hm, rfl⟩
    rwa [word_toNat_of_lt (small t ht m hm)]
  · exact fun hw => ⟨w.toNat, hw, by simp [word]⟩

/-- The bare magic test (46_formats.md R221) sees what stands in the window. -/
theorem bareMagic_window (ht : t ∈ detectedTags) : bareMagic t.toNat s.window = true ↔ s.HasMagic t := by
  have secondary : (t.toNat != 5 || s.window.be32 4 == some secondaryTag) = true
      ↔ (t = 5 → 8 ≤ s.setup.bufSize.toNat ∧ s.inWord 4 = word secondaryTag) := by
    have htag : t.toNat ≠ 5 ↔ t ≠ 5 := by bv_omega
    have hword : (s.inWord 4).toNat = secondaryTag ↔ s.inWord 4 = word secondaryTag :=
      BitVec.toNat_inj (y := word secondaryTag)
    simp only [Bool.or_eq_true, bne_iff_ne, beq_iff_eq, window_be32_eq_some, htag, hword]
    tauto
  unfold bareMagic State.HasMagic
  rw [Bool.and_eq_true, secondary, ← and_assoc]
  refine and_congr_left fun _ => ?_
  rw [mem_magicWords _ ht]
  cases hm : s.window.be32 0 with
  | none =>
    have hshort : ¬ 4 ≤ s.setup.bufSize.toNat := fun h => by
      rw [(window_be32_eq_some s).2 ⟨h, rfl⟩] at hm
      cases hm
    simp [hshort]
  | some m =>
    obtain ⟨hsize, rfl⟩ := (window_be32_eq_some s).1 hm
    simpa using fun _ => hsize

/-! ## Which tag fits -/

/-- A tag fits the window: by its descriptor where one is held, else by its magic (47_dispatcher.md R250). -/
def State.Fits (s : State) (t : Byte) : Prop :=
  if s.holds t = true then (format t).minHeader ≤ s.setup.bufSize.toNat ∧ (format t).matchWindow s.window = true
  else s.HasMagic t

/-- A match never holds without the magic (46_formats.md R221). -/
theorem bareMagic_of_matchWindow (ht : t ∈ detectedTags) {w : Window} (h : (format t).matchWindow w = true) :
    bareMagic t.toNat w = true := by
  simp only [List.mem_cons, List.not_mem_nil, or_false] at ht
  rcases ht with rfl | rfl | rfl | rfl | rfl <;> exact (Bool.and_eq_true_iff.1 h).1

theorem State.HasMagic.of_fits (ht : t ∈ detectedTags) (h : s.Fits t) : s.HasMagic t := by
  unfold State.Fits at h
  split at h
  · exact (bareMagic_window ht).1 (bareMagic_of_matchWindow ht h.2)
  · exact h

/-- A magic, and MMCMP's secondary tag, is no longer than the window it stands in (47_dispatcher.md R252). -/
theorem State.HasMagic.size (h : s.HasMagic t) : (if t = 5 then 8 else 4) ≤ s.setup.bufSize.toNat := by
  obtain ⟨hsize, -, hsecond⟩ := h
  split
  · next h5 => exact (hsecond h5).1
  · exact hsize

/-- `Pred` of 47_dispatcher.md R250. -/
theorem predicate_iff_fits (ht : t ∈ detectedTags) : predicate s t = true ↔ s.Fits t := by
  rw [predicate, Bool.and_eq_true, decide_eq_true_eq, minHeader, matchFormat, State.Fits]
  split
  · rfl
  · rw [bareMagic_window ht]
    exact and_iff_right_of_imp State.HasMagic.size

/-- With no descriptor held a tag fits by its magic alone. -/
theorem predicate_iff_hasMagic (hheld : s.setup.heldFormats = []) (ht : t ∈ detectedTags) :
    predicate s t = true ↔ s.HasMagic t := by
  rw [predicate_iff_fits ht, State.Fits, if_neg (by simp [State.holds, hheld])]

/-- The first tag of a rising list that passes a test is the least that does. -/
theorem least_of_find {p : Byte → Bool} {l : List Byte} {v : Byte} (hl : l.Pairwise (· < ·)) (h : l.find? p = some v)
    (ht : t ∈ l) (hlt : t.toNat < v.toNat) : ¬ p t = true := by
  obtain ⟨-, before, after, rfl, hbefore⟩ := List.find?_eq_some_iff_append.1 h
  obtain ⟨-, hafter, -⟩ := List.pairwise_append.1 hl
  rcases List.mem_append.1 ht with ht | ht
  · simpa using hbefore t ht
  · rcases List.mem_cons.1 ht with rfl | ht
    · omega
    · have hge := (List.pairwise_cons.1 hafter).1 t ht
      bv_omega

/-- The answer of `DISP.DETECT`: 0 where no tag fits, else the first that does (47_dispatcher.md R251). -/
theorem detect_cases (s : State) : (detect s = 0 ∧ ∀ t ∈ detectedTags, ¬ s.Fits t)
    ∨ (detect s ∈ detectedTags ∧ s.Fits (detect s)
      ∧ ∀ t ∈ detectedTags, t.toNat < (detect s).toNat → ¬ s.Fits t) := by
  unfold detect
  cases hfind : detectedTags.find? (predicate s) with
  | none => exact .inl ⟨rfl, fun t ht hfits => List.find?_eq_none.1 hfind t ht ((predicate_iff_fits ht).2 hfits)⟩
  | some v =>
    have hmem := List.mem_of_find?_eq_some hfind
    exact .inr ⟨hmem, (predicate_iff_fits hmem).1 (List.find?_some hfind), fun t ht hlt hfits =>
      least_of_find (by decide) hfind ht hlt ((predicate_iff_fits ht).2 hfits)⟩

/-- `DISP.DETECT` answers its tag and changes `RES` alone (47_dispatcher.md R250). -/
theorem exec_dispDetect (hs : s.fsm = .unvalidated) :
    exec .dispDetect s = .next (s.returned ((detect s).setWidth 32)) :=
  hostCommand_of_result (k := .create) (by rw [hs]; rfl) rfl

/-! ## The magics, tag by tag (46_formats.md R220) -/

theorem hasMagic_xpk : s.HasMagic 1 ↔ 4 ≤ s.setup.bufSize.toNat ∧ s.inWord 0 = 0x58504B46 := by
  simp [State.HasMagic, magicWords, magics, word]

theorem hasMagic_powerPacker : s.HasMagic 2 ↔ 4 ≤ s.setup.bufSize.toNat ∧ s.inWord 0 ∈
    ([0x50503230, 0x43484643, 0x44454E21, 0x44585339, 0x482E442E, 0x52565621] : List Word) := by
  simp [State.HasMagic, magicWords, magics, word]

theorem hasMagic_stone : s.HasMagic 3 ↔ 4 ≤ s.setup.bufSize.toNat ∧ s.inWord 0 ∈
    ([0x53333030, 0x53333130, 0x53343030, 0x53343031, 0x53343033, 0x53343034, 0x31414D00, 0x32414D00, 0x5A264721,
      0x5A554C55, 0x41595321] : List Word) := by
  simp [State.HasMagic, magicWords, magics, word]

theorem hasMagic_crunch : s.HasMagic 4 ↔ 4 ≤ s.setup.bufSize.toNat ∧ s.inWord 0 ∈
    ([0x43724D21, 0x43724D32, 0x43726D21, 0x43726D32] : List Word) := by
  simp [State.HasMagic, magicWords, magics, word]

theorem hasMagic_mmcmp : s.HasMagic 5 ↔ 4 ≤ s.setup.bufSize.toNat ∧ s.inWord 0 = 0x7A695243
    ∧ 8 ≤ s.setup.bufSize.toNat ∧ s.inWord 4 = 0x4F4E6961 := by
  simp [State.HasMagic, magicWords, magics, word, secondaryTag]

/-- The order of 47_dispatcher.md R251, written out. -/
theorem detect_eq (s : State) : detect s = if predicate s 1 = true then 1 else if predicate s 2 = true then 2
    else if predicate s 3 = true then 3 else if predicate s 4 = true then 4 else if predicate s 5 = true then 5
    else 0 := by
  simp only [detect, List.find?_cons, List.find?_nil]
  split_ifs <;> simp only [*] <;> rfl

end

/-- Settles O55: the model's test of a tag is `Fits`, and a descriptor that matches has seen the magic. -/
theorem detectResult : Obligations.DetectResult := by
  intro s hs size magic fits
  have hmagic : ∀ t ∈ detectedTags, (magic t ↔ s.HasMagic t) := by
    simp only [List.forall_mem_cons, hasMagic_xpk, hasMagic_powerPacker, hasMagic_stone, hasMagic_crunch,
      hasMagic_mmcmp]
    simp [magic, size]
  have hfits : ∀ t ∈ detectedTags, (fits t ↔ s.Fits t) := fun t ht => by
    simp only [fits, State.Fits, hmagic t ht]
    rfl
  rw [exec_dispDetect hs]
  constructor
  · refine ⟨detect s, ?_⟩
    rcases detect_cases s with ⟨hzero, hnone⟩ | ⟨hmem, hfit, hleast⟩
    · refine ⟨by rw [hzero]; decide, rfl, iff_of_true hzero fun t h1 h5 => ?_, fun hne => absurd hzero hne⟩
      have ht := mem_detectedTags.2 ⟨h1, h5⟩
      exact (hfits t ht).not.2 (hnone t ht)
    · obtain ⟨h1, h5⟩ := mem_detectedTags.1 hmem
      have hne : detect s ≠ 0 := fun h => by rw [h] at h1; cases h1
      refine ⟨h5, rfl, iff_of_false hne fun h => h _ h1 h5 ((hfits _ hmem).2 hfit), fun _ =>
        ⟨(hfits _ hmem).2 hfit, (hmagic _ hmem).2 (.of_fits hmem hfit), fun t ht hlt => ?_⟩⟩
      have hmem := mem_detectedTags.2 ⟨ht, by omega⟩
      exact (hfits t hmem).not.2 (hleast t hmem hlt)
  · intro hheld
    have bare (t : Byte) (ht : t ∈ detectedTags) := predicate_iff_hasMagic hheld ht
    rw [detect_eq]
    simp only [bare _ (by decide : (1 : Byte) ∈ detectedTags), bare _ (by decide : (2 : Byte) ∈ detectedTags),
      bare _ (by decide : (3 : Byte) ∈ detectedTags), bare _ (by decide : (4 : Byte) ∈ detectedTags),
      bare _ (by decide : (5 : Byte) ∈ detectedTags), hasMagic_xpk, hasMagic_powerPacker, hasMagic_stone,
      hasMagic_crunch, hasMagic_mmcmp]
    by_cases hsize : s.setup.bufSize.toNat < 4
    · simp only [hsize, Nat.not_le.2 hsize, if_true, false_and, if_false]
      rfl
    · simp only [hsize, Nat.not_lt.1 hsize, if_false, true_and]
      split_ifs <;> rfl

end Sys2Proof.Machine
end

section
/-!
`RESET` from any state (70_reset_and_hazards.md R290): by `exec_reset` it is the restarted machine with an empty response,
and what is restarted is the instance alone.
-/
namespace Sys2Proof.Machine

/-- Power-on and `RESET` have the same effect on the instance (70_reset_and_hazards.md R290). -/
theorem toInst_of_exec_reset {s t : State} (ht : exec .reset s = .next t) : t.toInst = Inst.reset := by
  obtain rfl := Host.Outcome.next.inj ((exec_reset s).symm.trans ht)
  rw [State.finished_toInst, State.restarted_toInst]

/-- Settles O18: the elements of `s.restarted.finished` are those of `Inst.reset`, field by field the table of
10_state.md section 10; the count of free values starts over at 0 (log entry 16). -/
theorem resetResult : Obligations.ResetResult := by
  refine ⟨?word, fun s => ⟨0, ?elements⟩, fun s t ht => ?powerOn⟩
  case word => exact decode_resetWord
  case elements => exact exec_reset s
  case powerOn => exact toInst_of_exec_reset ht

end Sys2Proof.Machine
end

section
/-!
The other direction of the round trip (30_encoding.md R60 to R62): each field that `encode` puts together gives back its
operands and clear bits; and the machine's step at the command interface (R68, 70_reset_and_hazards.md R292, R305).
-/
namespace Sys2Proof

/-! ## A field taken apart again -/

section
variable {m k : Nat}

/-- A part of the high side of two fields. -/
theorem extract_high (x : BitVec m) (y : BitVec k) (s l : Nat) : (x ++ y).extractLsb' (k + s) l = x.extractLsb' s l := by
  rw [BitVec.extractLsb'_append_eq_of_le (Nat.le_add_right k s), Nat.add_sub_cancel_left]

/-- An operand in the low bits of its field, the rest clear. -/
theorem low_extract (x : BitVec k) : (0#m ++ x).extractLsb' k m = 0#m ∧ (0#m ++ x).extractLsb' 0 k = x :=
  ⟨BitVec.extractLsb'_append_eq_left, BitVec.extractLsb'_append_eq_right⟩

end

theorem getLsbD_of_extract {n s : Nat} {x : BitVec n} {b : Bool} (h : x.extractLsb' s 1 = bitField b) :
    x.getLsbD s = b := by
  have hbit := congrArg (BitVec.getLsbD · 0) h
  simpa [bitField] using hbit

theorem getElem_of_extract {n s : Nat} {x : BitVec n} {b : Bool} (hs : s < n) (h : x.extractLsb' s 1 = bitField b) :
    x[s] = b :=
  (BitVec.getLsbD_eq_getElem hs).symm.trans (getLsbD_of_extract h)

theorem lowF_6 (x : BitVec 6) : (0#18 ++ x : BitVec 24).extractLsb' 6 18 = 0
    ∧ (0#18 ++ x : BitVec 24).extractLsb' 0 6 = x := low_extract x

theorem lowF_8 (x : Byte) : (0#16 ++ x : BitVec 24).extractLsb' 8 16 = 0
    ∧ (0#16 ++ x : BitVec 24).extractLsb' 0 8 = x := low_extract x

theorem lowF_16 (x : BitVec 16) : (0#8 ++ x : BitVec 24).extractLsb' 16 8 = 0
    ∧ (0#8 ++ x : BitVec 24).extractLsb' 0 16 = x := low_extract x

theorem lowA_6 (x : BitVec 6) : (0#26 ++ x : Word).extractLsb' 6 26 = 0 ∧ (0#26 ++ x : Word).extractLsb' 0 6 = x :=
  low_extract x

theorem lowA_8 (x : Byte) : (0#24 ++ x : Word).extractLsb' 8 24 = 0 ∧ (0#24 ++ x : Word).extractLsb' 0 8 = x :=
  low_extract x

theorem lowB_16 (x : BitVec 16) : (0#16 ++ x : Word).extractLsb' 16 16 = 0 ∧ (0#16 ++ x : Word).extractLsb' 0 16 = x :=
  low_extract x

theorem highF_8 (x : Byte) : (x ++ 0#16 : BitVec 24).extractLsb' 0 16 = 0
    ∧ (x ++ 0#16 : BitVec 24).extractLsb' 16 8 = x :=
  ⟨BitVec.extractLsb'_append_eq_right, BitVec.extractLsb'_append_eq_left⟩

theorem lowF_bit (b : Bool) : (0#23 ++ bitField b : BitVec 24).extractLsb' 1 23 = 0
    ∧ (0#23 ++ bitField b : BitVec 24)[0] = b :=
  ⟨(low_extract _).1, getElem_of_extract (by decide) (low_extract _).2⟩

/-- The operands of `HUF.MAKE` and `HUF.FIXED` in `F`. -/
theorem makeField_extract (t : Byte) (ok : Bool) (w : BitVec 5) :
    (makeField t ok w).extractLsb' 9 7 = 0 ∧ (makeField t ok w).extractLsb' 5 3 = 0
      ∧ (makeField t ok w).extractLsb' 16 8 = t ∧ (makeField t ok w)[8] = ok
      ∧ (makeField t ok w).extractLsb' 0 5 = w := by
  refine ⟨?_, ?_, ?_, getElem_of_extract (by decide) ?_, BitVec.extractLsb'_append_eq_right⟩
  · exact (extract_high _ _ 4 7).trans ((extract_high _ _ 1 7).trans ((extract_high _ _ 0 7).trans
      BitVec.extractLsb'_append_eq_right))
  · exact (extract_high _ _ 0 3).trans BitVec.extractLsb'_append_eq_right
  · exact (extract_high _ _ 11 8).trans ((extract_high _ _ 8 8).trans ((extract_high _ _ 7 8).trans
      BitVec.extractLsb'_append_eq_left))
  · exact (extract_high _ _ 3 1).trans ((extract_high _ _ 0 1).trans BitVec.extractLsb'_append_eq_right)

/-- The operands of `HUF.SETTRI` in `F`. -/
theorem tripleField_extract (index : BitVec 16) (l : BitVec 6) :
    (index ++ 0#2 ++ l : BitVec 24).extractLsb' 6 2 = 0 ∧ (index ++ 0#2 ++ l : BitVec 24).extractLsb' 8 16 = index
      ∧ (index ++ 0#2 ++ l : BitVec 24).extractLsb' 0 6 = l := by
  refine ⟨?_, ?_, BitVec.extractLsb'_append_eq_right⟩
  · exact (extract_high _ _ 0 2).trans BitVec.extractLsb'_append_eq_right
  · exact (extract_high _ _ 2 16).trans ((extract_high _ _ 0 16).trans BitVec.extractLsb'_eq_self)

/-- The operands of `BR.INIT` in `F`. -/
theorem readerField_extract (rot wend dir order : Bool) (rw : BitVec 2) :
    let f : BitVec 24 := 0#18 ++ bitField rot ++ bitField wend ++ rw ++ bitField dir ++ bitField order
    f.extractLsb' 6 18 = 0 ∧ f.getLsbD 5 = rot ∧ f.getLsbD 4 = wend ∧ f.extractLsb' 2 2 = rw ∧ f.getLsbD 1 = dir
      ∧ f.getLsbD 0 = order := by
  refine ⟨?_, getLsbD_of_extract ?_, getLsbD_of_extract ?_, ?_, getLsbD_of_extract ?_,
    getLsbD_of_extract BitVec.extractLsb'_append_eq_right⟩
  · exact (extract_high _ _ 5 18).trans ((extract_high _ _ 4 18).trans ((extract_high _ _ 2 18).trans
      ((extract_high _ _ 1 18).trans ((extract_high _ _ 0 18).trans BitVec.extractLsb'_eq_self))))
  · exact (extract_high _ _ 4 1).trans ((extract_high _ _ 3 1).trans ((extract_high _ _ 1 1).trans
      ((extract_high _ _ 0 1).trans BitVec.extractLsb'_append_eq_right)))
  · exact (extract_high _ _ 3 1).trans ((extract_high _ _ 2 1).trans ((extract_high _ _ 0 1).trans
      BitVec.extractLsb'_append_eq_right))
  · exact (extract_high _ _ 1 2).trans ((extract_high _ _ 0 2).trans BitVec.extractLsb'_append_eq_right)
  · exact (extract_high _ _ 0 1).trans BitVec.extractLsb'_append_eq_right

@[simp] theorem BitOrder.ofBit_bit (o : BitOrder) : BitOrder.ofBit o.bit = o := by cases o <;> rfl
@[simp] theorem Direction.ofBit_bit (d : Direction) : Direction.ofBit d.bit = d := by cases d <;> rfl
@[simp] theorem ByteOrder.ofBit_bit (o : ByteOrder) : ByteOrder.ofBit o.bit = o := by cases o <;> rfl

/-! ## Decoding what was encoded, by the rows of 45_decompressor.md R192 -/

theorem decode_encode_brInit (order : BitOrder) (dir : Direction) {rw : BitVec 2} (wend : ByteOrder) (rot : Bool)
    (lo hi : Word) (h : rw ≠ 3#2) :
    decode (encode (.brInit order dir rw wend rot lo hi)) = .ok (.brInit order dir rw wend rot lo hi) := by
  obtain ⟨hclear, hrot, hwend, hrw, hdir, horder⟩ := readerField_extract rot wend.bit dir.bit order.bit rw
  rw [encode, decode_of_op_brInit (commandWord_op ..), commandWord_f, commandWord_a, commandWord_b, hclear, hrot, hwend,
    hrw, hdir, horder, if_neg (not_not.2 rfl), BitOrder.ofBit_bit, Direction.ofBit_bit, ByteOrder.ofBit_bit]
  exact if_neg h


section
variable {i : Instr}

theorem decode_encode_tool (hwf : i.wellFormed = true) (hk : Machine.kindOf i = .tool) :
    decode (encode i) = .ok i := by
  cases i
  case brInit order dir rw wend rot lo hi =>
    exact decode_encode_brInit order dir wend rot lo hi (by simpa [Instr.wellFormed, refillWidthLegal] using hwf)
  case vlcSet n bits base => exact decode_vlcSet n bits base
  case brReset | brAnchor | brRead | rotb | hufSetlen | hufSettri | hufMake | hufFixed | hufAdapt | hufDecode | vlcSetn
      | vlcDecode =>
    simp [encode, decode, whenClear, lowF_6, lowF_8, lowF_16, lowA_6, lowB_16, highF_8, makeField_extract,
      tripleField_extract]
  all_goals cases hk

theorem decode_encode_buffer (hk : Machine.kindOf i = .buffer) : decode (encode i) = .ok i := by
  cases i
  case bufSize | bufRd8 | bufRdbe16 | bufRdbe32 | bufRdle16 | bufRdle32 | bufGetdata | bufSlrd8 | ovfSum =>
    simp [encode, decode, whenClear, lowF_bit]
  all_goals cases hk

theorem decode_encode_other (htool : Machine.kindOf i ≠ .tool) (hbuffer : Machine.kindOf i ≠ .buffer) :
    decode (encode i) = .ok i := by
  cases i
  case reset | status | outInit | outWritebyte | outCopy | outEof | outRd8 | decCreate | decGetrawsize | decDecompress
      | decNextchunk | dispDetect =>
    simp [encode, decode, whenClear, lowF_8, lowF_bit, lowA_8]
  all_goals first | exact absurd rfl htool | exact absurd rfl hbuffer

end

/-- Settles O2, by the rows of the legality table: each of its commands puts its operands where `decode` looks. -/
theorem decodeOfEncode : Obligations.DecodeOfEncode := by
  intro i hwf
  by_cases htool : Machine.kindOf i = .tool
  · exact decode_encode_tool hwf htool
  · by_cases hbuffer : Machine.kindOf i = .buffer
    · exact decode_encode_buffer hbuffer
    · exact decode_encode_other htool hbuffer

/-- Settles O3: the word is put together again from the operands read from it. -/
theorem encodeOfDecode : Obligations.EncodeOfDecode := fun _ _ h => encode_of_decode h

/-- Settles O1: the words are evaluated one by one. -/
theorem wordsDecode : Obligations.WordsDecode := by
  unfold Obligations.WordsDecode
  refine ⟨?_, ?_, ?_, ?_, ?_, ?_, ?_, ?_, ?_, ?_, ?_, ?_⟩ <;> decide

namespace Machine

/-! ## A step (30_encoding.md R68, 70_reset_and_hazards.md R292, R305) -/

section
variable {s : State} {r : Request} {rest : List Request}

theorem step_of_decoded {i : Instr} (hs : s.pending = r :: rest) (ha : r.admissible s = true)
    (hd : decode r.word = .ok i) : step s = exec i (s.taking r rest) := by
  simp only [step, hs, if_pos ha, hd]

theorem step_of_undecoded {e : DecodeError} (hs : s.pending = r :: rest) (ha : r.admissible s = true)
    (hd : decode r.word = .error e) : step s = .next (s.taking r rest).turnedAway := by
  simp only [step, hs, if_pos ha, hd]
  rfl

theorem step_of_inadmissible (hs : s.pending = r :: rest) (ha : ¬ r.admissible s = true) :
    step s = .refused .hostMove := by
  simp only [step, hs, if_neg ha]

/-- When the host may present a configuration with a word (70_reset_and_hazards.md R292, R305). -/
theorem admissible_setup_iff {w : Command} {c : Setup} : ({ word := w, setup := some c } : Request).admissible s = true
    ↔ c.ok ∧ (w = resetWord ∨ ((s.fsm = .done ∨ s.fsm = .failed) ∧ c = { s.setup with und := c.und })) := by
  simp only [Request.admissible, Bool.and_eq_true, Bool.or_eq_true, decide_eq_true_eq, beq_iff_eq]

end

theorem decode_of_decodeTableWord {n w : Nat} {i : Instr} (h : decodeTableWord n w = some i) :
    decode (BitVec.ofNat 96 w) = .ok i := by
  unfold decodeTableWord at h
  split at h
  · split at h
    case h_1 j hd => rw [hd, Option.some.inj h]
    case h_2 => cases h
  · cases h

/-- Settles O5: a word without a configuration is always admissible, and taking it back off restores the list. -/
theorem stepRunsTheDecodedCommand : Obligations.StepRunsTheDecodedCommand := by
  refine ⟨fun s r rest i hs ha hd => step_of_decoded hs ha hd, fun s n w i h => ?_⟩
  exact step_of_decoded (r := { word := BitVec.ofNat 96 w, setup := none }) rfl rfl (decode_of_decodeTableWord h)

/-- Settles O7. -/
theorem idleKeepsEverything : Obligations.IdleKeepsEverything := by
  intro s hs
  simp only [step, hs]

/-- A word that spells no command does not decode: it would be the word of what it decodes to. -/
theorem undecoded_of_no_command {w : Command} (h : ∀ i : Instr, i.wellFormed = true → encode i ≠ w) :
    ∃ e, decode w = .error e := by
  cases hd : decode w with
  | error e => exact ⟨e, rfl⟩
  | ok i =>
    obtain ⟨hwf, hword⟩ := encode_of_decode hd
    exact absurd hword (h i hwf)

/-- Settles O8: the four cases are the two ways to be admissible, the second with and without a command. -/
theorem hostChangesItsInputOnlyWhereItMay : Obligations.HostChangesItsInputOnlyWhereItMay := by
  intro s w c rest hs
  refine ⟨fun hok hw => ?reset, fun i hok hf hc hd => ?command, fun hok hf hc hnone => ?noCommand, fun h => ?noMove⟩
  case reset =>
    exact step_of_decoded hs (admissible_setup_iff.2 ⟨hok, .inl hw⟩) (hw ▸ decode_resetWord)
  case command => exact step_of_decoded hs (admissible_setup_iff.2 ⟨hok, .inr ⟨hf, hc⟩⟩) hd
  case noCommand =>
    obtain ⟨e, hd⟩ := undecoded_of_no_command hnone
    exact step_of_undecoded hs (admissible_setup_iff.2 ⟨hok, .inr ⟨hf, hc⟩⟩) hd
  case noMove =>
    refine step_of_inadmissible hs fun ha => ?_
    obtain ⟨hok, hmove⟩ := admissible_setup_iff.1 ha
    rcases h with hnot | ⟨hw, hf⟩
    · exact hnot hok
    · rcases hmove with hreset | ⟨hmove, hc⟩
      · exact hw hreset
      · rcases hf with ⟨hdone, hfailed⟩ | hdiff
        · exact hmove.elim hdone hfailed
        · exact hdiff hc

/-- Settles O9: the state after reset is what `RESET` leaves, and its configuration is admissible. -/
theorem resetKeepsTheInvariant : Obligations.ResetKeepsTheInvariant :=
  restarted_inv (s := State.reset) (by decide)

end Machine

end Sys2Proof
end

section
/-!
How a run can fail: no toolkit command, no activity of the format sequencer and no `DEC.CREATE` is ever stuck, and the
causes each can raise are those of 60_exceptions.md R262, R265, R266 and R270.
-/
namespace Sys2Proof.Machine

/-! ## Runs that come to an end with certain causes -/

section
variable {α β : Type} {P Q : Cause → Prop}

/-- The run is not stuck, and where it fails its cause is one of these. -/
def Run.FailsIn (P : Cause → Prop) : Run α → Prop
  | .raised c _ => P c
  | .stuck => False
  | _ => True

theorem Run.FailsIn.andThen {r : Run α} {k : α → State → Run β} (hr : r.FailsIn P)
    (hk : ∀ a t, r = .ok a t → (k a t).FailsIn P) : (r.andThen k).FailsIn P := by
  cases r with
  | ok a t => exact hk a t rfl
  | raised c t => exact hr
  | illegal => trivial
  | stuck => exact hr.elim

theorem Run.FailsIn.imp {r : Run α} (hr : r.FailsIn P) (h : ∀ c, P c → Q c) : r.FailsIn Q := by
  cases r with
  | raised c t => exact h c hr
  | stuck => exact hr.elim
  | _ => trivial

theorem Run.FailsIn.ne_stuck {r : Run α} (hr : r.FailsIn P) : r ≠ .stuck := by
  rintro rfl
  exact hr

theorem Run.FailsIn.causes {r : Run α} (hr : r.FailsIn P) : r.Causes P := by
  cases r with
  | raised c t => exact hr
  | _ => trivial

theorem Run.Causes.imp {r : Run α} (hr : r.Causes P) (h : ∀ c, P c → Q c) : r.Causes Q := by
  cases r with
  | raised c t => exact h c hr
  | _ => trivial

end

/-! ## The bit reader and the tables -/

/-- A cause that a command of the toolkit reports as a failed decode: of category Decompression in Decoding
(60_exceptions.md R262, R270). -/
abbrev DecodingCause (c : Cause) : Prop := c.category .decoding = .decompression

theorem readBits_fails (n : Nat) (s : State) : (readBits n s).FailsIn (· = .endOfInput) := by
  rcases readBits_ends n s with ⟨v, t, h⟩ | ⟨t, h⟩ <;> rw [h]
  · trivial
  · rfl

theorem lookup_fails (t : Table) (base width left : Nat) : ∀ (k idx : Nat) (s : State),
    (lookup t base width left k idx s).FailsIn (· = .endOfInput) := by
  induction left with
  | zero =>
    intro k idx s
    simp only [lookup]
    split <;> trivial
  | succ left ih =>
    intro k idx s
    simp only [lookup]
    split
    · trivial
    · exact (readBits_fails 1 s).andThen fun b u _ => ih _ _ u

theorem adaptiveSymbol_fails (shape : AdaptShape) (turns : Nat) : ∀ (bits : List Bool) (s : State),
    (adaptiveSymbol shape turns bits s).FailsIn (· = .endOfInput) := by
  induction turns with
  | zero => exact fun _ _ => rfl
  | succ turns ih =>
    intro bits s
    simp only [adaptiveSymbol]
    split
    · trivial
    · exact (readBits_fails 1 s).andThen fun b u _ => ih _ u

theorem decodingCause_endOfInput {c : Cause} (h : c = .endOfInput) : DecodingCause c := by rw [h]; rfl

theorem decodeSymbol_fails (t : Table) (s : State) : (decodeSymbol t s).FailsIn DecodingCause := by
  refine ((lookup_fails t ..).imp fun _ => decodingCause_endOfInput).andThen fun l u _ => ?_
  split
  · trivial
  · refine ((lookup_fails t ..).imp fun _ => decodingCause_endOfInput).andThen fun l v _ => ?_
    split
    · trivial
    · exact rfl
  · exact rfl

theorem hufDecode_fails (n : Byte) (s : State) : (hufDecode n s).FailsIn DecodingCause := by
  unfold hufDecode
  split
  · trivial
  · split
    · trivial
    · split
      · trivial
      · split
        · unfold decodeAdaptive
          split
          · trivial
          · exact ((adaptiveSymbol_fails ..).imp fun _ => decodingCause_endOfInput).andThen fun _ _ _ => trivial
        · exact decodeSymbol_fails ..

theorem placeInSub_error {c : Code} {width base sw : Nat} {order : BitOrder} {es : List Entry} {e : Cause}
    (h : placeInSub c width order base sw es = .error e) : e = .huffOver := by
  unfold placeInSub at h
  dsimp only at h
  split at h <;> cases h
  rfl

/-- A code that cannot be placed collides with another or finds no room for its sub-table (42_huffman.md R136, R137). -/
theorem placeCode_error {all : List Code} {width : Nat} {order : BitOrder} {c : Code} {es : List Entry} {e : Cause}
    (h : placeCode all width order c es = .error e) : e = .huffOver ∨ e = .tableCapacity := by
  unfold placeCode at h
  split at h
  · split at h <;> cases h
    exact .inl rfl
  · dsimp only at h
    generalize subWidth all width (c.code / 2 ^ (c.length - width)) = sw at h
    generalize (slots (c.code / 2 ^ (c.length - width)) width width order).headD 0 = pidx at h
    cases hp : es[pidx]? with
    | none =>
      rw [hp] at h
      cases h
      exact .inl rfl
    | some slot =>
      rw [hp] at h
      cases slot with
      | leaf len value =>
        cases h
        exact .inl rfl
      | link base sw => exact .inl (placeInSub_error h)
      | unmapped =>
        dsimp only at h
        by_cases hcap : Config.tblCap < es.length + 2 ^ sw
        · rw [if_pos hcap] at h
          cases h
          exact .inr rfl
        · rw [if_neg hcap] at h
          exact .inl (placeInSub_error h)

theorem placeCodes_error {all : List Code} {width : Nat} {order : BitOrder} {e : Cause} (cs : List Code) :
    ∀ {es : List Entry}, placeCodes all width order cs es = .error e → e = .huffOver ∨ e = .tableCapacity := by
  induction cs with
  | nil => intro es h; cases h
  | cons c cs ih =>
    intro es h
    simp only [placeCodes] at h
    split at h
    · exact ih h
    case h_2 hc =>
      cases h
      exact placeCode_error hc

/-- Every way the construction of a table can fail (42_huffman.md R136 to R138). -/
theorem build_error {cs : List Code} {width : Nat} {order : BitOrder} {ok : Bool} {e : Cause}
    (h : build cs width order ok = .error e) : e = .huffOver ∨ e = .huffUnder ∨ e = .tableCapacity := by
  unfold build at h
  split at h
  case h_1 hp =>
    cases h
    exact (placeCodes_error cs hp).imp_right .inr
  case h_2 =>
    split_ifs at h <;> cases h
    · exact .inl rfl
    · exact .inr (.inl rfl)

theorem makeTable_fails (t : Byte) (m : TableMode) (ok : Bool) (w : BitVec 5) (cs : List Code) (s : State) :
    (makeTable t m ok w cs s).FailsIn DecodingCause := by
  unfold makeTable
  extract_lets
  split
  case h_1 h => rcases build_error h with rfl | rfl | rfl <;> rfl
  case h_2 => trivial

/-! ## The toolkit -/

/-- A command of the Buffer family fails on its range alone, and where it fails nothing has changed (60_exceptions.md
R266). -/
theorem toolkit_buffer_raised {i : Instr} {s t : State} {c : Cause} (hk : kindOf i = .buffer)
    (h : toolkit i s = .raised c t) : c = .range ∧ t = s := by
  cases i
  case bufSize => cases h
  case bufRd8 | bufRdbe16 | bufRdbe32 | bufRdle16 | bufRdle32 =>
    simp only [toolkit, bufRead] at h
    split at h <;> cases h
    exact ⟨rfl, rfl⟩
  case bufGetdata =>
    simp only [toolkit, bufGetdata] at h
    split at h <;> cases h
    exact ⟨rfl, rfl⟩
  case bufSlrd8 =>
    simp only [toolkit, bufSlrd8] at h
    split_ifs at h
    · cases h
      exact ⟨rfl, rfl⟩
    · cases h
  case ovfSum =>
    simp only [toolkit, ovfSum] at h
    split at h <;> cases h
  all_goals cases hk

/-- Every toolkit command ends, and fails with a cause of a failed decode (60_exceptions.md R262). -/
theorem toolkit_fails (i : Instr) (s : State) : (toolkit i s).FailsIn DecodingCause := by
  cases i
  case hufMake =>
    simp only [toolkit, hufMake]
    split
    · trivial
    · split
      · trivial
      · split
        · exact rfl
        · exact makeTable_fails ..
  case hufFixed =>
    simp only [toolkit, hufFixed]
    split
    · trivial
    · split
      · trivial
      · exact makeTable_fails ..
  case brRead =>
    simp only [toolkit, brRead]
    split
    · trivial
    · exact ((readBits_fails ..).imp fun _ => decodingCause_endOfInput).andThen fun _ _ _ => trivial
  case vlcDecode =>
    simp only [toolkit, vlcDecode]
    split
    · trivial
    · split
      · exact rfl
      · split
        · refine ((readBits_fails ..).imp fun _ => decodingCause_endOfInput).andThen fun _ _ _ => ?_
          split
          · exact rfl
          · trivial
        · trivial
  case hufDecode => exact hufDecode_fails ..
  all_goals
    simp only [toolkit, bufSize, bufRead, bufGetdata, bufSlrd8, ovfSum, brInit, brReset, brAnchor, rotb, hufSetlen,
      hufSettri, hufAdapt, vlcSet, vlcSetn, outWritebyte, outCopy, outEof]
    repeat' split
    all_goals trivial

/-! ## The format sequencer -/

/-- An activity of the sequencer ends, and fails as the commands do that it may issue in the state it begins in. -/
theorem Script.run_fails {α : Type} {P : Cause → Prop} {f : Fsm}
    (cmd : ∀ (i : Instr) (s : State), accepts .sequencer (kindOf i) f = true → (toolkit i s).FailsIn P) (x : Script α) :
    ∀ s : State, s.fsm = f → (x.run s).FailsIn P := by
  induction x with
  | ret a => exact fun _ _ => trivial
  | look next ih => exact fun s hs => ih (s.toInst.showing 0) s hs
  | setChk v next ih => exact fun s hs => ih { s with chk := v } hs
  | issue i next ih =>
    intro s hs
    simp only [Script.run, sequencerCommand, hs]
    by_cases ha : accepts .sequencer (kindOf i) f = true
    · simp only [ha, ↓reduceIte]
      have hfails := cmd i s ha
      have hframe := toolkit_frame i s
      cases hr : toolkit i s with
      | ok v t =>
        rw [hr] at hframe
        exact ih true (t.toInst.showing (v.getD 0)) t (hframe.fsm.trans hs)
      | illegal => exact ih false (s.toInst.showing 0) s hs
      | raised c t => rwa [hr] at hfails
      | stuck => rwa [hr] at hfails
    · simp only [ha]
      exact ih false (s.toInst.showing 0) s hs

/-- Whatever state it begins in, an activity of the sequencer fails with a cause of a failed decode alone. -/
theorem Script.run_fails_decoding {α : Type} (x : Script α) (s : State) : (x.run s).FailsIn DecodingCause :=
  Script.run_fails (fun i s _ => toolkit_fails i s) x s rfl

/-- In Unvalidated the sequencer may issue the Buffer family alone (45_decompressor.md R192). -/
theorem buffer_of_accepts_sequencer {k : Kind} (h : accepts .sequencer k .unvalidated = true) : k = .buffer := by
  cases k
  case buffer => rfl
  all_goals cases h

theorem toolkit_buffer_fails {i : Instr} (s : State) (hk : kindOf i = .buffer) :
    (toolkit i s).FailsIn (· = .range) := by
  cases hr : toolkit i s with
  | raised c t => exact (toolkit_buffer_raised hk hr).1
  | stuck => exact absurd hr (toolkit_fails i s).ne_stuck
  | _ => trivial

/-- Reading a header can fail on its range alone (60_exceptions.md R266). -/
theorem Script.run_fails_unvalidated {α : Type} (x : Script α) {s : State} (hs : s.fsm = .unvalidated) :
    (x.run s).FailsIn (· = .range) :=
  Script.run_fails (fun _ s ha => toolkit_buffer_fails s (buffer_of_accepts_sequencer ha)) x s hs

theorem runChecked_fails {ε : Type} {P : Cause → Prop} {cause : ε → Cause} {x : Script (Option ε)} {s : State}
    (hx : (x.run s).FailsIn P) (hc : ∀ e, P (cause e)) : (runChecked cause x s).FailsIn P := by
  refine hx.andThen fun r t _ => ?_
  split
  · trivial
  · exact hc _

/-! ## A decode -/

/-- A cause of a decode, of category Decompression or Verification in Decoding (60_exceptions.md R262, R265). -/
abbrev DecodeCause (c : Cause) : Prop := c.category .decoding = .decompression ∨ c.category .decoding = .verification

theorem runChecked_init_fails (x : Script (Option InitFailure)) (s : State) :
    (runChecked InitFailure.cause x s).FailsIn DecodeCause :=
  runChecked_fails ((Script.run_fails_decoding x s).imp fun _ => .inl) fun e => by cases e <;> exact .inl rfl

theorem stepCause_decode (e : StepFailure) : DecodeCause e.cause := by
  cases e
  case checksumMismatch => exact .inr rfl
  all_goals exact .inl rfl

theorem runChecked_step_fails (x : Script (Option StepFailure)) (s : State) :
    (runChecked StepFailure.cause x s).FailsIn DecodeCause :=
  runChecked_fails ((Script.run_fails_decoding x s).imp fun _ => .inl) stepCause_decode

theorem runChecked_verify_fails (x : Script (Option VerifyFailure)) (s : State) :
    (runChecked VerifyFailure.cause x s).FailsIn DecodeCause :=
  runChecked_fails ((Script.run_fails_decoding x s).imp fun _ => .inl) fun e => by cases e <;> exact .inr rfl

theorem decodeStep_fails (d : Descriptor) (s : State) : (decodeStep d s).FailsIn DecodeCause :=
  (runChecked_step_fails _ s).andThen fun _ _ _ => trivial

theorem decodeLoop_raises (d : Descriptor) (n : Nat) : ∀ s, (decodeLoop d n s).Causes DecodeCause := by
  induction n with
  | zero =>
    intro s
    unfold decodeLoop
    split <;> trivial
  | succ n ih =>
    intro s
    unfold decodeLoop
    split
    · exact (decodeStep_fails d s).causes.andThen fun _ t => ih t
    · trivial

theorem chunkBody_raises (d : Descriptor) (s : State) : (chunkBody d s).Causes DecodeCause := by
  refine ((Script.run_fails_decoding _ _).causes.imp fun _ => .inl).andThen fun r t => ?_
  cases r with
  | chunk => trivial
  | noProgress => trivial
  | failed e => exact stepCause_decode e
  | finished =>
    dsimp only
    split
    · exact (runChecked_verify_fails _ t).causes.andThen fun _ _ => trivial
    · exact .inl rfl

/-- The body of `DEC.NEXTCHUNK` is stuck only where `next_chunk` reports a bound used up (70_reset_and_hazards.md R306). -/
theorem chunkBody_stuck {d : Descriptor} {s : State} (h : chunkBody d s = .stuck) :
    ∃ u, (d.nextChunk s.window).run s.atChunk = .ok .noProgress u := by
  rcases Run.andThen_stuck.1 h with hrun | ⟨r, t, hrun, hk⟩
  · exact absurd hrun (Script.run_fails_decoding _ _).ne_stuck
  · cases r with
    | noProgress => exact ⟨t, hrun⟩
    | chunk => cases hk
    | failed e => cases hk
    | finished =>
      dsimp only at hk
      split at hk
      · rcases Run.andThen_stuck.1 hk with hv | ⟨_, _, _, hv⟩
        · exact absurd hv (runChecked_verify_fails _ t).ne_stuck
        · cases hv
      · cases hk

theorem chunkLoop_raises (d : Descriptor) (n : Nat) : ∀ s, (chunkLoop d n s).Causes DecodeCause := by
  induction n with
  | zero => exact fun _ => trivial
  | succ n ih =>
    intro s
    refine (chunkBody_raises d s).andThen fun r t => ?_
    cases r with
    | chunk => exact ih t
    | finished => trivial

theorem decompress_raises (d : Descriptor) (s : State) : (decompress d s).Causes DecodeCause := by
  refine Run.Causes.andThen ?_ fun _ _ => trivial
  split
  · exact chunkLoop_raises ..
  · refine (runChecked_init_fails ..).causes.andThen fun _ t => ?_
    exact (decodeLoop_raises ..).andThen fun _ u => (runChecked_verify_fails ..).causes

theorem nextChunk_raises (d : Descriptor) (s : State) : (nextChunk d s).Causes DecodeCause := by
  unfold nextChunk
  split
  · trivial
  · exact (chunkBody_raises d s).andThen fun _ _ => trivial

/-! ## Create -/

/-- The causes a header can be rejected with: the checks of 45_decompressor.md R198 and the range of its reads
(60_exceptions.md R266). -/
abbrev headerCauses : List Cause :=
  [.tooShort, .badMagic, .zeroSize, .sizeExceedsBuffer, .sizeExceedsMax, .badHeaderField, .range]

theorem category_of_headerCause {c : Cause} (h : c ∈ headerCauses) : c.category .unvalidated = .invalidFormat := by
  revert c
  decide

theorem sizeFailure_mem {h : HeaderInfo} {setup : Setup} {c : Cause} (hc : sizeFailure h setup = some c) :
    c ∈ headerCauses := by
  unfold sizeFailure at hc
  split_ifs at hc <;> cases hc <;> decide

theorem interpret_fails (d : Descriptor) (i : Interpretation) (declared : Word) {s : State} (hs : s.fsm = .unvalidated) :
    (interpret d i declared s).FailsIn (· ∈ headerCauses) := by
  have range : ∀ c : Cause, c = .range → c ∈ headerCauses := fun c hc => by rw [hc]; decide
  refine ((Script.run_fails_unvalidated _ hs).imp range).andThen fun raw t ht => ?_
  have hframe := Script.run_frame (i.header declared s.window) s
  rw [ht] at hframe
  have ht' : t.fsm = .unvalidated := hframe.fsm.trans hs
  dsimp only
  split
  case h_1 c hc => exact sizeFailure_mem hc
  case h_2 =>
    refine ((Script.run_fails_unvalidated _ ht').imp range).andThen fun legal u _ => ?_
    split
    · trivial
    · exact (by decide : Cause.badHeaderField ∈ headerCauses)

theorem parse_fails (d : Descriptor) (declared : Word) {s : State} (hs : s.fsm = .unvalidated) :
    (parse d declared s).FailsIn (· ∈ headerCauses) := by
  unfold parse
  split
  · exact (by decide : Cause.tooShort ∈ headerCauses)
  · split
    · exact (by decide : Cause.badMagic ∈ headerCauses)
    · split
      case h_1 c t again hfirst hsecond =>
        have hframe := (interpret_moved d (d.first s.window) declared s)
        rw [hfirst] at hframe
        exact interpret_fails d again declared (hframe.frame.fsm.trans hs)
      case h_2 => exact interpret_fails d _ declared hs

theorem outInit_fails (dir : Direction) (size window : Word) (s : State) :
    (outInit dir size window s).FailsIn (· ∈ headerCauses) := by
  unfold outInit
  split_ifs
  · trivial
  · exact (by decide : Cause.zeroSize ∈ headerCauses)
  · exact (by decide : Cause.sizeExceedsMax ∈ headerCauses)
  · trivial

theorem create_fails (d : Descriptor) (fmt : Byte) (declared : Word) {s : State} (hs : s.fsm = .unvalidated) :
    (create d fmt declared s).FailsIn (· ∈ headerCauses) :=
  (parse_fails d declared (by exact hs)).andThen fun _ _ _ => (outInit_fails ..).andThen fun _ _ _ => trivial

theorem decCreate_fails (fmt : Byte) (declared : Word) {s : State} (hs : s.fsm = .unvalidated) :
    (decCreate fmt declared s).FailsIn (· ∈ headerCauses) := by
  unfold decCreate
  split_ifs
  case neg => exact create_fails _ fmt declared hs
  all_goals trivial

end Sys2Proof.Machine
end

section
/-!
The machine as a whole: every command ends (60_exceptions.md R268), what its response says of how (30_encoding.md R63),
the transitions of the state machine (45_decompressor.md R191), the legality table (R192), and what the host supplies.
-/
namespace Sys2Proof.Machine

/-! ## Every command ends -/

section
variable {s : State}

theorem outRd8_ne_stuck (index : Word) : outRd8 index s ≠ .stuck := by
  unfold outRd8
  split_ifs
  case neg => split <;> exact nofun
  all_goals exact nofun

/-- The body of every command but the two decoding ones comes to an end where it is legal. -/
theorem commandBody_ne_stuck {i : Instr} (ha : accepts .host (kindOf i) s.fsm = true) (hd : i ≠ .decDecompress)
    (hn : i ≠ .decNextchunk) : commandBody i s ≠ .stuck := by
  have ofToolkit (hb : commandBody i s = toolkit i s) : commandBody i s ≠ .stuck := hb ▸ (toolkit_fails i s).ne_stuck
  cases i
  case decDecompress => exact absurd rfl hd
  case decNextchunk => exact absurd rfl hn
  case reset | status | decGetrawsize | dispDetect => exact nofun
  case outInit dir size window => exact (outInit_fails dir size window s).ne_stuck
  case outRd8 index => exact outRd8_ne_stuck index
  case decCreate fmt declared => exact (decCreate_fails fmt declared (unvalidated_of_accepts_create ha)).ne_stuck
  all_goals exact ofToolkit rfl

/-- A host's command ends, or its body used up a bound. -/
theorem hostCommand_cases (k : Kind) (op : State → Run (Option Word)) : (∃ t, hostCommand k op s = .next t)
    ∨ (op s = .stuck ∧ hostCommand k op s = .fault .noProgress) := by
  by_cases h : op s = .stuck
  · by_cases ha : accepts .host k s.fsm = true
    · exact .inr ⟨h, by rw [hostCommand_of_accepted ha, h]; rfl⟩
    · exact .inl ⟨_, hostCommand_of_refused (by simpa using ha) op⟩
  · exact .inl (hostCommand_ends h)

theorem nextChunk_stuck {d : Descriptor} (h : nextChunk d s = .stuck) :
    d.chunked = true ∧ chunkBody d s = .stuck := by
  unfold nextChunk at h
  split at h
  · cases h
  case isFalse hc =>
    refine ⟨by simpa using hc, ?_⟩
    rcases Run.andThen_stuck.1 h with hb | ⟨_, _, _, hr⟩
    · exact hb
    · cases hr

end

/-- Settles O11: only the loops of a decode can be stuck, and in `DEC.NEXTCHUNK` only where `next_chunk` says so. -/
theorem everyCommandEnds : Obligations.EveryCommandEnds := by
  intro i s
  refine ⟨fun hd hn => ?_, fun hd => ?_, fun hn => ?_⟩
  · rw [exec_eq_hostCommand]
    by_cases ha : accepts .host (kindOf i) s.fsm = true
    · exact hostCommand_ends (commandBody_ne_stuck ha hd hn)
    · exact ⟨_, hostCommand_of_refused (by simpa using ha) _⟩
  · subst hd
    exact (hostCommand_cases _ _).imp_right And.right
  · subst hn
    refine (hostCommand_cases (s := s) .nextChunk fun s => nextChunk (format s.fmt) s).imp_right ?_
    rintro ⟨hstuck, hfault⟩
    obtain ⟨hchunked, hbody⟩ := nextChunk_stuck hstuck
    exact ⟨hfault, hchunked, chunkBody_stuck hbody⟩

/-! ## What a decode leaves alone -/

/-- From `s` to `t` an activity of the format sequencer ran and an answer was given. -/
abbrev StepFrame (s t : State) : Prop := ToolkitFrame s { t.answeredAs s with chk := s.chk }

/-- The same with the chunk registers written. -/
abbrev DecodeFrame (s t : State) : Prop := StepFrame s { t with chunkIdx := s.chunkIdx, chunkLo := s.chunkLo }

section
variable {s t u : State}

theorem StepFrame.trans (h1 : StepFrame s t) (h2 : StepFrame t u) : StepFrame s u :=
  ⟨h2.setup.trans h1.setup, h2.pending.trans h1.pending, rfl, rfl, rfl, rfl, h2.fmt.trans h1.fmt,
    h2.packedSize.trans h1.packedSize, h2.gen.trans h1.gen, h2.ctrl.trans h1.ctrl, rfl, h2.chunkIdx.trans h1.chunkIdx,
    h2.chunkLo.trans h1.chunkLo, h2.outValid.trans h1.outValid, h2.outDir.trans h1.outDir, h2.outWin.trans h1.outWin,
    h2.rawSize.trans h1.rawSize⟩

theorem DecodeFrame.trans (h1 : DecodeFrame s t) (h2 : DecodeFrame t u) : DecodeFrame s u :=
  ⟨h2.setup.trans h1.setup, h2.pending.trans h1.pending, rfl, rfl, rfl, rfl, h2.fmt.trans h1.fmt,
    h2.packedSize.trans h1.packedSize, h2.gen.trans h1.gen, h2.ctrl.trans h1.ctrl, rfl, rfl, rfl,
    h2.outValid.trans h1.outValid, h2.outDir.trans h1.outDir, h2.outWin.trans h1.outWin, h2.rawSize.trans h1.rawSize⟩

theorem StepFrame.of_moved (h : SequencerMoved s t) : StepFrame s t :=
  ⟨h.frame.setup, h.frame.pending, rfl, rfl, rfl, rfl, h.frame.fmt, h.frame.packedSize, h.frame.gen, h.frame.ctrl, rfl,
    h.frame.chunkIdx, h.frame.chunkLo, h.frame.outValid, h.frame.outDir, h.frame.outWin, h.frame.rawSize⟩

theorem StepFrame.decode (h : StepFrame s t) : DecodeFrame s t :=
  ⟨h.setup, h.pending, rfl, rfl, rfl, rfl, h.fmt, h.packedSize, h.gen, h.ctrl, rfl, rfl, rfl, h.outValid, h.outDir,
    h.outWin, h.rawSize⟩

theorem chunkBody_frame (d : Descriptor) (s : State) : (chunkBody d s).Ends (DecodeFrame s) := by
  have hstart : DecodeFrame s { s with fsm := .decoding, chunkLo := word s.produced } := by constructor <;> rfl
  refine ((Script.run_moved _ _).imp fun _ ht => hstart.trans (StepFrame.of_moved ht).decode).andThen fun r t ht => ?_
  cases r with
  | chunk => exact ht.trans (by constructor <;> rfl)
  | failed e => exact ht
  | noProgress => trivial
  | finished =>
    dsimp only
    split
    · exact ((runChecked_moved _ _ t).imp fun _ hu => ht.trans (StepFrame.of_moved hu).decode).andThen fun _ _ hu =>
        hu.trans (by constructor <;> rfl)
    · exact ht

theorem chunkLoop_frame (d : Descriptor) (n : Nat) : ∀ s, (chunkLoop d n s).Ends (DecodeFrame s) := by
  induction n with
  | zero => exact fun _ => trivial
  | succ n ih =>
    intro s
    refine (chunkBody_frame d s).andThen fun r t ht => ?_
    cases r with
    | chunk => exact (ih t).imp fun _ hu => ht.trans hu
    | finished => exact ht

/-- A decode of a format that is not chunked leaves the chunk registers alone too. -/
theorem decompress_step_frame {d : Descriptor} (hd : d.chunked = false) (s : State) :
    (decompress d s).Ends (StepFrame s) := by
  have hstart : StepFrame s { s with fsm := .decoding } := by constructor <;> rfl
  refine Run.Ends.andThen (P := StepFrame s) ?_ fun _ _ ht => ht.trans (by constructor <;> rfl)
  rw [if_neg (by rw [hd]; exact Bool.false_ne_true)]
  refine ((runChecked_moved _ _ _).imp fun _ ht => hstart.trans (.of_moved ht)).andThen fun _ t ht => ?_
  refine ((decodeLoop_moved d _ t).imp fun _ hu => ht.trans (.of_moved hu)).andThen fun _ u hu => ?_
  exact (runChecked_moved _ _ u).imp fun _ hv => hu.trans (.of_moved hv)

theorem decompress_frame (d : Descriptor) (s : State) : (decompress d s).Ends (DecodeFrame s) := by
  cases hd : d.chunked with
  | false => exact (decompress_step_frame hd s).imp fun _ h => h.decode
  | true =>
    have hstart : DecodeFrame s { s with fsm := .decoding } := by constructor <;> rfl
    refine Run.Ends.andThen (P := DecodeFrame s) ?_ fun _ _ ht => ht.trans (by constructor <;> rfl)
    rw [if_pos hd]
    exact (chunkLoop_frame d _ _).imp fun _ ht => hstart.trans ht

theorem nextChunk_frame (d : Descriptor) (s : State) : (nextChunk d s).Ends (DecodeFrame s) := by
  unfold nextChunk
  split
  · trivial
  · exact (chunkBody_frame d s).andThen fun _ _ ht => ht.trans (by constructor <;> rfl)

end

/-! ## What reading a header leaves alone -/

/-- From `s` to `t` commands of the Buffer family were issued and `CHK` was written. -/
def HeaderRead (s t : State) : Prop :=
  t = { s with res := t.res, sumr := t.sumr, ovf := t.ovf, slOff := t.slOff, slLen := t.slLen, slValid := t.slValid
               chk := t.chk }

section
variable {s t u : State}

theorem HeaderRead.refl (s : State) : HeaderRead s s := rfl

theorem HeaderRead.trans (h1 : HeaderRead s t) (h2 : HeaderRead t u) : HeaderRead s u := by
  unfold HeaderRead at *
  rw [h2, h1]

theorem HeaderRead.fsm (h : HeaderRead s t) : t.fsm = s.fsm := congrArg (·.fsm) h
theorem HeaderRead.setup (h : HeaderRead s t) : t.setup = s.setup := congrArg (·.setup) h
theorem HeaderRead.pending (h : HeaderRead s t) : t.pending = s.pending := congrArg (·.pending) h
theorem HeaderRead.window (h : HeaderRead s t) : t.window = s.window := by
  simp only [State.window, State.inByte, h.setup]

theorem toolkit_buffer_reads {i : Instr} (hk : kindOf i = .buffer) (s : State) :
    (toolkit i s).Ends (HeaderRead s) := by
  cases i
  case bufSize => rfl
  case bufRd8 | bufRdbe16 | bufRdbe32 | bufRdle16 | bufRdle32 =>
    simp only [toolkit, bufRead]
    split <;> rfl
  case bufGetdata =>
    simp only [toolkit, bufGetdata]
    split <;> rfl
  case bufSlrd8 =>
    simp only [toolkit, bufSlrd8]
    split
    · trivial
    · split <;> rfl
  case ovfSum =>
    simp only [toolkit, ovfSum]
    split
    · trivial
    · rfl
  all_goals cases hk

/-- In Unvalidated an activity of the sequencer reads the header and does nothing else (45_decompressor.md R192, R196). -/
theorem Script.run_reads_header {α : Type} (x : Script α) {s : State} (hs : s.fsm = .unvalidated) :
    (x.run s).Ends (HeaderRead s) := by
  have hrun := Script.run_ends (P := fun s t => s.fsm = .unvalidated → HeaderRead s t) (fun s _ => .refl s)
    (fun h1 h2 hs => (h1 hs).trans (h2 ((h1 hs).fsm.trans hs))) (fun _ _ _ => rfl)
    (fun i s ha => ?_) x s
  · exact hrun.imp fun _ ht => ht hs
  · by_cases hf : s.fsm = .unvalidated
    · rw [hf] at ha
      exact (toolkit_buffer_reads (buffer_of_accepts_sequencer ha) s).imp fun _ ht _ => ht
    · exact Run.ends_of_forall _ fun _ hc => absurd hc hf

theorem interpret_reads_header (d : Descriptor) (i : Interpretation) (declared : Word) (hs : s.fsm = .unvalidated) :
    (interpret d i declared s).Ends (HeaderRead s) := by
  refine (Script.run_reads_header _ hs).andThen fun raw t ht => ?_
  dsimp only
  split
  · exact ht
  · refine ((Script.run_reads_header _ (ht.fsm.trans hs)).imp fun _ hu => ht.trans hu).andThen fun legal u hu => ?_
    split <;> exact hu

theorem parse_reads_header (d : Descriptor) (declared : Word) (hs : s.fsm = .unvalidated) :
    (parse d declared s).Ends (HeaderRead s) := by
  unfold parse
  split
  · exact .refl s
  · split
    · exact .refl s
    · have hfirst := interpret_reads_header d (d.first s.window) declared hs
      split
      case h_1 hrun _ =>
        rw [hrun] at hfirst
        exact (interpret_reads_header d _ declared (hfirst.fsm.trans hs)).imp fun _ ht => hfirst.trans ht
      case h_2 => exact hfirst

/-- What `DEC.CREATE`'s body leaves alone, the answer aside. -/
def CreateFrame (s t : State) : Prop :=
  t.setup = s.setup ∧ t.pending = s.pending ∧ t.freeCount = 0 ∧ t.chunkIdx = s.chunkIdx ∧ t.chunkLo = s.chunkLo

theorem HeaderRead.created (h : HeaderRead s.toolkitCleared t) : CreateFrame s t := by
  rw [h]
  exact ⟨rfl, rfl, rfl, rfl, rfl⟩

theorem create_frame (d : Descriptor) (fmt : Byte) (declared : Word) (hs : s.fsm = .unvalidated) :
    (create d fmt declared s).Ends (CreateFrame s) := by
  refine ((parse_reads_header d declared (s := s.toolkitCleared) hs).imp fun _ ht => ht.created).andThen fun h t ht => ?_
  refine (outInit_ends (P := CreateFrame s) _ _ _ ?_ ?_).andThen fun _ u hu => hu
  · exact ht
  · exact ht

/-- `DEC.CREATE` is refused or runs its body (45_decompressor.md R197). -/
theorem decCreate_cases (fmt : Byte) (declared : Word) (s : State) :
    decCreate fmt declared s = .illegal ∨ decCreate fmt declared s = create (format fmt) fmt declared s := by
  unfold decCreate
  split_ifs <;> simp

end

/-- Settles O60: `DEC.CREATE` clears the toolkit and then reads the header; the decoding commands run activities of the
sequencer between changes of `FSM` and of the chunk registers. -/
theorem frameOfDecompressorCommands : Obligations.FrameOfDecompressorCommands := by
  intro i s t h
  cases i
  case decCreate fmt declared =>
    by_cases ha : accepts .host .create s.fsm = true
    · have hs := unvalidated_of_accepts_create ha
      rcases decCreate_cases fmt declared s with hop | hop
      · obtain rfl := Host.Outcome.next.inj ((hostCommand_of_illegal hop).symm.trans h)
        exact ⟨rfl, rfl, .inl rfl, rfl, rfl⟩
      · have hbody := create_frame (format fmt) fmt declared hs
        rw [← hop] at hbody
        rcases hostCommand_next h with rfl | ⟨-, ⟨v, u, hu, rfl⟩ | ⟨c, u, hu, rfl⟩⟩
        · exact ⟨rfl, rfl, .inl rfl, rfl, rfl⟩
        · rw [hu] at hbody
          obtain ⟨hsetup, hpending, hfree, hidx, hlo⟩ := hbody
          exact ⟨hsetup, hpending, .inr hfree, hidx, hlo⟩
        · rw [hu] at hbody
          obtain ⟨hsetup, hpending, hfree, hidx, hlo⟩ := hbody
          simp only [State.failed_setup, State.failed_pending, State.failed_freeCount, State.failed_chunkIdx,
            State.failed_chunkLo]
          exact ⟨hsetup, hpending, .inr hfree, hidx, hlo⟩
    · obtain rfl := Host.Outcome.next.inj ((hostCommand_of_refused (by simpa using ha) _).symm.trans h)
      exact ⟨rfl, rfl, .inl rfl, rfl, rfl⟩
  case decDecompress =>
    have hf := hostCommand_keeps (decompress_frame _ s) h (StepFrame.of_moved (.refl s)).decode fun _ _ hu => hu
    refine ⟨hf.setup, hf.pending, hf.fmt, hf.packedSize, hf.gen, hf.ctrl, hf.rawSize, hf.outDir, hf.outWin, hf.outValid,
      fun hc => ?_⟩
    have hc := hostCommand_keeps (decompress_step_frame hc s) h (StepFrame.of_moved (.refl s)) fun _ _ hu => hu
    exact ⟨hc.chunkIdx, hc.chunkLo⟩
  case decNextchunk =>
    have hf := hostCommand_keeps (nextChunk_frame _ s) h (StepFrame.of_moved (.refl s)).decode fun _ _ hu => hu
    refine ⟨hf.setup, hf.pending, hf.fmt, hf.packedSize, hf.gen, hf.ctrl, hf.rawSize, hf.outDir, hf.outWin, hf.outValid,
      fun hc => ?_⟩
    have hrefused : nextChunk (format s.fmt) s = .illegal := if_pos (by rw [hc]; rfl)
    obtain rfl := Host.Outcome.next.inj ((hostCommand_of_illegal (k := .nextChunk)
      (op := fun s => nextChunk (format s.fmt) s) hrefused).symm.trans h)
    exact ⟨rfl, rfl⟩
  all_goals trivial

/-! ## What the host supplies -/

/-- The host's configuration and the commands presented are in `t` what they are in `s`. -/
def SuppliedKept (s t : State) : Prop := t.setup = s.setup ∧ t.pending = s.pending

/-- Wherever it is legal, the body of a command leaves alone what the host supplies (10_state.md R13, R14, R34). -/
theorem commandBody_keeps_supplied {i : Instr} {s : State} (ha : accepts .host (kindOf i) s.fsm = true) :
    (commandBody i s).Ends (SuppliedKept s) := by
  have ofToolkit (hb : commandBody i s = toolkit i s) : (commandBody i s).Ends (SuppliedKept s) :=
    hb ▸ (toolkit_frame i s).imp fun _ h => ⟨h.setup, h.pending⟩
  cases i
  case reset | status | decGetrawsize | dispDetect => exact ⟨rfl, rfl⟩
  case outInit dir size window => exact outInit_ends dir size window ⟨rfl, rfl⟩ ⟨rfl, rfl⟩
  case outRd8 index =>
    refine (outRd8_writes_res s index).imp fun u hu => ?_
    rw [hu]
    exact ⟨rfl, rfl⟩
  case decCreate fmt declared =>
    show (decCreate fmt declared s).Ends _
    rcases decCreate_cases fmt declared s with hop | hop <;> rw [hop]
    · trivial
    · exact (create_frame _ fmt declared (unvalidated_of_accepts_create ha)).imp fun _ h => ⟨h.1, h.2.1⟩
  case decDecompress => exact (decompress_frame _ s).imp fun _ h => ⟨h.setup, h.pending⟩
  case decNextchunk => exact (nextChunk_frame _ s).imp fun _ h => ⟨h.setup, h.pending⟩
  all_goals exact ofToolkit rfl

/-- Settles O15: the answer of a command leaves alone what its body does. -/
theorem inputIsNeverWritten : Obligations.InputIsNeverWritten := by
  intro i s t h
  rw [exec_eq_hostCommand] at h
  have hkept : SuppliedKept s t := by
    by_cases ha : accepts .host (kindOf i) s.fsm = true
    · exact hostCommand_keeps (commandBody_keeps_supplied ha) h ⟨rfl, rfl⟩ fun _ _ hu => hu
    · obtain rfl := Host.Outcome.next.inj ((hostCommand_of_refused (by simpa using ha) _).symm.trans h)
      exact ⟨rfl, rfl⟩
  obtain ⟨hsetup, hpending⟩ := hkept
  exact ⟨hsetup, hpending, fun k => by rw [State.inByte, hsetup, State.inByte]⟩

end Sys2Proof.Machine
end

section
/-!
How a command of the host ends: what each body leaves in `FSM` where it completes and where it fails, and from that what
the response says (30_encoding.md R63, 60_exceptions.md R263, R267), the transitions of the state machine
(45_decompressor.md R191) and the legality table for host and sequencer (R192).
-/
namespace Sys2Proof.Machine

/-! ## Runs and what they come to -/

section
variable {α β : Type} {P : α → State → Prop} {P' : State → Prop} {Q Q' : Cause → State → Prop} {C : Cause → Prop}

/-- Where the run goes on it is with this value in this state, and where it fails it is with this cause in this state. -/
def Run.Yields (P : α → State → Prop) (Q : Cause → State → Prop) : Run α → Prop
  | .ok a t => P a t
  | .raised c t => Q c t
  | _ => True

theorem Run.Yields.andThen {r : Run α} {k : α → State → Run β} {R : β → State → Prop} (hr : r.Yields P Q)
    (hk : ∀ a t, P a t → (k a t).Yields R Q) : (r.andThen k).Yields R Q := by
  cases r with
  | ok a t => exact hk a t hr
  | raised c t => exact hr
  | _ => trivial

theorem Run.Yields.imp {r : Run α} {R : α → State → Prop} (hr : r.Yields P Q) (hP : ∀ a t, P a t → R a t)
    (hQ : ∀ c t, Q c t → Q' c t) : r.Yields R Q' := by
  cases r with
  | ok a t => exact hP a t hr
  | raised c t => exact hQ c t hr
  | _ => trivial

theorem Run.Ends.yields {r : Run α} (hr : r.Ends P') (hP : ∀ a t, P' t → P a t) (hQ : ∀ c t, P' t → Q c t) :
    r.Yields P Q := by
  cases r with
  | ok a t => exact hP a t hr
  | raised c t => exact hQ c t hr
  | _ => trivial

theorem Run.Yields.and_causes {r : Run α} (hr : r.Yields P Q) (hc : r.Causes C) :
    r.Yields P fun c t => Q c t ∧ C c := by
  cases r with
  | raised c t => exact ⟨hr, hc⟩
  | _ => exact hr

end

/-! ## What a body leaves in `FSM` -/

/-- What `FSM` is where a command other than `RESET` completes (45_decompressor.md R191). -/
inductive Completion (i : Instr) (s t : State) : Prop
  | same (h : t.fsm = s.fsm)
  | created (hi : ∃ fmt declared, i = .decCreate fmt declared) (hs : s.fsm = .unvalidated) (ht : t.fsm = .headerParsed)
  | decompressed (hi : i = .decDecompress) (hs : s.fsm = .headerParsed) (ht : t.fsm = .done)
  | chunk (hi : i = .decNextchunk) (hs : s.fsm = .headerParsed ∨ s.fsm = .decoding)
      (ht : t.fsm = .decoding ∨ t.fsm = .done)

/-- Where a command can fail, and with what: out of range, in Unvalidated, or in a decode (60_exceptions.md R262, R265,
R266, R270). -/
inductive Failure (i : Instr) (s : State) (c : Cause) (t : State) : Prop
  | range (hk : kindOf i = .buffer) (hc : c = .range) (ht : t = s)
  | direct (hs : s.fsm = .unvalidated) (ht : t.fsm = .unvalidated) (hc : c ≠ .noCause)
      (hcreate : (∃ fmt declared, i = .decCreate fmt declared) → c.category .unvalidated = .invalidFormat)
  | decode (hi : i = .decDecompress ∨ i = .decNextchunk) (hs : s.fsm = .headerParsed ∨ s.fsm = .decoding)
      (ht : t.fsm = .decoding) (hc : DecodeCause c)

section
variable {i : Instr} {s t : State} {c : Cause}

theorem decodingCause_ne_noCause (h : DecodingCause c) : c ≠ .noCause := by
  rintro rfl
  cases h

theorem decodeCause_ne_noCause (h : DecodeCause c) : c ≠ .noCause := by
  rintro rfl
  rcases h with h | h <;> cases h

theorem headerCause_ne_noCause (h : c ∈ headerCauses) : c ≠ .noCause := by
  rintro rfl
  simp at h

/-- An activity of the sequencer that begins in Decoding ends there. -/
theorem runChecked_decoding {ε : Type} (cause : ε → Cause) (x : Script (Option ε)) (hs : s.fsm = .decoding) :
    (runChecked cause x s).Yields (fun _ t => t.fsm = .decoding) fun _ t => t.fsm = .decoding :=
  (runChecked_moved cause x s).yields (fun _ _ h => h.frame.fsm.trans hs) fun _ _ h => h.frame.fsm.trans hs

/-- The state in which each end of a chunk leaves the machine (45_decompressor.md R206). -/
def Delivery.fsm : Delivery → Fsm
  | .chunk => .decoding
  | .finished => .done

theorem chunkBody_yields (d : Descriptor) (s : State) :
    (chunkBody d s).Yields (fun r t => t.fsm = r.fsm) fun _ t => t.fsm = .decoding := by
  refine Run.Yields.andThen (P := fun _ t => t.fsm = .decoding)
    ((Script.run_moved _ _).yields (fun _ _ h => h.frame.fsm) fun _ _ h => h.frame.fsm) fun r t ht => ?_
  cases r with
  | chunk => exact ht
  | failed e => exact ht
  | noProgress => trivial
  | finished =>
    dsimp only
    split
    · exact (runChecked_decoding _ _ ht).andThen fun _ _ _ => rfl
    · exact ht

theorem chunkLoop_yields (d : Descriptor) (n : Nat) :
    ∀ s, (chunkLoop d n s).Yields (fun _ t => t.fsm = .done) fun _ t => t.fsm = .decoding := by
  induction n with
  | zero => exact fun _ => trivial
  | succ n ih =>
    intro s
    refine (chunkBody_yields d s).andThen fun r t ht => ?_
    cases r with
    | chunk => exact ih t
    | finished => exact ht

theorem decompress_yields (d : Descriptor) (s : State) :
    (decompress d s).Yields (fun _ t => t.fsm = .done) fun _ t => t.fsm = .decoding := by
  refine Run.Yields.andThen (P := fun _ _ => True) ?_ fun _ _ _ => rfl
  split
  · exact (chunkLoop_yields ..).imp (fun _ _ _ => trivial) fun _ _ h => h
  · refine (runChecked_decoding _ _ rfl).andThen fun _ t ht => ?_
    refine Run.Yields.andThen (P := fun _ u => u.fsm = .decoding) ?_ fun _ u hu => ?_
    · exact (decodeLoop_moved d _ t).yields (fun _ _ h => h.frame.fsm.trans ht) fun _ _ h => h.frame.fsm.trans ht
    · exact (runChecked_decoding _ _ hu).imp (fun _ _ _ => trivial) fun _ _ h => h

theorem nextChunk_yields (d : Descriptor) (s : State) :
    (nextChunk d s).Yields (fun _ t => t.fsm = .decoding ∨ t.fsm = .done) fun _ t => t.fsm = .decoding := by
  unfold nextChunk
  split
  · trivial
  · refine (chunkBody_yields d s).andThen fun r t ht => ?_
    cases r with
    | chunk => exact .inl ht
    | finished => exact .inr ht

theorem create_yields (d : Descriptor) (fmt : Byte) (declared : Word) (hs : s.fsm = .unvalidated) :
    (create d fmt declared s).Yields (fun _ t => t.fsm = .headerParsed) fun _ t => t.fsm = .unvalidated := by
  refine Run.Yields.andThen (P := fun _ t => t.fsm = .unvalidated)
    ((parse_reads_header d declared (s := s.toolkitCleared) hs).yields (fun _ _ h => h.fsm.trans hs)
      fun _ _ h => h.fsm.trans hs) fun h t ht => ?_
  refine Run.Yields.andThen (P := fun _ _ => True) ?_ fun _ _ _ => rfl
  exact (outInit_ends (P := fun u => u.fsm = .unvalidated) _ _ _ (by exact ht) (by exact ht)).yields
    (fun _ _ _ => trivial) fun _ _ h => h

theorem outRd8_yields (index : Word) (s : State) :
    (outRd8 index s).Yields (fun _ t => t.fsm = s.fsm) fun _ _ => False := by
  unfold outRd8
  split_ifs
  case neg =>
    split
    · rfl
    · trivial
  all_goals trivial

theorem outEof_yields (s : State) : (outEof s).Yields (fun _ t => t.fsm = s.fsm) fun _ _ => False := by
  unfold outEof
  split
  · trivial
  · rfl

theorem unvalidated_of_accepts_tool (h : accepts .host .tool s.fsm = true) : s.fsm = .unvalidated := by
  cases hf : s.fsm
  case unvalidated => rfl
  all_goals rw [hf] at h; cases h

theorem unvalidated_of_accepts_outWrite (h : accepts .host .outWrite s.fsm = true) : s.fsm = .unvalidated := by
  cases hf : s.fsm
  case unvalidated => rfl
  all_goals rw [hf] at h; cases h

theorem toolkit_buffer_yields (hk : kindOf i = .buffer) :
    (toolkit i s).Yields (fun _ t => Completion i s t) (Failure i s) := by
  have hframe := toolkit_frame i s
  cases hr : toolkit i s with
  | ok v t =>
    rw [hr] at hframe
    exact .same hframe.fsm
  | raised c t =>
    obtain ⟨hc, ht⟩ := toolkit_buffer_raised hk hr
    exact .range hk hc ht
  | _ => trivial

theorem toolkit_yields_of_unvalidated (hs : s.fsm = .unvalidated) (hk : kindOf i ≠ .create) :
    (toolkit i s).Yields (fun _ t => Completion i s t) (Failure i s) := by
  refine (((toolkit_frame i s).yields (fun _ _ h => h) fun _ _ h => h).and_causes (toolkit_fails i s).causes).imp
    (fun _ _ h => .same h.fsm) fun c t ⟨hframe, hc⟩ => ?_
  refine .direct hs (hframe.fsm.trans hs) (decodingCause_ne_noCause hc) ?_
  rintro ⟨fmt, declared, rfl⟩
  exact absurd rfl hk

theorem decCreate_yields (fmt : Byte) (declared : Word) (hs : s.fsm = .unvalidated) :
    (decCreate fmt declared s).Yields (fun _ t => Completion (.decCreate fmt declared) s t)
      (Failure (.decCreate fmt declared) s) := by
  rcases decCreate_cases fmt declared s with hop | hop <;> rw [hop]
  · trivial
  · refine ((create_yields _ fmt declared hs).and_causes (create_fails _ fmt declared hs).causes).imp
      (fun _ _ h => .created ⟨fmt, declared, rfl⟩ hs h) fun c t ⟨ht, hc⟩ => ?_
    exact .direct hs ht (headerCause_ne_noCause hc) fun _ => category_of_headerCause hc

/-- Where it is legal, the body of every command but `RESET` completes or fails in one of these ways. -/
theorem commandBody_yields (hi : i ≠ .reset) (ha : accepts .host (kindOf i) s.fsm = true) :
    (commandBody i s).Yields (fun _ t => Completion i s t) (Failure i s) := by
  have ofBuffer (hk : kindOf i = .buffer) (hb : commandBody i s = toolkit i s) :
      (commandBody i s).Yields (fun _ t => Completion i s t) (Failure i s) := hb ▸ toolkit_buffer_yields hk
  have ofUnvalidated (hs : s.fsm = .unvalidated) (hk : kindOf i ≠ .create) (hb : commandBody i s = toolkit i s) :
      (commandBody i s).Yields (fun _ t => Completion i s t) (Failure i s) := hb ▸ toolkit_yields_of_unvalidated hs hk
  cases i
  case reset => exact absurd rfl hi
  case status | decGetrawsize | dispDetect => exact .same rfl
  case outInit dir size window =>
    have hs := unvalidated_of_accepts_outInit ha
    refine ((outInit_ends (P := fun u => u.fsm = .unvalidated) dir size window hs hs).yields (fun _ _ h => h)
      fun _ _ h => h).and_causes (outInit_fails dir size window s).causes |>.imp (fun _ _ h => .same (h.trans hs.symm))
      fun c t ⟨ht, hc⟩ => .direct hs ht (headerCause_ne_noCause hc) ?_
    rintro ⟨_, _, h⟩
    cases h
  case outRd8 index => exact (outRd8_yields index s).imp (fun _ _ h => .same h) fun _ _ h => h.elim
  case outEof => exact (outEof_yields s).imp (fun _ _ h => .same h) fun _ _ h => h.elim
  case decCreate fmt declared => exact decCreate_yields fmt declared (unvalidated_of_accepts_create ha)
  case decDecompress =>
    have hs := headerParsed_of_accepts_decompress ha
    exact ((decompress_yields _ s).and_causes (decompress_raises _ s)).imp (fun _ _ h => .decompressed rfl hs h)
      fun c t ⟨ht, hc⟩ => .decode (.inl rfl) (.inl hs) ht hc
  case decNextchunk =>
    have hs := fsm_of_accepts_nextChunk ha
    exact ((nextChunk_yields _ s).and_causes (nextChunk_raises _ s)).imp (fun _ _ h => .chunk rfl hs h)
      fun c t ⟨ht, hc⟩ => .decode (.inr rfl) hs ht hc
  case outWritebyte | outCopy => exact ofUnvalidated (unvalidated_of_accepts_outWrite ha) nofun rfl
  case brInit | brReset | brAnchor | brRead | rotb | hufSetlen | hufSettri | hufMake | hufFixed | hufAdapt | hufDecode
      | vlcSet | vlcSetn | vlcDecode => exact ofUnvalidated (unvalidated_of_accepts_tool ha) nofun rfl
  all_goals exact ofBuffer rfl rfl

/-- Every way a command of the host can answer. -/
inductive Answer (i : Instr) (s t : State) : Prop
  | restarted (hi : i = .reset) (ht : t = s.restarted.finished)
  | refused (ht : t = s.turnedAway)
  | completed (hi : i ≠ .reset) (v : Option Word) (u : State) (hu : Completion i s u) (ht : t = u.answered v)
  | failed (hi : i ≠ .reset) (hs : s.fsm ≠ .failed) (c : Cause) (u : State) (hu : Failure i s c u) (ht : t = u.failed c)

theorem exec_answer (h : exec i s = .next t) : Answer i s t := by
  by_cases hi : i = .reset
  · subst hi
    exact .restarted rfl (Host.Outcome.next.inj ((exec_reset s).symm.trans h)).symm
  · rw [exec_eq_hostCommand] at h
    rcases hostCommand_next h with ht | ⟨ha, ⟨v, u, hu, ht⟩ | ⟨c, u, hu, ht⟩⟩
    · exact .refused ht
    · have hbody := commandBody_yields hi ha
      rw [hu] at hbody
      exact .completed hi v u hbody ht
    · have hbody := commandBody_yields hi ha
      rw [hu] at hbody
      refine .failed hi (fun hs => ?_) c u hbody ht
      rw [hs] at ha
      cases hbody with
      | range hk => rw [hk] at ha; cases ha
      | direct hs' => cases hs'.symm.trans hs
      | decode _ hs' => rcases hs' with hs' | hs' <;> cases hs'.symm.trans hs

/-! ## The response (30_encoding.md R63) -/

theorem category_eq_clear_iff {f : Fsm} : c.category f = .clear ↔ c = .noCause := by
  cases c
  case range =>
    simp only [Cause.category]
    split <;> decide
  all_goals simp [Cause.category]

theorem Category.status_inj {a b : Category} (h : a.status = b.status) : a = b := by
  cases a <;> cases b
  case clear.clear | invalidFormat.invalidFormat | decompression.decompression | verification.verification => rfl
  all_goals cases h

theorem Category.status_ne_illegalCommand (a : Category) : a.status ≠ .illegalCommand := by
  cases a <;> exact Status.noConfusion

theorem Category.status_eq_ok_iff {a : Category} : a.status = .ok ↔ a = .clear := by
  cases a <;> decide

theorem Failure.ne_noCause (h : Failure i s c t) : c ≠ .noCause := by
  cases h with
  | range _ hc => rw [hc]; exact nofun
  | direct _ _ hc => exact hc
  | decode _ _ _ hc => exact decodeCause_ne_noCause hc

/-- In Done a command can fail on its range alone, and nothing has changed then (60_exceptions.md R263). -/
theorem Failure.done_iff (h : Failure i s c t) : t.fsm = .done ↔ s.fsm = .done := by
  cases h with
  | range _ _ ht => rw [ht]
  | direct hs ht => rw [hs, ht]
  | decode _ hs ht => rcases hs with hs | hs <;> simp [hs, ht]

theorem Failure.eq_of_done (h : Failure i s c t) (hs : s.fsm = .done) : t = s := by
  cases h with
  | range _ _ ht => exact ht
  | direct hs' => cases hs'.symm.trans hs
  | decode _ hs' => rcases hs' with hs' | hs' <;> cases hs'.symm.trans hs

theorem Completion.failed_iff (h : Completion i s t) (ht : t.fsm = .failed) : s.fsm = .failed := by
  cases h with
  | same h => exact h.symm.trans ht
  | created _ _ h => cases h.symm.trans ht
  | decompressed _ _ h => cases h.symm.trans ht
  | chunk _ _ h => rcases h with h | h <;> cases h.symm.trans ht

end

/-- Settles O12: one response for each way a command can answer. -/
theorem responseSaysHowACommandEnded : Obligations.ResponseSaysHowACommandEnded := by
  intro i s t h
  cases exec_answer h with
  | restarted hi ht =>
    subst ht
    refine ⟨_, rfl, rfl, fun hne => absurd rfl hne, nofun, fun c hc hst => ?_, fun _ hf => by cases hf⟩
    exact absurd (Category.status_eq_ok_iff.1 hst.symm) hc
  | refused ht =>
    subst ht
    refine ⟨_, rfl, rfl, fun _ => rfl, fun _ => rfl, fun c _ hst => ?_, nofun⟩
    exact absurd hst.symm c.status_ne_illegalCommand
  | completed hi v u hu ht =>
    subst ht
    refine ⟨_, rfl, rfl, fun hne => absurd rfl hne, nofun, fun c hc hst => ?_, fun _ hf => hu.failed_iff hf⟩
    exact absurd (Category.status_eq_ok_iff.1 hst.symm) hc
  | failed hi hs c u hu ht =>
    subst ht
    refine ⟨{ status := (c.category u.fsm).status, ovf := u.ovf, res := 0 }, ?_, by simp, fun _ => rfl,
      fun hst => absurd hst (Category.status_ne_illegalCommand _), fun k hk hst => ?_, fun hst => ?_⟩
    · unfold State.failed
      split <;> rfl
    · split
      case isTrue hdone =>
        obtain rfl := hu.eq_of_done hdone
        exact State.failed_of_done hdone c
      case isFalse hdone =>
        rw [State.failed_of_not_done (mt hu.done_iff.1 hdone)]
        exact ⟨rfl, Category.status_inj hst, hu.ne_noCause⟩
    · exact absurd (category_eq_clear_iff.1 (Category.status_eq_ok_iff.1 hst)) hu.ne_noCause

/-- Settles O13: a completion or a failure that changes `FSM`, case by case. -/
theorem transitionsOfTheStateMachine : Obligations.TransitionsOfTheStateMachine := by
  intro i s t h hne
  cases exec_answer h with
  | restarted hi ht => exact .inl ⟨hi, by rw [ht]; rfl⟩
  | refused ht => exact absurd (by rw [ht]; rfl) hne
  | completed hi v u hu ht =>
    subst ht
    cases hu with
    | same h => exact absurd h hne
    | created hi' hs h => exact .inr (.inl ⟨hi, hs, h, hi'⟩)
    | decompressed hi' hs h => exact .inr (.inr (.inr (.inr (.inl ⟨hi', hs, h⟩))))
    | chunk hi' hs h =>
      rcases hs with hs | hs
      · exact .inr (.inr (.inr (.inr (.inr (.inl ⟨hi', hs, h⟩)))))
      · refine .inr (.inr (.inr (.inr (.inr (.inr ⟨hi', hs, h.resolve_left fun h => hne ?_⟩)))))
        exact h.trans hs.symm
  | failed hi hs c u hu ht =>
    by_cases hdone : s.fsm = .done
    · obtain rfl := hu.eq_of_done hdone
      refine absurd ?_ hne
      rw [ht, State.failed_of_done hdone]
    · rw [State.failed_of_not_done (mt hu.done_iff.1 hdone)] at ht
      subst ht
      cases hu with
      | direct hs ht hc hcreate =>
        refine .inr (.inr (.inl ⟨hi, hs, rfl, fun h => ?_, ?_⟩))
        · rw [State.latched_err, ht]
          exact hcreate h
        · rw [State.latched_err, State.latched_errInfo, ht]
      | decode hi' hs ht hc =>
        refine .inr (.inr (.inr (.inl ⟨hi, hs, rfl, fun h1 h2 => ?_, ?_⟩)))
        · exact (hi'.elim h1 h2).elim
        · rw [State.latched_err, ht]
          exact hc
      | range hk hc ht =>
        subst hc ht
        by_cases hun : u.fsm = .unvalidated
        · refine .inr (.inr (.inl ⟨hi, hun, rfl, ?_, ?_⟩))
          · rintro ⟨fmt, declared, rfl⟩
            cases hk
          · rw [State.latched_err, State.latched_errInfo, hun]
        · have hmid : u.fsm = .headerParsed ∨ u.fsm = .decoding := by
            cases hf : u.fsm with
            | unvalidated => exact absurd hf hun
            | headerParsed => exact .inl rfl
            | decoding => exact .inr rfl
            | done => exact absurd hf hdone
            | failed => exact absurd hf hs
          have hcat : Cause.range.category u.fsm = .decompression := if_neg hun
          exact .inr (.inr (.inr (.inl ⟨hi, hmid, rfl, fun _ _ => ⟨hk, hcat, rfl⟩, .inl hcat⟩)))

/-! ## The legality table (45_decompressor.md R192) -/

theorem accepts_host_iff {k : Kind} {f : Fsm} : accepts .host k f = true ↔ k ∈ f.openToHost := by
  cases f <;> cases k <;> decide

theorem accepts_sequencer_iff {k : Kind} {f : Fsm} : accepts .sequencer k f = true ↔ k ∈ f.openToSequencer := by
  cases f <;> cases k <;> decide

section
variable {i : Instr} {s : State}

/-- What the sequencer may ever issue, the host may issue in Unvalidated. -/
theorem accepts_host_of_openToSequencer {k : Kind} {f : Fsm} (h : k ∈ f.openToSequencer) :
    accepts .host k .unvalidated = true := by
  cases k
  case buffer | tool | outWrite | outEof => rfl
  all_goals cases f <;> simp [Fsm.openToSequencer] at h

/-- What the sequencer may ever issue is a command of the toolkit, for the host too. -/
theorem commandBody_of_openToSequencer (h : kindOf i ∈ s.fsm.openToSequencer) : commandBody i = toolkit i := by
  cases i
  case reset | status | outInit | outRd8 | decCreate | decGetrawsize | decDecompress | decNextchunk | dispDetect =>
    cases hf : s.fsm <;> simp [hf, Fsm.openToSequencer, kindOf] at h
  all_goals rfl

theorem openToSequencer_fsm {k : Kind} {f : Fsm} (h : k ∈ f.openToSequencer) : f = .decoding
    ∨ (f = .unvalidated ∧ k = .buffer) := by
  cases f <;> simp_all [Fsm.openToSequencer]

theorem exec_withFsm_unvalidated (h : kindOf i ∈ s.fsm.openToSequencer) :
    exec i (s.withFsm .unvalidated) = (s.withFsm .unvalidated).outcome ((toolkit i s).withFsm .unvalidated) := by
  rw [exec_eq_hostCommand, hostCommand_of_accepted (accepts_host_of_openToSequencer h),
    commandBody_of_openToSequencer h, toolkit_withFsm]

/-- A command that completes with a value has left it in `RES` (10_state.md R17). -/
def Run.LeavesResult (r : Run (Option Word)) : Prop := r.Yields (fun v t => ∀ w, v = some w → t.res = w) fun _ _ => True

@[simp] theorem leavesResult_result (v : Word) (s : State) : (result v s).LeavesResult := fun _ h => by cases h; rfl

@[simp] theorem leavesResult_complete (s : State) : (complete s).LeavesResult := fun _ h => by cases h

@[simp] theorem leavesResult_illegal : (Run.illegal : Run (Option Word)).LeavesResult := trivial

@[simp] theorem leavesResult_raised (c : Cause) (s : State) : (Run.raised c s : Run (Option Word)).LeavesResult := trivial

theorem leavesResult_andThen {α : Type} (r : Run α) {k : α → State → Run (Option Word)}
    (hk : ∀ a t, (k a t).LeavesResult) : (r.andThen k).LeavesResult := by
  cases r with
  | ok a t => exact hk a t
  | _ => trivial

theorem makeTable_leaves_result (n : Byte) (m : TableMode) (ok : Bool) (w : BitVec 5) (cs : List Code) (s : State) :
    (makeTable n m ok w cs s).LeavesResult := by
  unfold makeTable
  extract_lets
  split
  · trivial
  · exact leavesResult_result _ _

theorem decodeSymbol_leaves_result (table : Table) (s : State) : (decodeSymbol table s).LeavesResult := by
  refine leavesResult_andThen _ fun l u => ?_
  split
  · exact leavesResult_result _ _
  · refine leavesResult_andThen _ fun l v => ?_
    split
    · exact leavesResult_result _ _
    · trivial
  · trivial

theorem hufDecode_leaves_result (n : Byte) (s : State) : (hufDecode n s).LeavesResult := by
  unfold hufDecode
  split
  · trivial
  · split
    · trivial
    · split
      · trivial
      · split
        · unfold decodeAdaptive
          split
          · trivial
          · exact leavesResult_andThen _ fun _ _ => leavesResult_result _ _
        · exact decodeSymbol_leaves_result ..

theorem toolkit_leaves_result (i : Instr) (s : State) : (toolkit i s).LeavesResult := by
  cases i
  case hufMake =>
    simp only [toolkit, hufMake]
    repeat' split
    case h_2 => exact makeTable_leaves_result ..
    all_goals trivial
  case hufFixed =>
    simp only [toolkit, hufFixed]
    repeat' split
    case h_2 => exact makeTable_leaves_result ..
    all_goals trivial
  case hufDecode => exact hufDecode_leaves_result ..
  case brRead =>
    simp only [toolkit, brRead]
    split
    · trivial
    · exact leavesResult_andThen _ fun _ _ => leavesResult_result _ _
  case vlcDecode =>
    simp only [toolkit, vlcDecode]
    split
    · trivial
    · split
      · trivial
      · split
        · refine leavesResult_andThen _ fun _ _ => ?_
          split
          · trivial
          · exact leavesResult_result _ _
        · trivial
  case bufSize => exact leavesResult_result _ _
  case brAnchor =>
    simp only [toolkit, brAnchor]
    repeat' split
    case isFalse.isFalse => exact leavesResult_result _ _
    all_goals trivial
  case bufRd8 | bufRdbe16 | bufRdbe32 | bufRdle16 | bufRdle32 | bufGetdata | bufSlrd8 | ovfSum | rotb | outEof =>
    simp only [toolkit, bufRead, bufGetdata, bufSlrd8, ovfSum, rotb, outEof]
    repeat' split
    all_goals simp
  all_goals
    simp only [toolkit, brInit, brReset, hufSetlen, hufSettri, hufAdapt, vlcSet, vlcSetn, outWritebyte, outCopy]
    repeat' split
    all_goals simp

/-- The category of a failure of the sequencer's command (60_exceptions.md R262, R266). -/
theorem category_of_sequencer_failure {c : Cause} {t : State} (h : kindOf i ∈ s.fsm.openToSequencer)
    (hr : toolkit i s = .raised c t) :
    c.category s.fsm = if s.fsm = .decoding then .decompression else .invalidFormat := by
  rcases openToSequencer_fsm h with hf | ⟨hf, hk⟩
  · have hc := toolkit_fails i s
    rw [hr] at hc
    rw [hf]
    exact hc
  · rw [hf, (toolkit_buffer_raised hk hr).1]
    rfl

end

/-- Settles O14: the table by its columns; the sequencer runs the toolkit's body, and so does the host in Unvalidated,
whatever `FSM` is. -/
theorem illegalInThisStateIsTurnedAway : Obligations.IllegalInThisStateIsTurnedAway := by
  intro i s
  refine ⟨fun h => ?_, fun h => ?_, fun h => ?_⟩
  · rw [exec_eq_hostCommand]
    exact hostCommand_of_refused (by simpa using mt accepts_host_iff.1 h) _
  · exact if_neg (mt accepts_sequencer_iff.1 h)
  · have hexec := exec_withFsm_unvalidated h
    have hframe := toolkit_frame i s
    rw [sequencerCommand, if_pos (accepts_sequencer_iff.2 h)]
    cases hr : toolkit i s with
    | ok v u =>
      rw [hr] at hexec hframe
      cases v with
      | none => exact ⟨hframe.fsm, hexec⟩
      | some v =>
        refine ⟨hframe.fsm, ?_⟩
        have hres := toolkit_leaves_result i s
        rw [hr] at hres
        rw [hexec, ← hres v rfl]
        rfl
    | raised c u =>
      rw [hr] at hexec hframe
      exact ⟨hframe.fsm, category_of_sequencer_failure h hr, hexec⟩
    | illegal =>
      rw [hr] at hexec
      exact hexec
    | stuck => exact (toolkit_fails i s).ne_stuck hr

end Sys2Proof.Machine
end

section
/-!
What the commands of the bit reader answer (41_bitreader.md R101, R105 to R108), in the terms of the reader's logical bit
sequence (R111, R112).
-/
namespace Sys2Proof

/-! ## The words of the preloads (30_encoding.md section 3) -/

theorem decode_of_op_brReset {w : Command} (h : w.op = 0x21) :
    decode w = whenClear (w.f.extractLsb' 6 18 == 0 && w.b == 0) (.brReset (w.f.extractLsb' 0 6) w.a) := by
  simp [decode, h]

theorem decode_of_op_brAnchor {w : Command} (h : w.op = 0x22) :
    decode w = whenClear (w.f == 0 && w.b == 0) (.brAnchor w.a) := by
  simp [decode, h]

theorem decode_brReset (live : BitVec 6) (value : Word) :
    decode (commandWord 0x21 (live.setWidth 24) value 0) = .ok (.brReset live value) := by
  rw [decode_of_op_brReset (commandWord_op ..), commandWord_f, commandWord_a, commandWord_b,
    extractLsb'_setWidth_low live (by decide), extractLsb'_setWidth_above live]
  rfl

theorem decode_brAnchor (value : Word) : decode (commandWord 0x22 0 value 0) = .ok (.brAnchor value) := by
  rw [decode_of_op_brAnchor (commandWord_op ..), commandWord_f, commandWord_a, commandWord_b]
  rfl

namespace Machine

/-! ## `BR.INIT` (41_bitreader.md R101) -/

section
variable {s : State} {rw : BitVec 2} {lo hi : Word} (order : BitOrder) (dir : Direction) (wend : ByteOrder) (rot : Bool)

/-- The machine with a reader over `[lo, hi)` that has read nothing. -/
def State.withStream (s : State) (order : BitOrder) (dir : Direction) (rw : BitVec 2) (wend : ByteOrder) (rot : Bool)
    (lo hi : Word) : State :=
  { s with
    brCfg := { order := order, dir := dir, rw := rw, wend := wend, rot := rot, valid := true }
    isLo := lo, isHi := hi, isPos := if dir = .forward then lo else hi, brAcc := 0, brLive := 0 }

theorem brInit_in_window (hrw : rw ≠ 3) (hlo : lo.toNat ≤ hi.toNat) (hhi : hi.toNat ≤ s.setup.bufSize.toNat) :
    brInit order dir rw wend rot lo hi s = complete (s.withStream order dir rw wend rot lo hi) := by
  unfold brInit
  rw [if_neg (by simpa using hrw), if_pos (by simp [hlo, hhi])]
  cases dir <;> rfl

theorem brInit_past_window (hrw : rw ≠ 3) (h : hi.toNat < lo.toNat ∨ s.setup.bufSize.toNat < hi.toNat) :
    brInit order dir rw wend rot lo hi s = .raised .range s := by
  unfold brInit
  rw [if_neg (by simpa using hrw), if_neg (by simp; omega)]

theorem brInit_reserved (lo hi : Word) : brInit order dir 3 wend rot lo hi s = .illegal := rfl

end

/-- Settles O24: the three ends of `BR.INIT`. -/
theorem readerInitResult : Obligations.ReaderInitResult := by
  intro s order dir rw wend rot lo hi hs
  refine ⟨fun hrw hlo hhi => ?_, fun hrw h => ?_, fun hrw => ?_⟩
  · exact hostCommand_of_complete (accepts_tool_of_unvalidated hs) (brInit_in_window order dir wend rot hrw hlo hhi)
  · exact hostCommand_of_raised hs (brInit_past_window order dir wend rot hrw h) rfl
  · subst hrw
    exact hostCommand_of_illegal (brInit_reserved order dir wend rot lo hi)

/-! ## `BR.RESET` and `BR.ANCHOR` (41_bitreader.md R107, R108) -/

/-- Of a number the bits below the count alone are read. -/
theorem bitsOf_mod (o : BitOrder) (n w : Nat) : bitsOf o n (w % 2 ^ n) = bitsOf o n w := by
  have h := bitsOf_take o (Nat.le_refl n) w
  rw [List.take_of_length_le (by simp)] at h
  cases o <;> simpa using h.symm

section
variable {s : State}

/-- The machine with these bits live and no others. -/
def State.preloaded (s : State) (live : BitVec 6) (value : Word) : State :=
  { s with brAcc := word (value.toNat % 2 ^ live.toNat), brLive := live }

theorem brReset_in_word {live : BitVec 6} (value : Word) (hv : s.brCfg.valid = true) (h : live.toNat ≤ 32) :
    brReset live value s = complete (s.preloaded live value) := if_neg (by simp [hv, h])

theorem brReset_refused {live : BitVec 6} (value : Word) (h : s.brCfg.valid = false ∨ 32 < live.toNat) :
    brReset live value s = .illegal := if_pos (by simpa using h)

theorem preloaded_acc (live : BitVec 6) (value : Word) :
    (s.preloaded live value).brAcc.toNat = value.toNat % 2 ^ live.toNat :=
  word_toNat_of_lt (Nat.lt_of_le_of_lt (Nat.mod_le ..) value.isLt)

/-- The preloaded bits come first, then the words that were to come (41_bitreader.md R107). -/
theorem preloaded_bitStream (live : BitVec 6) (value : Word) :
    (s.preloaded live value).bitStream = bitsOf s.brCfg.order live.toNat value.toNat
      ++ s.wordsToCome.flatMap (bitsOf s.brCfg.order (8 * refillBytes s.brCfg.rw)) := by
  have h : (s.preloaded live value).bitStream
      = bitsOf s.brCfg.order live.toNat (s.preloaded live value).brAcc.toNat
        ++ s.wordsToCome.flatMap (bitsOf s.brCfg.order (8 * refillBytes s.brCfg.rw)) := rfl
  rw [h, preloaded_acc, bitsOf_mod]

theorem msbIndex_eq {live w : Nat} (hlo : 2 ^ live ≤ w) (hhi : w < 2 ^ (live + 1)) : msbIndex w = live :=
  (Nat.log2_eq_iff (by have := Nat.two_pow_pos live; omega)).2 ⟨hlo, hhi⟩

theorem brAnchor_of_msb {live : Nat} {w : Word} (hv : s.brCfg.valid = true) (hlo : 2 ^ live ≤ w.toNat)
    (hhi : w.toNat < 2 ^ (live + 1)) : brAnchor w s = result (BitVec.ofNat 32 live)
      { s with brAcc := BitVec.ofNat 32 (w.toNat - 2 ^ live), brLive := BitVec.ofNat 6 live } := by
  have hw : w ≠ 0 := by
    rintro rfl
    exact absurd hlo (by simp)
  have hmod : w.toNat % 2 ^ live = w.toNat - 2 ^ live := by
    rw [Nat.mod_eq_sub_mod hlo, Nat.mod_eq_of_lt (by rw [Nat.pow_succ] at hhi; omega)]
  rw [brAnchor, if_neg (by simp [hv]), if_neg hw]
  simp only [msbIndex_eq hlo hhi, hmod]
  rfl

theorem brAnchor_zero (hv : s.brCfg.valid = true) : brAnchor 0 s = .raised .anchorZero s := by
  rw [brAnchor, if_neg (by simp [hv]), if_pos rfl]

theorem brAnchor_without_reader (w : Word) (hv : s.brCfg.valid = false) : brAnchor w s = .illegal := if_pos hv

end

/-- Settles O25: the ends of the two commands, and the bits that come after a preload. -/
theorem readerPreloadResults : Obligations.ReaderPreloadResults := by
  refine ⟨fun live value => ⟨decode_brReset live value, decode_brAnchor value⟩, fun s hs => ?_⟩
  have ha := accepts_tool_of_unvalidated hs
  refine ⟨fun live value => ⟨fun hv h => ?_, fun h => ?_⟩, fun live w => ⟨fun hv _ hlo hhi => ?_, fun hv h => ?_, fun hv => ?_⟩⟩
  · exact ⟨(s.preloaded live value).brAcc, preloaded_acc live value,
      hostCommand_of_complete ha (brReset_in_word value hv h), preloaded_bitStream live value⟩
  · exact hostCommand_of_illegal (brReset_refused value h)
  · exact hostCommand_of_result ha (brAnchor_of_msb hv hlo hhi)
  · subst h
    exact hostCommand_of_raised hs (brAnchor_zero hv) rfl
  · exact hostCommand_of_illegal (brAnchor_without_reader w hv)

/-! ## `BR.READ` (41_bitreader.md R105, R106, R110) -/

section
variable {s : State} {count : BitVec 6}

theorem brRead_accepted (hv : s.brCfg.valid = true) (h : count.toNat ≤ 32) :
    brRead count s = (readBits count.toNat s).andThen fun v u => result (word v) u := if_neg (by simp [hv, h])

theorem brRead_refused (h : s.brCfg.valid = false ∨ 32 < count.toNat) : brRead count s = .illegal :=
  if_pos (by simpa using h)

/-- A read with enough bits to come. -/
theorem exec_brRead_of_bits (hs : s.fsm = .unvalidated) (hv : s.brCfg.valid = true) (h : count.toNat ≤ 32)
    (hlen : count.toNat ≤ s.bitStream.length) : ∃ u, readBits count.toNat s
        = .ok (numberOf s.brCfg.order (s.bitStream.take count.toNat)) u
      ∧ exec (.brRead count) s = .next ((s.withReader u).returned
          (BitVec.ofNat 32 (numberOf s.brCfg.order (s.bitStream.take count.toNat))))
      ∧ (s.withReader u).bitStream = s.bitStream.drop count.toNat
      ∧ (s.withReader u).wordsToCome.length + refillsFor s count.toNat = s.wordsToCome.length := by
  obtain ⟨u, hread, hu, hrest, hwords⟩ := (readBits_spec count.toNat s).1 hlen
  have hrun : brRead count s = result (word (numberOf s.brCfg.order (s.bitStream.take count.toNat))) (s.withReader u) := by
    rw [brRead_accepted hv h, hread, ← hu]
    rfl
  exact ⟨u, hread, hostCommand_of_result (accepts_tool_of_unvalidated hs) hrun, hu ▸ hrest, hu ▸ hwords⟩

end

/-- Settles O27: a read takes its bits from the front of the sequence, with the refills R110 counts. -/
theorem readerReadResult : Obligations.ReaderReadResult := by
  intro s count hs
  refine ⟨fun hv h hlen => ?_, fun hv h hlen => ?_, fun h => ?_⟩
  · obtain ⟨u, -, hexec, hrest, hwords⟩ := exec_brRead_of_bits hs hv h hlen
    exact ⟨u, hexec, hrest, hwords⟩
  · obtain ⟨u, hread, hu⟩ := (readBits_spec count.toNat s).2 hlen
    have hrun : brRead count s = .raised .endOfInput u := by rw [brRead_accepted hv h, hread]; rfl
    exact ⟨u, hu ▸ hostCommand_of_raised hs hrun (congrArg (·.fsm) hu)⟩
  · exact hostCommand_of_illegal (brRead_refused h)

/-! ## Reading what is live (41_bitreader.md R107) -/

section
variable {s : State}

theorem readMsb_nothing (turns ret : Nat) (s : State) : readMsb turns 0 ret s = .ok ret s := by
  cases turns <;> rfl

theorem readLsb_nothing (turns pos ret : Nat) (s : State) : readLsb turns 0 pos ret s = .ok ret s := by
  cases turns <;> rfl

theorem refillIfEmpty_of_live (h : s.brLive.toNat ≠ 0) : refillIfEmpty s = .ok () s :=
  if_neg (mt live_eq_zero.1 h)

/-- Bits that are live are read without a refill (41_bitreader.md R105, R106). -/
theorem readBits_of_live {n : Nat} (h : n ≤ s.brLive.toNat) : (readBits n s).Ends fun t => t.isPos = s.isPos := by
  cases n with
  | zero =>
    unfold readBits
    cases s.brCfg.order <;> rfl
  | succ n =>
    have hmin : min (n + 1) s.brLive.toNat = n + 1 := Nat.min_eq_left h
    have hlive := refillIfEmpty_of_live (s := s) (by omega)
    cases ho : s.brCfg.order with
    | msbFirst =>
      simp only [readBits, ho, readMsb, Nat.succ_ne_zero, ↓reduceIte, hlive, Run.ok_andThen, hmin, Nat.sub_self,
        readMsb_nothing]
      rfl
    | lsbFirst =>
      simp only [readBits, ho, readLsb, Nat.succ_ne_zero, ↓reduceIte, hlive, Run.ok_andThen, hmin, Nat.sub_self,
        readLsb_nothing]
      rfl

end

/-- Settles O26: the preloaded bits are the front of the sequence, and reading them needs no word of the stream. -/
theorem preloadedBitsAreReadNext : Obligations.PreloadedBitsAreReadNext := by
  intro s live value hs hv h
  have hreset : exec (.brReset live value) s = .next (s.preloaded live value).finished :=
    hostCommand_of_complete (accepts_tool_of_unvalidated hs) (brReset_in_word value hv h)
  have hstream : (s.preloaded live value).finished.bitStream = bitsOf s.brCfg.order live.toNat value.toNat
      ++ s.wordsToCome.flatMap (bitsOf s.brCfg.order (8 * refillBytes s.brCfg.rw)) := preloaded_bitStream live value
  have hfront : (s.preloaded live value).finished.bitStream.take live.toNat
      = bitsOf s.brCfg.order live.toNat value.toNat := by rw [hstream, List.take_left' (bitsOf_length ..)]
  obtain ⟨u, hread, hexec, hrest, hwords⟩ := exec_brRead_of_bits (s := (s.preloaded live value).finished) hs hv h
    (by rw [hstream]; simp)
  refine ⟨_, _, hreset, hexec, ?res, ?live, ?pos⟩
  case res =>
    rw [hfront, State.returned_res]
    show (word (numberOf s.brCfg.order _)).toNat = _
    rw [numberOf_bitsOf]
    exact preloaded_acc (s := s) live value
  case pos =>
    have hpos := readBits_of_live (s := (s.preloaded live value).finished) (Nat.le_refl _)
    rw [show (s.preloaded live value).finished.brLive = live from rfl, hread] at hpos
    exact hpos
  case live =>
    have hnone : refillsFor (s.preloaded live value).finished live.toNat = 0 := by
      rw [refillsFor, show (s.preloaded live value).finished.brLive = live from rfl, Nat.sub_self, Nat.zero_add]
      exact Nat.div_eq_of_lt (Nat.sub_lt (Nat.mul_pos (by decide) (refillBytes_pos _)) Nat.one_pos)
    have hlen := congrArg List.length hrest
    rw [List.length_drop, bitStream_length, bitStream_length, ← hwords, hnone, Nat.add_zero,
      show (s.preloaded live value).finished.brLive = live from rfl] at hlen
    refine live_eq_zero.2 (show u.brLive.toNat = 0 from ?_)
    have hcfg : ((s.preloaded live value).finished.withReader u).brCfg = (s.preloaded live value).finished.brCfg := rfl
    rw [hcfg, show ((s.preloaded live value).finished.withReader u).brLive = u.brLive from rfl] at hlen
    omega

/-- A register holds the number that at most 32 bits spell. -/
theorem ofNat_numberOf_toNat (o : BitOrder) {bits : List Bool} (h : bits.length ≤ 32) :
    (BitVec.ofNat 32 (numberOf o bits)).toNat = numberOf o bits :=
  word_toNat_of_lt (Nat.lt_of_lt_of_le (numberOf_lt o bits) (Nat.pow_le_pow_right (by decide) h))

/-- Settles O28: the second read goes on where the first stopped, and a number's bits split as the reads do. -/
theorem readsSplit : Obligations.ReadsSplit := by
  intro s a b hs hv h hlen
  have hsum : (a + b).toNat = a.toNat + b.toNat := by rw [BitVec.toNat_add]; omega
  obtain ⟨u, -, hfirst, hrest, -⟩ := exec_brRead_of_bits (count := a) hs hv (by omega) (by omega)
  generalize ht : (s.withReader u).returned _ = t at hfirst
  have hstream : t.bitStream = s.bitStream.drop a.toNat := by rw [← ht, ← hrest]; rfl
  have hcfg : t.brCfg = s.brCfg := by rw [← ht]; rfl
  have htres : t.res.toNat = numberOf s.brCfg.order (s.bitStream.take a.toNat) := by
    rw [← ht]
    exact ofNat_numberOf_toNat _ (by rw [List.length_take]; omega)
  obtain ⟨v, -, hsecond, hend, -⟩ := exec_brRead_of_bits (count := b) (s := t) (by rw [← ht]; exact hs)
    (by rw [hcfg]; exact hv) (by omega) (by rw [hstream, List.length_drop]; omega)
  obtain ⟨w, -, hboth, hend', -⟩ := exec_brRead_of_bits (count := a + b) hs hv (by omega) (by omega)
  have hsplit : s.bitStream.take (a + b).toNat = s.bitStream.take a.toNat ++ t.bitStream.take b.toNat := by
    rw [hsum, hstream, List.take_add]
  have hsecondlen : (t.bitStream.take b.toNat).length = b.toNat := by
    rw [List.length_take, hstream, List.length_drop]
    omega
  have hfirstlen : (s.bitStream.take a.toNat).length = a.toNat := by rw [List.length_take]; omega
  have hvres := ofNat_numberOf_toNat t.brCfg.order (bits := t.bitStream.take b.toNat) (by omega)
  have hwres := ofNat_numberOf_toNat s.brCfg.order (bits := s.bitStream.take (a + b).toNat)
    (by rw [List.length_take]; omega)
  refine ⟨_, _, _, hfirst, hsecond, hboth, ?stream, fun ho => ?msb, fun ho => ?lsb⟩
  case stream =>
    show (t.withReader v).bitStream = (s.withReader w).bitStream
    rw [hend, hend', hstream, List.drop_drop, hsum]
  all_goals
    rw [State.returned_res, State.returned_res, hwres, hvres, htres, hsplit, numberOf_append, hcfg, ho]
  case msb => rw [hsecondlen]
  case lsb => rw [hfirstlen]

/-! ## A stream read backward (41_bitreader.md R112) -/

/-- The bits of a number in one order are those in the other, last first. -/
theorem bitsOf_msbFirst_reverse (n w : Nat) : (bitsOf .msbFirst n w).reverse = bitsOf .lsbFirst n w := by
  apply List.ext_getElem
  · simp
  · intro i h1 h2
    rw [bitsOf_length] at h2
    simp only [bitsOf, List.getElem_reverse, List.length_map, List.length_range, List.getElem_map,
      List.getElem_range]
    congr 1
    omega

/-- A rotated word gives its bits in the other order (41_bitreader.md R104). -/
theorem bitsOf_msbFirst_rev (n w : Nat) : bitsOf .msbFirst n (rev n w) = bitsOf .lsbFirst n w := by
  apply List.ext_getElem
  · simp
  · intro i h1 h2
    rw [bitsOf_length] at h2
    simp only [bitsOf, List.getElem_map, List.getElem_range, rev_testBit]
    rw [decide_eq_true (by omega), Bool.true_and]
    congr 1
    omega

/-- The bits of bytes, each from its most significant bit down. -/
def bitsOfBytes (bs : List Byte) : List Bool := bs.flatMap fun b => bitsOf .msbFirst 8 b.toNat

theorem bitsOfBytes_length (bs : List Byte) : (bitsOfBytes bs).length = 8 * bs.length := by
  simp [bitsOfBytes, List.length_flatMap, Nat.mul_comm]

/-- The bits of a big-endian word are those of its bytes in order. -/
theorem bitsOf_bigEndian (bs : List Byte) : bitsOf .msbFirst (8 * bs.length) (bigEndian bs) = bitsOfBytes bs := by
  induction bs using List.reverseRecOn with
  | nil => rfl
  | append_singleton bs b ih =>
    have hlen : 8 * (bs ++ [b]).length = 8 * bs.length + 8 := by simp; omega
    have hval : bigEndian (bs ++ [b]) = bigEndian bs * 2 ^ 8 + b.toNat := by
      rw [bigEndian_append, bigEndian_one]; rfl
    have hhigh : (bigEndian bs * 2 ^ 8 + b.toNat) / 2 ^ 8 = bigEndian bs := by omega
    have hlow : (bigEndian bs * 2 ^ 8 + b.toNat) % 2 ^ 8 = b.toNat := by omega
    rw [hlen, hval, ← List.take_append_drop (8 * bs.length) (bitsOf ..), bitsOf_take _ (Nat.le_add_right ..),
      bitsOf_drop _ (Nat.le_add_right ..)]
    simp only [Nat.add_sub_cancel_left, hhigh, hlow, bitsOf_mod, ih]
    simp [bitsOfBytes]

section
variable (s : State)

theorem memRead_add (a m n : Nat) : s.memRead a (m + n) = s.memRead a m ++ s.memRead (a + m) n := by
  simp [State.memRead, List.range_add, Nat.add_assoc]

/-- Words side by side are the bytes of their range. -/
theorem memRead_words (a n q : Nat) :
    (List.range q).flatMap (fun j => s.memRead (a + j * n) n) = s.memRead a (q * n) := by
  induction q with
  | zero => rw [Nat.zero_mul]; rfl
  | succ q ih => rw [List.range_succ, List.flatMap_append, ih, List.flatMap_singleton, Nat.succ_mul, memRead_add]

theorem bitsOfBytes_words (a n q : Nat) :
    (List.range q).flatMap (fun j => bitsOfBytes (s.memRead (a + j * n) n)) = bitsOfBytes (s.memRead a (q * n)) := by
  rw [← memRead_words, bitsOfBytes, List.flatMap_assoc]
  rfl

end

/-- Pieces taken from the last to the first, each reversed, are the whole reversed. -/
theorem flatMap_range_reverse (g : Nat → List Bool) (q : Nat) :
    (List.range q).flatMap (fun j => (g (q - 1 - j)).reverse) = ((List.range q).flatMap g).reverse := by
  induction q with
  | zero => rfl
  | succ q ih =>
    have hshift : ∀ j, q + 1 - 1 - (j + 1) = q - 1 - j := by omega
    rw [List.range_succ_eq_map, List.flatMap_cons, List.flatMap_map]
    simp only [Nat.succ_eq_add_one, hshift, ih]
    rw [← List.range_succ_eq_map, List.range_succ, List.flatMap_append, List.reverse_append, List.flatMap_singleton]
    rfl

section
variable {s : State} {rw : BitVec 2} {lo hi : Word}

/-- The words a fresh forward reader is to load. -/
theorem withStream_forward_stream (h : refillBytes rw ∣ hi.toNat - lo.toNat) :
    (s.withStream .msbFirst .forward rw .bigEndian false lo hi).bitStream
      = bitsOfBytes (s.memRead lo.toNat (hi.toNat - lo.toNat)) := by
  obtain ⟨q, hq⟩ := h
  have hwords : (s.withStream .msbFirst .forward rw .bigEndian false lo hi).bitStream
      = ((List.range ((hi.toNat - lo.toNat) / refillBytes rw)).map fun j =>
          bigEndian (s.memRead (lo.toNat + j * refillBytes rw) (refillBytes rw))).flatMap
        (bitsOf .msbFirst (8 * refillBytes rw)) := rfl
  rw [hwords, hq, Nat.mul_div_cancel_left _ (refillBytes_pos rw), Nat.mul_comm _ q, ← bitsOfBytes_words, List.flatMap_map]
  simp only [← bitsOf_bigEndian, memRead_length]

theorem withStream_backward_stream (hle : lo.toNat ≤ hi.toNat) (h : refillBytes rw ∣ hi.toNat - lo.toNat) :
    (s.withStream .msbFirst .backward rw .bigEndian true lo hi).bitStream
      = (bitsOfBytes (s.memRead lo.toNat (hi.toNat - lo.toNat))).reverse := by
  obtain ⟨q, hq⟩ := h
  have hwords : (s.withStream .msbFirst .backward rw .bigEndian true lo hi).bitStream
      = ((List.range ((hi.toNat - lo.toNat) / refillBytes rw)).map fun j =>
          rev (8 * (s.memRead (hi.toNat - (j + 1) * refillBytes rw) (refillBytes rw)).length)
            (bigEndian (s.memRead (hi.toNat - (j + 1) * refillBytes rw) (refillBytes rw)))).flatMap
        (bitsOf .msbFirst (8 * refillBytes rw)) := rfl
  rw [hwords, hq, Nat.mul_div_cancel_left _ (refillBytes_pos rw), Nat.mul_comm _ q, ← bitsOfBytes_words,
    ← flatMap_range_reverse, List.flatMap_map]
  refine List.flatMap_congr fun j hj => ?_
  have hj := List.mem_range.1 hj
  have haddr : hi.toNat - (j + 1) * refillBytes rw = lo.toNat + (q - 1 - j) * refillBytes rw := by
    obtain ⟨k, rfl⟩ := Nat.exists_eq_add_of_lt hj
    have hparts : refillBytes rw * (j + k + 1) = (j + 1) * refillBytes rw + k * refillBytes rw := by ring
    rw [show j + k + 1 - 1 - j = k by omega]
    omega
  rw [memRead_length, bitsOf_msbFirst_rev, ← bitsOf_msbFirst_reverse, haddr, ← bitsOf_bigEndian, memRead_length]

/-- With one-byte words, rotating is reading in the other order (41_bitreader.md R112 (c)). -/
theorem withStream_byte_stream (s : State) (wend : ByteOrder) (lo hi : Word) :
    (s.withStream .msbFirst .backward 0 wend true lo hi).bitStream
      = (s.withStream .lsbFirst .backward 0 wend false lo hi).bitStream := by
  have hmsb : (s.withStream .msbFirst .backward 0 wend true lo hi).bitStream
      = ((List.range ((hi.toNat - lo.toNat) / 1)).map fun j =>
          rev 8 (combine wend (s.memRead (hi.toNat - (j + 1) * 1) 1))).flatMap (bitsOf .msbFirst 8) := rfl
  have hlsb : (s.withStream .lsbFirst .backward 0 wend false lo hi).bitStream
      = ((List.range ((hi.toNat - lo.toNat) / 1)).map fun j =>
          combine wend (s.memRead (hi.toNat - (j + 1) * 1) 1)).flatMap (bitsOf .lsbFirst 8) := rfl
  rw [hmsb, hlsb, List.flatMap_map, List.flatMap_map]
  simp only [bitsOf_msbFirst_rev]

end

/-- Settles O29: forward, the sequence is the bits of the range's bytes; backward and rotated, the same reversed. -/
theorem rotationReversesTheStream : Obligations.RotationReversesTheStream := by
  intro s rw rw' wend lo hi hs hrw hrw' hle hhi
  have hinit (order dir rw wend rot) (hrw : rw ≠ 3) : exec (.brInit order dir rw wend rot lo hi) s
      = .next (s.withStream order dir rw wend rot lo hi).finished :=
    hostCommand_of_complete (accepts_tool_of_unvalidated hs) (brInit_in_window order dir wend rot hrw hle hhi)
  refine ⟨fun hdvd hdvd' => ?_, _, _, hinit _ _ _ _ _ (by decide), hinit _ _ _ _ _ (by decide),
    withStream_byte_stream s wend lo hi⟩
  refine ⟨_, _, hinit _ _ _ _ _ hrw, hinit _ _ _ _ _ hrw', ?_, ?_⟩
  · exact (withStream_backward_stream hle hdvd).trans (congrArg List.reverse (withStream_forward_stream hdvd').symm)
  · refine (congrArg List.length (withStream_backward_stream hle hdvd)).trans ?_
    rw [List.length_reverse, bitsOfBytes_length, memRead_length]

end Machine
end Sys2Proof
end

section
/-!
What `DEC.CREATE` comes to (45_decompressor.md R197 to R199): the header's sizes are within bounds where it is accepted, and
what then stands is the cleared toolkit, what reading the header left in it, and the header's fields.
-/
namespace Sys2Proof.Machine

/-! ## A header that is accepted -/

/-- The fields of a header that passed checks 3 to 5 of 45_decompressor.md R198. -/
structure HeaderFits (d : Descriptor) (declared : Word) (setup : Setup) (h : HeaderInfo) : Prop where
  sizes : sizeFailure h setup = none
  declared : d.needsDeclared = true → h.rawSize = declared ∧ h.packedSize = setup.bufSize

section
variable {d : Descriptor} {fmt : Byte} {declared : Word} {setup : Setup} {h : HeaderInfo} {s t u : State}

theorem declaredSizes_of_needsDeclared (hd : d.needsDeclared = true) :
    declaredSizes d declared setup h = { h with rawSize := declared, packedSize := setup.bufSize, packedOffset := 0 } :=
  if_pos hd

theorem sizeFailure_eq_none (hf : sizeFailure h setup = none) :
    h.rawSize ≠ 0 ∧ h.packedSize ≠ 0 ∧ h.packedOffset.toNat + h.packedSize.toNat ≤ setup.bufSize.toNat
      ∧ (setup.checkRawAgainstBuffer = true → h.rawSize.toNat ≤ setup.bufSize.toNat)
      ∧ h.rawSize.toNat ≤ setup.maxRawSize.toNat ∧ h.packedSize.toNat ≤ setup.maxPackedSize.toNat := by
  unfold sizeFailure at hf
  split_ifs at hf with hzero hbuffer hraw hmax
  simp only [Bool.or_eq_true, decide_eq_true_eq, not_or, Nat.not_lt, Bool.and_eq_true, not_and, Bool.not_eq_true',
    Bool.not_eq_false, sumLe_word] at hzero hbuffer hraw hmax
  exact ⟨hzero.1, hzero.2, hbuffer, hraw, hmax⟩

theorem interpret_yields (i : Interpretation) (s : State) :
    (interpret d i declared s).Yields (fun h _ => HeaderFits d declared s.setup h) fun _ _ => True := by
  refine Run.Yields.andThen (P := fun _ t => t.setup = s.setup)
    ((Script.run_moved _ s).yields (fun _ _ h => h.frame.setup) fun _ _ _ => trivial) fun raw t ht => ?_
  dsimp only
  split
  case h_1 => trivial
  case h_2 hsizes =>
    rw [ht] at hsizes ⊢
    refine Run.Yields.andThen (P := fun _ _ => True) ((Script.run_moved _ t).yields (fun _ _ _ => trivial)
      fun _ _ _ => trivial) fun legal u _ => ?_
    split
    · refine ⟨hsizes, fun hd => ?_⟩
      rw [declaredSizes_of_needsDeclared hd]
      exact ⟨rfl, rfl⟩
    · trivial

theorem parse_yields (d : Descriptor) (declared : Word) (s : State) :
    (parse d declared s).Yields (fun h _ => HeaderFits d declared s.setup h) fun _ _ => True := by
  unfold parse
  split
  · trivial
  · split
    · trivial
    · split
      case h_1 c t again hfirst hsecond =>
        have hmoved := interpret_moved d (d.first s.window) declared s
        rw [hfirst] at hmoved
        have hsetup : t.setup = s.setup := hmoved.frame.setup
        rw [← hsetup]
        exact interpret_yields again t
      case h_2 => exact interpret_yields _ s

/-! ## Reading a header is never refused -/

theorem Script.run_ne_illegal {α : Type} (x : Script α) : ∀ s : State, x.run s ≠ .illegal := by
  induction x with
  | ret a => exact fun _ => nofun
  | look next ih => exact fun s => ih _ s
  | setChk v next ih => exact fun s => ih _
  | issue i next ih =>
    intro s
    simp only [Script.run]
    split
    · exact ih _ _ _
    · exact ih _ _ _
    · exact nofun
    · exact nofun

theorem interpret_ne_illegal (d : Descriptor) (i : Interpretation) (declared : Word) (s : State) :
    interpret d i declared s ≠ .illegal := by
  intro h
  rcases Run.andThen_illegal.1 h with hrun | ⟨raw, t, -, hk⟩
  · exact Script.run_ne_illegal _ s hrun
  · dsimp only at hk
    split at hk
    · cases hk
    · rcases Run.andThen_illegal.1 hk with hrun | ⟨legal, u, -, hk⟩
      · exact Script.run_ne_illegal _ t hrun
      · split at hk <;> cases hk

theorem parse_ne_illegal (d : Descriptor) (declared : Word) (s : State) : parse d declared s ≠ .illegal := by
  unfold parse
  split
  · exact nofun
  · split
    · exact nofun
    · split
      · exact interpret_ne_illegal _ _ _ _
      · exact interpret_ne_illegal _ _ _ _

/-- A header is accepted or rejected (45_decompressor.md R198). -/
theorem parse_cases (d : Descriptor) (declared : Word) (hs : s.fsm = .unvalidated) :
    (∃ h u, parse d declared s = .ok h u ∧ HeaderRead s u ∧ HeaderFits d declared s.setup h)
      ∨ ∃ c u, parse d declared s = .raised c u ∧ HeaderRead s u ∧ c ∈ headerCauses := by
  have hread := parse_reads_header d declared hs
  have hfits := parse_yields d declared s
  have hfails := parse_fails d declared hs
  cases hp : parse d declared s with
  | ok h u =>
    rw [hp] at hread hfits
    exact .inl ⟨h, u, rfl, hread, hfits⟩
  | raised c u =>
    rw [hp] at hread hfails
    exact .inr ⟨c, u, rfl, hread, hfails⟩
  | illegal => exact absurd hp (parse_ne_illegal d declared s)
  | stuck => exact absurd hp hfails.ne_stuck

/-! ## The body of `DEC.CREATE` -/

/-- The machine with a header's fields, its output allocated and no byte of it written (45_decompressor.md R197). -/
def State.created (s : State) (fmt : Byte) (h : HeaderInfo) : State :=
  { s with
    fmt := fmt, packedSize := h.packedSize, gen := h.gen, ctrl := ctrlEntries h.ctrl, chk := 0
    rawSize := h.rawSize, outDir := h.outDir, outWin := h.outWindow, out := [], outValid := true
    outCur := if h.outDir = .forward then 0 else h.rawSize
    fsm := .headerParsed }

theorem create_of_parse_ok (hv : s.outValid = false) (hp : parse d declared s.toolkitCleared = .ok h u)
    (hread : HeaderRead s.toolkitCleared u) (hfits : HeaderFits d declared s.setup h) :
    create d fmt declared s = result h.rawSize (u.created fmt h) := by
  obtain ⟨hraw, -, -, -, hmax, -⟩ := sizeFailure_eq_none hfits.sizes
  have hsetup : u.setup = s.setup := hread.setup
  have hvalid : u.outValid = false := (congrArg (·.outValid) hread).trans hv
  rw [create, hp, Run.ok_andThen, outInit_in_limit _ _ (by exact hvalid) hraw
    (by show _ ≤ u.setup.maxRawSize.toNat; rwa [hsetup])]
  rfl

theorem create_of_parse_raised {c : Cause} (hp : parse d declared s.toolkitCleared = .raised c u) :
    create d fmt declared s = .raised c u := by rw [create, hp, Run.raised_andThen]

theorem decCreate_accepted (hv : s.outValid = false) (hh : s.holds fmt = true)
    (hd : declared = 0 ∨ (format fmt).needsDeclared = true)
    (hc : (format fmt).covers s.setup.heldSubFormats s.window = true) :
    decCreate fmt declared s = create (format fmt) fmt declared s := by
  rw [decCreate, if_neg (by simp [hv, hh]), if_neg (by rcases hd with hd | hd <;> simp [hd]), if_neg (by simp [hc])]

theorem decCreate_refused (h : s.outValid = true ∨ s.holds fmt = false
      ∨ (declared ≠ 0 ∧ (format fmt).needsDeclared = false) ∨ (format fmt).covers s.setup.heldSubFormats s.window = false) :
    decCreate fmt declared s = .illegal := by
  unfold decCreate
  split_ifs with hbusy hdeclared hcovers
  case neg =>
    simp only [Bool.or_eq_true, Bool.not_eq_true', not_or, Bool.not_eq_true, Bool.not_eq_false, Bool.and_eq_true,
      bne_iff_ne, not_and] at hbusy hdeclared hcovers
    rcases h with h | h | ⟨h, h'⟩ | h
    · exact absurd h (by simp [hbusy.1])
    · exact absurd h (by simp [hbusy.2])
    · exact absurd h' (by simp [hdeclared h])
    · exact absurd h (by simp [hcovers])
  all_goals rfl

theorem accepts_create_of_unvalidated (hs : s.fsm = .unvalidated) : accepts .host .create s.fsm = true := by rw [hs]; rfl

end

/-- Settles O45: the toolkit was cleared before the header was read, and the fields are written after it. -/
theorem createResult : Obligations.CreateResult := by
  intro s u fmt declared h hs hv hh hd hc hp
  have hread : HeaderRead s.toolkitCleared u := by
    have := parse_reads_header (format fmt) declared (s := s.toolkitCleared) hs
    rwa [hp] at this
  have hfits : HeaderFits (format fmt) declared s.setup h := by
    have := parse_yields (format fmt) declared s.toolkitCleared
    rwa [hp] at this
  have hcreate := create_of_parse_ok (fmt := fmt) hv hp hread hfits
  rw [← decCreate_accepted hv hh hd hc] at hcreate
  refine (hostCommand_of_result (accepts_create_of_unvalidated hs) hcreate).trans (congrArg Host.Outcome.next ?_)
  conv_lhs => rw [hread]
  rfl

/-- What an accepted header leaves meets the bounds of 45_decompressor.md R198. -/
theorem created_within_bounds {d : Descriptor} {fmt : Byte} {declared : Word} {h : HeaderInfo} {s u : State}
    (hfits : HeaderFits d declared s.setup h) :
    let t := (u.created fmt h).returned h.rawSize
    t.fsm = .headerParsed ∧ t.fmt = fmt ∧ t.outValid = true ∧ t.out = [] ∧ t.produced = 0
      ∧ 1 ≤ t.rawSize.toNat ∧ t.rawSize.toNat ≤ s.setup.maxRawSize.toNat
      ∧ 1 ≤ t.packedSize.toNat ∧ t.packedSize.toNat ≤ s.setup.maxPackedSize.toNat
      ∧ t.packedSize.toNat ≤ s.setup.bufSize.toNat
      ∧ (s.setup.checkRawAgainstBuffer = true → t.rawSize.toNat ≤ s.setup.bufSize.toNat)
      ∧ (d.needsDeclared = true → t.rawSize = declared ∧ t.packedSize = s.setup.bufSize)
      ∧ t.rsp = some { status := .ok, ovf := t.ovf, res := t.rawSize } := by
  obtain ⟨hraw, hpacked, hbuffer, hcheck, hmaxraw, hmaxpacked⟩ := sizeFailure_eq_none hfits.sizes
  have pos {w : Word} (hw : w ≠ 0) : 1 ≤ w.toNat := Nat.pos_of_ne_zero fun h0 => hw (BitVec.eq_of_toNat_eq h0)
  refine ⟨rfl, rfl, rfl, rfl, ?_, pos hraw, hmaxraw, pos hpacked, hmaxpacked, by exact Nat.le_of_add_left_le hbuffer,
    hcheck, hfits.declared, rfl⟩
  cases hdir : h.outDir <;> simp [Inst.produced, State.created, hdir]

/-- Settles O46: the header is accepted with sizes in bounds, or rejected before anything is allocated. -/
theorem createOutcomes : Obligations.CreateOutcomes := by
  intro s fmt declared hs refused
  have ha := accepts_create_of_unvalidated hs
  refine ⟨fun h => hostCommand_of_illegal (decCreate_refused h), fun h => ?_⟩
  simp only [refused, not_or, not_and, Bool.not_eq_true, Bool.not_eq_false, ne_eq] at h
  obtain ⟨hv, hh, hd, hc⟩ := h
  have hbody : decCreate fmt declared s = create (format fmt) fmt declared s :=
    decCreate_accepted hv hh (by by_cases h0 : declared = 0; exacts [.inl h0, .inr (hd h0)]) hc
  rcases parse_cases (format fmt) declared (s := s.toolkitCleared) hs with
    ⟨h, u, hp, hread, hfits⟩ | ⟨c, u, hp, hread, hmem⟩
  · rw [create_of_parse_ok hv hp hread hfits] at hbody
    exact ⟨_, hostCommand_of_result ha hbody, .inl (created_within_bounds hfits)⟩
  · rw [create_of_parse_raised hp] at hbody
    have hfsm : u.fsm = .unvalidated := hread.fsm.trans hs
    have hcat : c.category u.fsm = .invalidFormat := by rw [hfsm]; exact category_of_headerCause hmem
    refine ⟨u.failed c, ?_, .inr ?_⟩
    · exact (hostCommand_of_accepted ha _).trans (congrArg s.outcome hbody)
    · rw [State.failed_of_not_done (by rw [hfsm]; exact nofun), hcat]
      exact ⟨rfl, rfl, (congrArg (·.outValid) hread).trans hv, congrArg (·.out) hread, hmem, rfl⟩

/-! ## The spec's test-only descriptor (95_test_vectors.md section 10) -/

section
variable {s u : State} {fmt : Byte} {magic : Word}

/-- The fields the header of `TOY` gives. -/
def toyHeader (raw packed : Word) : HeaderInfo where
  rawSize := raw
  packedSize := packed
  packedOffset := 12
  gen := 0
  ctrl := []
  outDir := .forward
  outWindow := 0

theorem sequencer_bufRdbe32 {off : Word} (hs : s.fsm = .unvalidated) (h : off.toNat + 4 ≤ s.setup.bufSize.toNat) :
    sequencerCommand (.bufRdbe32 off) s = result (s.inWord off.toNat) s := by
  have hread : sequencerCommand (.bufRdbe32 off) s = bufRead 4 .bigEndian off s := if_pos (by rw [hs]; rfl)
  rw [hread, bufRead, if_pos (State.inWindow_iff.2 h), word_memRead_be32]
  rfl

theorem Script.run_issue_ok {α : Type} {i : Instr} {next : Bool → Inst → Script α} {v : Option Word}
    (h : sequencerCommand i s = .ok v u) :
    (Script.issue i next).run s = (next true (u.toInst.showing (v.getD 0))).run u := by simp only [Script.run, h]

/-- A window that matches and a descriptor with one reading: that reading decides (45_decompressor.md R198). -/
theorem parse_of_single {d : Descriptor} {declared : Word} (hsize : d.minHeader ≤ s.setup.bufSize.toNat)
    (hmatch : d.matchWindow s.window = true) (hsecond : d.second s.window = none) :
    parse d declared s = interpret d (d.first s.window) declared s := by
  rw [parse, if_neg (Nat.not_lt.2 hsize), if_neg (by rw [hmatch]; simp), hsecond]
  split
  case h_1 h => cases h
  case h_2 => rfl

theorem parse_of_no_match {d : Descriptor} {declared : Word} (hsize : d.minHeader ≤ s.setup.bufSize.toNat)
    (hd : d.needsDeclared = false) (hmatch : d.matchWindow s.window = false) :
    parse d declared s = .raised .badMagic s := by
  rw [parse, if_neg (Nat.not_lt.2 hsize), if_pos (by rw [hmatch, hd]; rfl)]

/-- The two reads of the header of `TOY`. -/
theorem toyHeader_run (declared : Word) (w : Window) (hs : s.fsm = .unvalidated) (h : 12 ≤ s.setup.bufSize.toNat) :
    (toyInterpretation.header declared w).run s
      = .ok (toyHeader (s.inWord 4) (s.inWord 8)) { s with res := s.inWord 8 } := by
  have hfirst := sequencer_bufRdbe32 (off := 4) hs (by show 4 + 4 ≤ _; omega)
  have hsecond := sequencer_bufRdbe32 (off := 8) (s := { s with res := s.inWord 4 }) hs (by show 8 + 4 ≤ _; omega)
  exact (Script.run_issue_ok hfirst).trans (Script.run_issue_ok hsecond)

theorem toy_match_iff (h : 12 ≤ s.setup.bufSize.toNat) :
    (toyDescriptor magic.toNat).matchWindow s.window = true ↔ s.inWord 0 = magic := by
  refine beq_iff_eq.trans ((window_be32_eq_some s).trans ⟨fun hw => BitVec.eq_of_toNat_eq hw.2, fun hw => ?_⟩)
  exact ⟨by omega, congrArg BitVec.toNat hw⟩

/-- Checks 3 to 5 of 45_decompressor.md R198 for `TOY`. -/
theorem toy_sizeFailure (raw packed : Word) (setup : Setup) : sizeFailure (toyHeader raw packed) setup
    = if raw = 0 ∨ packed = 0 then some .zeroSize
      else if setup.bufSize.toNat < 12 + packed.toNat then some .sizeExceedsBuffer
      else if setup.checkRawAgainstBuffer = true ∧ setup.bufSize.toNat < raw.toNat then some .sizeExceedsBuffer
      else if setup.maxRawSize.toNat < raw.toNat ∨ setup.maxPackedSize.toNat < packed.toNat then some .sizeExceedsMax
      else none := by
  have hbuffer : (!sumLe (toyHeader raw packed).packedOffset.toNat packed.toNat setup.bufSize.toNat) = true
      ↔ setup.bufSize.toNat < 12 + packed.toNat := by
    rw [Bool.not_eq_true', ← Bool.not_eq_true, sumLe_word, Nat.not_le]
    rfl
  rw [sizeFailure, show (toyHeader raw packed).packedSize = packed from rfl,
    show (toyHeader raw packed).rawSize = raw from rfl]
  simp only [hbuffer, Bool.or_eq_true, Bool.and_eq_true, decide_eq_true_eq]

/-- The reading of a header of `TOY` whose magic is there. -/
theorem toy_parse (h : 12 ≤ s.setup.bufSize.toNat) (hm : s.inWord 0 = magic) :
    parse (toyDescriptor magic.toNat) 0 s
      = interpret (toyDescriptor magic.toNat) toyInterpretation 0 s :=
  parse_of_single h ((toy_match_iff h).2 hm) rfl

theorem toy_rejected {c : Cause} (hs : s.fsm = .unvalidated) (h : 12 ≤ s.setup.bufSize.toNat) (hm : s.inWord 0 = magic)
    (hc : sizeFailure (toyHeader (s.inWord 4) (s.inWord 8)) s.setup = some c) :
    parse (toyDescriptor magic.toNat) 0 s = .raised c { s with res := s.inWord 8 } := by
  have hsizes : declaredSizes (toyDescriptor magic.toNat) 0 s.setup (toyHeader (s.inWord 4) (s.inWord 8))
      = toyHeader (s.inWord 4) (s.inWord 8) := rfl
  rw [toy_parse h hm, interpret, toyHeader_run 0 _ hs h, Run.ok_andThen]
  simp only [hsizes, hc]

/-- Check 6 of 45_decompressor.md R198 for `TOY`: the checksum byte after the packed data. -/
theorem toy_sized (hs : s.fsm = .unvalidated) (h : 12 ≤ s.setup.bufSize.toNat) (hm : s.inWord 0 = magic)
    (hc : sizeFailure (toyHeader (s.inWord 4) (s.inWord 8)) s.setup = none) :
    parse (toyDescriptor magic.toNat) 0 s = if s.setup.bufSize.toNat < 12 + (s.inWord 8).toNat + 1 then
        .raised .badHeaderField { s with res := s.inWord 8 }
      else .ok (toyHeader (s.inWord 4) (s.inWord 8)) { s with res := s.inWord 8 } := by
  have hsizes : declaredSizes (toyDescriptor magic.toNat) 0 s.setup (toyHeader (s.inWord 4) (s.inWord 8))
      = toyHeader (s.inWord 4) (s.inWord 8) := rfl
  rw [toy_parse h hm, interpret, toyHeader_run 0 _ hs h, Run.ok_andThen]
  simp only [hsizes, hc]
  show (if decide (12 + (s.inWord 8).toNat + 1 ≤ s.setup.bufSize.toNat) = true then _ else _) = _
  simp only [decide_eq_true_eq, ← Nat.not_lt, ite_not]

theorem toy_format (h : (fmt = 0x7F ∧ magic = 0x544F5931) ∨ (fmt = 0x7E ∧ magic = 0x544F5932)) :
    format fmt = toyDescriptor magic.toNat ∧ formatTag fmt = true := by
  rcases h with ⟨rfl, rfl⟩ | ⟨rfl, rfl⟩ <;> exact ⟨rfl, rfl⟩

/-- A header that is rejected before `OVF` was touched. -/
theorem exec_decCreate_rejected {c : Cause} (hs : s.fsm = .unvalidated) (hv : s.outValid = false)
    (hbody : decCreate fmt 0 s = create (format fmt) fmt 0 s) (hp : parse (format fmt) 0 s.toolkitCleared = .raised c u)
    (hu : u.ovf = false) : ∃ t, exec (.decCreate fmt 0) s = .next t ∧ t.fsm = .failed ∧ t.err = .invalidFormat
      ∧ t.errInfo = c ∧ t.outValid = false ∧ t.rsp = some { status := .invalidFormat, ovf := false, res := 0 } := by
  have hread := parse_reads_header (format fmt) 0 (s := s.toolkitCleared) hs
  have hmem := parse_fails (format fmt) 0 (s := s.toolkitCleared) hs
  rw [hp] at hread hmem
  have hfsm : u.fsm = .unvalidated := HeaderRead.fsm hread |>.trans hs
  have hcat : c.category u.fsm = .invalidFormat := by rw [hfsm]; exact category_of_headerCause hmem
  refine ⟨u.latched .invalidFormat c, ?_, rfl, rfl, rfl, (congrArg (·.outValid) hread).trans hv, ?_⟩
  · refine (hostCommand_of_accepted (accepts_create_of_unvalidated hs) _).trans ?_
    rw [hbody, create_of_parse_raised hp, outcome_raised, State.failed_of_not_done (by rw [hfsm]; exact nofun), hcat]
  · rw [State.latched_rsp, hu]
    rfl

end

/-- Settles O47: the checks that decide the parse of `TOY`, in their order. -/
theorem createChecksInOrder : Obligations.CreateChecksInOrder := by
  intro s fmt magic hs hv hheld htoy raw packed size rejects
  obtain ⟨hfmt, htag⟩ := toy_format htoy
  have hh : s.holds fmt = true := by rw [State.holds, htag]; simpa using hheld
  have hbody := decCreate_accepted (declared := 0) hv hh (.inl rfl) (by rw [hfmt]; rfl)
  have reject {c : Cause} {u : State} (hp : parse (toyDescriptor magic.toNat) 0 s.toolkitCleared = .raised c u)
      (hu : u.ovf = false) : rejects c := exec_decCreate_rejected hs hv hbody (by rwa [hfmt]) hu
  have hsizes : sizeFailure (toyHeader raw packed) s.setup = _ := toy_sizeFailure raw packed s.setup
  split_ifs with hshort hmagic hzero hbuffer hraw hmax hfield
  case pos => exact reject (if_pos hshort) rfl
  case pos =>
    refine reject (parse_of_no_match (Nat.not_lt.1 hshort) rfl ?_) rfl
    exact Bool.not_eq_true _ ▸ mt (toy_match_iff (Nat.not_lt.1 hshort)).1 hmagic
  all_goals
    replace hshort := Nat.not_lt.1 hshort
    replace hmagic := not_not.1 hmagic
  case pos => exact reject (toy_rejected hs hshort hmagic (by exact hsizes.trans (if_pos hzero))) rfl
  all_goals rw [if_neg hzero] at hsizes
  case pos => exact reject (toy_rejected hs hshort hmagic (by exact hsizes.trans (if_pos hbuffer))) rfl
  all_goals rw [if_neg hbuffer] at hsizes
  case pos => exact reject (toy_rejected hs hshort hmagic (by exact hsizes.trans (if_pos hraw))) rfl
  all_goals rw [if_neg hraw] at hsizes
  case pos => exact reject (toy_rejected hs hshort hmagic (by exact hsizes.trans (if_pos hmax))) rfl
  all_goals
    rw [if_neg hmax] at hsizes
    have hparse := toy_sized (s := s.toolkitCleared) hs hshort hmagic hsizes
  case pos => exact reject (hparse.trans (if_pos hfield)) rfl
  case neg =>
    have hok := hparse.trans (if_neg hfield)
    rw [← hfmt] at hok
    exact createResult s _ fmt 0 _ hs hv hh (.inl rfl) (by rw [hfmt]; rfl) hok

end Sys2Proof.Machine
end

section
/-!
What `DEC.DECOMPRESS` and `DEC.NEXTCHUNK` come to (45_decompressor.md R201 to R206): the loop along its states, the three
ends of a chunk, and what stands when the decode has ended.
-/
namespace Sys2Proof.Machine

/-! ## A decode is never refused -/

section
variable {α β : Type}

theorem Run.andThen_ne_illegal {r : Run α} {k : α → State → Run β} (hr : r ≠ .illegal) (hk : ∀ a t, k a t ≠ .illegal) :
    r.andThen k ≠ .illegal := by
  intro h
  rcases Run.andThen_illegal.1 h with h | ⟨a, t, -, h⟩
  · exact hr h
  · exact hk a t h

theorem runChecked_ne_illegal {ε : Type} (cause : ε → Cause) (x : Script (Option ε)) (s : State) :
    runChecked cause x s ≠ .illegal :=
  Run.andThen_ne_illegal (Script.run_ne_illegal x s) fun r t => by cases r <;> exact nofun

theorem decodeLoop_ne_illegal (d : Descriptor) (n : Nat) : ∀ s, decodeLoop d n s ≠ .illegal := by
  induction n with
  | zero =>
    intro s
    unfold decodeLoop
    split <;> exact nofun
  | succ n ih =>
    intro s
    unfold decodeLoop
    split
    · exact Run.andThen_ne_illegal (Run.andThen_ne_illegal (runChecked_ne_illegal _ _ _) fun _ _ => nofun) fun _ => ih
    · exact nofun

theorem chunkBody_ne_illegal (d : Descriptor) (s : State) : chunkBody d s ≠ .illegal := by
  refine Run.andThen_ne_illegal (Script.run_ne_illegal _ _) fun r t => ?_
  cases r with
  | finished =>
    dsimp only
    split
    · exact Run.andThen_ne_illegal (runChecked_ne_illegal _ _ _) fun _ _ => nofun
    · exact nofun
  | _ => exact nofun

theorem chunkLoop_ne_illegal (d : Descriptor) (n : Nat) : ∀ s, chunkLoop d n s ≠ .illegal := by
  induction n with
  | zero => exact fun _ => nofun
  | succ n ih =>
    refine fun s => Run.andThen_ne_illegal (chunkBody_ne_illegal d s) fun r t => ?_
    cases r with
    | chunk => exact ih t
    | finished => exact nofun

theorem decompress_ne_illegal (d : Descriptor) (s : State) : decompress d s ≠ .illegal := by
  refine Run.andThen_ne_illegal ?_ fun _ _ => nofun
  split
  · exact chunkLoop_ne_illegal _ _ _
  · exact Run.andThen_ne_illegal (runChecked_ne_illegal _ _ _) fun _ _ =>
      Run.andThen_ne_illegal (decodeLoop_ne_illegal _ _ _) fun _ _ => runChecked_ne_illegal _ _ _

end

/-! ## `DEC.DECOMPRESS` (45_decompressor.md R201, R202) -/

section
variable {d : Descriptor} {s u : State} {c : Cause} {f : Nat → State} {n : Nat}

theorem exec_decDecompress_of_result {v : Word} (hs : s.fsm = .headerParsed)
    (h : decompress (format s.fmt) s = result v u) : exec .decDecompress s = .next (u.returned v) :=
  hostCommand_of_result (by rw [hs]; rfl) h

theorem exec_decDecompress_of_raised (hs : s.fsm = .headerParsed) (h : decompress (format s.fmt) s = .raised c u) :
    exec .decDecompress s = .next (u.latched (c.category .decoding) c) := by
  have hfsm := decompress_yields (format s.fmt) s
  rw [h] at hfsm
  have hfsm : u.fsm = .decoding := hfsm
  refine (hostCommand_of_accepted (by rw [hs]; rfl) _).trans ?_
  rw [h, outcome_raised, State.failed_of_not_done (by rw [hfsm]; exact nofun), hfsm]

/-- The loop after `n` of its steps. -/
theorem decodeLoop_steps : ∀ {n b : Nat}, n ≤ b →
    (∀ i < n, (f i).produced < (f i).rawSize.toNat ∧ decodeStep d (f i) = .ok () (f (i + 1))) →
    decodeLoop d b (f 0) = decodeLoop d (b - n) (f n) := by
  intro n
  induction n with
  | zero => intro b _ _; rfl
  | succ n ih =>
    intro b hn hf
    obtain ⟨hroom, hstep⟩ := hf n (Nat.lt_succ_self n)
    rw [ih (Nat.le_of_succ_le hn) fun i hi => hf i (Nat.lt_succ_of_lt hi), show b - n = b - (n + 1) + 1 by omega,
      decodeLoop, if_pos hroom, hstep, Run.ok_andThen]

theorem decodeLoop_complete (b : Nat) (h : u.rawSize.toNat ≤ u.produced) : decodeLoop d b u = .ok () u := by
  cases b with
  | zero => exact if_neg (Nat.not_lt.2 h)
  | succ b => exact if_neg (Nat.not_lt.2 h)

/-- The loop of a chunked format after `n` chunks. -/
theorem chunkLoop_chunks : ∀ {n b : Nat}, n ≤ b → (∀ i < n, chunkBody d (f i) = .ok .chunk (f (i + 1))) →
    chunkLoop d b (f 0) = chunkLoop d (b - n) (f n) := by
  intro n
  induction n with
  | zero => intro b _ _; rfl
  | succ n ih =>
    intro b hn hf
    rw [ih (Nat.le_of_succ_le hn) fun i hi => hf i (Nat.lt_succ_of_lt hi), show b - n = b - (n + 1) + 1 by omega,
      chunkLoop, hf n (Nat.lt_succ_self n), Run.ok_andThen]

/-- `DEC.DECOMPRESS` of a format that is not chunked: `init`, the loop, `verify`. -/
theorem decompress_of_steps (hd : d.chunked = false) : decompress d s
    = (((runChecked InitFailure.cause (d.init s.window) { s with fsm := .decoding }).andThen fun _ u =>
        (decodeLoop d (stepBound d u) u).andThen fun _ v =>
          runChecked VerifyFailure.cause (d.verify v.window) v)).andThen fun _ w =>
        result w.rawSize { w with fsm := .done } := by
  rw [decompress, if_neg (by rw [hd]; exact Bool.false_ne_true)]
  rfl

theorem decompress_of_chunks (hd : d.chunked = true) : decompress d s
    = (chunkLoop d (stepBound d { s with fsm := .decoding }) { s with fsm := .decoding }).andThen fun _ w =>
        result w.rawSize { w with fsm := .done } := by rw [decompress, if_pos hd]

end

/-- Settles O48: the loop is unrolled along its states, and what comes after them ends it. -/
theorem decompressRunsItsLoop : Obligations.DecompressRunsItsLoop := by
  intro s n f hs d
  refine ⟨fun hd => ⟨fun c u hinit => ?_, fun hinit hf => ⟨fun u hn hdone hverify => ?_, fun c u hn hdone hverify => ?_,
    fun c u hn hroom hstep => ?_⟩⟩, fun hd h0 hn hf => ⟨fun u hend => ?_, fun c u hend => ?_⟩⟩
  · refine exec_decDecompress_of_raised hs ?_
    rw [decompress_of_steps hd, hinit]
    rfl
  · refine exec_decDecompress_of_result hs ?_
    rw [decompress_of_steps hd, hinit, Run.ok_andThen, decodeLoop_steps hn hf, decodeLoop_complete _ hdone,
      Run.ok_andThen, hverify, Run.ok_andThen]
  · refine exec_decDecompress_of_raised hs ?_
    rw [decompress_of_steps hd, hinit, Run.ok_andThen, decodeLoop_steps hn hf, decodeLoop_complete _ hdone,
      Run.ok_andThen, hverify, Run.raised_andThen]
  · refine exec_decDecompress_of_raised hs ?_
    obtain ⟨b, hb⟩ := Nat.exists_eq_add_of_lt hn
    rw [decompress_of_steps hd, hinit, Run.ok_andThen, decodeLoop_steps hn.le hf,
      show stepBound d (f 0) - n = b + 1 by omega, decodeLoop, if_pos hroom, hstep]
    rfl
  all_goals
    obtain ⟨b, hb⟩ := Nat.exists_eq_add_of_lt hn
    have hloop : chunkLoop d (stepBound d (f 0)) (f 0) = chunkLoop d (b + 1) (f n) := by
      rw [chunkLoop_chunks hn.le hf, show stepBound d (f 0) - n = b + 1 by omega]
    rw [chunkLoop, hend, h0] at hloop
  · have hfsm := chunkBody_yields d (f n)
    rw [hend] at hfsm
    have hu : { u with fsm := .done } = u := by rw [show Fsm.done = u.fsm from hfsm.symm]
    refine exec_decDecompress_of_result hs ?_
    rw [decompress_of_chunks hd, hloop]
    exact congrArg (result u.rawSize) hu
  · refine exec_decDecompress_of_raised hs ?_
    rw [decompress_of_chunks hd, hloop]
    rfl

/-- A complete output has every byte written (10_state.md R29). -/
theorem State.OutputInv.complete {s : State} (h : s.OutputInv) (hp : s.produced = s.rawSize.toNat) :
    ∀ k < s.rawSize.toNat, (Memory.get s.out k).isSome = true := by
  intro k hk
  rw [h.get_isSome, Inst.mem_writtenIndices]
  cases hd : s.outDir with
  | forward =>
    simp only [Inst.produced, hd] at hp
    dsimp only
    omega
  | backward =>
    simp only [Inst.produced, hd] at hp
    dsimp only
    omega

/-- A decode that ends well answers the raw size. -/
theorem decompress_ok {d : Descriptor} {s u : State} {v : Option Word} (h : decompress d s = .ok v u) :
    v = some u.rawSize := by
  obtain ⟨_, w, -, hk⟩ := Run.andThen_ok.1 h
  cases hk
  rfl

/-- Settles O49: a decode completes in Done, which the invariant allows with a complete output alone, or fails in
Decoding. -/
theorem decompressEndsDoneOrFailed : Obligations.DecompressEndsDoneOrFailed := by
  intro s t hi hs h
  have hfsm := (decompress_yields (format s.fmt) s).and_causes (decompress_raises (format s.fmt) s)
  have hframe := decompress_frame (format s.fmt) s
  have hinv := (decompress_spec (format s.fmt) hi hs).1
  cases hrun : decompress (format s.fmt) s with
  | ok v u =>
    rw [hrun] at hfsm hframe hinv
    rw [decompress_ok hrun] at hrun
    obtain rfl := Host.Outcome.next.inj ((hostCommand_of_accepted (by rw [hs]; rfl) _).trans
      (congrArg s.outcome hrun) |>.symm.trans h)
    obtain ⟨-, htool, hseq⟩ := State.Inv.parts hinv
    obtain ⟨-, -, -, hdone⟩ := hseq
    have hraw : u.rawSize = s.rawSize := hframe.rawSize
    exact .inl ⟨hfsm, hraw, hdone hfsm, htool.output.complete (hdone hfsm), by rw [← hraw]; rfl⟩
  | raised c u =>
    rw [hrun] at hfsm
    obtain ⟨-, hc⟩ := hfsm
    obtain rfl := Host.Outcome.next.inj ((exec_decDecompress_of_raised hs hrun).symm.trans h)
    exact .inr ⟨rfl, hc, rfl⟩
  | illegal => exact absurd hrun (decompress_ne_illegal _ _)
  | stuck =>
    have := (hostCommand_of_accepted (k := .decompress) (by rw [hs]; rfl) _).trans (congrArg s.outcome hrun)
    cases this.symm.trans h

/-! ## `DEC.NEXTCHUNK` (45_decompressor.md R206) -/

section
variable {d : Descriptor} {s u v : State} {c : Cause}

theorem produced_lt (s : Inst) : s.produced < 2 ^ 32 := by
  have hcur := s.outCur.isLt
  have hraw := s.rawSize.isLt
  unfold Inst.produced
  split <;> omega

theorem word_produced_toNat (s : Inst) : (word s.produced).toNat = s.produced := word_toNat_of_lt (produced_lt s)

/-- What the activity of a chunk leaves of the registers that name it. -/
theorem atChunk_moved (h : SequencerMoved s.atChunk u) :
    u.chunkIdx = s.chunkIdx ∧ u.chunkLo = word s.produced ∧ u.window = s.window :=
  ⟨h.frame.chunkIdx, h.frame.chunkLo, h.window⟩

theorem run_atChunk_moved {r : ChunkEnd} (h : (d.nextChunk s.window).run s.atChunk = .ok r u) :
    SequencerMoved s.atChunk u := by
  have hmoved := Script.run_moved (d.nextChunk s.window) s.atChunk
  rwa [h] at hmoved

/-- The end of a body once `next_chunk` has ended. -/
def chunkEnd (d : Descriptor) (r : ChunkEnd) (u : State) : Run Delivery :=
  match r with
  | .failed e => .raised e.cause u
  | .noProgress => .stuck
  | .chunk => .ok .chunk { u with chunkIdx := u.chunkIdx + 1, res := word (u.produced - u.chunkLo.toNat) }
  | .finished =>
    if u.produced = u.rawSize.toNat then
      (runChecked VerifyFailure.cause (d.verify u.window) u).andThen fun _ v =>
        .ok .finished { v with fsm := .done, res := 0 }
    else .raised .endOfInput u

theorem chunkBody_eq (d : Descriptor) (s : State) :
    chunkBody d s = ((d.nextChunk s.window).run s.atChunk).andThen (chunkEnd d) := rfl

theorem chunkBody_of_end {r : ChunkEnd} (h : (d.nextChunk s.window).run s.atChunk = .ok r u) :
    chunkBody d s = chunkEnd d r u := by rw [chunkBody_eq, h, Run.ok_andThen]

theorem chunkBody_of_chunk (h : (d.nextChunk s.window).run s.atChunk = .ok .chunk u) :
    chunkBody d s = .ok .chunk { u with chunkIdx := s.chunkIdx + 1, res := word (u.produced - s.produced) } := by
  obtain ⟨hidx, hlo, -⟩ := atChunk_moved (run_atChunk_moved h)
  rw [chunkBody_of_end h, chunkEnd, hidx, hlo, word_produced_toNat]

theorem chunkBody_of_finished (h : (d.nextChunk s.window).run s.atChunk = .ok .finished u)
    (hp : u.produced = u.rawSize.toNat) (hv : runChecked VerifyFailure.cause (d.verify s.window) u = .ok () v) :
    chunkBody d s = .ok .finished { v with fsm := .done, res := 0 } := by
  obtain ⟨-, -, hwindow⟩ := atChunk_moved (run_atChunk_moved h)
  rw [chunkBody_of_end h, chunkEnd, if_pos hp, hwindow, hv]
  rfl

theorem nextChunk_of_body {r : Delivery} (hd : d.chunked = true) (h : chunkBody d s = .ok r u) :
    nextChunk d s = result u.res u := by
  rw [nextChunk, if_neg (by simp [hd]), h]
  rfl

theorem nextChunk_of_raised (hd : d.chunked = true) (h : chunkBody d s = .raised c u) :
    nextChunk d s = .raised c u := by
  rw [nextChunk, if_neg (by simp [hd]), h]
  rfl

theorem nextChunk_of_stuck (hd : d.chunked = true) (h : chunkBody d s = .stuck) : nextChunk d s = .stuck := by
  rw [nextChunk, if_neg (by simp [hd]), h]
  rfl

theorem accepts_nextChunk (hs : s.fsm = .headerParsed ∨ s.fsm = .decoding) :
    accepts .host .nextChunk s.fsm = true := by rcases hs with hs | hs <;> rw [hs] <;> rfl

theorem exec_decNextchunk (hs : s.fsm = .headerParsed ∨ s.fsm = .decoding) :
    exec .decNextchunk s = s.outcome (nextChunk (format s.fmt) s) := hostCommand_of_accepted (accepts_nextChunk hs) _

theorem exec_decNextchunk_of_result {w : Word} (hs : s.fsm = .headerParsed ∨ s.fsm = .decoding)
    (h : nextChunk (format s.fmt) s = result w u) : exec .decNextchunk s = .next (u.returned w) :=
  hostCommand_of_result (accepts_nextChunk hs) h

theorem exec_decNextchunk_of_raised (hs : s.fsm = .headerParsed ∨ s.fsm = .decoding)
    (h : nextChunk (format s.fmt) s = .raised c u) : exec .decNextchunk s = .next (u.latched (c.category .decoding) c) := by
  have hfsm := nextChunk_yields (format s.fmt) s
  rw [h] at hfsm
  have hfsm : u.fsm = .decoding := hfsm
  rw [exec_decNextchunk hs, h, outcome_raised, State.failed_of_not_done (by rw [hfsm]; exact nofun), hfsm]

/-- The registers that name a chunk, at each end of its body. -/
def ChunkStands (s : State) (r : Delivery) (t : State) : Prop :=
  t.fsm = r.fsm ∧ t.chunkLo = word s.produced
    ∧ match r with
      | .chunk => t.chunkIdx = s.chunkIdx + 1 ∧ t.res = word (t.produced - s.produced)
      | .finished => t.chunkIdx = s.chunkIdx ∧ t.produced = t.rawSize.toNat ∧ t.res = 0

theorem chunkEnd_stands (hi : DecodingInv s.atChunk) (r : ChunkEnd) (hu : SequencerMoved s.atChunk u) :
    (chunkEnd d r u).Yields (ChunkStands s) fun _ t => t.chunkLo = word s.produced := by
  obtain ⟨hidx, hlo, -⟩ := atChunk_moved hu
  cases r with
  | chunk =>
    refine ⟨hu.frame.fsm, hlo, congrArg (· + 1) hidx, ?_⟩
    show word (u.produced - u.chunkLo.toNat) = word (u.produced - s.produced)
    rw [hlo, word_produced_toNat]
  | failed e => exact hlo
  | noProgress => trivial
  | finished =>
    unfold chunkEnd
    dsimp only
    split
    case isTrue hp =>
      refine Run.Yields.andThen (P := fun _ v => SequencerMoved u v)
        ((runChecked_moved _ _ u).yields (fun _ _ h => h) fun _ _ h => h.frame.chunkLo.trans hlo) fun _ v hv => ?_
      have hdone : v.produced = v.rawSize.toNat := moved_done hv (hu.di hi).1 hp.ge
      exact ⟨rfl, hv.frame.chunkLo.trans hlo, hv.frame.chunkIdx.trans hidx, hdone, rfl⟩
    case isFalse => exact hlo

theorem atChunk_inv (h : s.Inv) (hs : s.fsm = .headerParsed ∨ s.fsm = .decoding) : DecodingInv s.atChunk := by
  refine ⟨fsm_inv (f := .decoding) h ?_ ?_ nofun nofun, rfl⟩
  · obtain ⟨-, -, hseq⟩ := h.parts
    exact hseq.2.2.1 (hs.imp_right .inl)
  · rcases hs with hs | hs <;> rw [hs] <;> exact nofun

theorem chunkBody_stands (d : Descriptor) (h : s.Inv) (hs : s.fsm = .headerParsed ∨ s.fsm = .decoding) :
    (chunkBody d s).Yields (ChunkStands s) fun _ t => t.chunkLo = word s.produced := by
  rw [chunkBody_eq]
  refine Run.Yields.andThen (P := fun _ u => SequencerMoved s.atChunk u)
    ((Script.run_moved _ _).yields (fun _ _ h => h) fun _ _ h => h.frame.chunkLo) fun r u hu => ?_
  exact chunkEnd_stands (atChunk_inv h hs) r hu

end

/-- Settles O51: each end of `next_chunk` gives one end of the command, and there is no other. -/
theorem nextChunkOutcomes : Obligations.NextChunkOutcomes := by
  intro s hs d
  refine ⟨fun hd => ?refused, fun hd => ⟨fun u h => ?chunk, fun u v h hp hv => ?finished⟩,
    fun d' u hd h => ?stuck, fun hi hd hprogress => ?outcomes⟩
  case refused => exact hostCommand_of_illegal (if_pos (by rw [show (format s.fmt).chunked = false from hd]; rfl))
  case chunk => exact exec_decNextchunk_of_result hs (nextChunk_of_body hd (chunkBody_of_chunk h))
  case finished => exact exec_decNextchunk_of_result hs (nextChunk_of_body hd (chunkBody_of_finished h hp hv))
  case stuck =>
    have hstuck : nextChunk d' s = .stuck := nextChunk_of_stuck hd (chunkBody_of_end h)
    refine ⟨hstuck, fun heq => ?_⟩
    rw [exec_decNextchunk hs, show format s.fmt = d' from heq, hstuck]
    rfl
  case outcomes =>
    have hstands := chunkBody_stands d hi hs
    have hgrows := chunkBody_grows d s
    have hraises := (chunkBody_yields d s).and_causes (chunkBody_raises d s)
    cases hrun : chunkBody d s with
    | ok r u =>
      rw [hrun] at hstands hgrows
      obtain ⟨-, hmono, -⟩ := hgrows hi.parts.2.1.output
      obtain ⟨hfsm, hlo, hregs⟩ := hstands
      refine ⟨_, exec_decNextchunk_of_result hs (nextChunk_of_body hd hrun), hlo, ?_⟩
      cases r with
      | chunk =>
        obtain ⟨hidx, hres⟩ := hregs
        refine .inl ⟨hfsm, hidx, hmono, ?_, rfl⟩
        rw [State.returned_res, hres]
        exact word_toNat_of_lt (Nat.lt_of_le_of_lt (Nat.sub_le ..) (produced_lt u.toInst))
      | finished =>
        obtain ⟨hidx, hp, hres⟩ := hregs
        refine .inr (.inl ⟨hfsm, hidx, hp, hres, ?_⟩)
        rw [State.returned_rsp, hres]
        rfl
    | raised c u =>
      rw [hrun] at hstands hraises
      exact ⟨_, exec_decNextchunk_of_raised hs (nextChunk_of_raised hd hrun), hstands, .inr (.inr ⟨rfl, hraises.2, rfl⟩)⟩
    | illegal => exact absurd hrun (chunkBody_ne_illegal d s)
    | stuck =>
      obtain ⟨u, hu⟩ := chunkBody_stuck hrun
      exact absurd hu (hprogress u)

end Sys2Proof.Machine
end

section
/-!
Decodes that always end (45_decompressor.md R203 (d), 70_reset_and_hazards.md R306), and the chunks of XPK
(46_formats.md R223 to R227) and the quirks of StoneCracker (R229 to R231), whatever their open parts are.
-/
namespace Sys2Proof.Machine

/-! ## Decodes that make progress -/

section
variable {d : Descriptor} {s u : State}

/-- The loop of a decode that makes progress does not use up a turn for each byte missing and each bit to come. -/
theorem decodeLoop_ne_stuck (hd : d.StepsProgress) : ∀ (n : Nat) (u : State), DecodingInv u →
    (u.rawSize.toNat - u.produced) + u.bitStream.length ≤ n → decodeLoop d n u ≠ .stuck := by
  intro n
  induction n with
  | zero =>
    intro u _ hn
    rw [decodeLoop, if_neg (by omega)]
    exact nofun
  | succ n ih =>
    intro u hu hn
    rw [decodeLoop]
    split
    case isFalse => exact nofun
    case isTrue hroom =>
      intro h
      rcases Run.andThen_stuck.1 h with hstep | ⟨_, v, hstep, hrest⟩
      · exact (decodeStep_fails d u).ne_stuck hstep
      · have hmoved := decodeStep_moved d u
        rw [hstep] at hmoved
        obtain ⟨hbits, hmore⟩ := hd u v hu.1 hu.2 hstep
        have hraw : v.rawSize = u.rawSize := hmoved.frame.rawSize
        have hproduced : u.produced ≤ v.produced := (hmoved.keeps hu.1.parts.2.1).2
        refine ih v (hmoved.di hu) ?_ hrest
        rw [hraw]
        omega

theorem decompress_ne_stuck (hd : d.StepsProgress) (hc : d.chunked = false) (hi : s.Inv) (hs : s.fsm = .headerParsed) :
    decompress d s ≠ .stuck := by
  have hstart : DecodingInv { s with fsm := .decoding } :=
    ⟨fsm_inv hi (hi.parts.2.2.2.2.1 (.inl hs)) (by rw [hs]; exact nofun) nofun nofun, rfl⟩
  rw [decompress_of_steps hc]
  intro h
  rcases Run.andThen_stuck.1 h with h | ⟨_, _, _, h⟩
  · rcases Run.andThen_stuck.1 h with h | ⟨_, u, hinit, h⟩
    · exact (runChecked_init_fails _ _).ne_stuck h
    · have hmoved := runChecked_moved InitFailure.cause (d.init s.window) { s with fsm := .decoding }
      rw [hinit] at hmoved
      have hu := hmoved.di hstart
      rcases Run.andThen_stuck.1 h with h | ⟨_, v, _, h⟩
      · refine decodeLoop_ne_stuck hd _ u hu ?_ h
        have hbits := bitStream_length_le hu.1.parts.2.1.reader
        unfold stepBound
        omega
      · exact (runChecked_verify_fails _ v).ne_stuck h
  · cases h

theorem exec_decDecompress_ends (h : decompress (format s.fmt) s ≠ .stuck) : ∃ t, exec .decDecompress s = .next t :=
  hostCommand_ends h

theorem Script.run_bind_ok {α β : Type} {x : Script α} {k : α → Script β} {b : β} (h : (x.bind k).run s = .ok b u) :
    ∃ a t, x.run s = .ok a t ∧ (k a).run t = .ok b u ∧ SequencerMoved s t := by
  rw [Script.run_bind] at h
  obtain ⟨a, t, hx, hk⟩ := Run.andThen_ok.1 h
  have hmoved := Script.run_moved x s
  rw [hx] at hmoved
  exact ⟨a, t, hx, hk, hmoved⟩

/-- A compressed chunk whose sub-decompressor makes progress comes to its end (70_reset_and_hazards.md R306). -/
theorem decompressChunk_progresses {sub : StreamDecoder} (hsub : sub.StepsProgress) (c : XpkChunk) (hs : DecodingInv s) :
    (decompressChunk sub c s.window).run s ≠ .ok .noProgress u := by
  intro h
  unfold decompressChunk at h
  dsimp only at h
  split at h
  · cases h
  · obtain ⟨r, t, -, hk, hmoved⟩ := Script.run_bind_ok (by exact h)
    have ht := hmoved.di hs
    cases r with
    | some e => cases hk
    | none =>
      refine streamLoop_ends hsub _ _ t ht ?_ u (by rw [hmoved.window]; exact hk)
      have hbits := bitStream_length_le ht.1.parts.2.1.reader
      have hsetup : t.setup = s.setup := hmoved.frame.setup
      have hproduced : s.produced ≤ t.produced := (hmoved.keeps hs.1.parts.2.1).2
      have hsize : s.window.size = t.setup.bufSize.toNat := by rw [hsetup]; rfl
      have hbefore : (s.toInst.showing 0).produced = s.produced := rfl
      rw [hbefore, hsize]
      omega

theorem xpkNextChunk_progresses {x : XpkParts} (hs : DecodingInv s)
    (hsub : ∀ name, x.subFormat s.window = some name → (xpkSub x name).StepsProgress) :
    (xpkNextChunk x s.window).run s ≠ .ok .noProgress u := by
  intro h
  obtain ⟨holds, t, -, hk, hm1⟩ := Script.run_bind_ok (by exact h)
  cases holds with
  | false => cases hk
  | true =>
    obtain ⟨c, v, -, hk, hm2⟩ := Script.run_bind_ok (by exact hk)
    have hv : DecodingInv v := hm2.di (hm1.di hs)
    have hw : v.window = s.window := hm2.window.trans hm1.window
    split at hk
    · cases hk
    · obtain ⟨r, z, hbody, hk, -⟩ := Script.run_bind_ok (by exact hk)
      cases r with
      | complete =>
        obtain ⟨holds, _, -, hk, -⟩ := Script.run_bind_ok (by exact hk)
        cases holds <;> cases hk
      | failed e => cases hk
      | noProgress =>
        unfold xpkChunkBody at hbody
        split at hbody
        · obtain ⟨_, _, -, hbody, -⟩ := Script.run_bind_ok hbody
          cases hbody
        · split at hbody
          · split at hbody
            case h_1 name hname =>
              rw [← hw] at hbody
              exact decompressChunk_progresses (hsub name hname) c hv hbody
            case h_2 => cases hbody
          · cases hbody

theorem xpk_nextChunk_ne_stuck {x : XpkParts} (hi : s.Inv) (hs : s.fsm = .headerParsed ∨ s.fsm = .decoding)
    (hsub : ∀ name, x.subFormat s.window = some name → (xpkSub x name).StepsProgress) :
    nextChunk (xpkDescriptor x) s ≠ .stuck := by
  intro h
  obtain ⟨u, hu⟩ := chunkBody_stuck (nextChunk_stuck h).2
  exact xpkNextChunk_progresses (s := s.atChunk) (atChunk_inv hi hs) hsub hu

end

/-- Settles O50: a step takes a byte or a bit from a stock that the bound counts. -/
theorem decodeThatReadsAlwaysEnds : Obligations.DecodeThatReadsAlwaysEnds := by
  intro s hi
  refine ⟨fun hs => ⟨fun hc hd => ?_, fun hfmt => ?_⟩, fun x hs hsub => ?_⟩
  · exact exec_decDecompress_ends (decompress_ne_stuck hd hc hi hs)
  · obtain ⟨magic, hformat⟩ : ∃ magic, format s.fmt = toyDescriptor magic := by
      rcases hfmt with h | h <;> rw [h] <;> exact ⟨_, rfl⟩
    refine exec_decDecompress_ends ?_
    rw [hformat]
    exact decompress_ne_stuck (toy_stepsProgress magic) rfl hi hs
  · have hstuck := xpk_nextChunk_ne_stuck hi hs hsub
    refine ⟨hstuck, fun hformat => hostCommand_ends ?_⟩
    rw [hformat]
    exact hstuck

/-! ## XPK's chunks (46_formats.md R223 to R226) -/

section
variable {x : XpkParts} {c : XpkChunk} {s u v w : State}

theorem XpkParts.nextChunk_of_raised {e : Cause} (hs : s.fsm = .headerParsed ∨ s.fsm = .decoding)
    (h : chunkBody (xpkDescriptor x) s = .raised e u) :
    x.NextChunk s (.raised e u) (u.latched (e.category .decoding) e) :=
  have hbody := Machine.nextChunk_of_raised rfl h
  ⟨hbody, fun hformat => exec_decNextchunk_of_raised hs (by rw [hformat]; exact hbody)⟩

theorem XpkParts.nextChunk_of_body {r : Delivery} (hs : s.fsm = .headerParsed ∨ s.fsm = .decoding)
    (h : chunkBody (xpkDescriptor x) s = .ok r u) : x.NextChunk s (.ok (some u.res) u) (u.returned u.res) :=
  have hbody : nextChunk (xpkDescriptor x) s = result u.res u := Machine.nextChunk_of_body rfl h
  ⟨hbody, fun hformat => exec_decNextchunk_of_result hs (by rw [hformat]; exact hbody)⟩

/-- The header checksum is asked for at the first chunk alone (46_formats.md R226). -/
theorem headerChecksum_run (x : XpkParts) (w : Window) (s : State) :
    (if s.chunkIdx = 0 then x.headerChecksumHolds w else .ret true : Script Bool).run s
      = if s.chunkIdx = 0 then (x.headerChecksumHolds w).run s else .ok true s := by
  split <;> rfl

/-- What follows a chunk's header (46_formats.md R224). -/
theorem XpkParts.Opens.run (h : x.Opens s c u) : (xpkNextChunk x s.window).run s.atChunk
    = (if c.type = 15 then .ret .finished else xpkDeliver x c s.window : Script ChunkEnd).run u := by
  obtain ⟨t, hholds, hheader⟩ := h
  have hchecked := (headerChecksum_run x s.window s.atChunk).trans hholds
  show (Script.bind (if s.chunkIdx = 0 then x.headerChecksumHolds s.window else .ret true) _).run s.atChunk = _
  rw [Script.run_bind, show (if s.chunkIdx = 0 then x.headerChecksumHolds s.window else .ret true : Script Bool).run
    s.atChunk = .ok true t from hchecked, Run.ok_andThen, if_pos rfl, Script.run_bind, hheader, Run.ok_andThen]

theorem XpkParts.Opens.moved (h : x.Opens s c u) : SequencerMoved s.atChunk u := by
  obtain ⟨t, hholds, hheader⟩ := h
  have hheaderMoved := Script.run_moved (x.chunkHeader s.window) t
  rw [hheader] at hheaderMoved
  refine SequencerMoved.trans ?_ hheaderMoved
  split at hholds
  · have hholdsMoved := Script.run_moved (x.headerChecksumHolds s.window) s.atChunk
    rwa [hholds] at hholdsMoved
  · cases hholds
    exact .refl _

theorem xpk_checksum_fails (h0 : s.chunkIdx = 0)
    (h : (x.headerChecksumHolds s.window).run s.atChunk = .ok false u) :
    (xpkNextChunk x s.window).run s.atChunk = .ok (.failed .checksumMismatch) u := by
  show (Script.bind (if s.chunkIdx = 0 then x.headerChecksumHolds s.window else .ret true) _).run s.atChunk = _
  rw [if_pos h0, Script.run_bind, h]
  rfl

/-- A chunk whose type is none of the format's (46_formats.md R224). -/
theorem xpkDeliver_of_other_type (hraw : c.type ≠ 0) (hcompressed : x.isCompressed c.type = false) (w : Window) :
    (xpkDeliver x c w).run u = .ok (.failed .formatSpecific) u := by
  show (Script.bind (xpkChunkBody x c w) _).run u = _
  rw [xpkChunkBody, if_neg hraw, if_neg (by rw [hcompressed]; exact Bool.false_ne_true)]
  rfl

/-- The first 16 bytes are compared one by one with those stored in the header (46_formats.md R223). -/
theorem take_eq_first16_iff (stored : List Byte) (s : Inst) : stored.take (min 16 s.rawSize.toNat) = s.first16
    ↔ ∀ i < min 16 s.rawSize.toNat, stored[i]? = some ((Memory.get s.out i).getD 0) := by
  refine ⟨fun h i hi => ?_, fun h => List.ext_getElem? fun i => ?_⟩
  · have hget := congrArg (·[i]?) h
    simpa [Inst.first16, List.getElem?_take, hi, List.getElem?_range] using hget
  · by_cases hi : i < min 16 s.rawSize.toNat
    · rw [List.getElem?_take_of_lt hi, h i hi]
      simp [Inst.first16, List.getElem?_range hi]
    · rw [List.getElem?_take_eq_none (Nat.not_lt.1 hi), List.getElem?_eq_none (by simp [Inst.first16]; omega)]

theorem xpkVerify_run {stored : List Byte} (h : (x.storedFirst16 s.window).run u = .ok stored v) :
    runChecked VerifyFailure.cause (xpkVerify x s.window) u
      = if ∀ i < min 16 v.rawSize.toNat, stored[i]? = some ((Memory.get v.out i).getD 0) then .ok () v
        else .raised .first16Mismatch v := by
  have hrun : (xpkVerify x s.window).run u = .ok (if stored.take (min 16 v.rawSize.toNat) = v.toInst.first16
      then none else some .first16Mismatch) v := by
    rw [xpkVerify, Script.run_bind, h]
    rfl
  rw [runChecked, hrun, Run.ok_andThen]
  by_cases hsame : stored.take (min 16 v.rawSize.toNat) = v.toInst.first16
  · rw [if_pos hsame, if_pos ((take_eq_first16_iff stored v.toInst).1 hsame)]
  · rw [if_neg hsame, if_neg (mt (take_eq_first16_iff stored v.toInst).2 hsame)]
    rfl

end

/-- Settles O53: what the header checksum and the chunk's type decide. -/
theorem xpkTerminatorTypesAndHeaderChecksum : Obligations.XpkTerminatorTypesAndHeaderChecksum := by
  intro x c s u hs
  refine ⟨fun h0 h => ?_, fun hopens => ?_⟩
  · exact x.nextChunk_of_raised hs (chunkBody_of_end (d := xpkDescriptor x) (xpk_checksum_fails h0 h))
  · have hrun := hopens.run
    refine ⟨fun hraw hend hcompressed => ?_, fun hend hp => ?_, fun stored v hend hp hstored => ?_⟩
    · rw [if_neg hend, xpkDeliver_of_other_type hraw hcompressed] at hrun
      exact x.nextChunk_of_raised hs (chunkBody_of_end (d := xpkDescriptor x) hrun)
    all_goals
      rw [if_pos hend] at hrun
    · exact x.nextChunk_of_raised hs ((chunkBody_of_end (d := xpkDescriptor x) hrun).trans (if_neg hp))
    · intro same
      have hverify := xpkVerify_run hstored
      refine ⟨fun hsame => ?_, fun hsame => ?_⟩
      · rw [if_pos hsame] at hverify
        exact x.nextChunk_of_body hs (chunkBody_of_finished (d := xpkDescriptor x) hrun hp hverify)
      · rw [if_neg hsame] at hverify
        refine x.nextChunk_of_raised hs ((chunkBody_of_end (d := xpkDescriptor x) hrun).trans ((if_pos hp).trans ?_))
        rw [hopens.moved.window, show s.atChunk.window = s.window from rfl,
          show (xpkDescriptor x).verify s.window = xpkVerify x s.window from rfl, hverify]
        rfl

/-! ## A raw chunk (46_formats.md R225) -/

/-- From `u` to `v` these bytes were written in order at the cursor of a forward output, and nothing else but `RES`. -/
structure Appended (u v : State) (n : Nat) (b : Nat → Byte) : Prop where
  frame : v = { u with out := v.out, outCur := v.outCur, res := v.res }
  cursor : v.outCur.toNat = u.outCur.toNat + n
  written : ∀ i < n, Memory.get v.out (u.outCur.toNat + i) = some (b i)
  others : ∀ k, k < u.outCur.toNat ∨ u.outCur.toNat + n ≤ k → Memory.get v.out k = Memory.get u.out k

section
variable {x : XpkParts} {c : XpkChunk} {s u v w : State}

theorem Appended.refl (u : State) (b : Nat → Byte) : Appended u u 0 b := ⟨rfl, rfl, nofun, fun _ _ => rfl⟩

theorem produced_of_forward (h : u.outDir = .forward) : u.produced = u.outCur.toNat := by simp [Inst.produced, h]

/-- One byte, then the others. -/
theorem Appended.cons {n : Nat} {b : Nat → Byte} {r : Word} (hd : u.outDir = .forward)
    (hroom : u.outCur.toNat < u.rawSize.toNat)
    (h : Appended (State.put { u with res := r } (b 0)) v n fun i => b (i + 1)) : Appended u v (n + 1) b := by
  have hcur : (State.put { u with res := r } (b 0)).outCur.toNat = u.outCur.toNat + 1 := by
    rw [put_outCur (s := { u with res := r }) (by exact lt_of_eq_of_lt (produced_of_forward hd) hroom)]
    simp [hd]
  have hget (k : Nat) : Memory.get (State.put { u with res := r } (b 0)).out k
      = if u.outCur.toNat = k then some (b 0) else Memory.get u.out k := by
    rw [put_get]
    simp [Inst.wp, hd]
  obtain ⟨hframe, hcursor, hwritten, hothers⟩ := h
  rw [hcur] at hcursor hwritten hothers
  refine ⟨?_, by omega, fun i hi => ?_, fun k hk => ?_⟩
  · rw [hframe]
    simp only [State.put, hd]
  · cases i with
    | zero => rw [Nat.add_zero, hothers _ (by omega), hget, if_pos rfl]
    | succ i => rw [← hwritten i (by omega)]; congr 1; omega
  · rw [hothers k (by omega), hget, if_neg (by omega)]

theorem sequencer_bufRd8 {off : Word} (hs : u.fsm = .decoding) (h : off.toNat < u.setup.bufSize.toNat) :
    sequencerCommand (.bufRd8 off) u = result ((u.inByte off.toNat).setWidth 32) u := by
  have hread : sequencerCommand (.bufRd8 off) u = bufRead 1 .bigEndian off u := if_pos (by rw [hs]; rfl)
  rw [hread, bufRead, if_pos (State.inWindow_iff.2 h), word_memRead_8]

theorem sequencer_outWritebyte (b : Byte) (hs : u.fsm = .decoding) (hv : u.outValid = true)
    (hroom : u.produced < u.rawSize.toNat) : sequencerCommand (.outWritebyte b) u = complete (u.put b) := by
  have hwrite : sequencerCommand (.outWritebyte b) u = outWritebyte b u := if_pos (by rw [hs]; rfl)
  rw [hwrite, outWritebyte_with_room b hv hroom]

/-- The copy of a chunk that lies in the window and fits the output. -/
theorem copyRawChunk_run (n : Nat) : ∀ (p : Nat) (u : State), u.fsm = .decoding → u.outValid = true →
    u.outDir = .forward → p + n ≤ u.setup.bufSize.toNat → u.outCur.toNat + n ≤ u.rawSize.toNat →
    ∃ v, (copyRawChunk n p).run u = .ok () v ∧ Appended u v n fun i => u.inByte (p + i) := by
  induction n with
  | zero => exact fun p u _ _ _ _ _ => ⟨u, rfl, .refl u _⟩
  | succ n ih =>
    intro p u hs hv hd hin hroom
    have hp : (word (sum p 0).1).toNat = p := by
      have hsize := u.setup.bufSize.isLt
      rw [sum_fst_of_fits (by omega)]
      exact word_toNat_of_lt (by omega)
    have hread := sequencer_bufRd8 (off := word (sum p 0).1) hs (by omega)
    rw [hp] at hread
    have hnext : u.produced < u.rawSize.toNat := by rw [produced_of_forward hd]; omega
    have hwrite := sequencer_outWritebyte (u := { u with res := (u.inByte p).setWidth 32 }) (u.inByte p) hs hv hnext
    generalize ht : State.put { u with res := (u.inByte p).setWidth 32 } (u.inByte p) = t at hwrite
    have hframe := ToolkitFrame.put { u with res := (u.inByte p).setWidth 32 } (u.inByte p)
    have hcur := put_outCur (s := { u with res := (u.inByte p).setWidth 32 }) hnext (u.inByte p)
    rw [ht] at hframe hcur
    simp only [hd] at hcur
    have hsetup : t.setup = u.setup := hframe.setup
    have hraw : t.rawSize = u.rawSize := hframe.rawSize
    obtain ⟨v, hrun, happended⟩ := ih (p + 1) t (hframe.fsm.trans hs) (hframe.outValid.trans hv)
      (hframe.outDir.trans hd) (by rw [hsetup]; omega) (by rw [hraw, hcur]; omega)
    refine ⟨v, ?_, .cons (r := (u.inByte p).setWidth 32) hd (by omega) ?_⟩
    · rw [copyRawChunk, Script.run_issue_ok hread]
      have hbyte : ((u.inByte p).setWidth 32).setWidth 8 = u.inByte p := by simp
      show (Script.issue (.outWritebyte (((u.inByte p).setWidth 32).setWidth 8)) _).run _ = _
      rw [hbyte, Script.run_issue_ok hwrite]
      exact hrun
    · have hbytes : (fun i => t.inByte (p + 1 + i)) = fun i => u.inByte (p + (i + 1)) := by
        funext i
        rw [State.inByte, hsetup, State.inByte, Nat.add_assoc p, Nat.add_comm 1 i]
      rw [hbytes] at happended
      rw [show u.inByte (p + 0) = u.inByte p from rfl, ht]
      exact happended

/-- The bytes appended are those written since (45_decompressor.md R201). -/
theorem Appended.writtenSince {n : Nat} {b : Nat → Byte} (h : Appended u v n b) (hd : u.outDir = .forward) :
    v.toInst.writtenSince u.produced = (List.range n).map b := by
  have hdir : v.outDir = .forward := (congrArg (·.outDir) h.frame).trans hd
  rw [Inst.writtenSince, produced_of_forward hd, produced_of_forward hdir, h.cursor, Nat.add_sub_cancel_left]
  refine List.map_congr_left fun i hi => ?_
  simp only [hdir, h.written i (List.mem_range.1 hi)]
  rfl

/-- A raw chunk is copied, run through `chk_update`, and its checksum decides (46_formats.md R225, R226). -/
theorem xpkDeliver_of_raw (hraw : c.type = 0) (win : Window)
    (h : (copyRawChunk c.size.toNat c.off.toNat).run u = .ok () v) : (xpkDeliver x c win).run u
      = ((x.chunkChecksumHolds c win).run { v with chk := x.chkUpdate v.chk (v.toInst.writtenSince u.produced) }).andThen
        fun holds t => .ok (if holds then .chunk else .failed .checksumMismatch) t := by
  show (Script.bind (xpkChunkBody x c win) _).run u = _
  rw [xpkChunkBody, if_pos hraw, Script.run_bind, Script.run_bind, h]
  show (Script.bind (x.chunkChecksumHolds c win) _).run _ = _
  rw [Script.run_bind]
  rfl

end

/-- Settles O52: the copy appends the chunk's bytes, and the checksum, run from there, decides. -/
theorem xpkRawChunkIsCopied : Obligations.XpkRawChunkIsCopied := by
  intro x c s u hi hs hd hopens hraw hin hroom
  have hmoved := hopens.moved
  have hu : DecodingInv u := hmoved.di (atChunk_inv hi hs)
  have hdir : u.outDir = .forward := hmoved.frame.outDir.trans hd
  have hsetup : u.setup = s.setup := hmoved.frame.setup
  have hbytes : ∀ k, u.inByte k = s.inByte k := fun k => by rw [State.inByte, hsetup, State.inByte]
  rw [produced_of_forward hdir] at hroom
  obtain ⟨v, hcopy, happended⟩ := copyRawChunk_run c.size.toNat c.off.toNat u hu.2 hu.valid hdir (by rw [hsetup]; exact hin)
    hroom
  simp only [hbytes] at happended
  have hchk : v.chk = u.chk := congrArg (·.chk) happended.frame
  have hdeliver := xpkDeliver_of_raw (x := x) hraw s.window hcopy
  rw [happended.writtenSince hdir, hchk] at hdeliver
  have hrun := hopens.run
  rw [if_neg (by rw [hraw]; decide), hdeliver] at hrun
  refine ⟨{ v with chk := x.chkUpdate u.chk ((List.range c.size.toNat).map fun i => s.inByte (c.off.toNat + i)) }, ?frame,
    happended.written, happended.others, fun w hw => ?delivers, fun w hw => ?fails⟩
  case frame =>
    have hcursor : v.outCur = u.outCur + c.size := by
      apply BitVec.eq_of_toNat_eq
      have hlt := v.outCur.isLt
      rw [BitVec.toNat_add, happended.cursor, Nat.mod_eq_of_lt (by have := happended.cursor; omega)]
    rw [← hcursor]
    conv_lhs => rw [happended.frame]
  case fails =>
    rw [hw] at hrun
    exact x.nextChunk_of_raised hs (chunkBody_of_end (d := xpkDescriptor x) hrun)
  case delivers =>
    rw [hw] at hrun
    refine ⟨x.nextChunk_of_body hs (chunkBody_of_chunk (d := xpkDescriptor x) hrun), fun hcur hwcur => ?_⟩
    have hchecked : (Run.ok true w).Ends (SequencerMoved _) := hw ▸ Script.run_moved (x.chunkChecksumHolds c s.window) _
    have hwdir : w.outDir = .forward := hchecked.frame.outDir.trans ((congrArg (·.outDir) happended.frame).trans hdir)
    rw [produced_of_forward hwdir, produced_of_forward hd, hwcur, ← hcur]
    show BitVec.ofNat 32 (v.outCur.toNat - u.outCur.toNat) = c.size
    rw [happended.cursor, Nat.add_sub_cancel_left, BitVec.ofNat_toNat, BitVec.setWidth_eq]

/-! ## StoneCracker (46_formats.md R229 to R231) -/

section
variable {x : StoneParts} {s u : State}

/-- The end of a step whose activity ended so. -/
def stepEnd (r : Option StepFailure) (t : State) : Run Unit :=
  match r with
  | none => .ok () t
  | some e => .raised e.cause t

theorem runChecked_step_eq (y : Script (Option StepFailure)) (s : State) :
    runChecked StepFailure.cause y s = (y.run s).andThen stepEnd :=
  congrArg (y.run s).andThen (funext fun r => funext fun t => by cases r <;> rfl)

theorem count_overflows_iff (count : Word) : (sum count.toNat 1).2 = true ↔ count.toNat = 2 ^ 32 - 1 := by
  rw [sum_snd]
  omega

theorem word_count_add_one {count : Word} (h : count.toNat ≠ 2 ^ 32 - 1) :
    word (sum count.toNat 1).1 = count + 1 := word_sum_of_fits (by omega)

/-- Issuing one command more, whatever it means. -/
theorem correctCounts_issue {i : Instr} {next : Bool → Inst → Script (Option StepFailure)} {j : Instr}
    (hj : countCorrected i s = sequencerCommand j s)
    (ih : ∀ a inst s, runChecked StepFailure.cause (correctCounts (next a inst)) s
      = ((next a inst).runAs countCorrected s).andThen stepEnd) :
    runChecked StepFailure.cause (.issue j fun a inst => correctCounts (next a inst)) s
      = ((Script.issue i next).runAs countCorrected s).andThen stepEnd := by
  simp only [runChecked_step_eq, Script.run, Script.runAs, hj] at ih ⊢
  cases sequencerCommand j s with
  | ok v t => exact ih ..
  | illegal => exact ih ..
  | raised c t => rfl
  | stuck => rfl

/-- The correction of the counts is another meaning of the copies (46_formats.md R230). -/
theorem correctCounts_runs (y : Script (Option StepFailure)) : ∀ s : State,
    runChecked StepFailure.cause (correctCounts y) s = (y.runAs countCorrected s).andThen stepEnd := by
  induction y with
  | ret r => exact fun s => runChecked_step_eq (.ret r) s
  | look next ih => exact fun s => ih _ s
  | setChk v next ih => exact fun s => ih _
  | issue i next ih =>
    intro s
    cases i
    case outCopy distance count =>
      unfold correctCounts
      split
      case isTrue hover =>
        have hcount := (count_overflows_iff count).1 hover
        have hraise : countCorrected (.outCopy distance count) s = .raised .valueOverflow s := if_pos hcount
        simp only [Script.runAs, hraise]
        rfl
      case isFalse hfits =>
        have hcount := mt (count_overflows_iff count).2 hfits
        rw [word_count_add_one hcount]
        exact correctCounts_issue (if_neg hcount) ih
    all_goals exact correctCounts_issue rfl ih

theorem stone_selection (hm : bareMagic 3 s.window = true) : x.selection s.window = x.selects (s.inWord 0).toNat := by
  cases hbe : s.window.be32 0 with
  | none => simp [bareMagic, hbe] at hm
  | some m => rw [StoneParts.selection, hbe, ((window_be32_eq_some s).1 hbe).2]; rfl

/-- A header read as one of a generation has that generation's number in `GEN` (46_formats.md R231). -/
theorem interpret_readingOf_gen (g : Generation) (declared : Word) (s : State) :
    (interpret (stoneDescriptor x) (x.readingOf g) declared s).Yields (fun h _ => h.gen = g.number) fun _ _ => True := by
  refine Run.Yields.andThen (P := fun h _ => h.gen = g.number) ?_ fun raw t hraw => ?_
  · show (Script.run (Script.bind _ _) s).Yields _ _
    rw [Script.run_bind]
    cases ((x.reading g).header declared s.window).run s with
    | ok h t => rfl
    | _ => trivial
  · dsimp only
    split
    · trivial
    · cases ((x.readingOf g).fieldsLegal _ t.window).run t with
      | ok legal u =>
        cases legal with
        | true => exact hraw
        | false => trivial
      | _ => trivial

section
variable {d : Descriptor} {declared : Word} (hsize : d.minHeader ≤ s.setup.bufSize.toNat)
  (hmatch : d.matchWindow s.window = true)
include hsize hmatch

/-- The first reading of a header decides where it succeeds (46_formats.md R231). -/
theorem parse_of_first_ok {h : HeaderInfo} (hfirst : interpret d (d.first s.window) declared s = .ok h u) :
    parse d declared s = .ok h u := by
  rw [parse, if_neg (Nat.not_lt.2 hsize), if_neg (by rw [hmatch]; simp), hfirst]

/-- Where it fails the second one decides alone (46_formats.md R231). -/
theorem parse_of_first_raised {c : Cause} {again : Interpretation} (hsecond : d.second s.window = some again)
    (hfirst : interpret d (d.first s.window) declared s = .raised c u) :
    parse d declared s = interpret d again declared u := by
  rw [parse, if_neg (Nat.not_lt.2 hsize), if_neg (by rw [hmatch]; simp), hfirst, hsecond]

end

end

/-- Settles O54: the correction by induction on the step's script, the reading by the selection the magic makes. -/
theorem stoneCrackerQuirks : Obligations.StoneCrackerQuirks := by
  intro x
  refine ⟨fun w s hgen => ?correction, fun w s hgen => ?others, fun declared s hsize hm hmore => ?reading⟩
  case correction =>
    have hstep : runChecked StepFailure.cause ((stoneDescriptor x).step w) s
        = runChecked StepFailure.cause (stoneStep x s.gen.toNat w) s := rfl
    rw [hstep, stoneStep, if_pos hgen, hgen, correctCounts_runs]
    exact congrArg _ (funext fun r => funext fun t => by cases r <;> rfl)
  case others =>
    have hstep : runChecked StepFailure.cause ((stoneDescriptor x).step w) s
        = runChecked StepFailure.cause (stoneStep x s.gen.toNat w) s := rfl
    rw [hstep, stoneStep, if_neg hgen]
  case reading =>
    intro d magic
    have hmatch : d.matchWindow s.window = true := by
      show (bareMagic 3 s.window && x.matchMore s.window) = true
      rw [hm, hmore]
      rfl
    have hselection := stone_selection (x := x) hm
    have hgen (g : Generation) (t : State) {h : HeaderInfo} {v : State}
        (hrun : interpret d (x.readingOf g) declared t = .ok h v) : h.gen = g.number := by
      have hyields := interpret_readingOf_gen (x := x) g declared t
      rwa [hrun] at hyields
    refine ⟨fun g hg => ?_, fun htwo => ?_⟩
    · have hsel : x.selection s.window = .generation g := hselection.trans hg
      have hfirst : d.first s.window = x.readingOf g := by simp only [d, stoneDescriptor, hsel]
      have hsecond : d.second s.window = none := by simp only [d, stoneDescriptor, hsel]
      have hparse := parse_of_single (declared := declared) hsize hmatch hsecond
      rw [hfirst] at hparse
      exact ⟨hparse, fun h v hrun => hgen g s (hparse ▸ hrun)⟩
    · have hsel : x.selection s.window = .twoOrOne := hselection.trans htwo
      have hfirst : d.first s.window = x.readingOf .gen2 := by simp only [d, stoneDescriptor, hsel]
      have hsecond : d.second s.window = some (x.readingOf .gen1) := by simp only [d, stoneDescriptor, hsel]
      refine ⟨fun h u hrun => ?_, fun c u hrun => ?_⟩
      · exact ⟨parse_of_first_ok hsize hmatch (by rw [hfirst]; exact hrun), hgen .gen2 s hrun⟩
      · have hparse := parse_of_first_raised hsize hmatch hsecond (by rw [hfirst]; exact hrun)
        exact ⟨hparse, fun h v hagain => hgen .gen1 u (hparse ▸ hagain)⟩

end Sys2Proof.Machine
end

section
/-!
What the commands of the Huffman decoder answer (42_huffman.md R133, R140, R142, R147): the construction of a table by
what `Build` comes to, and a decode by what the table or the shape finds in the reader's bit sequence.
-/
namespace Sys2Proof.Machine

/-! ## `HUF.MAKE` and `HUF.FIXED` (42_huffman.md R133, R140) -/

section
variable {s : State} {t : Byte} {width : BitVec 5} {num : Word}

theorem makeRefused_iff : makeRefused t width num 1024 s = true
    ↔ 8 ≤ t.toNat ∨ width.toNat = 0 ∨ 16 < width.toNat ∨ 1024 < num.toNat ∨ s.brCfg.valid = false := by
  have hzero : width = 0#5 ↔ width.toNat = 0 := BitVec.toNat_eq
  simp [makeRefused, Config.numTables, Config.hufMaxw, hzero, or_assoc]

theorem hufMake_refused (ok : Bool) (h : (8 ≤ t.toNat ∨ width.toNat = 0 ∨ 16 < width.toNat ∨ 1024 < num.toNat
      ∨ s.brCfg.valid = false) ∨ Memory.prefixOf s.len num.toNat = none) : hufMake t ok width num s = .illegal := by
  unfold hufMake
  split
  case isTrue => rfl
  case isFalse hr => rw [h.resolve_left (mt makeRefused_iff.2 hr)]

theorem hufFixed_refused (ok : Bool) (h : (8 ≤ t.toNat ∨ width.toNat = 0 ∨ 16 < width.toNat ∨ 1024 < num.toNat
      ∨ s.brCfg.valid = false) ∨ Memory.prefixOf s.tri num.toNat = none) : hufFixed t ok width num s = .illegal := by
  unfold hufFixed
  split
  case isTrue => rfl
  case isFalse hr => rw [h.resolve_left (mt makeRefused_iff.2 hr)]

/-- A triple as the code it stands for (42_huffman.md R132). -/
def Triple.toCode (x : Triple) : Code := { length := x.length.toNat, code := x.code.toNat, value := x.value.toNat }

/-- The commands that build a table from a list of codes, where their operands are in range. -/
inductive Builds (s : State) (t : Byte) (ok : Bool) (width : BitVec 5) (num : Word) (cs : List Code) :
    Instr → TableMode → Prop
  | make {lens : List (BitVec 6)} (hl : Memory.prefixOf s.len num.toNat = some lens)
      (hc : canonicalCodes (lens.map (·.toNat)) = some cs) : Builds s t ok width num cs (.hufMake t ok width num) .canonical
  | fixed {ts : List Triple} (ht : Memory.prefixOf s.tri num.toNat = some ts) (hc : cs = ts.map Triple.toCode) :
      Builds s t ok width num cs (.hufFixed t ok width num) .fixed

section
variable (hn : ¬ makeRefused t width num 1024 s = true) {ok : Bool}
include hn

theorem hufMake_over {lens : List (BitVec 6)} (hl : Memory.prefixOf s.len num.toNat = some lens)
    (hc : canonicalCodes (lens.map (·.toNat)) = none) :
    hufMake t ok width num s = .raised .huffOver { s with ht := Memory.erase s.ht t.toNat } := by
  rw [hufMake, if_neg (by exact hn), hl]
  simp only [hc]

theorem commandBody_of_builds {cs : List Code} {i : Instr} {mode : TableMode} (h : Builds s t ok width num cs i mode) :
    commandBody i s = makeTable t mode ok width cs s := by
  cases h with
  | make hl hc =>
    show hufMake t ok width num s = _
    rw [hufMake, if_neg (by exact hn), hl]
    simp only [hc]
  | fixed ht hc =>
    show hufFixed t ok width num s = _
    rw [hufFixed, if_neg (by exact hn), ht, hc]
    rfl

end

/-- The table a construction with these entries stands for. -/
abbrev builtTable (s : State) (mode : TableMode) (width : BitVec 5) (es : List Entry) : Table where
  mode := mode
  order := s.brCfg.order
  w := width
  entries := es
  shape := []

theorem makeTable_of_ok {mode : TableMode} {ok : Bool} {cs : List Code} {es : List Entry}
    (h : build cs width.toNat s.brCfg.order ok = .ok es) : makeTable t mode ok width cs s
      = result (word es.length) { s with ht := Memory.set s.ht t.toNat (builtTable s mode width es) } := by
  rw [makeTable, h]

theorem makeTable_of_error {mode : TableMode} {ok : Bool} {cs : List Code} {c : Cause}
    (h : build cs width.toNat s.brCfg.order ok = .error c) :
    makeTable t mode ok width cs s = .raised c { s with ht := Memory.erase s.ht t.toNat } := by
  rw [makeTable, h]

theorem get_erased (m : List (Nat × Table)) (n k : Nat) :
    Memory.get (Memory.erase m n) k = if k = n then none else Memory.get m k := by
  simp only [Memory.get_erase, eq_comm]

theorem get_written (m : List (Nat × Table)) (n k : Nat) (table : Table) :
    Memory.get (Memory.set m n table) k = if k = n then some table else Memory.get m k := by
  simp only [Memory.get_set, eq_comm]

/-- A construction that fails is of category Decompression, whatever the state (60_exceptions.md R262). -/
theorem build_error_category {cs : List Code} {w : Nat} {order : BitOrder} {ok : Bool} {c : Cause}
    (h : build cs w order ok = .error c) (f : Fsm) : c.category f = .decompression := by
  rcases build_error h with rfl | rfl | rfl <;> rfl

section
variable {ok : Bool} {cs : List Code} {i : Instr} {mode : TableMode}

theorem Builds.kind (h : Builds s t ok width num cs i mode) : kindOf i = .tool := by cases h <;> rfl

theorem exec_of_build_ok {es : List Entry} (hs : s.fsm = .unvalidated) (hn : ¬ makeRefused t width num 1024 s = true)
    (h : Builds s t ok width num cs i mode) (hb : build cs width.toNat s.brCfg.order ok = .ok es) :
    exec i s = .next (State.returned { s with ht := Memory.set s.ht t.toNat (builtTable s mode width es) }
      (BitVec.ofNat 32 es.length)) := by
  rw [exec_eq_hostCommand, h.kind]
  exact hostCommand_of_result (accepts_tool_of_unvalidated hs) ((commandBody_of_builds hn h).trans (makeTable_of_ok hb))

theorem exec_of_build_error {c : Cause} (hs : s.fsm = .unvalidated) (hn : ¬ makeRefused t width num 1024 s = true)
    (h : Builds s t ok width num cs i mode) (hb : build cs width.toNat s.brCfg.order ok = .error c) :
    exec i s = .next (State.latched { s with ht := Memory.erase s.ht t.toNat } .decompression c) := by
  have hraised := hostCommand_of_raised hs ((commandBody_of_builds hn h).trans (makeTable_of_error hb)) rfl
  rw [exec_eq_hostCommand, h.kind, hraised, build_error_category hb]

theorem exec_hufMake_over {lens : List (BitVec 6)} (hs : s.fsm = .unvalidated)
    (hn : ¬ makeRefused t width num 1024 s = true) (hl : Memory.prefixOf s.len num.toNat = some lens)
    (hc : canonicalCodes (lens.map (·.toNat)) = none) : exec (.hufMake t ok width num) s
      = .next (State.latched { s with ht := Memory.erase s.ht t.toNat } .decompression .huffOver) :=
  hostCommand_of_raised hs (hufMake_over hn hl hc) rfl

end

end

/-- Settles O33: refused, over-subscribed, or as the construction of the code list ends. -/
theorem tableConstructionResults : Obligations.TableConstructionResults := by
  intro s t ok width num hs
  refine ⟨fun h => ⟨?_, ?_⟩, fun h => ?_, fun h => ?_, fun ht hw hw' hnum hv => ?_⟩
  · exact hostCommand_of_illegal (hufMake_refused ok (.inl h))
  · exact hostCommand_of_illegal (hufFixed_refused ok (.inl h))
  · exact hostCommand_of_illegal (hufMake_refused ok (.inr h))
  · exact hostCommand_of_illegal (hufFixed_refused ok (.inr h))
  · have hn : ¬ makeRefused t width num 1024 s = true := by
      rw [makeRefused_iff, hv]
      simp only [Bool.true_eq_false, or_false]
      omega
    refine ⟨fun lens hl hc => ?_, fun cs i mode h => ?_⟩
    · exact ⟨_, exec_hufMake_over hs hn hl hc, get_erased s.ht t.toNat⟩
    · have hbuilds : Builds s t ok width num cs i mode := by
        rcases h with ⟨rfl, rfl, lens, hl, hc⟩ | ⟨rfl, rfl, ts, hts, hc⟩
        · exact .make hl hc
        · exact .fixed hts hc
      refine ⟨fun es hb => ?_, fun c hb => ?_⟩
      · exact ⟨_, exec_of_build_ok hs hn hbuilds hb, fun k => get_written s.ht t.toNat k _⟩
      · exact ⟨_, exec_of_build_error hs hn hbuilds hb, get_erased s.ht t.toNat⟩

end Sys2Proof.Machine
end

section
/-!
`HUF.DECODE` (42_huffman.md R142, R147): one level of a lookup in the terms of the bits to come, then a built table, then
an adaptive one.
-/
namespace Sys2Proof.Machine

/-! ## One level of a lookup -/

/-- The level runs out of bits before it comes to a `LEAF` or to its end (42_huffman.md R142). -/
abbrev Table.Starves (t : Table) (base width : Nat) (bits : List Bool) : Prop :=
  bits.length < width ∧ t.Passes base width bits (bits.length + 1)

section
variable {t : Table} {base width : Nat} {bits : List Bool}

theorem Table.Finds.unique {k k' : Nat} {v v' : BitVec 16} (h : t.Finds base width bits k v)
    (h' : t.Finds base width bits k' v') : k = k' ∧ v = v' := by
  obtain ⟨-, -, hpass, hcovered⟩ := h
  obtain ⟨-, -, hpass', hcovered'⟩ := h'
  rcases Nat.lt_trichotomy k k' with hlt | rfl | hlt
  · cases hcovered.symm.trans (hpass' k hlt)
  · exact ⟨rfl, Option.some.inj (hcovered.symm.trans hcovered')⟩
  · cases hcovered'.symm.trans (hpass k' hlt)

theorem Table.Finds.not_exhausts {k : Nat} {v : BitVec 16} {e : Entry} (h : t.Finds base width bits k v) :
    ¬ t.Exhausts base width bits e := by
  obtain ⟨hk, -, -, hcovered⟩ := h
  rintro ⟨-, hpass, -⟩
  cases hcovered.symm.trans (hpass k (Nat.lt_succ_of_le hk))

theorem Table.Finds.not_starves {k : Nat} {v : BitVec 16} (h : t.Finds base width bits k v) :
    ¬ t.Starves base width bits := by
  obtain ⟨-, hk, -, hcovered⟩ := h
  rintro ⟨-, hpass⟩
  cases hcovered.symm.trans (hpass k (Nat.lt_succ_of_le hk))

theorem Table.Exhausts.not_starves {e : Entry} (h : t.Exhausts base width bits e) : ¬ t.Starves base width bits :=
  fun h' => absurd h.1 (Nat.not_le.2 h'.1)

theorem Table.Exhausts.unique {e e' : Entry} (h : t.Exhausts base width bits e) (h' : t.Exhausts base width bits e') :
    e = e' := h.2.2.symm.trans h'.2.2

theorem numberOf_singleton (o : BitOrder) (b : Bool) : numberOf o [b] = b.toNat := by cases o <;> cases b <;> rfl

theorem Table.Passes.succ {k : Nat} (h : t.Passes base width bits k)
    (hc : (t.entryAt base width (bits.take k)).covered k = none) : t.Passes base width bits (k + 1) := by
  intro j hj
  rcases Nat.lt_succ_iff_lt_or_eq.1 hj with hlt | rfl
  · exact h j hlt
  · exact hc

/-- One bit more of the index of a level (42_huffman.md R135). -/
theorem nextIndex_prefixIndex (order : BitOrder) {bits : List Bool} (b : Bool) (h : bits.length < width) :
    nextIndex order width bits.length (prefixIndex order width bits) b.toNat = prefixIndex order width (bits ++ [b]) := by
  cases order with
  | lsbFirst => simp only [nextIndex, prefixIndex, numberOf_append, numberOf_singleton]
  | msbFirst =>
    obtain ⟨k, rfl⟩ := Nat.exists_eq_add_of_lt h
    simp only [nextIndex, prefixIndex, numberOf_append, numberOf_singleton, List.length_append, List.length_singleton,
      show bits.length + k + 1 - bits.length = k + 1 by omega, show bits.length + k + 1 - 1 - bits.length = k by omega,
      show bits.length + k + 1 - (bits.length + 1) = k by omega]
    ring

/-- The three ends of a level (42_huffman.md R142), where `bits` have been read on it: a `LEAF` after `n` bits in all, the
end of the level, the end of the input. -/
theorem lookup_cases (left : Nat) : ∀ (bits : List Bool) (s : State), bits.length + left = width →
    t.Passes base width (bits ++ s.bitStream) bits.length →
    (∃ n v u, t.Finds base width (bits ++ s.bitStream) n v
        ∧ lookup t base width left bits.length (prefixIndex t.order width bits) s = .ok (.symbol v) u
        ∧ u = s.withReader u ∧ u.bitStream = (bits ++ s.bitStream).drop n)
      ∨ (∃ e u, t.Exhausts base width (bits ++ s.bitStream) e
        ∧ lookup t base width left bits.length (prefixIndex t.order width bits) s = .ok (.entry e) u
        ∧ u = s.withReader u ∧ u.bitStream = (bits ++ s.bitStream).drop width)
      ∨ (t.Starves base width (bits ++ s.bitStream) ∧ ∃ u,
        lookup t base width left bits.length (prefixIndex t.order width bits) s = .raised .endOfInput u
          ∧ u = s.withReader u) := by
  induction left with
  | zero =>
    intro bits s hlen hpass
    have htake : (bits ++ s.bitStream).take bits.length = bits := List.take_left
    have hdrop : (bits ++ s.bitStream).drop bits.length = s.bitStream := List.drop_left
    have hentry : t.entryAt base width bits = (t.entries[base + prefixIndex t.order width bits]?).getD .unmapped := rfl
    have hwidth : width = bits.length := hlen.symm
    cases hc : (t.entryAt base width bits).covered bits.length with
    | some v =>
      refine .inl ⟨bits.length, v, s, ⟨by omega, by simp, hpass, by rw [htake, hc]⟩, ?_, rfl, hdrop.symm⟩
      rw [lookup, ← hentry, hc]
    | none =>
      refine .inr (.inl ⟨t.entryAt base width bits, s, ⟨by simp; omega, ?_, ?_⟩, ?_, rfl, ?_⟩)
      · rw [show width + 1 = bits.length + 1 by omega]
        exact hpass.succ (by rw [htake, hc])
      · rw [show (bits ++ s.bitStream).take width = bits by rw [← htake, ← hlen]; simp]
      · rw [lookup, ← hentry, hc]
      · rw [← hdrop, ← hlen]; simp
  | succ left ih =>
    intro bits s hlen hpass
    have htake : (bits ++ s.bitStream).take bits.length = bits := List.take_left
    have hentry : t.entryAt base width bits = (t.entries[base + prefixIndex t.order width bits]?).getD .unmapped := rfl
    cases hc : (t.entryAt base width bits).covered bits.length with
    | some v =>
      refine .inl ⟨bits.length, v, s, ⟨by omega, by simp, hpass, by rw [htake, hc]⟩, ?_, rfl, List.drop_left.symm⟩
      rw [lookup, ← hentry, hc]
    | none =>
      have hpass' := hpass.succ (by rw [htake, hc])
      rw [lookup, ← hentry, hc]
      cases hbits : s.bitStream with
      | nil =>
        obtain ⟨u, hread, hu⟩ := (readBits_spec 1 s).2 (by rw [hbits]; exact Nat.one_pos)
        rw [hbits, List.append_nil] at hpass'
        refine .inr (.inr ⟨?_, u, by rw [hread]; rfl, hu⟩)
        rw [List.append_nil]
        exact ⟨by omega, hpass'⟩
      | cons b rest =>
        obtain ⟨u, hread, hu, hrest, -⟩ := (readBits_spec 1 s).1 (by rw [hbits]; simp)
        rw [hbits] at hread hrest
        have hrest : u.bitStream = rest := hrest
        have hall : bits ++ b :: rest = (bits ++ [b]) ++ u.bitStream := by rw [hrest]; simp
        have hnext := ih (bits ++ [b]) u (by simp; omega) (by rw [← hall, ← hbits]; simpa using hpass')
        rw [hread, Run.ok_andThen, show (b :: rest).take 1 = [b] from rfl, numberOf_singleton,
          nextIndex_prefixIndex t.order b (by omega), hall]
        rw [List.length_append, List.length_singleton] at hnext
        rcases hnext with ⟨n, v, w, hfinds, hrun, hw, hdrop⟩ | ⟨e, w, hexhausts, hrun, hw, hdrop⟩
            | ⟨hstarves, w, hrun, hw⟩
        · exact .inl ⟨n, v, w, hfinds, hrun, hw.trans (by rw [hu]; rfl), hdrop⟩
        · exact .inr (.inl ⟨e, w, hexhausts, hrun, hw.trans (by rw [hu]; rfl), hdrop⟩)
        · exact .inr (.inr ⟨hstarves, w, hrun, hw.trans (by rw [hu]; rfl)⟩)

end

/-! ## A whole lookup (42_huffman.md R142) -/

/-- The lookup ends on a slot that no code has mapped, in the primary table or in the sub-table it links to. -/
def Table.Unmapped (t : Table) (bits : List Bool) : Prop :=
  ∃ e, t.Exhausts 0 t.w.toNat bits e ∧ ((∀ base sw, e ≠ .link base sw)
    ∨ ∃ base sw e', e = .link base sw ∧ t.Exhausts base.toNat sw.toNat (bits.drop t.w.toNat) e')

/-- The input ends in the lookup. -/
def Table.RunsOut (t : Table) (bits : List Bool) : Prop :=
  t.Starves 0 t.w.toNat bits ∨ ∃ base sw, t.Exhausts 0 t.w.toNat bits (.link base sw)
    ∧ t.Starves base.toNat sw.toNat (bits.drop t.w.toNat)

section
variable {t : Table} {s : State}

/-- A level from its beginning. -/
theorem level_cases (t : Table) (base width : Nat) (s : State) :
    (∃ n v u, t.Finds base width s.bitStream n v ∧ lookup t base width width 0 0 s = .ok (.symbol v) u
        ∧ u = s.withReader u ∧ u.bitStream = s.bitStream.drop n)
      ∨ (∃ e u, t.Exhausts base width s.bitStream e ∧ lookup t base width width 0 0 s = .ok (.entry e) u
        ∧ u = s.withReader u ∧ u.bitStream = s.bitStream.drop width)
      ∨ (t.Starves base width s.bitStream ∧ ∃ u, lookup t base width width 0 0 s = .raised .endOfInput u
          ∧ u = s.withReader u) := by
  have hzero : prefixIndex t.order width [] = 0 := by
    cases t.order with
    | msbFirst => exact Nat.zero_mul _
    | lsbFirst => rfl
  have h := lookup_cases (t := t) (base := base) width [] s (Nat.zero_add width) nofun
  rw [hzero] at h
  exact h

/-- Every way a decode with a built table ends. -/
theorem decodeSymbol_cases (t : Table) (s : State) :
    (∃ k v u, t.Decodes s.bitStream k v ∧ decodeSymbol t s = result (v.setWidth 32) u ∧ u = s.withReader u
        ∧ u.bitStream = s.bitStream.drop k)
      ∨ (t.Unmapped s.bitStream ∧ ∃ u, decodeSymbol t s = .raised .huffUnmapped u ∧ u = s.withReader u)
      ∨ (t.RunsOut s.bitStream ∧ ∃ u, decodeSymbol t s = .raised .endOfInput u ∧ u = s.withReader u) := by
  rcases level_cases t 0 t.w.toNat s with ⟨n, v, u, hfinds, hrun, hu, hdrop⟩ | ⟨e, u, hexhausts, hrun, hu, hdrop⟩
      | ⟨hstarves, u, hrun, hu⟩
  · exact .inl ⟨n, v, u, .inl hfinds, by rw [decodeSymbol, hrun]; rfl, hu, hdrop⟩
  · cases e with
    | unmapped =>
      exact .inr (.inl ⟨⟨_, hexhausts, .inl nofun⟩, u, by rw [decodeSymbol, hrun]; rfl, hu⟩)
    | leaf len value =>
      exact .inr (.inl ⟨⟨_, hexhausts, .inl nofun⟩, u, by rw [decodeSymbol, hrun]; rfl, hu⟩)
    | link base sw =>
      have hsub := level_cases t base.toNat sw.toNat u
      rw [hdrop] at hsub
      have htrans {w : State} (hw : w = u.withReader w) : w = s.withReader w := hw.trans (by rw [hu]; rfl)
      rcases hsub with ⟨n, v, w, hfinds, hrun', hw, hdrop'⟩ | ⟨e', w, hexhausts', hrun', hw, -⟩ | ⟨hstarves, w, hrun', hw⟩
      · refine .inl ⟨t.w.toNat + n, v, w, .inr ⟨base, sw, hexhausts, Nat.le_add_right .., ?_⟩, ?_, htrans hw, ?_⟩
        · rwa [Nat.add_sub_cancel_left]
        · rw [decodeSymbol, hrun, Run.ok_andThen]
          simp only [hrun']
          rfl
        · rw [hdrop', List.drop_drop]
      · refine .inr (.inl ⟨⟨_, hexhausts, .inr ⟨base, sw, e', rfl, hexhausts'⟩⟩, w, ?_, htrans hw⟩)
        rw [decodeSymbol, hrun, Run.ok_andThen]
        simp only [hrun']
        rfl
      · refine .inr (.inr ⟨.inr ⟨base, sw, hexhausts, hstarves⟩, w, ?_, htrans hw⟩)
        rw [decodeSymbol, hrun, Run.ok_andThen]
        simp only [hrun']
        rfl
  · exact .inr (.inr ⟨.inl hstarves, u, by rw [decodeSymbol, hrun]; rfl, hu⟩)

/-! ## The three ends exclude each other -/

section
variable {bits : List Bool} {k k' : Nat} {v v' : BitVec 16} {base base' : BitVec 17} {sw sw' : BitVec 5}

theorem link_inj (h : t.Exhausts 0 t.w.toNat bits (.link base sw)) (h' : t.Exhausts 0 t.w.toNat bits (.link base' sw')) :
    base = base' ∧ sw = sw' := Entry.link.inj (h.unique h')

theorem Table.Decodes.unique (h : t.Decodes bits k v) (h' : t.Decodes bits k' v') : k = k' ∧ v = v' := by
  rcases h with h | ⟨base, sw, he, hk, hf⟩ <;> rcases h' with h' | ⟨base', sw', he', hk', hf'⟩
  · exact h.unique h'
  · exact absurd he' h.not_exhausts
  · exact absurd he h'.not_exhausts
  · obtain ⟨rfl, rfl⟩ := link_inj he he'
    obtain ⟨hkk, hv⟩ := hf.unique hf'
    exact ⟨by omega, hv⟩

theorem Table.Decodes.not_unmapped (h : t.Decodes bits k v) : ¬ t.Unmapped bits := by
  rintro ⟨e, he, hlink⟩
  rcases h with h | ⟨base, sw, he', -, hf⟩
  · exact h.not_exhausts he
  · obtain rfl := he.unique he'
    rcases hlink with hlink | ⟨base', sw', e', hl, hex⟩
    · exact hlink base sw rfl
    · obtain ⟨rfl, rfl⟩ := Entry.link.inj hl
      exact hf.not_exhausts hex

theorem Table.Decodes.not_runsOut (h : t.Decodes bits k v) : ¬ t.RunsOut bits := by
  rintro (hs | ⟨base, sw, he, hs⟩) <;> rcases h with h | ⟨base', sw', he', -, hf⟩
  · exact h.not_starves hs
  · exact he'.not_starves hs
  · exact h.not_exhausts he
  · obtain ⟨rfl, rfl⟩ := link_inj he he'
    exact hf.not_starves hs

theorem Table.Unmapped.not_runsOut (h : t.Unmapped bits) : ¬ t.RunsOut bits := by
  obtain ⟨e, he, hlink⟩ := h
  rintro (hs | ⟨base, sw, he', hs⟩)
  · exact he.not_starves hs
  · obtain rfl := he.unique he'
    rcases hlink with hlink | ⟨base', sw', e', hl, hex⟩
    · exact hlink base sw rfl
    · obtain ⟨rfl, rfl⟩ := Entry.link.inj hl
      exact hex.not_starves hs

end

theorem decodeSymbol_of_decodes {k : Nat} {v : BitVec 16} (h : t.Decodes s.bitStream k v) :
    ∃ u, decodeSymbol t s = result (v.setWidth 32) u ∧ u = s.withReader u ∧ u.bitStream = s.bitStream.drop k := by
  rcases decodeSymbol_cases t s with ⟨k', v', u, h', hrun, hu, hdrop⟩ | ⟨h', -⟩ | ⟨h', -⟩
  · obtain ⟨rfl, rfl⟩ := h.unique h'
    exact ⟨u, hrun, hu, hdrop⟩
  · exact absurd h' h.not_unmapped
  · exact absurd h' h.not_runsOut

theorem decodeSymbol_of_unmapped (h : t.Unmapped s.bitStream) :
    ∃ u, decodeSymbol t s = .raised .huffUnmapped u ∧ u = s.withReader u := by
  rcases decodeSymbol_cases t s with ⟨k, v, u, h', -⟩ | ⟨-, h'⟩ | ⟨h', -⟩
  · exact absurd h h'.not_unmapped
  · exact h'
  · exact absurd h' h.not_runsOut

theorem decodeSymbol_of_runsOut (h : t.RunsOut s.bitStream) :
    ∃ u, decodeSymbol t s = .raised .endOfInput u ∧ u = s.withReader u := by
  rcases decodeSymbol_cases t s with ⟨k, v, u, h', -⟩ | ⟨h', -⟩ | ⟨-, h'⟩
  · exact absurd h h'.not_runsOut
  · exact absurd h h'.not_runsOut
  · exact h'

end

/-! ## `HUF.DECODE` -/

section
variable {s u : State} {n : Byte} {table : Table}

theorem hufDecode_refused (h : 8 ≤ n.toNat ∨ Memory.get s.ht n.toNat = none ∨ s.brCfg.valid = false
    ∨ (∃ table, Memory.get s.ht n.toNat = some table ∧ table.order ≠ s.brCfg.order)) : hufDecode n s = .illegal := by
  unfold hufDecode
  split
  case isTrue => rfl
  case isFalse hn =>
    rcases h with h | h | h | ⟨table, hget, horder⟩
    · exact absurd h hn
    · rw [h]
    · split
      · rfl
      · exact if_pos (by simp [h])
    · rw [hget]
      exact if_pos (by simp [horder])

theorem hufDecode_accepted (hn : n.toNat < 8) (hget : Memory.get s.ht n.toNat = some table)
    (hv : s.brCfg.valid = true) (horder : table.order = s.brCfg.order) :
    hufDecode n s = if table.mode = .adaptive then decodeAdaptive n table s else decodeSymbol table s := by
  rw [hufDecode, if_neg (Nat.not_le.2 hn), hget]
  exact if_neg (by simp [hv, horder])

theorem hufDecode_built (hn : n.toNat < 8) (hget : Memory.get s.ht n.toNat = some table)
    (hv : s.brCfg.valid = true) (horder : table.order = s.brCfg.order) (hm : table.mode ≠ .adaptive) :
    hufDecode n s = decodeSymbol table s := (hufDecode_accepted hn hget hv horder).trans (if_neg hm)

theorem exec_hufDecode_of_decodes {k : Nat} {v : BitVec 16} (hs : s.fsm = .unvalidated)
    (hd : hufDecode n s = decodeSymbol table s) (h : table.Decodes s.bitStream k v) : ∃ u,
      exec (.hufDecode n) s = .next ((s.withReader u).returned (v.setWidth 32))
        ∧ (s.withReader u).bitStream = s.bitStream.drop k := by
  obtain ⟨u, hrun, hu, hdrop⟩ := decodeSymbol_of_decodes h
  exact ⟨u, hu ▸ hostCommand_of_result (accepts_tool_of_unvalidated hs) (hd.trans hrun), hu ▸ hdrop⟩

theorem exec_hufDecode_of_raised {c : Cause} (hs : s.fsm = .unvalidated) (hd : hufDecode n s = .raised c u)
    (hu : u = s.withReader u) : exec (.hufDecode n) s = .next ((s.withReader u).latched (c.category .unvalidated) c) :=
  hu ▸ hostCommand_of_raised hs hd (congrArg (·.fsm) hu)

theorem exec_hufDecode_of_unmapped (hs : s.fsm = .unvalidated) (hd : hufDecode n s = decodeSymbol table s)
    (h : table.Unmapped s.bitStream) :
    ∃ u, exec (.hufDecode n) s = .next ((s.withReader u).latched .decompression .huffUnmapped) := by
  obtain ⟨u, hrun, hu⟩ := decodeSymbol_of_unmapped h
  exact ⟨u, exec_hufDecode_of_raised hs (hd.trans hrun) hu⟩

end

/-- Settles O36: the ends of the lookup as the table's entries and the bits to come decide them. -/
theorem symbolDecodeResult : Obligations.SymbolDecodeResult := by
  intro s n hs
  refine ⟨fun h => hostCommand_of_illegal (hufDecode_refused h), fun table hn hget hv horder hm => ?_⟩
  have hd := hufDecode_built hn hget hv horder hm
  refine ⟨fun k v h => exec_hufDecode_of_decodes hs hd h, fun h => exec_hufDecode_of_unmapped hs hd ?_, fun h => ?_⟩
  · rcases h with h | ⟨base, sw, h, h'⟩
    · exact ⟨_, h, .inl nofun⟩
    · exact ⟨_, h, .inr ⟨base, sw, _, rfl, h'⟩⟩
  · have hout : table.RunsOut s.bitStream := by
      rcases h with h | ⟨base, sw, h, h'⟩
      · exact .inl h
      · exact .inr ⟨base, sw, h, by rw [Table.Starves, List.length_drop]; exact h'⟩
    obtain ⟨u, hrun, hu⟩ := decodeSymbol_of_runsOut hout
    exact ⟨u, exec_hufDecode_of_raised hs (hd.trans hrun) hu⟩

end Sys2Proof.Machine
end

section
/-!
The adaptive mode of the Huffman decoder (42_huffman.md R147): for every shape, the fewest bits to come that name a symbol.
-/
namespace Sys2Proof.Machine

/-! ## Reading until the shape names a symbol -/

section
variable {s : State}

/-- After `bits`, the first `n` bits to come are the fewest that name a symbol, and `v` is its name. -/
def Names (shape : AdaptShape) (bits rest : List Bool) (n : Nat) (v : Word) : Prop :=
  n ≤ rest.length ∧ Config.adaptDecode shape (bits ++ rest.take n) = some v
    ∧ ∀ j < n, Config.adaptDecode shape (bits ++ rest.take j) = none

/-- After `bits`, no bits to come name a symbol. -/
def NamesNone (shape : AdaptShape) (bits rest : List Bool) : Prop :=
  ∀ j ≤ rest.length, Config.adaptDecode shape (bits ++ rest.take j) = none

section
variable {shape : AdaptShape} {bits rest : List Bool} {b : Bool}

theorem Names.cons {n : Nat} {v : Word} (h0 : Config.adaptDecode shape bits = none) (h : Names shape (bits ++ [b]) rest n v) :
    Names shape bits (b :: rest) (n + 1) v := by
  obtain ⟨hlen, hv, hbefore⟩ := h
  refine ⟨Nat.succ_le_succ hlen, by simpa using hv, fun j hj => ?_⟩
  cases j with
  | zero => simpa using h0
  | succ j => simpa using hbefore j (Nat.lt_of_succ_lt_succ hj)

theorem NamesNone.cons (h0 : Config.adaptDecode shape bits = none) (h : NamesNone shape (bits ++ [b]) rest) :
    NamesNone shape bits (b :: rest) := by
  intro j hj
  cases j with
  | zero => simpa using h0
  | succ j => simpa using h j (Nat.le_of_succ_le_succ hj)

end

/-- With turns for all the bits there are, the reading ends where the shape says or with the input. -/
theorem adaptiveSymbol_cases (shape : AdaptShape) (turns : Nat) : ∀ (bits : List Bool) (s : State),
    s.bitStream.length < turns →
    (∃ n v u, Names shape bits s.bitStream n v ∧ adaptiveSymbol shape turns bits s = .ok v u ∧ u = s.withReader u
        ∧ u.bitStream = s.bitStream.drop n)
      ∨ (NamesNone shape bits s.bitStream ∧ ∃ u, adaptiveSymbol shape turns bits s = .raised .endOfInput u
        ∧ u = s.withReader u) := by
  induction turns with
  | zero => exact fun _ _ h => absurd h (Nat.not_lt_zero _)
  | succ turns ih =>
    intro bits s hlen
    cases h0 : Config.adaptDecode shape bits with
    | some v =>
      refine .inl ⟨0, v, s, ⟨Nat.zero_le _, by simpa using h0, nofun⟩, ?_, rfl, rfl⟩
      rw [adaptiveSymbol, h0]
    | none =>
      rw [adaptiveSymbol, h0]
      cases hbits : s.bitStream with
      | nil =>
        obtain ⟨u, hread, hu⟩ := (readBits_spec 1 s).2 (by rw [hbits]; exact Nat.one_pos)
        refine .inr ⟨fun j hj => ?_, u, by rw [hread]; rfl, hu⟩
        rw [List.take_nil, List.append_nil, h0]
      | cons b rest =>
        obtain ⟨u, hread, hu, hrest, -⟩ := (readBits_spec 1 s).1 (by rw [hbits]; simp)
        rw [hbits] at hread hrest hlen
        have hrest : u.bitStream = rest := hrest
        have hbit : (b.toNat == 1) = b := by cases b <;> rfl
        rw [hread, Run.ok_andThen, show (b :: rest).take 1 = [b] from rfl, numberOf_singleton, hbit]
        have hnext := ih (bits ++ [b]) u (by rw [hrest]; exact Nat.lt_of_succ_lt_succ hlen)
        rw [hrest] at hnext
        rcases hnext with ⟨n, v, w, hnames, hrun, hw, hdrop⟩ | ⟨hnone, w, hrun, hw⟩
        · exact .inl ⟨n + 1, v, w, hnames.cons h0, hrun, hw.trans (by rw [hu]; rfl), hdrop⟩
        · exact .inr ⟨hnone.cons h0, w, hrun, hw.trans (by rw [hu]; rfl)⟩

/-- The bits of the refill words to come are among those of the bytes left (41_bitreader.md R103). -/
theorem bitStream_length_le_bitsLeft (s : State) : s.bitStream.length ≤ bitsLeft s := by
  have whole (a n : Nat) : a / n * (8 * n) ≤ 8 * a := by
    have := Nat.div_mul_le_self a n
    rw [Nat.mul_left_comm]
    omega
  rw [bitStream_length, bitsLeft]
  apply Nat.add_le_add_left
  unfold State.wordsToCome
  cases s.brCfg.dir with
  | forward =>
    rw [List.length_map, List.length_range]
    exact whole ..
  | backward =>
    rw [List.length_map, List.length_range]
    exact whole ..

end

/-! ## The commands -/

section
variable {s : State} {n : Byte} {table : Table}

theorem hufAdapt_refused (h : s.setup.adaptHeld = false ∨ 8 ≤ n.toNat) : hufAdapt n s = .illegal :=
  if_pos (by simpa [Config.numTables] using h)

theorem hufAdapt_of_old {old : Table} (ha : s.setup.adaptHeld = true) (hn : n.toNat < 8)
    (hget : Memory.get s.ht n.toNat = some old) : hufAdapt n s = complete
      { s with ht := Memory.set s.ht n.toNat { old with mode := .adaptive, shape := Config.adaptInit } } := by
  rw [hufAdapt, if_neg (by simp [ha, Config.numTables, hn]), hget]

theorem hufAdapt_of_none (ha : s.setup.adaptHeld = true) (hn : n.toNat < 8) (hget : Memory.get s.ht n.toNat = none) :
    hufAdapt n s = complete { s with
      ht := Memory.set s.ht n.toNat { mode := .adaptive, order := Config.freeTableOrder s.freeCount, w := 0,
                                      entries := [], shape := Config.adaptInit }
      freeCount := s.freeCount + 1 } := by
  rw [hufAdapt, if_neg (by simp [ha, Config.numTables, hn]), hget]

theorem decodeAdaptive_refused (ha : s.setup.adaptHeld = false) : decodeAdaptive n table s = .illegal :=
  if_pos (by simp [ha])

theorem decodeAdaptive_accepted (ha : s.setup.adaptHeld = true) : decodeAdaptive n table s
    = (adaptiveSymbol table.shape (bitsLeft s + 2) [] s).andThen fun v u =>
      result v { u with ht := Memory.set u.ht n.toNat { table with shape := reshape table.shape v } } :=
  if_neg (by simp [ha])

end

/-- Settles O38: the shape decides how many bits are read, and the cap whether it is reshaped. -/
theorem adaptiveTableResults : Obligations.AdaptiveTableResults := by
  intro s n hs
  have hacc := accepts_tool_of_unvalidated hs
  refine ⟨fun h => hostCommand_of_illegal (hufAdapt_refused h), fun ha hn => ⟨fun old hget => ?_, fun hget => ?_⟩,
    fun table hn hget hv horder hm => ⟨fun ha => ?_, fun ha => ?_⟩⟩
  · exact ⟨_, hostCommand_of_complete hacc (hufAdapt_of_old ha hn hget), fun k => get_written s.ht n.toNat k _⟩
  · exact ⟨_, _, hostCommand_of_complete hacc (hufAdapt_of_none ha hn hget), fun k => get_written s.ht n.toNat k _⟩
  all_goals have hd := (hufDecode_accepted hn hget hv horder).trans (if_pos hm)
  · exact hostCommand_of_illegal (hd.trans (decodeAdaptive_refused ha))
  · rw [decodeAdaptive_accepted ha] at hd
    have hturns : s.bitStream.length < bitsLeft s + 2 :=
      Nat.lt_of_le_of_lt (bitStream_length_le_bitsLeft s) (Nat.lt_add_of_pos_right (by decide))
    rcases adaptiveSymbol_cases table.shape (bitsLeft s + 2) [] s hturns with
      ⟨k, v, u, ⟨hk, hv, hbefore⟩, hrun, hu, hdrop⟩ | ⟨hnone, u, hrun, hu⟩
    · rw [hrun, Run.ok_andThen, hu] at hd
      exact .inl ⟨k, v, u, _, hk, hv, hbefore, hostCommand_of_result hacc hd, hu ▸ hdrop,
        fun j => get_written s.ht n.toNat j _⟩
    · rw [hrun, Run.raised_andThen] at hd
      exact .inr ⟨hnone, u, exec_hufDecode_of_raised hs hd hu⟩

end Sys2Proof.Machine
end

section
/-!
The slots of a code in one level of a decode table (42_huffman.md R135): the indices whose bits, in the order in which a
lookup reads them, begin with the bits of the code.
-/
namespace Sys2Proof.Machine

/-! ## Bits of an index -/

section
variable {order : BitOrder} {w l : Nat}

theorem bitsOf_inj {i j : Nat} (hi : i < 2 ^ w) (hj : j < 2 ^ w) (h : bitsOf order w i = bitsOf order w j) : i = j := by
  have := congrArg (numberOf order) h
  rwa [numberOf_bitsOf, numberOf_bitsOf, Nat.mod_eq_of_lt hi, Nat.mod_eq_of_lt hj] at this

theorem bitsOf_zero (order : BitOrder) (n : Nat) : bitsOf order n 0 = List.replicate n false := by
  cases order <;> simp [bitsOf, List.map_const']

/-- A list of bits is that of the number they spell. -/
theorem bitsOf_numberOf (order : BitOrder) (bs : List Bool) : bitsOf order bs.length (numberOf order bs) = bs := by
  cases order with
  | msbFirst =>
    induction bs using List.reverseRecOn with
    | nil => rfl
    | append_singleton bs b ih =>
      have hspell : numberOf .msbFirst (bs ++ [b]) = numberOf .msbFirst bs * 2 + b.toNat := by
        rw [numberOf_append, numberOf_singleton]; rfl
      have hb : b.toNat < 2 := Nat.lt_succ_of_le (Bool.toNat_le b)
      have hbits := List.take_append_drop bs.length (bitsOf .msbFirst (bs ++ [b]).length (numberOf .msbFirst (bs ++ [b])))
      rw [bitsOf_take _ (by simp), bitsOf_drop _ (by simp), List.length_append, List.length_singleton,
        Nat.add_sub_cancel_left, hspell] at hbits
      have hhigh : (numberOf .msbFirst bs * 2 + b.toNat) / 2 = numberOf .msbFirst bs := by omega
      have hlow : (numberOf .msbFirst bs * 2 + b.toNat) % 2 = b.toNat := by omega
      simp only [Nat.pow_one, hhigh, hlow, bitsOf_mod, ih] at hbits
      rw [List.length_append, List.length_singleton, hspell, ← hbits]
      cases b <;> rfl
  | lsbFirst =>
    induction bs with
    | nil => rfl
    | cons b bs ih =>
      have hspell : numberOf .lsbFirst (b :: bs) = b.toNat + 2 * numberOf .lsbFirst bs := rfl
      have hb : b.toNat < 2 := Nat.lt_succ_of_le (Bool.toNat_le b)
      have hbits := List.take_append_drop 1 (bitsOf .lsbFirst (bs.length + 1) (numberOf .lsbFirst (b :: bs)))
      rw [bitsOf_take _ (by simp), bitsOf_drop _ (by simp), Nat.add_sub_cancel, hspell] at hbits
      have hhigh : (b.toNat + 2 * numberOf .lsbFirst bs) / 2 = numberOf .lsbFirst bs := by omega
      have hlow : (b.toNat + 2 * numberOf .lsbFirst bs) % 2 = b.toNat := by omega
      simp only [Nat.pow_one, hhigh, hlow, ih] at hbits
      rw [List.length_cons, hspell, ← hbits]
      cases b <;> rfl

theorem prefixIndex_eq_numberOf (order : BitOrder) (w : Nat) (bs : List Bool) :
    prefixIndex order w bs = numberOf order (bs ++ List.replicate (w - bs.length) false) := by
  have hzero (o : BitOrder) (n : Nat) : numberOf o (List.replicate n false) = 0 := by
    rw [← bitsOf_zero o n, numberOf_bitsOf, Nat.zero_mod]
  cases order with
  | msbFirst => rw [numberOf_append, hzero, List.length_replicate]; rfl
  | lsbFirst => rw [numberOf_append, hzero, Nat.zero_mul]; rfl

/-- The index a lookup stands on has the bits read so far, the others counting as zero (42_huffman.md R142). -/
theorem bitsOf_prefixIndex (order : BitOrder) {bs : List Bool} (h : bs.length ≤ w) :
    bitsOf order w (prefixIndex order w bs) = bs ++ List.replicate (w - bs.length) false := by
  have hbits := bitsOf_numberOf order (bs ++ List.replicate (w - bs.length) false)
  rwa [← prefixIndex_eq_numberOf order w bs, List.length_append, List.length_replicate, Nat.add_sub_of_le h] at hbits

theorem prefixIndex_lt (order : BitOrder) {bs : List Bool} (h : bs.length ≤ w) : prefixIndex order w bs < 2 ^ w := by
  have hlt := numberOf_lt order (bs ++ List.replicate (w - bs.length) false)
  rwa [← prefixIndex_eq_numberOf order w bs, List.length_append, List.length_replicate, Nat.add_sub_of_le h] at hlt

theorem bitsOf_rev (n v : Nat) : bitsOf .lsbFirst n (rev n v) = bitsOf .msbFirst n v := by
  apply List.ext_getElem
  · simp
  · intro i h1 h2
    rw [bitsOf_length] at h2
    simp [bitsOf, rev_testBit, h2]

/-! ## The slots -/

/-- The bits of a code as an index of a level exactly as wide. -/
def slotOf (order : BitOrder) (l code : Nat) : Nat :=
  match order with
  | .msbFirst => code
  | .lsbFirst => rev l code

theorem slotOf_lt {code : Nat} (h : code < 2 ^ l) : slotOf order l code < 2 ^ l := by
  cases order with
  | msbFirst => exact h
  | lsbFirst => exact rev_lt l code

theorem bitsOf_slotOf (order : BitOrder) (l code : Nat) : bitsOf order l (slotOf order l code) = bitsOf .msbFirst l code := by
  cases order with
  | msbFirst => rfl
  | lsbFirst => exact bitsOf_rev l code

theorem slots_same_width (order : BitOrder) (w pre : Nat) : (slots pre w w order).headD 0 = slotOf order w pre := by
  cases order <;> simp [slots, slotOf]

theorem slots_nodup (code l w : Nat) (order : BitOrder) : (slots code l w order).Nodup := by
  refine List.Nodup.map (fun j k h => ?_) List.nodup_range
  have hpos := Nat.two_pow_pos l
  cases order with
  | msbFirst => exact Nat.add_left_cancel h
  | lsbFirst => exact Nat.eq_of_mul_eq_mul_right hpos (Nat.add_left_cancel h)

theorem mem_slots_msbFirst {code i : Nat} : i ∈ slots code l w .msbFirst ↔ i / 2 ^ (w - l) = code := by
  have hpos := Nat.two_pow_pos (w - l)
  simp only [slots, List.mem_map, List.mem_range]
  constructor
  · rintro ⟨j, hj, rfl⟩
    rw [Nat.mul_comm, Nat.mul_add_div hpos, Nat.div_eq_of_lt hj, Nat.add_zero]
  · rintro rfl
    exact ⟨i % 2 ^ (w - l), Nat.mod_lt _ hpos, Nat.div_add_mod' i _⟩

theorem mem_slots_lsbFirst {code i : Nat} (hl : l ≤ w) :
    i ∈ slots code l w .lsbFirst ↔ i < 2 ^ w ∧ i % 2 ^ l = rev l code := by
  have hpos := Nat.two_pow_pos l
  have hsplit : 2 ^ w = 2 ^ (w - l) * 2 ^ l := by rw [← Nat.pow_add, Nat.sub_add_cancel hl]
  have hrev := rev_lt l code
  simp only [slots, List.mem_map, List.mem_range]
  constructor
  · rintro ⟨j, hj, rfl⟩
    refine ⟨?_, by rw [Nat.add_mul_mod_self_right, Nat.mod_eq_of_lt hrev]⟩
    calc rev l code + j * 2 ^ l < (j + 1) * 2 ^ l := by rw [Nat.succ_mul]; omega
      _ ≤ 2 ^ w := hsplit ▸ Nat.mul_le_mul_right _ hj
  · rintro ⟨hi, hmod⟩
    refine ⟨i / 2 ^ l, Nat.div_lt_of_lt_mul (by rwa [Nat.mul_comm, ← hsplit]), ?_⟩
    rw [← hmod, Nat.mod_add_div']

/-- The slots of a code are the indices whose bits begin with the code's (42_huffman.md R135). -/
theorem mem_slots {code i : Nat} (hcode : code < 2 ^ l) (hl : l ≤ w) :
    i ∈ slots code l w order ↔ i < 2 ^ w ∧ bitsOf .msbFirst l code <+: bitsOf order w i := by
  rw [List.prefix_iff_eq_take, bitsOf_length, bitsOf_take order hl, ← bitsOf_slotOf order]
  cases order with
  | msbFirst =>
    rw [mem_slots_msbFirst]
    show _ ↔ _ ∧ bitsOf .msbFirst l code = bitsOf .msbFirst l (i / 2 ^ (w - l) % 2 ^ l)
    have hsplit : 2 ^ w = 2 ^ (w - l) * 2 ^ l := by rw [← Nat.pow_add, Nat.sub_add_cancel hl]
    constructor
    · rintro rfl
      refine ⟨?_, by rw [bitsOf_mod]⟩
      rw [hsplit]
      exact (Nat.div_lt_iff_lt_mul (Nat.two_pow_pos _)).1 hcode |>.trans_eq (Nat.mul_comm ..)
    · rintro ⟨hi, hbits⟩
      have hlt : i / 2 ^ (w - l) < 2 ^ l := Nat.div_lt_of_lt_mul (by rwa [← hsplit])
      rw [bitsOf_mod] at hbits
      exact bitsOf_inj hlt hcode hbits.symm
  | lsbFirst =>
    rw [mem_slots_lsbFirst hl]
    refine and_congr_right fun hi => ⟨fun h => congrArg _ h.symm, fun h => ?_⟩
    exact bitsOf_inj (Nat.mod_lt _ (Nat.two_pow_pos l)) (rev_lt l code) h.symm

end

/-! ## Short and long codes -/

section
variable {c d : Code} {w : Nat} {order : BitOrder}

@[simp] theorem Code.bits_length (c : Code) : c.bits.length = c.length := bitsOf_length ..

/-- The bits of a long code that the primary table reads, as a number (42_huffman.md R136). -/
def Code.head (c : Code) (w : Nat) : Nat := c.code / 2 ^ (c.length - w)

/-- What is left of a long code past the primary table (42_huffman.md R136). -/
def Code.rest (c : Code) (w : Nat) : Code where
  length := c.length - w
  code := c.code % 2 ^ (c.length - w)
  value := c.value

/-- The slot of the primary table in which a long code links to its sub-table. -/
def Code.slot (c : Code) (w : Nat) (order : BitOrder) : Nat := slotOf order w (c.head w)

theorem Code.rest_lt (c : Code) (w : Nat) : (c.rest w).code < 2 ^ (c.rest w).length := Nat.mod_lt _ (Nat.two_pow_pos _)

theorem Code.head_lt (hc : c.code < 2 ^ c.length) (hw : w < c.length) : c.head w < 2 ^ w := by
  refine Nat.div_lt_of_lt_mul ?_
  rwa [← Nat.pow_add, Nat.sub_add_cancel (Nat.le_of_lt hw)]

theorem Code.slot_lt (hc : c.code < 2 ^ c.length) (hw : w < c.length) : c.slot w order < 2 ^ w :=
  slotOf_lt (c.head_lt hc hw)

theorem Code.bits_slot (c : Code) (hw : w < c.length) : bitsOf order w (c.slot w order) ++ (c.rest w).bits = c.bits := by
  have hsplit := List.take_append_drop w c.bits
  rw [Code.bits, bitsOf_take .msbFirst (Nat.le_of_lt hw), bitsOf_drop .msbFirst (Nat.le_of_lt hw), bitsOf_mod] at hsplit
  rw [Code.slot, bitsOf_slotOf]
  exact hsplit

/-- Codes without a bit beyond their length are told apart by their bits. -/
theorem slot_eq_iff_head_eq (hc : c.code < 2 ^ c.length) (hw : w < c.length) (hd : d.code < 2 ^ d.length)
    (hw' : w < d.length) : c.slot w order = d.slot w order ↔ c.head w = d.head w := by
  refine ⟨fun h => ?_, fun h => by rw [Code.slot, h, Code.slot]⟩
  have hbits := congrArg (bitsOf order w) h
  rw [Code.slot, Code.slot, bitsOf_slotOf, bitsOf_slotOf] at hbits
  exact bitsOf_inj (c.head_lt hc hw) (d.head_lt hd hw') hbits

/-- A code that fits a level has the slots whose bits begin with its bits. -/
theorem Code.mem_slots {i : Nat} (hc : c.code < 2 ^ c.length) (hw : c.length ≤ w) :
    i ∈ slots c.code c.length w order ↔ i < 2 ^ w ∧ c.bits <+: bitsOf order w i := Machine.mem_slots hc hw

end

end Sys2Proof.Machine
end

section
/-!
`CanonicalCodes` (42_huffman.md R134) in closed form: what the symbols up to a length take up of the code points of that
length decides where the codes of the next length begin and whether the lengths are over-subscribed.
-/
namespace Sys2Proof.Machine

/-! ## The code points taken up -/

/-- The code points of length `k` that the symbols of a length up to `k` take up. -/
def taken (lens : List Nat) (k : Nat) : Nat := (lens.map fun l => if l ≠ 0 ∧ l ≤ k then 2 ^ (k - l) else 0).sum

theorem taken_zero (lens : List Nat) : taken lens 0 = 0 := by
  refine List.sum_eq_zero fun x hx => ?_
  obtain ⟨l, -, rfl⟩ := List.mem_map.1 hx
  exact if_neg (by omega)

theorem sum_map_eq_count (k : Nat) (lens : List Nat) : (lens.map fun l => if l = k then 1 else 0).sum = lens.count k := by
  induction lens with
  | nil => rfl
  | cons l lens ih =>
    rw [List.map_cons, List.sum_cons, ih, List.count_cons, Nat.add_comm]
    simp

theorem taken_succ (lens : List Nat) (k : Nat) : taken lens (k + 1) = 2 * taken lens k + lens.count (k + 1) := by
  rw [taken, taken, ← List.sum_map_mul_left, ← sum_map_eq_count, ← List.sum_map_add]
  congr 1
  refine List.map_congr_left fun l _ => ?_
  rcases Nat.lt_trichotomy l (k + 1) with h | rfl | h
  · rw [if_neg (Nat.ne_of_lt h), Nat.succ_sub (Nat.le_of_lt_succ h), Nat.pow_succ, Nat.mul_comm _ 2]
    simp only [Nat.le_of_lt h, Nat.le_of_lt_succ h, and_true, Nat.add_zero, mul_ite, Nat.mul_zero]
  · simp
  · rw [if_neg (by omega), if_neg (by omega), if_neg (by omega), Nat.mul_zero]

/-- Symbols that take up all the codes of a length take up those of the longer ones. -/
theorem taken_mul_le (lens : List Nat) (k n : Nat) : taken lens k * 2 ^ n ≤ taken lens (k + n) := by
  induction n with
  | zero => simp
  | succ n ih =>
    rw [← Nat.add_assoc, taken_succ, Nat.pow_succ, ← Nat.mul_assoc]
    omega

theorem taken_le_pow_of_le {lens : List Nat} {k n : Nat} (h : taken lens (k + n) ≤ 2 ^ (k + n)) :
    taken lens k ≤ 2 ^ k := by
  have := (taken_mul_le lens k n).trans h
  rw [Nat.pow_add] at this
  exact Nat.le_of_mul_le_mul_right this (Nat.two_pow_pos n)

/-- The share of all 32-bit sequences that begin with the code of a symbol. -/
theorem taken_mul_eq_total {lens : List Nat} {m n : Nat} (h : ∀ l ∈ lens, l ≤ m) :
    taken lens m * 2 ^ n = ((lens.filter (· ≠ 0)).map fun l => 2 ^ (m + n - l)).sum := by
  induction lens with
  | nil => exact Nat.zero_mul _
  | cons l lens ih =>
    have hl := h l List.mem_cons_self
    have ih := ih fun x hx => h x (List.mem_cons_of_mem _ hx)
    rw [taken] at ih
    rw [taken, List.map_cons, List.sum_cons, Nat.add_mul, ih]
    by_cases hz : l = 0
    · rw [List.filter_cons_of_neg (by simpa using hz), if_neg (by simp [hz]), Nat.zero_mul, Nat.zero_add]
    · rw [List.filter_cons_of_pos (by simpa using hz), if_pos ⟨hz, hl⟩, ← Nat.pow_add, ← Nat.sub_add_comm hl,
        List.map_cons, List.sum_cons]

/-! ## The loops of R134 -/

/-- The symbols of one length from number `s` on have the codes from `code` on, in their order. -/
structure AtLength (k : Nat) (lens : List Nat) (s code : Nat) (cs : List Code) : Prop where
  lengths : cs.map (·.length) = List.replicate (lens.count k) k
  ordered : cs.Pairwise fun c d => c.value < d.value
  mem : ∀ c, c ∈ cs ↔ c.length = k ∧ s ≤ c.value ∧ lens[c.value - s]? = some k
    ∧ c.code = code + (lens.take (c.value - s)).count k

section
variable {k l s code : Nat} {lens : List Nat} {cs : List Code}

theorem AtLength.skip (h : AtLength k lens (s + 1) code cs) (hl : l ≠ k) : AtLength k (l :: lens) s code cs := by
  obtain ⟨hlengths, hordered, hmem⟩ := h
  refine ⟨by rw [hlengths, List.count_cons_of_ne hl], hordered, fun c => (hmem c).trans (and_congr_right fun _ => ?_)⟩
  rcases Nat.lt_or_ge s c.value with hlt | hge
  · obtain ⟨d, hd⟩ := Nat.exists_eq_add_of_lt hlt
    rw [show c.value - s = d + 1 by omega, show c.value - (s + 1) = d by omega, List.getElem?_cons_succ,
      List.take_succ_cons, List.count_cons_of_ne hl]
    simp only [show s + 1 ≤ c.value by omega, show s ≤ c.value by omega]
  · rw [show c.value - s = 0 by omega, List.getElem?_cons_zero]
    simp only [show ¬ s + 1 ≤ c.value by omega, Option.some.injEq, hl, false_and, and_false]

theorem AtLength.cons (h : AtLength k lens (s + 1) (code + 1) cs) :
    AtLength k (k :: lens) s code ({ length := k, code := code, value := s } :: cs) := by
  obtain ⟨hlengths, hordered, hmem⟩ := h
  refine ⟨?_, ?_, fun c => ?_⟩
  · rw [List.map_cons, hlengths, List.count_cons_self, List.replicate_succ]
  · exact List.pairwise_cons.2 ⟨fun c hc => ((hmem c).1 hc).2.1, hordered⟩
  · rw [List.mem_cons, hmem]
    rcases Nat.lt_or_ge s c.value with hlt | hge
    · obtain ⟨d, hd⟩ := Nat.exists_eq_add_of_lt hlt
      have hne : c ≠ { length := k, code := code, value := s } := fun h => by rw [h] at hlt; exact Nat.lt_irrefl _ hlt
      rw [show c.value - s = d + 1 by omega, show c.value - (s + 1) = d by omega, List.getElem?_cons_succ,
        List.take_succ_cons, List.count_cons_self, Nat.add_assoc, Nat.add_comm 1]
      simp only [hne, false_or, show s + 1 ≤ c.value by omega, show s ≤ c.value by omega]
    · obtain ⟨cl, cc, cv⟩ := c
      have hge : cv ≤ s := hge
      simp only [Code.mk.injEq, show cv - s = 0 by omega, List.getElem?_cons_zero, List.take_zero, List.count_nil,
        show ¬ s + 1 ≤ cv by omega, false_and, and_false, or_false, Nat.add_zero, true_and]
      constructor
      · rintro ⟨rfl, rfl, rfl⟩; exact ⟨rfl, Nat.le_refl _, rfl⟩
      · rintro ⟨rfl, h, rfl⟩; exact ⟨rfl, rfl, Nat.le_antisymm hge h⟩

end

/-- The inner loop of R134 succeeds exactly where the codes of the length suffice. -/
theorem codesAtLength_cases (k : Nat) (lens : List Nat) : ∀ s code : Nat, code ≤ 2 ^ k →
    (2 ^ k < code + lens.count k ∧ codesAtLength k lens s code = none)
      ∨ (code + lens.count k ≤ 2 ^ k ∧ ∃ cs, codesAtLength k lens s code = some (cs, code + lens.count k)
        ∧ AtLength k lens s code cs) := by
  induction lens with
  | nil => exact fun s code h => .inr ⟨h, [], rfl, ⟨rfl, .nil, by simp⟩⟩
  | cons l lens ih =>
    intro s code hcode
    by_cases hl : l = k
    · subst hl
      rw [codesAtLength, if_pos rfl, List.count_cons_self]
      by_cases hfull : 2 ^ l ≤ code
      · exact .inl ⟨by omega, if_pos hfull⟩
      · rw [if_neg hfull]
        rcases ih (s + 1) (code + 1) (by omega) with ⟨hlt, hrun⟩ | ⟨hle, cs, hrun, hcs⟩
        · exact .inl ⟨by omega, by rw [hrun]⟩
        · refine .inr ⟨by omega, _, ?_, hcs.cons⟩
          rw [hrun, Nat.add_assoc code 1, Nat.add_comm 1]
    · rw [codesAtLength, if_neg hl, List.count_cons_of_ne hl]
      rcases ih (s + 1) code hcode with h | ⟨hle, cs, hrun, hcs⟩
      · exact .inl h
      · exact .inr ⟨hle, cs, hrun, hcs.skip hl⟩

/-- A code before another in the order of (length, symbol). -/
def Code.Before (c d : Code) : Prop := c.length < d.length ∨ (c.length = d.length ∧ c.value < d.value)

/-- The codes of the symbols of the lengths from `k + 1` up to `m`. -/
structure Canonical (lens : List Nat) (k m : Nat) (cs : List Code) : Prop where
  lengths : ∀ l, (cs.map (·.length)).count l = if k < l ∧ l ≤ m then lens.count l else 0
  ordered : cs.Pairwise Code.Before
  mem : ∀ c, c ∈ cs ↔ (k < c.length ∧ c.length ≤ m) ∧ lens[c.value]? = some c.length
    ∧ c.code = 2 * taken lens (c.length - 1) + (lens.take c.value).count c.length

/-- The codes of one length before those of the longer ones. -/
theorem AtLength.append {k m : Nat} {lens : List Nat} {cs ds : List Code} (hk : k < m)
    (h : AtLength (k + 1) lens 0 (2 * taken lens k) cs) (h' : Canonical lens (k + 1) m ds) :
    Canonical lens k m (cs ++ ds) := by
  refine ⟨fun l => ?_, ?_, fun c => ?_⟩
  · rw [List.map_append, List.count_append, h.lengths, h'.lengths, List.count_replicate]
    by_cases hl : k + 1 = l
    · subst hl
      rw [beq_self_eq_true, if_pos rfl, if_neg (by omega), if_pos (by omega), Nat.add_zero]
    · rw [if_neg (by simpa using hl), Nat.zero_add]
      exact if_congr (by omega) rfl rfl
  · refine List.pairwise_append.2 ⟨h.ordered.imp_of_mem fun hc hd hlt => ?_, h'.ordered, fun c hc d hd => ?_⟩
    · exact .inr ⟨((h.mem _).1 hc).1.trans ((h.mem _).1 hd).1.symm, hlt⟩
    · exact .inl (((h.mem c).1 hc).1 ▸ ((h'.mem d).1 hd).1.1)
  · rw [List.mem_append, h.mem, h'.mem]
    simp only [Nat.sub_zero, Nat.zero_le, true_and]
    by_cases hl : c.length = k + 1
    · simp only [hl, Nat.lt_irrefl, false_and, or_false, true_and, Nat.add_sub_cancel]
      simp only [show k < k + 1 ∧ k + 1 ≤ m by omega, true_and]
    · simp only [hl, false_and, false_or]
      exact and_congr_left fun _ => by omega

/-- The outer loop of R134 succeeds exactly where the codes of the last length suffice. -/
theorem codesFrom_cases (lens : List Nat) (turns : Nat) : ∀ k : Nat, taken lens k ≤ 2 ^ k →
    (2 ^ (k + turns) < taken lens (k + turns) ∧ codesFrom lens turns (k + 1) (2 * taken lens k) = none)
      ∨ (taken lens (k + turns) ≤ 2 ^ (k + turns) ∧ ∃ cs, codesFrom lens turns (k + 1) (2 * taken lens k) = some cs
        ∧ Canonical lens k (k + turns) cs) := by
  induction turns with
  | zero =>
    intro k hk
    have hempty (l : Nat) : ¬ (k < l ∧ l ≤ k) := by omega
    exact .inr ⟨hk, [], rfl, ⟨fun l => (if_neg (hempty l)).symm, .nil, fun c => by simp [hempty]⟩⟩
  | succ turns ih =>
    intro k hk
    have hend : k + (turns + 1) = k + 1 + turns := by omega
    rw [codesFrom, hend]
    rcases codesAtLength_cases (k + 1) lens 0 (2 * taken lens k) (by rw [Nat.pow_succ]; omega) with
      ⟨hlt, hrun⟩ | ⟨hle, cs, hrun, hcs⟩
    · rw [hrun]
      refine .inl ⟨Nat.lt_of_not_le fun h => ?_, rfl⟩
      have := taken_le_pow_of_le h
      rw [taken_succ] at this
      omega
    · rw [← taken_succ] at hle hrun
      rw [hrun]
      rcases ih (k + 1) hle with ⟨hlt, hnext⟩ | ⟨hle', ds, hnext, hds⟩
      · exact .inl ⟨hlt, by simp only [hnext]⟩
      · exact .inr ⟨hle', cs ++ ds, by simp only [hnext], hcs.append (by omega) hds⟩

/-! ## The list of codes -/

theorem le_foldr_max {lens : List Nat} : ∀ l ∈ lens, l ≤ lens.foldr max 0 := by
  induction lens with
  | nil => exact nofun
  | cons x lens ih =>
    intro l hl
    rcases List.mem_cons.1 hl with rfl | hl
    · exact Nat.le_max_left ..
    · exact (ih l hl).trans (Nat.le_max_right ..)

theorem foldr_max_le {lens : List Nat} {n : Nat} (h : ∀ l ∈ lens, l ≤ n) : lens.foldr max 0 ≤ n := by
  induction lens with
  | nil => exact Nat.zero_le n
  | cons x lens ih =>
    exact Nat.max_le.2 ⟨h x List.mem_cons_self, ih fun l hl => h l (List.mem_cons_of_mem _ hl)⟩

section
variable {lens : List Nat}

/-- `CanonicalCodes` fails exactly for lengths that are over-subscribed (42_huffman.md R134). -/
theorem canonicalCodes_cases (h : ∀ l ∈ lens, l ≤ 32) :
    (2 ^ 32 < ((lens.filter (· ≠ 0)).map fun l => 2 ^ (32 - l)).sum ∧ canonicalCodes lens = none)
      ∨ (((lens.filter (· ≠ 0)).map fun l => 2 ^ (32 - l)).sum ≤ 2 ^ 32 ∧ taken lens (lens.foldr max 0) ≤ 2 ^ lens.foldr max 0
        ∧ ∃ cs, canonicalCodes lens = some cs ∧ Canonical lens 0 (lens.foldr max 0) cs) := by
  have hmax := foldr_max_le h
  have htotal := taken_mul_eq_total (n := 32 - lens.foldr max 0) (le_foldr_max (lens := lens))
  have hcases := codesFrom_cases lens (lens.foldr max 0) 0 (by rw [taken_zero]; exact Nat.zero_le _)
  have hpow : 2 ^ 32 = 2 ^ lens.foldr max 0 * 2 ^ (32 - lens.foldr max 0) := by
    rw [← Nat.pow_add, Nat.add_sub_of_le hmax]
  have hpos := Nat.two_pow_pos (32 - lens.foldr max 0)
  rw [Nat.add_sub_of_le hmax] at htotal
  rw [taken_zero, Nat.zero_add] at hcases
  rw [canonicalCodes, ← htotal]
  rcases hcases with ⟨hlt, hrun⟩ | ⟨hle, hrun⟩
  · exact .inl ⟨hpow ▸ Nat.mul_lt_mul_of_pos_right hlt hpos, hrun⟩
  · exact .inr ⟨hpow ▸ Nat.mul_le_mul_right _ hle, hle, hrun⟩

/-- The symbols before number `v` that have this length, one by one. -/
theorem sum_range_eq_count (k : Nat) (lens : List Nat) : ∀ v : Nat,
    ((List.range lens.length).map fun r => if lens.getD r 0 = k ∧ r < v then 1 else 0).sum = (lens.take v).count k := by
  induction lens with
  | nil => simp
  | cons l lens ih =>
    intro v
    rw [List.length_cons, List.range_succ_eq_map, List.map_cons, List.sum_cons, List.map_map]
    cases v with
    | zero => simp [Function.comp_def]
    | succ v =>
      have ih := ih v
      simp only [Function.comp_def, List.getD_cons_succ, List.getD_cons_zero, Nat.succ_lt_succ_iff, Nat.zero_lt_succ,
        and_true, List.take_succ_cons, List.count_cons, beq_iff_eq, Nat.succ_eq_add_one] at ih ⊢
      rw [ih, Nat.add_comm]

/-- What the symbols before one of length `k + 1` take up of the code points of its length: all of the shorter ones, and
of those of the same length the ones before it. -/
theorem sum_before_eq (k v : Nat) (lens : List Nat) :
    ((List.range lens.length).map fun r =>
        let l := lens.getD r 0
        if l ≠ 0 ∧ (l < k + 1 ∨ (l = k + 1 ∧ r < v)) then 2 ^ (k + 1 - l) else 0).sum
      = 2 * taken lens k + (lens.take v).count (k + 1) := by
  have hlist : (List.range lens.length).map (fun r => lens.getD r 0) = lens := by
    apply List.ext_getElem
    · simp
    · intro i h1 h2
      simp [h2]
  rw [taken, ← List.sum_map_mul_left, ← sum_range_eq_count]
  conv_rhs => rw [← congrArg (List.map fun l => 2 * if l ≠ 0 ∧ l ≤ k then 2 ^ (k - l) else 0) hlist]
  rw [List.map_map, ← List.sum_map_add]
  congr 1
  refine List.map_congr_left fun r _ => ?_
  simp only [Function.comp_apply]
  generalize lens.getD r 0 = l
  rcases Nat.lt_trichotomy l (k + 1) with h | rfl | h
  · rw [Nat.succ_sub (Nat.le_of_lt_succ h), Nat.pow_succ, Nat.mul_comm _ 2]
    simp only [h, Nat.le_of_lt_succ h, Nat.ne_of_lt h, and_true, true_or, false_and, mul_ite, Nat.mul_zero, if_false,
      Nat.add_zero]
  · simp
  · rw [if_neg (by omega), if_neg (by omega), if_neg (by omega)]

/-- The values of the codes in closed form. -/
theorem Canonical.mem_iff {cs : List Code} (h : Canonical lens 0 (lens.foldr max 0) cs) (c : Code) :
    c ∈ cs ↔ c.length ≠ 0 ∧ lens[c.value]? = some c.length
      ∧ c.code = 2 * taken lens (c.length - 1) + (lens.take c.value).count c.length := by
  rw [h.mem]
  constructor
  · rintro ⟨⟨hpos, -⟩, hl, hcode⟩
    exact ⟨Nat.ne_of_gt hpos, hl, hcode⟩
  · rintro ⟨hpos, hl, hcode⟩
    exact ⟨⟨Nat.pos_of_ne_zero hpos, le_foldr_max _ (List.mem_of_getElem? hl)⟩, hl, hcode⟩

end

/-- Settles O32: the loops of R134 by what the symbols up to each length take up. -/
theorem canonicalCodesAreTheCanonicalOnes : Obligations.CanonicalCodesAreTheCanonicalOnes := by
  intro lens h32
  rcases canonicalCodes_cases h32 with ⟨hlt, hrun⟩ | ⟨hle, -, ds, hrun, hds⟩
  · exact ⟨iff_of_true hrun hlt, fun cs hcs => by rw [hrun] at hcs; cases hcs⟩
  · refine ⟨iff_of_false (by rw [hrun]; exact nofun) (Nat.not_lt.2 hle), fun cs hcs => ?_⟩
    obtain rfl : ds = cs := Option.some.inj (hrun.symm.trans hcs)
    refine ⟨hds.ordered, fun c => (hds.mem_iff c).trans (and_congr_right fun hpos => and_congr_right fun _ => ?_)⟩
    obtain ⟨k, hk⟩ := Nat.exists_eq_succ_of_ne_zero hpos
    rw [hk, Nat.succ_eq_add_one, sum_before_eq, Nat.add_sub_cancel]

/-! ## What the codes of a list have in common -/

/-- No code of the list begins with another one. -/
def PrefixFree (cs : List Code) : Prop := ∀ c ∈ cs, ∀ d ∈ cs, c.bits <+: d.bits → c = d

/-- The bits of a code begin with those of a shorter one exactly where the numbers agree. -/
theorem Code.bits_of_isPrefix {c d : Code} (hc : c.code < 2 ^ c.length) (hd : d.code < 2 ^ d.length)
    (h : c.bits <+: d.bits) : c.length ≤ d.length ∧ c.code = d.code / 2 ^ (d.length - c.length) := by
  have hle : c.length ≤ d.length := by simpa using h.length_le
  refine ⟨hle, ?_⟩
  rw [List.prefix_iff_eq_take, c.bits_length] at h
  unfold Code.bits at h
  rw [bitsOf_take _ hle] at h
  have hlt : d.code / 2 ^ (d.length - c.length) < 2 ^ c.length :=
    Nat.div_lt_of_lt_mul (by rwa [← Nat.pow_add, Nat.sub_add_cancel hle])
  rw [bitsOf_mod] at h
  exact bitsOf_inj hc hlt h

section
variable {lens : List Nat} {cs : List Code} {m : Nat} (h : Canonical lens 0 m cs)
include h

theorem Canonical.code_lt_taken {c : Code} (hc : c ∈ cs) : c.code < taken lens c.length := by
  obtain ⟨⟨hpos, -⟩, hl, hcode⟩ := (h.mem c).1 hc
  obtain ⟨k, hk⟩ := Nat.exists_eq_succ_of_ne_zero (Nat.ne_of_gt hpos)
  have hcount : (lens.take c.value).count c.length < lens.count c.length := by
    have hsplit := congrArg (List.count c.length) (List.take_append_drop c.value lens)
    have hmem : c.length ∈ lens.drop c.value := by
      refine List.mem_of_getElem? (i := 0) ?_
      rw [List.getElem?_drop, Nat.add_zero, hl]
    rw [List.count_append] at hsplit
    have := List.count_pos_iff.2 hmem
    omega
  rw [hcode]
  rw [hk] at hcount ⊢
  rw [Nat.succ_eq_add_one, taken_succ, Nat.add_sub_cancel]
  exact Nat.add_lt_add_left hcount _

theorem Canonical.code_lt (hm : taken lens m ≤ 2 ^ m) {c : Code} (hc : c ∈ cs) : c.code < 2 ^ c.length := by
  obtain ⟨⟨-, hle⟩, -⟩ := (h.mem c).1 hc
  refine Nat.lt_of_lt_of_le (h.code_lt_taken hc) (taken_le_pow_of_le (n := m - c.length) ?_)
  rwa [Nat.add_sub_of_le hle]

/-- A code takes up code points before those of any later one. -/
theorem Canonical.code_lt_div {c d : Code} (hc : c ∈ cs) (hd : d ∈ cs) (hcd : c.Before d) :
    c.code < d.code / 2 ^ (d.length - c.length) := by
  obtain ⟨-, hlc, hcc⟩ := (h.mem c).1 hc
  obtain ⟨-, -, hcode⟩ := (h.mem d).1 hd
  rw [Nat.lt_iff_add_one_le, Nat.le_div_iff_mul_le (Nat.two_pow_pos _)]
  rcases hcd with hlt | ⟨heq, hv⟩
  · have hlate : d.length - 1 + 1 = d.length := by omega
    have hsplit : c.length + (d.length - 1 - c.length) = d.length - 1 := by omega
    have hpow : d.length - c.length = (d.length - 1 - c.length) + 1 := by omega
    have hstep := taken_mul_le lens c.length (d.length - 1 - c.length)
    rw [hsplit] at hstep
    calc (c.code + 1) * 2 ^ (d.length - c.length)
        ≤ taken lens c.length * 2 ^ (d.length - c.length) := Nat.mul_le_mul_right _ (h.code_lt_taken hc)
      _ = 2 * (taken lens c.length * 2 ^ (d.length - 1 - c.length)) := by rw [hpow, Nat.pow_succ]; ring
      _ ≤ d.code := by rw [hcode]; omega
  · have htake : lens.take d.value = lens.take c.value ++ (lens.drop c.value).take (d.value - c.value) := by
      rw [← List.take_add, Nat.add_sub_of_le (Nat.le_of_lt hv)]
    have hmem : c.length ∈ (lens.drop c.value).take (d.value - c.value) := by
      refine List.mem_of_getElem? (i := 0) ?_
      rw [List.getElem?_take_of_lt (by omega), List.getElem?_drop, Nat.add_zero, hlc]
    have hone := List.count_pos_iff.2 hmem
    rw [hcode, hcc, ← heq, Nat.sub_self, Nat.pow_zero, Nat.mul_one, htake, List.count_append]
    omega

theorem Canonical.nodup : cs.Nodup := by
  refine h.ordered.imp fun {c d} hcd heq => ?_
  subst heq
  rcases hcd with hlt | ⟨-, hlt⟩ <;> exact Nat.lt_irrefl _ hlt

theorem Canonical.prefixFree (hm : taken lens m ≤ 2 ^ m) : PrefixFree cs := by
  have hbefore : ∀ c ∈ cs, ∀ d ∈ cs, c.Before d → ¬ c.bits <+: d.bits ∧ ¬ d.bits <+: c.bits := by
    intro c hc d hd hcd
    have hlt := h.code_lt_div hc hd hcd
    refine ⟨fun hp => ?_, fun hp => ?_⟩
    · exact Nat.ne_of_lt hlt (Code.bits_of_isPrefix (h.code_lt hm hc) (h.code_lt hm hd) hp).2
    · obtain ⟨hle, heq⟩ := Code.bits_of_isPrefix (h.code_lt hm hd) (h.code_lt hm hc) hp
      have hlen : c.length = d.length := by
        rcases hcd with hshort | ⟨hsame, -⟩ <;> omega
      rw [hlen, Nat.sub_self, Nat.pow_zero, Nat.div_one] at hlt heq
      exact Nat.ne_of_lt hlt heq.symm
  have hsymm : Std.Symm fun c d : Code => c.Before d ∨ d.Before c := ⟨fun _ _ => Or.symm⟩
  have htotal : cs.Pairwise fun c d => c.Before d ∨ d.Before c := h.ordered.imp .inl
  refine fun c hc d hd hp => by_contra fun hne => ?_
  rcases htotal.forall hc hd hne with hb | hb
  · exact (hbefore c hc d hd hb).1 hp
  · exact (hbefore d hd c hc hb).2 hp

/-- The lengths of the codes are those of the symbols that have one. -/
theorem Canonical.lengths_perm (hm : ∀ l ∈ lens, l ≤ m) : (cs.map (·.length)).Perm (lens.filter (· ≠ 0)) := by
  refine List.perm_iff_count.2 fun l => ?_
  rw [h.lengths]
  by_cases hz : l = 0
  · subst hz
    rw [if_neg (by omega), List.count_eq_zero_of_not_mem (by simp)]
  · rw [List.count_filter (by simpa using hz)]
    split
    · rfl
    · next hlm => exact (List.count_eq_zero_of_not_mem fun hmem => hlm ⟨Nat.pos_of_ne_zero hz, hm l hmem⟩).symm

end

end Sys2Proof.Machine
end

section
/-!
What `Build` leaves (42_huffman.md R136): the leaves of the primary table and of each sub-table are those of the codes
placed in it, and what a lookup finds in such a table (R142, R143).
-/
namespace Sys2Proof.Machine

/-! ## A level of a table -/

/-- The `LEAF` of a code in the level it ends in. -/
def Code.leaf (c : Code) : Entry := leafEntry c.length c.value

/-- The leaves of the level at `base`, `w` bits wide, are those of the codes of this list that fit it: each in every slot
whose bits begin with the code's, and no other. -/
structure Level (es : List Entry) (base w : Nat) (order : BitOrder) (cs : List Code) : Prop where
  holds : ∀ c ∈ cs, c.length ≤ w → ∀ i < 2 ^ w, c.bits <+: bitsOf order w i → es[base + i]? = some c.leaf
  leaves : ∀ i < 2 ^ w, ∀ len v, es[base + i]? = some (.leaf len v) →
    ∃ c ∈ cs, c.length ≤ w ∧ .leaf len v = c.leaf ∧ c.bits <+: bitsOf order w i

section
variable {es es' : List Entry} {base w : Nat} {order : BitOrder} {c : Code} {cs ds : List Code}

theorem Level.of_same (h : Level es base w order cs) (hsame : ∀ i < 2 ^ w, es'[base + i]? = es[base + i]?) :
    Level es' base w order cs where
  holds d hd hdw i hi hp := (hsame i hi).trans (h.holds d hd hdw i hi hp)
  leaves i hi len v he := h.leaves i hi len v ((hsame i hi).symm.trans he)

/-- A code too long for the level has no leaf in it. -/
theorem Level.cons_long (h : Level es base w order cs) (hw : w < c.length) : Level es base w order (c :: cs) where
  holds d hd hdw := by
    rcases List.mem_cons.1 hd with rfl | hd
    · exact absurd hdw (Nat.not_le.2 hw)
    · exact h.holds d hd hdw
  leaves i hi len v he := by
    obtain ⟨d, hd, hrest⟩ := h.leaves i hi len v he
    exact ⟨d, List.mem_cons_of_mem _ hd, hrest⟩

/-- The leaf of the code is put into each of its slots in the level, all of which were free, and nothing else changes. -/
structure Fills (c : Code) (base w : Nat) (order : BitOrder) (es es' : List Entry) : Prop where
  filled : ∀ i < 2 ^ w, c.bits <+: bitsOf order w i → es[base + i]? = some .unmapped ∧ es'[base + i]? = some c.leaf
  kept : ∀ x, (∀ i < 2 ^ w, c.bits <+: bitsOf order w i → x ≠ base + i) → es'[x]? = es[x]?
  length : es'.length = es.length

theorem Fills.cases (h : Fills c base w order es es') (x : Nat) :
    (es[x]? = some .unmapped ∧ es'[x]? = some c.leaf) ∨ es'[x]? = es[x]? := by
  by_cases hx : ∃ i < 2 ^ w, c.bits <+: bitsOf order w i ∧ x = base + i
  · obtain ⟨i, hi, hp, rfl⟩ := hx
    exact .inl (h.filled i hi hp)
  · exact .inr (h.kept x fun i hi hp he => hx ⟨i, hi, hp, he⟩)

theorem Fills.link_iff (h : Fills c base w order es es') {x : Nat} {b : BitVec 17} {sw : BitVec 5} :
    es'[x]? = some (.link b sw) ↔ es[x]? = some (.link b sw) := by
  rcases h.cases x with ⟨hold, hnew⟩ | hsame
  · rw [hold, hnew]
    exact iff_of_false nofun nofun
  · rw [hsame]

/-- Nothing outside the level changes. -/
theorem Fills.kept_outside (h : Fills c base w order es es') {x : Nat} (hx : x < base ∨ base + 2 ^ w ≤ x) :
    es'[x]? = es[x]? := h.kept x fun i hi _ => by omega

/-- The level has one code more. -/
theorem Fills.level (h : Fills c base w order es es') (hlevel : Level es base w order cs) (hw : c.length ≤ w) :
    Level es' base w order (c :: cs) where
  holds d hd hdw i hi hp := by
    rcases List.mem_cons.1 hd with rfl | hd
    · exact (h.filled i hi hp).2
    · have hold := hlevel.holds d hd hdw i hi hp
      rcases h.cases (base + i) with ⟨hfree, -⟩ | hsame
      · cases hfree.symm.trans hold
      · exact hsame.trans hold
  leaves i hi len v he := by
    by_cases hp : c.bits <+: bitsOf order w i
    · exact ⟨c, List.mem_cons_self, hw, Option.some.inj (he.symm.trans (h.filled i hi hp).2), hp⟩
    · have hsame := h.kept (base + i) fun j hj hpj hij => hp (Nat.add_left_cancel hij ▸ hpj)
      obtain ⟨d, hd, hrest⟩ := hlevel.leaves i hi len v (hsame.symm.trans he)
      exact ⟨d, List.mem_cons_of_mem _ hd, hrest⟩

/-! ## Placing a leaf -/

theorem placeLeaf_spec {e : Entry} {is : List Nat} : ∀ {es : List Entry}, placeLeaf e is es = some es' →
    (∀ i ∈ is, es[i]? = some .unmapped ∧ es'[i]? = some e) ∧ ∀ i, i ∉ is → es'[i]? = es[i]? := by
  induction is with
  | nil =>
    intro es h
    cases h
    exact ⟨nofun, fun _ _ => rfl⟩
  | cons j is ih =>
    intro es h
    rw [placeLeaf] at h
    split at h
    case isFalse => cases h
    case isTrue hfree =>
      obtain ⟨hin, hout⟩ := ih h
      have hj : j < es.length := (List.getElem?_eq_some_iff.1 hfree).1
      refine ⟨fun i hi => ?_, fun i hi => ?_⟩
      · by_cases hij : i = j
        · subst hij
          refine ⟨hfree, ?_⟩
          by_cases hmem : i ∈ is
          · exact (hin i hmem).2
          · rw [hout i hmem, List.getElem?_set_self hj]
        · have := hin i ((List.mem_cons.1 hi).resolve_left hij)
          rwa [List.getElem?_set_ne (Ne.symm hij)] at this
      · rw [hout i (List.not_mem_of_not_mem_cons hi), List.getElem?_set_ne (Ne.symm (List.ne_of_not_mem_cons hi))]

/-- A leaf can be placed in slots that are free. -/
theorem placeLeaf_of_free {e : Entry} {is : List Nat} : ∀ {es : List Entry}, is.Nodup →
    (∀ i ∈ is, es[i]? = some .unmapped) → ∃ es', placeLeaf e is es = some es' := by
  induction is with
  | nil => exact fun _ _ => ⟨_, rfl⟩
  | cons j is ih =>
    intro es hnodup hfree
    obtain ⟨hj, hnodup⟩ := List.nodup_cons.1 hnodup
    rw [placeLeaf, if_pos (hfree j List.mem_cons_self)]
    refine ih hnodup fun i hi => ?_
    have hne : j ≠ i := fun h => hj (h ▸ hi)
    rw [List.getElem?_set_ne hne]
    exact hfree i (List.mem_cons_of_mem _ hi)

/-- The slots of a code in the array of entries. -/
theorem mem_slots_map (hc : c.code < 2 ^ c.length) (hw : c.length ≤ w) {x : Nat} :
    x ∈ (slots c.code c.length w order).map (base + ·) ↔ ∃ i < 2 ^ w, c.bits <+: bitsOf order w i ∧ x = base + i := by
  simp only [List.mem_map, c.mem_slots hc hw, and_assoc, eq_comm]

theorem fills_of_placeLeaf (hc : c.code < 2 ^ c.length) (hw : c.length ≤ w)
    (h : placeLeaf c.leaf ((slots c.code c.length w order).map (base + ·)) es = some es') :
    Fills c base w order es es' := by
  obtain ⟨hin, hout⟩ := placeLeaf_spec h
  refine ⟨fun i hi hp => hin _ ((mem_slots_map hc hw).2 ⟨i, hi, hp, rfl⟩), fun x hx => hout x fun hmem => ?_,
    placeLeaf_length h⟩
  obtain ⟨i, hi, hp, hxi⟩ := (mem_slots_map hc hw).1 hmem
  exact hx i hi hp hxi

theorem placeLeaf_of_free_slots (hc : c.code < 2 ^ c.length) (hw : c.length ≤ w)
    (hfree : ∀ i < 2 ^ w, c.bits <+: bitsOf order w i → es[base + i]? = some .unmapped) :
    ∃ es', placeLeaf c.leaf ((slots c.code c.length w order).map (base + ·)) es = some es' := by
  refine placeLeaf_of_free ((slots_nodup ..).map fun _ _ => Nat.add_left_cancel) fun x hx => ?_
  obtain ⟨i, hi, hp, rfl⟩ := (mem_slots_map hc hw).1 hx
  exact hfree i hi hp

end

/-! ## A lookup in a level -/

theorem leaf_length {c : Code} (hc : c.length ≤ 32) {len : BitVec 6} {v : BitVec 16} (he : .leaf len v = c.leaf) :
    len.toNat = c.length ∧ v = BitVec.ofNat 16 c.value := by
  obtain ⟨rfl, rfl⟩ := Entry.leaf.inj he
  exact ⟨by rw [BitVec.toNat_ofNat, Nat.mod_eq_of_lt (by omega)], rfl⟩

section
variable {t : Table} {base w : Nat} {cs : List Code} {bits : List Bool} (h : Level t.entries base w t.order cs)
  (hlen : ∀ c ∈ cs, c.length ≤ 32)
include h hlen

/-- A leaf that the bits read so far cover is that of a code with which they begin. -/
theorem Level.code_of_covered {k : Nat} {v : BitVec 16} (hk : k ≤ w) (hkb : k ≤ bits.length)
    (hv : (t.entryAt base w (bits.take k)).covered k = some v) :
    ∃ c ∈ cs, c.length ≤ k ∧ v = BitVec.ofNat 16 c.value ∧ c.bits <+: bits := by
  have hread : (bits.take k).length = k := List.length_take_of_le hkb
  have hfit : (bits.take k).length ≤ w := hread.trans_le hk
  rw [Table.entryAt] at hv
  cases hcell : t.entries[base + prefixIndex t.order w (bits.take k)]? with
  | none => rw [hcell] at hv; cases hv
  | some e =>
    rw [hcell, Option.getD_some] at hv
    cases e with
    | unmapped => cases hv
    | link => cases hv
    | leaf len v' =>
      rw [Entry.covered] at hv
      split at hv
      case isFalse => cases hv
      case isTrue hle =>
        obtain rfl := Option.some.inj hv
        obtain ⟨c, hc, -, hleaf, hp⟩ := h.leaves _ (prefixIndex_lt _ hfit) _ _ hcell
        obtain ⟨hl, hval⟩ := leaf_length (hlen c hc) hleaf
        rw [hl] at hle
        rw [bitsOf_prefixIndex _ hfit] at hp
        have hp : c.bits <+: bits.take k :=
          List.prefix_of_prefix_length_le hp (List.prefix_append ..) (by rw [c.bits_length, hread]; exact hle)
        exact ⟨c, hc, hle, hval, hp.trans (List.take_prefix ..)⟩

/-- A lookup finds the code with which the bits begin (42_huffman.md R142). -/
theorem Level.finds {c : Code} (hc : c ∈ cs) (hw : c.length ≤ w) (hp : c.bits <+: bits) :
    t.Finds base w bits c.length (BitVec.ofNat 16 c.value) := by
  have hfit : c.bits.length ≤ w := by rwa [c.bits_length]
  have hbits := bitsOf_prefixIndex t.order hfit
  have htake : bits.take c.length = c.bits := by simpa using (List.prefix_iff_eq_take.1 hp).symm
  have hcell := h.holds c hc hw _ (prefixIndex_lt _ hfit) (by rw [hbits]; exact List.prefix_append ..)
  have hlong : c.length ≤ bits.length := by simpa using hp.length_le
  refine ⟨hw, hlong, fun j hj => ?_, ?_⟩
  · cases hv : (t.entryAt base w (bits.take j)).covered j with
    | none => rfl
    | some v =>
      obtain ⟨d, hd, hdj, -, hdp⟩ := h.code_of_covered hlen (by omega) (by omega) hv
      have hdc : d.bits <+: c.bits := List.prefix_of_prefix_length_le hdp hp (by simp; omega)
      have hcell' := h.holds d hd (by omega) _ (prefixIndex_lt _ hfit)
        (by rw [hbits]; exact hdc.trans (List.prefix_append ..))
      have hsame : c.leaf = d.leaf := Option.some.inj (hcell.symm.trans hcell')
      have hcl := (leaf_length (hlen c hc) rfl).1
      have hdl := (leaf_length (hlen d hd) hsame).1
      omega
  · rw [htake, Table.entryAt, hcell]
    exact if_pos (leaf_length (hlen c hc) rfl).1.le

/-- A lookup that comes to a slot with no leaf ends there (42_huffman.md R142). -/
theorem Level.exhausts {e : Entry} {i : Nat} (hi : i < 2 ^ w) (hp : bitsOf t.order w i <+: bits)
    (hcell : t.entries[base + i]? = some e) (he : ∀ len v, e ≠ .leaf len v) : t.Exhausts base w bits e := by
  have htake : bits.take w = bitsOf t.order w i := by simpa using (List.prefix_iff_eq_take.1 hp).symm
  have hfit : (bitsOf t.order w i).length ≤ w := (bitsOf_length ..).le
  have hindex : prefixIndex t.order w (bitsOf t.order w i) = i := by
    refine bitsOf_inj (prefixIndex_lt _ hfit) hi ((bitsOf_prefixIndex _ hfit).trans ?_)
    rw [bitsOf_length, Nat.sub_self, List.replicate_zero, List.append_nil]
  have hlong : w ≤ bits.length := by simpa using hp.length_le
  refine ⟨hlong, fun j hj => ?_, ?_⟩
  · cases hv : (t.entryAt base w (bits.take j)).covered j with
    | none => rfl
    | some v =>
      obtain ⟨d, hd, hdj, -, hdp⟩ := h.code_of_covered hlen (by omega) (by omega) hv
      have hcell' := h.holds d hd (by omega) i hi (List.prefix_of_prefix_length_le hdp hp (by simp; omega))
      exact absurd (Option.some.inj (hcell.symm.trans hcell')) (he _ _)
  · rw [htake, Table.entryAt, hindex, hcell, Option.getD_some]

end

/-! ## A whole table -/

/-- What can be placed in a table (42_huffman.md R132, R134). -/
structure Code.Fits (c : Code) : Prop where
  pos : 1 ≤ c.length
  le : c.length ≤ 32
  lt : c.code < 2 ^ c.length

/-- What is left of the long codes that link from slot `i` of the primary table. -/
def subCodes (cs : List Code) (w : Nat) (order : BitOrder) (i : Nat) : List Code :=
  (cs.filter fun c => decide (w < c.length) && c.slot w order == i).map (·.rest w)

section
variable {w i : Nat} {order : BitOrder} {c d : Code} {cs : List Code}

theorem mem_subCodes : d ∈ subCodes cs w order i ↔ ∃ c ∈ cs, w < c.length ∧ c.slot w order = i ∧ c.rest w = d := by
  simp [subCodes, and_assoc]

theorem subCodes_cons_of_pos (hw : w < c.length) (hi : c.slot w order = i) :
    subCodes (c :: cs) w order i = c.rest w :: subCodes cs w order i := by
  rw [subCodes, List.filter_cons_of_pos (by simp [hw, hi]), List.map_cons, subCodes]

theorem subCodes_cons_of_neg (h : ¬ (w < c.length ∧ c.slot w order = i)) :
    subCodes (c :: cs) w order i = subCodes cs w order i := by
  rw [subCodes, List.filter_cons_of_neg (by simpa using h), subCodes]

end

/-- The sub-table at `b`, `sw` bits wide, to which slot `i` of the primary table links. -/
structure SubTable (all : List Code) (w : Nat) (order : BitOrder) (done : List Code) (es : List Entry) (i b sw : Nat) :
    Prop where
  after : 2 ^ w ≤ b
  within : b + 2 ^ sw ≤ es.length
  width : ∀ c ∈ all, w < c.length → c.slot w order = i → c.length - w ≤ sw
  owner : ∃ c ∈ all, w < c.length ∧ c.slot w order = i
  level : Level es b sw order (subCodes done w order i)
  flat : ∀ k < 2 ^ sw, ∀ b' sw', es[b + k]? ≠ some (.link b' sw')

/-- The codes `done` of the list `all` have been placed in a table `w` bits wide: the invariant of the loop of R136. -/
structure Placed (all : List Code) (w : Nat) (order : BitOrder) (done : List Code) (es : List Entry) : Prop where
  subset : ∀ c ∈ done, c ∈ all
  size : 2 ^ w ≤ es.length
  capacity : es.length ≤ Config.tblCap
  primary : Level es 0 w order done
  linked : ∀ c ∈ done, w < c.length → ∃ b sw, es[c.slot w order]? = some (.link b sw)
  sub : ∀ i < 2 ^ w, ∀ b sw, es[i]? = some (.link b sw) → SubTable all w order done es i b.toNat sw.toNat
  apart : ∀ i < 2 ^ w, ∀ b sw, es[i]? = some (.link b sw) → ∀ j < 2 ^ w, ∀ b' sw', es[j]? = some (.link b' sw') → i ≠ j →
    b.toNat + 2 ^ sw.toNat ≤ b'.toNat ∨ b'.toNat + 2 ^ sw'.toNat ≤ b.toNat

section
variable {all done : List Code} {w : Nat} {order : BitOrder} {c : Code} {es es' : List Entry}

/-- Before the first code every slot of the primary table is free. -/
theorem placed_nil (hw : w ≤ 16) : Placed all w order [] (List.replicate (2 ^ w) .unmapped) := by
  have hcell {x : Nat} {e : Entry} (h : (List.replicate (2 ^ w) Entry.unmapped)[x]? = some e) : e = .unmapped :=
    List.eq_of_mem_replicate (List.mem_of_getElem? h)
  have hlink {x : Nat} {b : BitVec 17} {sw : BitVec 5} :
      (List.replicate (2 ^ w) Entry.unmapped)[x]? ≠ some (.link b sw) := fun h => nomatch hcell h
  refine ⟨nofun, ?_, ?_, ⟨nofun, fun i _ len v h => nomatch hcell h⟩, nofun, fun i _ b sw h => absurd h hlink,
    fun i _ b sw h => absurd h hlink⟩
  · rw [List.length_replicate]
  · rw [List.length_replicate]
    exact Nat.pow_le_pow_right (n := 2) (by omega) hw

/-- One code more has been placed, in the level it ends in. -/
theorem Placed.fill {d : Code} {base v : Nat} (h : Placed all w order done es) (hf : Fills d base v order es es')
    (hc : c ∈ all) (hprimary : Level es' 0 w order (c :: done))
    (hlinked : w < c.length → ∃ b sw, es[c.slot w order]? = some (.link b sw))
    (hsub : ∀ i < 2 ^ w, ∀ b sw, es[i]? = some (.link b sw) →
      Level es' b.toNat sw.toNat order (subCodes (c :: done) w order i)) : Placed all w order (c :: done) es' where
  subset d hd := by
    rcases List.mem_cons.1 hd with rfl | hd
    · exact hc
    · exact h.subset d hd
  size := hf.length ▸ h.size
  capacity := hf.length ▸ h.capacity
  primary := hprimary
  linked d hd hdw := by
    simp only [hf.link_iff]
    rcases List.mem_cons.1 hd with rfl | hd
    · exact hlinked hdw
    · exact h.linked d hd hdw
  sub i hi b sw he := by
    have he := hf.link_iff.1 he
    obtain ⟨hafter, hwithin, hwidth, howner, -, hflat⟩ := h.sub i hi b sw he
    exact ⟨hafter, hf.length ▸ hwithin, hwidth, howner, hsub i hi b sw he,
      fun k hk b' sw' => mt hf.link_iff.1 (hflat k hk b' sw')⟩
  apart i hi b sw he j hj b' sw' he' := h.apart i hi b sw (hf.link_iff.1 he) j hj b' sw' (hf.link_iff.1 he')

theorem Placed.fill_short (h : Placed all w order done es) (hc : c ∈ all) (hw : c.length ≤ w)
    (hf : Fills c 0 w order es es') : Placed all w order (c :: done) es' := by
  refine h.fill hf hc (hf.level h.primary hw) (fun h => absurd hw (Nat.not_le.2 h)) fun i hi b sw he => ?_
  have hsub := h.sub i hi b sw he
  rw [subCodes_cons_of_neg fun h => absurd hw (Nat.not_le.2 h.1)]
  exact hsub.level.of_same fun k _ => hf.kept_outside (by have := hsub.after; omega)

theorem Placed.fill_long {b : BitVec 17} {sw : BitVec 5} (h : Placed all w order done es) (hc : c ∈ all)
    (hfit : c.Fits) (hw : w < c.length) (hlink : es[c.slot w order]? = some (.link b sw))
    (hf : Fills (c.rest w) b.toNat sw.toNat order es es') : Placed all w order (c :: done) es' := by
  have hslot : c.slot w order < 2 ^ w := c.slot_lt hfit.lt hw
  have hown := h.sub _ hslot b sw hlink
  have hprimary : Level es' 0 w order done :=
    h.primary.of_same fun i hi => hf.kept_outside (by have := hown.after; omega)
  refine h.fill hf hc (hprimary.cons_long hw) (fun _ => ⟨b, sw, hlink⟩) fun i hi b' sw' he => ?_
  by_cases hsame : c.slot w order = i
  · subst hsame
    obtain ⟨rfl, rfl⟩ := Entry.link.inj (Option.some.inj (hlink.symm.trans he))
    rw [subCodes_cons_of_pos hw rfl]
    exact hf.level hown.level (hown.width c hc hw rfl)
  · rw [subCodes_cons_of_neg fun h => hsame h.2]
    refine (h.sub i hi b' sw' he).level.of_same fun k hk => hf.kept_outside ?_
    have := h.apart _ hslot b sw hlink i hi b' sw' he hsame
    omega

end

/-! ## Allocating a sub-table -/

section
variable {all done : List Code} {w : Nat} {order : BitOrder} {c : Code} {es es' : List Entry}

theorem le_subWidth (hc : c ∈ all) (hw : w < c.length) : c.length - w ≤ subWidth all w (c.head w) := by
  have hmem : c ∈ all.filter fun d => decide (w < d.length) && d.code / 2 ^ (d.length - w) == c.head w := by
    simp [hc, hw, Code.head]
  rw [subWidth]
  generalize all.filter _ = cs at hmem
  induction cs with
  | nil => cases hmem
  | cons d cs ih =>
    rcases List.mem_cons.1 hmem with rfl | hmem
    · exact Nat.le_max_left ..
    · exact (ih hmem).trans (Nat.le_max_right ..)

theorem exists_max_rest (w : Nat) {cs : List Code} : ∀ {c : Code}, c ∈ cs →
    ∃ d ∈ cs, d.length - w = cs.foldr (fun c m => max (c.length - w) m) 0 := by
  induction cs with
  | nil => exact nofun
  | cons a cs ih =>
    intro c _
    rw [List.foldr_cons]
    cases cs with
    | nil => exact ⟨a, List.mem_cons_self, (Nat.max_zero _).symm⟩
    | cons b cs =>
      obtain ⟨d, hd, hmax⟩ := ih List.mem_cons_self
      rw [← hmax]
      rcases Nat.le_total (a.length - w) (d.length - w) with hle | hle
      · exact ⟨d, List.mem_cons_of_mem _ hd, (Nat.max_eq_right hle).symm⟩
      · exact ⟨a, List.mem_cons_self, (Nat.max_eq_left hle).symm⟩

/-- The width of a sub-table is what one of its codes needs. -/
theorem exists_subWidth (hc : c ∈ all) (hw : w < c.length) :
    ∃ d ∈ all, w < d.length ∧ d.head w = c.head w ∧ d.length - w = subWidth all w (c.head w) := by
  have hmem : c ∈ all.filter fun d => decide (w < d.length) && d.code / 2 ^ (d.length - w) == c.head w := by
    simp [hc, hw, Code.head]
  have hall (d : Code) (hd : d ∈ all.filter fun d => decide (w < d.length) && d.code / 2 ^ (d.length - w) == c.head w) :
      d ∈ all ∧ w < d.length ∧ d.head w = c.head w := by simpa [Code.head] using hd
  rw [subWidth]
  generalize all.filter _ = cs at hmem hall
  obtain ⟨d, hd, hmax⟩ := exists_max_rest w hmem
  obtain ⟨h1, h2, h3⟩ := hall d hd
  exact ⟨d, h1, h2, h3, hmax⟩

/-- The table with a sub-table `sw` bits wide added, to which slot `i` of the primary table links. -/
def allocated (es : List Entry) (i sw : Nat) : List Entry :=
  es.set i (.link (BitVec.ofNat 17 es.length) (BitVec.ofNat 5 sw)) ++ List.replicate (2 ^ sw) .unmapped

theorem allocated_length (es : List Entry) (i sw : Nat) : (allocated es i sw).length = es.length + 2 ^ sw := by
  simp [allocated]

theorem allocated_of_lt {i sw x : Nat} (hx : x < es.length) (hxi : x ≠ i) : (allocated es i sw)[x]? = es[x]? := by
  rw [allocated, List.getElem?_append_left (by simpa using hx), List.getElem?_set_ne (Ne.symm hxi)]

theorem allocated_slot {i sw : Nat} (hi : i < es.length) :
    (allocated es i sw)[i]? = some (.link (BitVec.ofNat 17 es.length) (BitVec.ofNat 5 sw)) := by
  rw [allocated, List.getElem?_append_left (by simpa using hi), List.getElem?_set_self hi]

theorem allocated_new {i sw k : Nat} (hk : k < 2 ^ sw) : (allocated es i sw)[es.length + k]? = some .unmapped := by
  rw [allocated, List.getElem?_append_right (by simp), List.length_set, Nat.add_sub_cancel_left,
    List.getElem?_replicate_of_lt hk]

/-- A sub-table for a long code whose slot is still free (42_huffman.md R136). -/
theorem Placed.allocate (h : Placed all w order done es) (hall : ∀ c ∈ all, c.Fits) (hc : c ∈ all) (hw : w < c.length)
    (hpos : 1 ≤ w) (hfree : es[c.slot w order]? = some .unmapped)
    (hcap : es.length + 2 ^ subWidth all w (c.head w) ≤ Config.tblCap) :
    Placed all w order done (allocated es (c.slot w order) (subWidth all w (c.head w)))
      ∧ (BitVec.ofNat 17 es.length).toNat = es.length
      ∧ (BitVec.ofNat 5 (subWidth all w (c.head w))).toNat = subWidth all w (c.head w) := by
  have hslot : c.slot w order < 2 ^ w := c.slot_lt (hall c hc).lt hw
  obtain ⟨d, hd, -, -, hwidest⟩ := exists_subWidth hc hw
  have hfit : (BitVec.ofNat 5 (subWidth all w (c.head w))).toNat = subWidth all w (c.head w) := by
    have := (hall d hd).le
    exact Nat.mod_eq_of_lt (by omega)
  have hnext : (BitVec.ofNat 17 es.length).toNat = es.length := by
    have : es.length ≤ 65536 := h.capacity
    exact Nat.mod_eq_of_lt (by omega)
  have hwidth : ∀ d ∈ all, w < d.length → d.slot w order = c.slot w order → d.length - w ≤ subWidth all w (c.head w) :=
    fun d hd hdw he => (slot_eq_iff_head_eq (hall d hd).lt hdw (hall c hc).lt hw).1 he ▸ le_subWidth hd hdw
  generalize subWidth all w (c.head w) = sw at hcap hfit hwidth
  generalize hi : c.slot w order = i at *
  have hsize := h.size
  have hnone : subCodes done w order i = [] := by
    refine List.eq_nil_iff_forall_not_mem.2 fun x hx => ?_
    obtain ⟨d, hd, hdw, rfl, -⟩ := mem_subCodes.1 hx
    obtain ⟨b, sw', he⟩ := h.linked d hd hdw
    cases hfree.symm.trans he
  have hsame {x : Nat} {e : Entry} (hx : es[x]? = some e) (he : e ≠ .unmapped) : (allocated es i sw)[x]? = some e := by
    rw [allocated_of_lt (List.getElem?_eq_some_iff.1 hx).1 fun h => he (Option.some.inj ((h ▸ hx).symm.trans hfree)), hx]
  have hlink {x : Nat} (hx : x < 2 ^ w) {b : BitVec 17} {sw' : BitVec 5}
      (he : (allocated es i sw)[x]? = some (.link b sw')) :
      es[x]? = some (.link b sw') ∨ (x = i ∧ b.toNat = es.length ∧ sw'.toNat = sw) := by
    by_cases hxi : x = i
    · subst hxi
      rw [allocated_slot (by omega)] at he
      obtain ⟨rfl, rfl⟩ := Entry.link.inj (Option.some.inj he)
      exact .inr ⟨rfl, hnext, hfit⟩
    · exact .inl (by rwa [allocated_of_lt (by omega) hxi] at he)
  refine ⟨⟨h.subset, ?size, ?capacity, ⟨?holds, ?leaves⟩, ?linked, ?sub, ?apart⟩, hnext, hfit⟩
  case size => exact (allocated_length ..).ge.trans' (hsize.trans (Nat.le_add_right ..))
  case capacity => rwa [allocated_length]
  case holds => exact fun d hd hdw k hk hp => hsame (h.primary.holds d hd hdw k hk hp) nofun
  case leaves =>
    intro k hk len v he
    refine h.primary.leaves k hk len v ?_
    rw [Nat.zero_add] at he ⊢
    by_cases hki : k = i
    · rw [hki, allocated_slot (by omega)] at he
      cases he
    · rwa [allocated_of_lt (by omega) hki] at he
  case linked =>
    intro d hd hdw
    obtain ⟨b, sw', he⟩ := h.linked d hd hdw
    exact ⟨b, sw', hsame he nofun⟩
  case sub =>
    intro j hj b sw' he
    rcases hlink hj he with he | ⟨rfl, hb, hsw⟩
    · obtain ⟨hafter, hwithin, hwidth', howner, hlevel, hflat⟩ := h.sub j hj b sw' he
      have hcell (k : Nat) (hk : k < 2 ^ sw'.toNat) : (allocated es i sw)[b.toNat + k]? = es[b.toNat + k]? :=
        allocated_of_lt (by omega) (by omega)
      refine ⟨hafter, ?_, hwidth', howner, hlevel.of_same hcell, fun k hk => ?_⟩
      · exact (allocated_length ..).ge.trans' (hwithin.trans (Nat.le_add_right ..))
      · rw [hcell k hk]
        exact hflat k hk
    · rw [hb, hsw]
      refine ⟨h.size, (allocated_length ..).ge, hwidth, ⟨c, hc, hw, hi⟩, ?_, fun k hk b' sw' he' => ?_⟩
      · rw [hnone]
        exact ⟨nofun, fun k hk len v he' => nomatch (allocated_new hk).symm.trans he'⟩
      · cases (allocated_new hk).symm.trans he'
  case apart =>
    intro j hj b sw' he j' hj' b' sw'' he' hne
    rcases hlink hj he with hold | ⟨hji, hb, hsw⟩ <;> rcases hlink hj' he' with hold' | ⟨hji', hb', hsw'⟩
    · exact h.apart j hj b sw' hold j' hj' b' sw'' hold' hne
    · exact .inl (hb' ▸ (h.sub j hj b sw' hold).within)
    · exact .inr (hb ▸ (h.sub j' hj' b' sw'' hold').within)
    · exact absurd (hji.trans hji'.symm) hne

end

/-! ## The loop of R136 -/

section
variable {all done : List Code} {w : Nat} {order : BitOrder} {c : Code} {es es' : List Entry}

/-- How a short code is placed. -/
theorem placeCode_short (hw : c.length ≤ w) : placeCode all w order c es
    = match placeLeaf c.leaf ((slots c.code c.length w order).map (0 + ·)) es with
      | some es' => .ok es'
      | none => .error .huffOver := by
  have hmap : (slots c.code c.length w order).map (0 + ·) = slots c.code c.length w order := by simp
  rw [placeCode, if_pos hw, hmap]
  rfl

/-- How the rest of a long code is placed. -/
theorem placeInSub_eq (b sw : Nat) : placeInSub c w order b sw es
    = match placeLeaf (c.rest w).leaf ((slots (c.rest w).code (c.rest w).length sw order).map (b + ·)) es with
      | some es' => .ok es'
      | none => .error .huffOver := rfl

theorem placeInSub_fills {b sw : Nat} (hsw : c.length - w ≤ sw) (h : placeInSub c w order b sw es = .ok es') :
    Fills (c.rest w) b sw order es es' := by
  rw [placeInSub_eq] at h
  split at h
  · next hp =>
    cases h
    exact fills_of_placeLeaf (c.rest_lt w) hsw hp
  · cases h

/-- How a long code is placed: in the sub-table its slot links to, which is allocated where the slot is free. -/
theorem placeCode_long (hw : w < c.length) : placeCode all w order c es
    = match es[c.slot w order]? with
      | some (.link b sw) => placeInSub c w order b.toNat sw.toNat es
      | some .unmapped =>
        if Config.tblCap < es.length + 2 ^ subWidth all w (c.head w) then .error .tableCapacity
        else placeInSub c w order es.length (subWidth all w (c.head w))
          (allocated es (c.slot w order) (subWidth all w (c.head w)))
      | _ => .error .huffOver := by
  rw [placeCode, if_neg (Nat.not_le.2 hw)]
  dsimp only
  rw [slots_same_width]
  rfl

/-- Placing a code keeps the invariant (42_huffman.md R136). -/
theorem Placed.placeCode (h : Placed all w order done es) (hall : ∀ c ∈ all, c.Fits) (hpos : 1 ≤ w) (hc : c ∈ all)
    (hp : placeCode all w order c es = .ok es') : Placed all w order (c :: done) es' := by
  have hfit := hall c hc
  rcases Nat.lt_or_ge w c.length with hw | hw
  · have hslot : c.slot w order < 2 ^ w := c.slot_lt hfit.lt hw
    rw [placeCode_long hw] at hp
    cases hcell : es[c.slot w order]? with
    | none => rw [hcell] at hp; cases hp
    | some e =>
      rw [hcell] at hp
      cases e with
      | leaf => cases hp
      | link b sw =>
        exact h.fill_long hc hfit hw hcell (placeInSub_fills ((h.sub _ hslot b sw hcell).width c hc hw rfl) hp)
      | unmapped =>
        dsimp only at hp
        by_cases hcap : Config.tblCap < es.length + 2 ^ subWidth all w (c.head w)
        · rw [if_pos hcap] at hp
          cases hp
        · rw [if_neg hcap] at hp
          obtain ⟨hplaced, hb, hsw⟩ := h.allocate hall hc hw hpos hcell (Nat.not_lt.1 hcap)
          refine hplaced.fill_long hc hfit hw (allocated_slot (Nat.lt_of_lt_of_le hslot h.size)) ?_
          rw [hb, hsw]
          exact placeInSub_fills (le_subWidth hc hw) hp
  · rw [placeCode_short hw] at hp
    split at hp
    · next hleaf =>
      cases hp
      exact h.fill_short hc hw (fills_of_placeLeaf hfit.lt hw hleaf)
    · cases hp

theorem Placed.placeCodes (hall : ∀ c ∈ all, c.Fits) (hpos : 1 ≤ w) : ∀ {cs done : List Code} {es : List Entry},
    Placed all w order done es → (∀ c ∈ cs, c ∈ all) → placeCodes all w order cs es = .ok es' →
      Placed all w order (cs.reverse ++ done) es' := by
  intro cs
  induction cs with
  | nil =>
    intro done es h _ hp
    cases hp
    exact h
  | cons c cs ih =>
    intro done es h hcs hp
    rw [Machine.placeCodes] at hp
    split at hp
    · next hstep =>
      rw [List.reverse_cons, List.append_assoc]
      exact ih (h.placeCode hall hpos (hcs c List.mem_cons_self) hstep) (fun d hd => hcs d (List.mem_cons_of_mem _ hd)) hp
    · cases hp

/-- What a construction that succeeds has placed: every code of the list. -/
theorem placed_of_build {cs : List Code} {ok : Bool} (hall : ∀ c ∈ cs, c.Fits) (hpos : 1 ≤ w) (hw : w ≤ 16)
    (h : build cs w order ok = .ok es) : Placed cs w order cs.reverse es := by
  have := (placed_nil hw).placeCodes hall hpos (fun _ => id) (build_ok.1 h).1
  rwa [List.append_nil] at this

end

/-! ## What a built table decodes -/

section
variable {t : Table} {all done : List Code} {bits : List Bool} (h : Placed all t.w.toNat t.order done t.entries)
  (hall : ∀ c ∈ all, c.Fits)
include h hall

theorem Placed.length_le : ∀ c ∈ done, c.length ≤ 32 := fun c hc => (hall c (h.subset c hc)).le

theorem Placed.sub_length_le (i : Nat) : ∀ c ∈ subCodes done t.w.toNat t.order i, c.length ≤ 32 := by
  intro d hd
  obtain ⟨c, hc, -, -, rfl⟩ := mem_subCodes.1 hd
  exact (Nat.sub_le ..).trans (h.length_le hall c hc)

/-- The table leads from the bits of a code to its value (42_huffman.md R143). -/
theorem Placed.decodes {c : Code} (hc : c ∈ done) (hp : c.bits <+: bits) :
    t.Decodes bits c.length (BitVec.ofNat 16 c.value) := by
  rcases Nat.lt_or_ge t.w.toNat c.length with hw | hw
  · have hfit := hall c (h.subset c hc)
    obtain ⟨b, sw, hlink⟩ := h.linked c hc hw
    have hslot : c.slot t.w.toNat t.order < 2 ^ t.w.toNat := c.slot_lt hfit.lt hw
    have hsub := h.sub _ hslot b sw hlink
    obtain ⟨more, rfl⟩ := hp
    have hbits := c.bits_slot (order := t.order) hw
    rw [← hbits, List.append_assoc]
    refine .inr ⟨b, sw, ?_, Nat.le_of_lt hw, ?_⟩
    · exact h.primary.exhausts (h.length_le hall) hslot (List.prefix_append ..) (by rwa [Nat.zero_add]) nofun
    · rw [List.drop_left' (bitsOf_length ..)]
      exact hsub.level.finds (h.sub_length_le hall _) (mem_subCodes.2 ⟨c, hc, hw, rfl, rfl⟩)
        (hsub.width c (h.subset c hc) hw rfl) (List.prefix_append ..)
  · exact .inl (h.primary.finds (h.length_le hall) hc hw hp)

/-- What the table finds is a code of the list with which the bits begin (42_huffman.md R143). -/
theorem Placed.code_of_decodes {k : Nat} {v : BitVec 16} (hd : t.Decodes bits k v) : ∃ c ∈ done, c.bits <+: bits := by
  rcases hd with ⟨hk, hkb, -, hv⟩ | ⟨b, sw, ⟨hlong, -, he⟩, hk, hkw, hkb, -, hv⟩
  · obtain ⟨c, hc, -, -, hp⟩ := h.primary.code_of_covered (h.length_le hall) hk hkb hv
    exact ⟨c, hc, hp⟩
  · have hfit : (bits.take t.w.toNat).length ≤ t.w.toNat := List.length_take_le ..
    have hlt := prefixIndex_lt t.order hfit
    have hbits := bitsOf_prefixIndex t.order hfit
    rw [List.length_take_of_le hlong, Nat.sub_self, List.replicate_zero, List.append_nil] at hbits
    rw [Table.entryAt, Nat.zero_add] at he
    generalize prefixIndex t.order t.w.toNat (bits.take t.w.toNat) = i at he hlt hbits
    have hlink : t.entries[i]? = some (.link b sw) := by
      cases hcell : t.entries[i]? with
      | none => rw [hcell] at he; cases he
      | some e => rw [hcell] at he; exact congrArg some he
    obtain ⟨d, hd, -, -, hp⟩ := (h.sub i hlt b sw hlink).level.code_of_covered (h.sub_length_le hall i) hkw hkb hv
    obtain ⟨c, hc, hw, rfl, rfl⟩ := mem_subCodes.1 hd
    refine ⟨c, hc, ?_⟩
    rw [← c.bits_slot hw, hbits]
    conv_rhs => rw [← List.take_append_drop t.w.toNat bits]
    exact (List.prefix_append_right_inj _).2 hp

end

/-- Settles O35: every code of a construction that succeeds has been placed, so a lookup finds it. -/
theorem builtTableFindsItsCodes : Obligations.BuiltTableFindsItsCodes := by
  intro cs width order ok es mode shape hpos hw hcs hb c hc rest
  have hfits : ∀ c ∈ cs, c.Fits := fun c hc => ⟨(hcs c hc).1, (hcs c hc).2.1, (hcs c hc).2.2.1⟩
  exact Placed.decodes (t := ⟨mode, order, width, es, shape⟩) (placed_of_build hfits hpos hw hb) hfits
    (List.mem_reverse.2 hc) (List.prefix_append ..)

end Sys2Proof.Machine
end

section
/-!
When `Build` succeeds for codes of which none begins with another (42_huffman.md R136, R138): every slot a code needs is
free, so only the room for its sub-tables can be missing; and what `HUF.MAKE` and `HUF.FIXED` then leave for `HUF.DECODE`.
-/
namespace Sys2Proof.Machine

/-! ## The slots that one more code needs are free -/

section
variable {all done : List Code} {w : Nat} {order : BitOrder} {c d : Code} {es es' : List Entry}

/-- Only one code of such a list begins the same bits. -/
theorem PrefixFree.eq_of_slot {bits : List Bool} (h : PrefixFree all) (hc : c ∈ all) (hd : d ∈ all) (hp : c.bits <+: bits)
    (hq : d.bits <+: bits) : c = d := by
  rcases List.prefix_or_prefix_of_prefix hp hq with hcd | hdc
  · exact h c hc d hd hcd
  · exact (h d hd c hc hdc).symm

variable (h : Placed all w order done es) (hall : ∀ c ∈ all, c.Fits) (hfree : PrefixFree all) (hc : c ∈ all)
  (hnew : c ∉ done)
include h hfree hc hnew

theorem Placed.free_of_short (hw : c.length ≤ w) :
    ∀ i < 2 ^ w, c.bits <+: bitsOf order w i → es[0 + i]? = some .unmapped := by
  intro i hi hp
  obtain ⟨e, hcell⟩ : ∃ e, es[0 + i]? = some e := ⟨_, List.getElem?_eq_getElem (by have := h.size; omega)⟩
  cases e with
  | unmapped => exact hcell
  | leaf len v =>
    obtain ⟨d, hd, -, -, hq⟩ := h.primary.leaves i hi len v hcell
    exact absurd (hfree.eq_of_slot hc (h.subset d hd) hp hq ▸ hd) hnew
  | link b sw =>
    rw [Nat.zero_add] at hcell
    obtain ⟨d, hd, hdw, rfl⟩ := (h.sub i hi b sw hcell).owner
    have hq : c.bits <+: d.bits := d.bits_slot (order := order) hdw ▸ hp.trans (List.prefix_append ..)
    have := hfree c hc d hd hq
    subst this
    omega

include hall

/-- The slot of a long code links to a sub-table or is free. -/
theorem Placed.slot_cases (hw : w < c.length) :
    (∃ b sw, es[c.slot w order]? = some (.link b sw)) ∨ es[c.slot w order]? = some .unmapped := by
  have hslot : c.slot w order < 2 ^ w := c.slot_lt (hall c hc).lt hw
  obtain ⟨e, hcell⟩ : ∃ e, es[c.slot w order]? = some e := ⟨_, List.getElem?_eq_getElem (by have := h.size; omega)⟩
  cases e with
  | unmapped => exact .inr hcell
  | link b sw => exact .inl ⟨b, sw, hcell⟩
  | leaf len v =>
    obtain ⟨d, hd, -, -, hq⟩ := h.primary.leaves _ hslot len v (by rwa [Nat.zero_add])
    have hq : d.bits <+: c.bits := c.bits_slot (order := order) hw ▸ hq.trans (List.prefix_append ..)
    exact absurd (hfree d (h.subset d hd) c hc hq ▸ hd) hnew

theorem Placed.free_of_long (hw : w < c.length) {b : BitVec 17} {sw : BitVec 5}
    (hlink : es[c.slot w order]? = some (.link b sw)) :
    ∀ k < 2 ^ sw.toNat, (c.rest w).bits <+: bitsOf order sw.toNat k → es[b.toNat + k]? = some .unmapped := by
  intro k hk hp
  have hsub := h.sub _ (c.slot_lt (hall c hc).lt hw) b sw hlink
  obtain ⟨e, hcell⟩ : ∃ e, es[b.toNat + k]? = some e := ⟨_, List.getElem?_eq_getElem (by have := hsub.within; omega)⟩
  cases e with
  | unmapped => exact hcell
  | link b' sw' => exact absurd hcell (hsub.flat k hk b' sw')
  | leaf len v =>
    obtain ⟨x, hx, -, -, hq⟩ := hsub.level.leaves k hk len v hcell
    obtain ⟨d, hd, hdw, hslot, rfl⟩ := mem_subCodes.1 hx
    have hcbits := c.bits_slot (order := order) hw
    have hdbits := d.bits_slot (order := order) hdw
    rw [hslot] at hdbits
    have hcd : c = d := hfree.eq_of_slot hc (h.subset d hd) (hcbits ▸ (List.prefix_append_right_inj _).2 hp)
      (hdbits ▸ (List.prefix_append_right_inj _).2 hq)
    exact absurd (hcd ▸ hd) hnew

end

/-! ## The room for sub-tables -/

/-- An entry that links to a sub-table. -/
def Entry.isLink : Option Entry → Bool
  | some (.link ..) => true
  | _ => false

/-- The entries that the codes of these lengths longer than the width need past the primary table at most. -/
def subRoom (w : Nat) (ls : List Nat) : Nat := ((ls.filter fun l => decide (w < l)).map fun l => 2 ^ (l - w)).sum

/-- The entries that a code needs of the sub-table to which slot `i` links. -/
def Code.room (c : Code) (w : Nat) (order : BitOrder) (i : Nat) : Nat :=
  if w < c.length ∧ c.slot w order = i then 2 ^ (c.length - w) else 0

/-- Those that the codes whose slots link to a sub-table need. -/
def linkedRoom (all : List Code) (w : Nat) (order : BitOrder) (es : List Entry) : Nat :=
  (all.map fun c => if w < c.length ∧ Entry.isLink es[c.slot w order]? = true then 2 ^ (c.length - w) else 0).sum

section
variable {all done : List Code} {w : Nat} {order : BitOrder} {c : Code} {es es' : List Entry}

theorem linkedRoom_le : linkedRoom all w order es ≤ subRoom w (all.map (·.length)) := by
  rw [linkedRoom, subRoom]
  induction all with
  | nil => exact Nat.zero_le _
  | cons c all ih =>
    rw [List.map_cons, List.map_cons, List.sum_cons]
    by_cases hw : w < c.length
    · rw [List.filter_cons_of_pos (by simpa using hw), List.map_cons, List.sum_cons]
      refine Nat.add_le_add ?_ ih
      split
      · exact Nat.le_refl _
      · exact Nat.zero_le _
    · rw [List.filter_cons_of_neg (by simpa using hw), if_neg fun h => hw h.1, Nat.zero_add]
      exact ih

theorem Fills.linkedRoom {d : Code} {base v : Nat} (h : Fills d base v order es es') :
    linkedRoom all w order es' = linkedRoom all w order es := by
  have hsame (x : Nat) : Entry.isLink es'[x]? = Entry.isLink es[x]? := by
    rcases h.cases x with ⟨hold, hnew⟩ | hx
    · rw [hold, hnew]
      rfl
    · rw [hx]
  simp only [Machine.linkedRoom, hsame]

/-- A sub-table takes up no more than the codes that link to it need together. -/
theorem linkedRoom_allocated (hall : ∀ c ∈ all, c.Fits) (hc : c ∈ all) (hw : w < c.length)
    (hfree : es[c.slot w order]? = some .unmapped) : linkedRoom all w order es + 2 ^ subWidth all w (c.head w)
      ≤ linkedRoom all w order (allocated es (c.slot w order) (subWidth all w (c.head w))) := by
  have hslot : c.slot w order < es.length := (List.getElem?_eq_some_iff.1 hfree).1
  obtain ⟨d, hd, hdw, hhead, hwidest⟩ := exists_subWidth hc hw
  generalize subWidth all w (c.head w) = sw at hwidest ⊢
  have hdslot : d.slot w order = c.slot w order := (slot_eq_iff_head_eq (hall d hd).lt hdw (hall c hc).lt hw).2 hhead
  have hnew : 2 ^ sw ≤ (all.map (·.room w order (c.slot w order))).sum :=
    calc 2 ^ sw = d.room w order (c.slot w order) := by rw [← hwidest]; exact (if_pos ⟨hdw, hdslot⟩).symm
      _ ≤ (all.map (·.room w order (c.slot w order))).sum :=
        List.single_le_sum (fun _ _ => Nat.zero_le _) _ (List.mem_map_of_mem hd)
  refine (Nat.add_le_add_left hnew _).trans ?_
  rw [linkedRoom, linkedRoom, ← List.sum_map_add]
  refine List.sum_le_sum fun a ha => ?_
  by_cases haw : w < a.length
  · by_cases hsame : a.slot w order = c.slot w order
    · simp [Code.room, haw, hsame, hfree, allocated_slot hslot, Entry.isLink]
    · simp only [Code.room, haw, hsame, true_and, and_false, if_false, Nat.add_zero]
      by_cases hlt : a.slot w order < es.length
      · rw [allocated_of_lt hlt hsame]
      · rw [List.getElem?_eq_none (Nat.not_lt.1 hlt)]
        exact Nat.zero_le _
  · simp [Code.room, haw]

end

/-! ## Placing the codes of a list of which none begins with another -/

section
variable {all done : List Code} {w : Nat} {order : BitOrder} {c : Code} {es : List Entry}

theorem placeInSub_of_free {b sw : Nat} (hsw : c.length - w ≤ sw)
    (hfree : ∀ k < 2 ^ sw, (c.rest w).bits <+: bitsOf order sw k → es[b + k]? = some .unmapped) :
    ∃ es', placeInSub c w order b sw es = .ok es' := by
  obtain ⟨es', hp⟩ := placeLeaf_of_free_slots (c := c.rest w) (c.rest_lt w) hsw hfree
  exact ⟨es', by rw [placeInSub_eq, hp]⟩

variable (hall : ∀ c ∈ all, c.Fits) (hpf : PrefixFree all) (hpos : 1 ≤ w)
include hall hpf hpos

/-- A code is placed, in the room its list needs, unless the array has no room for a sub-table. -/
theorem Placed.placeCode_cases (h : Placed all w order done es) (hc : c ∈ all) (hnew : c ∉ done)
    (hroom : es.length ≤ 2 ^ w + linkedRoom all w order es) :
    (∃ es', Machine.placeCode all w order c es = .ok es' ∧ es'.length ≤ 2 ^ w + linkedRoom all w order es')
      ∨ (Machine.placeCode all w order c es = .error .tableCapacity
        ∧ Config.tblCap < 2 ^ w + subRoom w (all.map (·.length))) := by
  have hfit := hall c hc
  rcases Nat.lt_or_ge w c.length with hw | hw
  · have hslot : c.slot w order < 2 ^ w := c.slot_lt hfit.lt hw
    rw [placeCode_long hw]
    rcases h.slot_cases hall hpf hc hnew hw with ⟨b, sw, hlink⟩ | hfree
    · have hsw := (h.sub _ hslot b sw hlink).width c hc hw rfl
      obtain ⟨es', hp⟩ := placeInSub_of_free hsw (h.free_of_long hall hpf hc hnew hw hlink)
      have hf := placeInSub_fills hsw hp
      rw [hlink]
      exact .inl ⟨es', hp, by rwa [hf.linkedRoom, hf.length]⟩
    · have hmore := linkedRoom_allocated hall hc hw hfree
      have hlength := allocated_length es (c.slot w order) (subWidth all w (c.head w))
      rw [hfree]
      dsimp only
      by_cases hcap : Config.tblCap < es.length + 2 ^ subWidth all w (c.head w)
      · have := linkedRoom_le (all := all) (w := w) (order := order)
          (es := allocated es (c.slot w order) (subWidth all w (c.head w)))
        rw [if_pos hcap]
        exact .inr ⟨rfl, by omega⟩
      · obtain ⟨hplaced, hb, hsw⟩ := h.allocate hall hc hw hpos hfree (Nat.not_lt.1 hcap)
        have hlink := allocated_slot (es := es) (sw := subWidth all w (c.head w)) (Nat.lt_of_lt_of_le hslot h.size)
        have hslots := hplaced.free_of_long hall hpf hc hnew hw hlink
        rw [hb, hsw] at hslots
        obtain ⟨es', hp⟩ := placeInSub_of_free (le_subWidth hc hw) hslots
        have hf := placeInSub_fills (le_subWidth hc hw) hp
        rw [if_neg hcap]
        exact .inl ⟨es', hp, by rw [hf.linkedRoom, hf.length]; omega⟩
  · obtain ⟨es', hp⟩ := placeLeaf_of_free_slots hfit.lt hw (h.free_of_short hpf hc hnew hw)
    have hf := fills_of_placeLeaf hfit.lt hw hp
    rw [placeCode_short hw, hp]
    exact .inl ⟨es', rfl, by rwa [hf.linkedRoom, hf.length]⟩

theorem Placed.placeCodes_cases : ∀ {cs done : List Code} {es : List Entry}, Placed all w order done es →
    (∀ c ∈ cs, c ∈ all ∧ c ∉ done) → cs.Nodup → es.length ≤ 2 ^ w + linkedRoom all w order es →
    (∃ es', Machine.placeCodes all w order cs es = .ok es' ∧ es'.length ≤ 2 ^ w + subRoom w (all.map (·.length)))
      ∨ (Machine.placeCodes all w order cs es = .error .tableCapacity
        ∧ Config.tblCap < 2 ^ w + subRoom w (all.map (·.length))) := by
  intro cs
  induction cs with
  | nil => exact fun _ _ _ hroom => .inl ⟨_, rfl, hroom.trans (Nat.add_le_add_left linkedRoom_le _)⟩
  | cons c cs ih =>
    intro done es h hcs hnodup hroom
    obtain ⟨hc, hnew⟩ := hcs c List.mem_cons_self
    obtain ⟨hhead, htail⟩ := List.nodup_cons.1 hnodup
    rw [Machine.placeCodes]
    rcases h.placeCode_cases hall hpf hpos hc hnew hroom with ⟨es', hp, hroom'⟩ | ⟨hp, hfull⟩
    · rw [hp]
      refine ih (h.placeCode hall hpos hc hp) (fun d hd => ?_) htail hroom'
      obtain ⟨hdall, hdnew⟩ := hcs d (List.mem_cons_of_mem _ hd)
      exact ⟨hdall, List.not_mem_cons_of_ne_of_not_mem (fun he => hhead (he ▸ hd)) hdnew⟩
    · rw [hp]
      exact .inr ⟨rfl, hfull⟩

/-- The loop of R136 for such a list. -/
theorem placeCodes_cases (hw : w ≤ 16) (hnodup : all.Nodup) :
    (∃ es, placeCodes all w order all (List.replicate (2 ^ w) .unmapped) = .ok es
        ∧ es.length ≤ 2 ^ w + subRoom w (all.map (·.length)))
      ∨ (placeCodes all w order all (List.replicate (2 ^ w) .unmapped) = .error .tableCapacity
        ∧ Config.tblCap < 2 ^ w + subRoom w (all.map (·.length))) := by
  refine (placed_nil hw).placeCodes_cases hall hpf hpos (fun c hc => ⟨hc, nofun⟩) hnodup ?_
  rw [List.length_replicate]
  exact Nat.le_add_right ..

end

/-! ## `HUF.MAKE` (42_huffman.md R133, R138, R139) -/

section
variable {cs : List Code} {w : Nat} {order : BitOrder} {ok : Bool} {es : List Entry}

theorem build_of_error {c : Cause} (h : placeCodes cs w order cs (List.replicate (2 ^ w) .unmapped) = .error c) :
    build cs w order ok = .error c := by
  rw [build, h]

theorem build_incomplete (h : placeCodes cs w order cs (List.replicate (2 ^ w) .unmapped) = .ok es)
    (hk : kraft cs < 2 ^ 32) : build cs w order false = .error .huffUnder := by
  rw [build, h]
  dsimp only
  rw [if_neg (Nat.not_lt.2 (Nat.le_of_lt hk)), if_pos (by rw [decide_eq_true hk]; rfl)]

theorem kraft_eq_sum (cs : List Code) : kraft cs = ((cs.map (·.length)).map fun l => 2 ^ (32 - l)).sum := by
  rw [List.map_map]
  induction cs with
  | nil => rfl
  | cons c cs ih => exact congrArg (2 ^ (32 - c.length) + ·) ih

end

/-- What the canonical codes of a list of lengths are, where there are any. -/
structure CodesOf (lens : List Nat) (cs : List Code) : Prop where
  run : canonicalCodes lens = some cs
  lengths : (cs.map (·.length)).Perm (lens.filter (· ≠ 0))
  fits : ∀ c ∈ cs, c.Fits
  values : ∀ c ∈ cs, c.value < lens.length
  prefixFree : PrefixFree cs
  nodup : cs.Nodup

section
variable {lens : List Nat} {cs : List Code}

theorem codesOf_cases (h : ∀ l ∈ lens, l ≤ 32) :
    (2 ^ 32 < ((lens.filter (· ≠ 0)).map fun l => 2 ^ (32 - l)).sum ∧ canonicalCodes lens = none)
      ∨ (((lens.filter (· ≠ 0)).map fun l => 2 ^ (32 - l)).sum ≤ 2 ^ 32 ∧ ∃ cs, CodesOf lens cs) := by
  refine (canonicalCodes_cases h).imp_right fun ⟨hle, htaken, cs, hrun, hcs⟩ => ⟨hle, cs, ?_⟩
  refine ⟨hrun, hcs.lengths_perm le_foldr_max, fun c hc => ?_, fun c hc => ?_, hcs.prefixFree htaken, hcs.nodup⟩
  · obtain ⟨⟨hpos, hmax⟩, -⟩ := (hcs.mem c).1 hc
    exact ⟨hpos, hmax.trans (foldr_max_le h), hcs.code_lt htaken hc⟩
  · obtain ⟨-, hl, -⟩ := (hcs.mem c).1 hc
    exact (List.getElem?_eq_some_iff.1 hl).1

theorem codesOf_of_run (h : ∀ l ∈ lens, l ≤ 32) (hrun : canonicalCodes lens = some cs) : CodesOf lens cs := by
  rcases codesOf_cases h with ⟨-, hnone⟩ | ⟨-, ds, hds⟩
  · cases hnone.symm.trans hrun
  · exact Option.some.inj (hds.run.symm.trans hrun) ▸ hds

theorem CodesOf.kraft (h : CodesOf lens cs) : kraft cs = ((lens.filter (· ≠ 0)).map fun l => 2 ^ (32 - l)).sum :=
  (kraft_eq_sum cs).trans (h.lengths.map _).sum_eq

theorem CodesOf.subRoom (h : CodesOf lens cs) (w : Nat) : subRoom w (cs.map (·.length)) = subRoom w lens := by
  have hfilter : (lens.filter (· ≠ 0)).filter (fun l => decide (w < l)) = lens.filter fun l => decide (w < l) := by
    rw [List.filter_filter]
    refine List.filter_congr fun l _ => ?_
    by_cases hw : w < l
    · simp [hw, show l ≠ 0 by omega]
    · simp [hw]
  rw [Machine.subRoom, Machine.subRoom, ← hfilter]
  exact ((h.lengths.filter _).map _).sum_eq

end

/-- Settles O34: the canonical codes fail to be placed only for want of room, and their Kraft sum is that of the lengths. -/
theorem lengthsMakeATableByKraft : Obligations.LengthsMakeATableByKraft := by
  intro s t ok width num lens hs hv ht hpos hw hnum hl h32
  have hn : ¬ makeRefused t width num 1024 s = true := by
    rw [makeRefused_iff, hv]
    simp only [Bool.true_eq_false, or_false]
    omega
  have h32' : ∀ l ∈ lens.map (·.toNat), l ≤ 32 := by simpa using h32
  have hsum (p : Nat → Bool) (f : Nat → Nat) : (((lens.map (·.toNat)).filter p).map f).sum
      = ((lens.filter fun l => p l.toNat).map fun l => f l.toNat).sum := by
    rw [List.filter_map, List.map_map]
    rfl
  intro total room
  have htotal : (((lens.map (·.toNat)).filter (· ≠ 0)).map fun l => 2 ^ (32 - l)).sum = total := hsum ..
  have hroom : 2 ^ width.toNat + subRoom width.toNat (lens.map (·.toNat)) = room := congrArg _ (hsum ..)
  have hcases := codesOf_cases h32'
  rw [htotal] at hcases
  rcases hcases with ⟨hlt, hnone⟩ | ⟨hle, cs, hcs⟩
  · refine ⟨fun _ => ⟨_, exec_hufMake_over hs hn hl hnone, ?_⟩, fun h => ?_, fun h => ?_⟩
    · rw [get_erased, if_pos rfl]
    all_goals omega
  · have hbuilds : Builds s t ok width num cs _ _ := .make hl hcs.run
    have hkraft : kraft cs = total := hcs.kraft.trans htotal
    have hplaced := placeCodes_cases (order := s.brCfg.order) hcs.fits hcs.prefixFree hpos hw hcs.nodup
    rw [hcs.subRoom, hroom] at hplaced
    refine ⟨fun h => absurd hle (Nat.not_le.2 h), fun hunder hok => ?incomplete, fun h => ?complete⟩
    case incomplete =>
      subst hok
      rcases hplaced with ⟨es, hp, -⟩ | ⟨hp, hfull⟩
      · exact ⟨_, _, exec_of_build_error hs hn hbuilds (build_incomplete hp (hkraft ▸ hunder)),
          by rw [get_erased, if_pos rfl], .inl rfl⟩
      · exact ⟨_, _, exec_of_build_error hs hn hbuilds (build_of_error hp), by rw [get_erased, if_pos rfl],
          .inr ⟨rfl, hfull⟩⟩
    case complete =>
      rcases hplaced with ⟨es, hp, hlength⟩ | ⟨hp, hfull⟩
      · have hbuild : build cs width.toNat s.brCfg.order ok = .ok es :=
          build_ok.2 ⟨hp, hkraft.trans_le hle, by rw [hkraft]; exact h.imp_right (·.2)⟩
        have hlengths := build_length hbuild hw
        exact .inl ⟨_, builtTable s .canonical width es, exec_of_build_ok hs hn hbuilds hbuild,
          by rw [get_written, if_pos rfl], rfl, rfl, rfl, hlengths.1, hlengths.2, hlength⟩
      · exact .inr ⟨hfull, _, exec_of_build_error hs hn hbuilds (build_of_error hp), by rw [get_erased, if_pos rfl]⟩

/-! ## `HUF.DECODE` after a construction (42_huffman.md R143) -/

section
variable {s u : State} {t : Byte} {ok : Bool} {width : BitVec 5} {num : Word} {cs : List Code} {i : Instr}
  {mode : TableMode} {es : List Entry}

theorem commandBody_of_refused (h : Builds s t ok width num cs i mode) (hn : makeRefused t width num 1024 s = true) :
    commandBody i s = .illegal := by
  cases h with
  | make => exact hufMake_refused ok (.inl (makeRefused_iff.1 hn))
  | fixed => exact hufFixed_refused ok (.inl (makeRefused_iff.1 hn))

/-- A construction that reports `STATUS = 0` was not refused and has built its table. -/
theorem built_of_status_ok {r : Response} (hs : s.fsm = .unvalidated) (h : Builds s t ok width num cs i mode)
    (hrun : exec i s = .next u) (hr : u.rsp = some r) (hok : r.status = .ok) :
    ¬ makeRefused t width num 1024 s = true ∧ ∃ es, build cs width.toNat s.brCfg.order ok = .ok es
      ∧ u = State.returned { s with ht := Memory.set s.ht t.toNat (builtTable s mode width es) }
        (BitVec.ofNat 32 es.length) := by
  by_cases hn : makeRefused t width num 1024 s = true
  · rw [exec_eq_hostCommand, hostCommand_of_illegal (commandBody_of_refused h hn)] at hrun
    obtain rfl := Host.Outcome.next.inj hrun
    obtain rfl := Option.some.inj hr
    cases hok
  · refine ⟨hn, ?_⟩
    cases hb : build cs width.toNat s.brCfg.order ok with
    | ok es =>
      rw [exec_of_build_ok hs hn h hb] at hrun
      exact ⟨es, rfl, (Host.Outcome.next.inj hrun).symm⟩
    | error c =>
      rw [exec_of_build_error hs hn h hb] at hrun
      obtain rfl := Host.Outcome.next.inj hrun
      obtain rfl := Option.some.inj hr
      cases hok

/-- With 48 bits to come no lookup in a table up to 16 bits wide runs out of them. -/
theorem not_runsOut {table : Table} {bits : List Bool} (hw : table.w.toNat ≤ 16) (hbits : 48 ≤ bits.length) :
    ¬ table.RunsOut bits := by
  rintro (⟨hlt, -⟩ | ⟨b, sw, -, hlt, -⟩)
  · omega
  · have := sw.isLt
    rw [List.length_drop] at hlt
    omega

/-- Decoding from a table that was built finds the codes of its list and no others. -/
theorem decodesAs_of_built (hs : s.fsm = .unvalidated) (hn : ¬ makeRefused t width num 1024 s = true)
    (hm : mode ≠ .adaptive) (hfits : ∀ c ∈ cs, c.Fits) (hvalues : ∀ c ∈ cs, c.value < 2 ^ 16)
    (hb : build cs width.toNat s.brCfg.order ok = .ok es) :
    (State.returned { s with ht := Memory.set s.ht t.toNat (builtTable s mode width es) }
      (BitVec.ofNat 32 es.length)).DecodesAs t cs := by
  rw [makeRefused_iff] at hn
  have hw : width.toNat ≤ 16 := by omega
  have hv : s.brCfg.valid = true := by
    cases hv : s.brCfg.valid
    · exact absurd hv (by tauto)
    · rfl
  have hplaced := placed_of_build hfits (by omega) hw hb
  generalize hu : State.returned { s with ht := Memory.set s.ht t.toNat (builtTable s mode width es) } _ = u
  have hfsm : u.fsm = .unvalidated := by rw [← hu]; exact hs
  have hcfg : u.brCfg = s.brCfg := by rw [← hu]; rfl
  have hget : Memory.get u.ht t.toNat = some (builtTable s mode width es) := by
    rw [← hu]
    exact (get_written ..).trans (if_pos rfl)
  have hd : hufDecode t u = decodeSymbol (builtTable s mode width es) u :=
    hufDecode_built (by omega) hget (hcfg ▸ hv) (hcfg ▸ rfl) hm
  refine ⟨fun c hc hp => ?_, fun hbits hnone => ?_⟩
  · have hvalue : (BitVec.ofNat 16 c.value).setWidth 32 = BitVec.ofNat 32 c.value := by
      have := hvalues c hc
      apply BitVec.eq_of_toNat_eq
      rw [BitVec.toNat_setWidth, BitVec.toNat_ofNat, BitVec.toNat_ofNat, Nat.mod_eq_of_lt this]
    rw [← hvalue]
    exact exec_hufDecode_of_decodes hfsm hd
      (Placed.decodes (t := builtTable s mode width es) hplaced hfits (List.mem_reverse.2 hc) hp)
  · rcases decodeSymbol_cases (builtTable s mode width es) u with ⟨k, v, -, hdecodes, -⟩ | ⟨hunmapped, -⟩ | ⟨hout, -⟩
    · obtain ⟨c, hc, hp⟩ := Placed.code_of_decodes (t := builtTable s mode width es) hplaced hfits hdecodes
      exact absurd hp (hnone c (List.mem_reverse.1 hc))
    · exact exec_hufDecode_of_unmapped hfsm hd hunmapped
    · exact absurd hout (not_runsOut hw hbits)

end

/-- Settles O37: a construction that succeeds has placed the codes of its list, and nothing else is found. -/
theorem decodeFindsTheCodesOfItsList : Obligations.DecodeFindsTheCodesOfItsList := by
  intro s u t ok width num cs r hs hr hok
  refine ⟨fun hrun lens hl h32 hc => ?make, fun hrun ts hts hall hc => ?fixed⟩
  case make =>
    have hcs := codesOf_of_run (by simpa using h32) hc
    obtain ⟨hn, es, hb, rfl⟩ := built_of_status_ok hs (.make hl hc) hrun hr hok
    refine decodesAs_of_built hs hn nofun hcs.fits (fun c hc => ?_) hb
    have hvalue := hcs.values c hc
    rw [List.length_map, (Memory.prefixOf_eq_some hl).1] at hvalue
    rw [makeRefused_iff] at hn
    omega
  case fixed =>
    obtain ⟨hn, es, hb, rfl⟩ := built_of_status_ok hs (.fixed hts hc) hrun hr hok
    subst hc
    refine decodesAs_of_built hs hn nofun (fun c hc => ?_) (fun c hc => ?_) hb
    all_goals obtain ⟨x, hx, rfl⟩ := List.mem_map.1 hc
    · obtain ⟨hpos, hle, hlt⟩ := hall x hx
      exact ⟨hpos, hle, hlt⟩
    · exact x.value.isLt

end Sys2Proof.Machine
end
